-- ==== Sys2Proof/Word.lean ====
section
/-! DEFINITION. The word types of the IOMMU (spec 00_scope.md R9, R10): bytes, words, doublewords, commands. -/

namespace Sys2Proof

/-- A byte of memory. -/
abbrev Byte := BitVec 8

/-- A doubleword: 8 bytes (R9); also an address as the IOMMU carries it (R10: "carried as 64 bits"). -/
abbrev DWord := BitVec 64

/-- A command: two doublewords, `dw0` in bits 63:0 and `dw1` in bits 127:64 (R380). -/
abbrev CommandWord := BitVec 128

/-- Main memory as data: (address, byte) pairs; the form is `Memory.wf` in Machine/Ops.lean. -/
abbrev Memory := List Host.Cell

end Sys2Proof
end

