-- ==== Sys2Proof/Config.lean ====
section
/-! DEFINITION. What an implementation fixes (spec 00_scope.md R8: one configuration record) and the free values the
spec leaves open. `Cfg` is a field of the machine's State that no step changes, so a statement about every state holds
for every configuration (log 1). -/

namespace Sys2Proof

/-- Interrupt generation support, `capabilities.IGS` (R34). Value 3 is reserved. -/
inductive Igs where
  | msi
  | wsi
  | both
deriving DecidableEq, Repr

/-- `Cfg.custom`: the custom uses the implementation defines (R8, R65, U36). The spec gives no effect of any, so `none`, no
custom use, is the only value of this type (log 31). -/
inductive CustomUse where
  | none
deriving DecidableEq, Repr

/-- The configuration record of R8. -/
structure Cfg where
  version : BitVec 8
  sv32 : Bool
  sv39 : Bool
  sv48 : Bool
  sv57 : Bool
  svrsw60t59b : Bool
  svpbmt : Bool
  sv32x4 : Bool
  sv39x4 : Bool
  sv48x4 : Bool
  sv57x4 : Bool
  amoMrif : Bool
  msiFlat : Bool
  msiMrif : Bool
  amoHwad : Bool
  ats : Bool
  t2gpa : Bool
  endBoth : Bool
  igs : Igs
  hpm : Bool
  dbg : Bool
  /-- physical address size in bits, `capabilities.PAS` -/
  pas : Nat
  pd8 : Bool
  pd17 : Bool
  pd20 : Bool
  qosid : Bool
  nl : Bool
  /-- address range invalidation, `capabilities.S` -/
  rangeInval : Bool
  capCustom : BitVec 8
  beFixed : Bool
  gxlWritable : Bool
  gxlFixed : Bool
  /-- width of the device_id the IO bridge supplies (R272); log 38 -/
  didWidth : Nat
  /-- the legal directory modes, `Cfg.ddt_modes` -/
  ddt1 : Bool
  ddt2 : Bool
  ddt3 : Bool
  /-- `Cfg.reset_mode` is Bare (else Off) -/
  resetBare : Bool
  cqLog2szMax : Nat
  fqLog2szMax : Nat
  pqLog2szMax : Nat
  hpmCounters : Nat
  hpmWidth : Nat
  hpmEvents : List Nat
  gscidWidth : Nat
  pscidWidth : Nat
  rcidWidth : Nat
  mcidWidth : Nat
  nVectors : Nat
  /-- single-copy atomic size in bytes: a larger implicit access is made in units of this size (R215, R221) -/
  atomicSize : Nat
  /-- the timeout of an outstanding ATS.INVAL, in IOMMU clock cycles (R463, U33; the unit is the model's, log 23) -/
  atsInvalTimeout : Nat
  custom : CustomUse
  /-- `Cfg.bare_translation_size` as log2 of a number of 4-KiB pages (R312) -/
  bareSpan : Nat
  /-- largest size `tr_response` reports, as log2 of a number of 4-KiB pages (R540, U24) -/
  debugSpanMax : Nat
  priAutoResponse : Bool
  regBase : DWord
  checkAddrWidthEarly : Bool
  reportsCorruption : Bool
deriving DecidableEq, Repr

/-- The reference configuration of 92_eei_decisions.md D2, section 2. -/
def Cfg.reference : Cfg where
  version := 0x10#8
  sv32 := false
  sv39 := true
  sv48 := true
  sv57 := false
  svrsw60t59b := false
  svpbmt := true
  sv32x4 := false
  sv39x4 := true
  sv48x4 := true
  sv57x4 := false
  amoMrif := true
  msiFlat := true
  msiMrif := true
  amoHwad := true
  ats := true
  t2gpa := true
  endBoth := false
  igs := .both
  hpm := true
  dbg := true
  pas := 56
  pd8 := true
  pd17 := true
  pd20 := true
  qosid := true
  nl := true
  rangeInval := true
  capCustom := 0#8
  beFixed := false
  gxlWritable := false
  gxlFixed := false
  didWidth := 24
  ddt1 := true
  ddt2 := true
  ddt3 := true
  resetBare := false
  cqLog2szMax := 32
  fqLog2szMax := 32
  pqLog2szMax := 32
  hpmCounters := 31
  hpmWidth := 64
  hpmEvents := [0, 1, 2, 3, 4, 5, 6, 7, 8]
  gscidWidth := 16
  pscidWidth := 20
  rcidWidth := 12
  mcidWidth := 12
  nVectors := 16
  atomicSize := 8
  atsInvalTimeout := 0
  custom := .none
  bareSpan := 0
  debugSpanMax := 0
  priAutoResponse := true
  regBase := 0x10000000#64
  checkAddrWidthEarly := false
  reportsCorruption := true

/-- A free choice the spec leaves to the implementation (log 7): which of several allowed behaviours the `n`-th open
choice takes. It has no body: nothing can be proved of its value. -/
opaque Config.freeChoice : Nat → Nat

/-- A free value (log 7): the `n`-th value the spec calls UNSPECIFIED while the machine goes on. It has no body. -/
opaque Config.freeValue : Nat → DWord

end Sys2Proof
end

