-- ==== Sys2Proof/Syntax.lean ====
section
/-! DEFINITION. The seven commands of the command queue (spec 30_encoding.md R382, R383, R388 to R391): the
"instructions" of this hardware (R15). One constructor for each row of spec/opcode_table.json. -/

namespace Sys2Proof

/-- A command with its operands, each at its encoded width. -/
inductive Instr where
  /-- IOTINVAL.VMA (R411). `addr` is ADDR[63:12], `sBit` the range-size bit S. -/
  | iotinvalVma (av pscv gv nl sBit : Bool) (pscid : BitVec 20) (gscid : BitVec 16) (addr : BitVec 52)
  /-- IOTINVAL.GVMA (R412). The operands of its format (R388); PSCV must be 0. -/
  | iotinvalGvma (av pscv gv nl sBit : Bool) (pscid : BitVec 20) (gscid : BitVec 16) (addr : BitVec 52)
  /-- IOFENCE.C (R430). `addr` is ADDR[63:2]. -/
  | iofenceC (av wsi pr pw : Bool) (data : BitVec 32) (addr : BitVec 62)
  /-- IODIR.INVAL_DDT (R446). PID is reserved and must be 0. -/
  | iodirInvalDdt (dv : Bool) (pid : BitVec 20) (did : BitVec 24)
  /-- IODIR.INVAL_PDT (R447). DV must be 1. -/
  | iodirInvalPdt (dv : Bool) (pid : BitVec 20) (did : BitVec 24)
  /-- ATS.INVAL (R461). -/
  | atsInval (pv dsv : Bool) (pid : BitVec 20) (rid : BitVec 16) (dseg : BitVec 8) (payload : DWord)
  /-- ATS.PRGR (R465). -/
  | atsPrgr (pv dsv : Bool) (pid : BitVec 20) (rid : BitVec 16) (dseg : BitVec 8) (payload : DWord)
deriving DecidableEq, Repr

end Sys2Proof
end

