-- ==== Sys2Proof/WellFormed.lean ====
section
/-! DEFINITION. The checks on a command that need no machine state (spec 30_encoding.md R387 items 5, 9, 10), and the
constraints of R8 and R35 on a configuration. The items of R387 that read `capabilities`, `fctl` or `ddtp` are in
Machine/Operands.lean. -/

namespace Sys2Proof

/-- R387 items 5, 9, 10: IOTINVAL.GVMA has PSCV = 0; IODIR.INVAL_DDT has PID = 0; IODIR.INVAL_PDT has DV = 1. -/
def Instr.wellFormed : Instr → Bool
  | .iotinvalVma _ _ _ _ _ _ _ _ => true
  | .iotinvalGvma _ pscv _ _ _ _ _ _ => !pscv
  | .iofenceC _ _ _ _ _ _ => true
  | .iodirInvalDdt _ pid _ => pid == 0#20
  | .iodirInvalPdt dv _ _ => dv
  | .atsInval _ _ _ _ _ _ => true
  | .atsPrgr _ _ _ _ _ _ => true

/-- The constraints R8 and R35 put on a configuration. -/
def Cfg.wellFormed (c : Cfg) : Bool :=
  (!c.sv48 || c.sv39) && (!c.sv57 || c.sv48)
  && decide (32 ≤ c.pas) && decide (c.pas ≤ 56)
  && decide (1 ≤ c.didWidth) && decide (c.didWidth ≤ 24)
  && (c.ddt1 || c.ddt2 || c.ddt3)
  && decide (1 ≤ c.cqLog2szMax) && decide (c.cqLog2szMax ≤ 32)
  && decide (1 ≤ c.fqLog2szMax) && decide (c.fqLog2szMax ≤ 32)
  && decide (1 ≤ c.pqLog2szMax) && decide (c.pqLog2szMax ≤ 32)
  && decide (c.hpmCounters ≤ 31) && (!c.hpm || decide (1 ≤ c.hpmCounters))
  && decide (32 ≤ c.hpmWidth) && decide (c.hpmWidth ≤ 64)
  && decide (c.gscidWidth ≤ 16) && decide (c.pscidWidth ≤ 20)
  && decide (c.rcidWidth ≤ 12) && decide (c.mcidWidth ≤ 12)
  && decide (1 ≤ c.nVectors) && decide (c.nVectors ≤ 16)
  && decide (4 ≤ c.atomicSize)
  && (c.regBase.extractLsb' 0 12 == 0#12)

end Sys2Proof
end

