-- ==== Sys2Proof/Decode.lean ====
section
/-! DEFINITION. The binary format of a command (spec 30_encoding.md R380 to R395): byte order of doublewords (R203),
the decoder, the encoder, and `decodeTableWord` for spec/opcode_table.json. The decoder refuses the reserved encodings
and reserved bits (R387 items 1 to 4); the conditions of R387 that depend on an operand's value or on the machine's
state (items 5 to 13) are `isIllegal` in Machine/Operands.lean. -/

namespace Sys2Proof

/-- The number whose bytes are `bs`, lowest address first, little-endian (R203 with `be = 0`). -/
def ofBytesLE : List Byte → Nat
  | [] => 0
  | b :: bs => b.toNat + 256 * ofBytesLE bs

/-- The `n` low bytes of `v`, little-endian. -/
def toBytesLE : Nat → Nat → List Byte
  | 0, _ => []
  | n + 1, v => BitVec.ofNat 8 v :: toBytesLE n (v / 256)

/-- The number a structure's bytes hold in byte order `be` (R203: big-endian when `be`). -/
def ofBytes (be : Bool) (bs : List Byte) : Nat :=
  ofBytesLE (if be then bs.reverse else bs)

/-- The `n` bytes of `v` in byte order `be`, lowest address first; the inverse of `ofBytes` (R203). -/
def toBytes (be : Bool) (n v : Nat) : List Byte :=
  if be then (toBytesLE n v).reverse else toBytesLE n v

/-- The doubleword at byte offset `off` of a structure read from memory (`MemReadDW`, R203). -/
def dwordAt (be : Bool) (bs : List Byte) (off : Nat) : DWord :=
  BitVec.ofNat 64 (ofBytes be ((bs.drop off).take 8))

/-- The bytes of a sequence of doublewords, doubleword 0 at the lowest address whatever the byte order (R203, R380). -/
def dwordsBytes (be : Bool) : List DWord → List Byte
  | [] => []
  | d :: ds => toBytes be 8 d.toNat ++ dwordsBytes be ds

/-- Reserved bits of IOTINVAL (R388): 127:126, 72:64, 63:60, 43:35, 11. -/
def iotinvalReserved : CommandWord := 0xC0000000000001FFF0000FF800000800#128

/-- Reserved bits of IOFENCE (R389): 127:126, 31:14. -/
def iofenceReserved : CommandWord := 0xC00000000000000000000000FFFFC000#128

/-- Reserved bits of IODIR (R390): 127:64, 39:34, 32, 11:10. -/
def iodirReserved : CommandWord := 0xFFFFFFFFFFFFFFFF000000FD00000C00#128

/-- Reserved bits of ATS (R391): 39:34, 11:10. -/
def atsReserved : CommandWord := 0x0000000000000000000000FC00000C00#128

/-- `func3` and `opcode` together: bits 9:0 (R381). -/
def opField (w : CommandWord) : BitVec 10 := w.extractLsb' 0 10

/-- R394 with R387 items 1 to 4: the command a word encodes, or none for a reserved (or undefined custom) encoding or a
set reserved bit. -/
def decode (w : CommandWord) : Option Instr :=
  if opField w = 0x001#10 then
    if w &&& iotinvalReserved = 0#128 then
      some (.iotinvalVma (w.getLsbD 10) (w.getLsbD 32) (w.getLsbD 33) (w.getLsbD 34) (w.getLsbD 73)
        (w.extractLsb' 12 20) (w.extractLsb' 44 16) (w.extractLsb' 74 52))
    else none
  else if opField w = 0x081#10 then
    if w &&& iotinvalReserved = 0#128 then
      some (.iotinvalGvma (w.getLsbD 10) (w.getLsbD 32) (w.getLsbD 33) (w.getLsbD 34) (w.getLsbD 73)
        (w.extractLsb' 12 20) (w.extractLsb' 44 16) (w.extractLsb' 74 52))
    else none
  else if opField w = 0x002#10 then
    if w &&& iofenceReserved = 0#128 then
      some (.iofenceC (w.getLsbD 10) (w.getLsbD 11) (w.getLsbD 12) (w.getLsbD 13)
        (w.extractLsb' 32 32) (w.extractLsb' 64 62))
    else none
  else if opField w = 0x003#10 then
    if w &&& iodirReserved = 0#128 then
      some (.iodirInvalDdt (w.getLsbD 33) (w.extractLsb' 12 20) (w.extractLsb' 40 24))
    else none
  else if opField w = 0x083#10 then
    if w &&& iodirReserved = 0#128 then
      some (.iodirInvalPdt (w.getLsbD 33) (w.extractLsb' 12 20) (w.extractLsb' 40 24))
    else none
  else if opField w = 0x004#10 then
    if w &&& atsReserved = 0#128 then
      some (.atsInval (w.getLsbD 32) (w.getLsbD 33) (w.extractLsb' 12 20) (w.extractLsb' 40 16)
        (w.extractLsb' 56 8) (w.extractLsb' 64 64))
    else none
  else if opField w = 0x084#10 then
    if w &&& atsReserved = 0#128 then
      some (.atsPrgr (w.getLsbD 32) (w.getLsbD 33) (w.extractLsb' 12 20) (w.extractLsb' 40 16)
        (w.extractLsb' 56 8) (w.extractLsb' 64 64))
    else none
  else none

/-- One bit as a bit vector. -/
def bit (b : Bool) : BitVec 1 := BitVec.ofBool b

/-- The IOTINVAL layout of R388, from bit 127 down. -/
def encodeIotinval (op : BitVec 10) (av pscv gv nl sBit : Bool) (pscid : BitVec 20) (gscid : BitVec 16)
    (addr : BitVec 52) : CommandWord :=
  0#2 ++ addr ++ bit sBit ++ 0#9 ++ 0#4 ++ gscid ++ 0#9 ++ bit nl ++ bit gv ++ bit pscv ++ pscid ++ 0#1 ++ bit av ++ op

/-- The IODIR layout of R390, from bit 127 down. -/
def encodeIodir (op : BitVec 10) (dv : Bool) (pid : BitVec 20) (did : BitVec 24) : CommandWord :=
  0#64 ++ did ++ 0#6 ++ bit dv ++ 0#1 ++ pid ++ 0#2 ++ op

/-- The ATS layout of R391, from bit 127 down. -/
def encodeAts (op : BitVec 10) (pv dsv : Bool) (pid : BitVec 20) (rid : BitVec 16) (dseg : BitVec 8)
    (payload : DWord) : CommandWord :=
  payload ++ dseg ++ rid ++ 0#6 ++ bit dsv ++ bit pv ++ pid ++ 0#2 ++ op

/-- The word of a command, from the layouts of R388 to R391. -/
def encode : Instr → CommandWord
  | .iotinvalVma av pscv gv nl sBit pscid gscid addr =>
    encodeIotinval 0x001#10 av pscv gv nl sBit pscid gscid addr
  | .iotinvalGvma av pscv gv nl sBit pscid gscid addr =>
    encodeIotinval 0x081#10 av pscv gv nl sBit pscid gscid addr
  | .iofenceC av wsi pr pw data addr =>
    0#2 ++ addr ++ data ++ 0#18 ++ bit pw ++ bit pr ++ bit wsi ++ bit av ++ 0x002#10
  | .iodirInvalDdt dv pid did => encodeIodir 0x003#10 dv pid did
  | .iodirInvalPdt dv pid did => encodeIodir 0x083#10 dv pid did
  | .atsInval pv dsv pid rid dseg payload => encodeAts 0x004#10 pv dsv pid rid dseg payload
  | .atsPrgr pv dsv pid rid dseg payload => encodeAts 0x084#10 pv dsv pid rid dseg payload

/-- The command word in 16 bytes of the command queue: two doublewords in byte order `be` (R380, R481). -/
def commandOfBytes (be : Bool) (bs : List Byte) : CommandWord :=
  dwordAt be bs 8 ++ dwordAt be bs 0

/-- The 16 bytes of a command word in byte order `be`. -/
def commandBytes (be : Bool) (w : CommandWord) : List Byte :=
  dwordsBytes be [w.extractLsb' 0 64, w.extractLsb' 64 64]

/-- What the decoder reads from 16 bytes of the command queue. -/
def decodeBytes (be : Bool) (bs : List Byte) : Option Instr :=
  decode (commandOfBytes be bs)

/-- The command word the opcode table's numbering gives: bit 0 is the least significant bit of `dw0`, bit 64 of `dw1`;
the bits above `nbits` are 0. -/
def tableWord (nbits w : Nat) : CommandWord := BitVec.ofNat 128 (w % 2 ^ nbits)

/-- What the decoder reads from a row's word, laid out in memory as the hardware stores it (little-endian). -/
def decodeTableWord (nbits w : Nat) : Option Instr :=
  decodeBytes false (commandBytes false (tableWord nbits w))

end Sys2Proof
end

