-- ==== Sys2Proof/Machine/State.lean ====
section
/-! DEFINITION. The machine's state (spec 10_state.md; INVENTORY.md lists every field with its rule and reset value),
its inputs and outputs, and the state after reset (R70, R71, R660, R661). State is plain data. A register is kept as
its fields; reserved, custom and absent bits are not state, since they read 0 and ignore writes (R36, R65, U35, U36). -/

namespace Sys2Proof.Machine

/-! ### Registers -/

/-- Legal values of `ddtp.iommu_mode` (R38); 5 to 15 are reserved or custom and never stored (WARL, D3). -/
inductive IommuMode where
  | off
  | bare
  | lvl1
  | lvl2
  | lvl3
deriving DecidableEq, Repr

/-- `fctl` (R36). -/
structure Fctl where
  be : Bool
  wsi : Bool
  gxl : Bool
deriving DecidableEq, Repr

/-- `ddtp` (R38). -/
structure Ddtp where
  mode : IommuMode
  busy : Bool
  ppn : BitVec 44
deriving DecidableEq, Repr

/-- `cqb`, `fqb`, `pqb` (R40, R43, R46): `log2szm1` is the field LOG2SZ-1. -/
structure QBase where
  log2szm1 : BitVec 5
  ppn : BitVec 44
deriving DecidableEq, Repr

/-- `cqcsr` (R50). -/
structure Cqcsr where
  cqen : Bool
  cie : Bool
  cqmf : Bool
  cmdTo : Bool
  cmdIll : Bool
  fenceWIp : Bool
  cqon : Bool
  busy : Bool
deriving DecidableEq, Repr

/-- `fqcsr` (R51) and `pqcsr` (R52), which have one shape (R49): `mf` is fqmf or pqmf, `ovf` is fqof or pqof. -/
structure OutCsr where
  en : Bool
  ie : Bool
  mf : Bool
  ovf : Bool
  on : Bool
  busy : Bool
deriving DecidableEq, Repr

/-- `ipsr` (R53). -/
structure Ipsr where
  cip : Bool
  fip : Bool
  pmip : Bool
  pip : Bool
deriving DecidableEq, Repr

/-- `iohpmcycles` (R56). -/
structure HpmCycles where
  counter : BitVec 63
  ovf : Bool
deriving DecidableEq, Repr

/-- `iohpmevtN` (R58). -/
structure HpmEvt where
  eventId : BitVec 15
  dmask : Bool
  pidPscid : BitVec 20
  didGscid : BitVec 24
  pvPscv : Bool
  dvGscv : Bool
  idt : Bool
  ovf : Bool
deriving DecidableEq, Repr

/-- `tr_req_ctl` (R60). -/
structure TrReqCtl where
  goBusy : Bool
  priv : Bool
  exe : Bool
  nw : Bool
  pid : BitVec 20
  pv : Bool
  did : BitVec 24
deriving DecidableEq, Repr

/-- QoS identifiers: `iommu_qosid` (R62), and the label an access carries (R219). -/
structure Qos where
  rcid : BitVec 12
  mcid : BitVec 12
deriving DecidableEq, Repr

/-- `icvec` (R63). -/
structure Icvec where
  civ : BitVec 4
  fiv : BitVec 4
  pmiv : BitVec 4
  piv : BitVec 4
deriving DecidableEq, Repr

/-- One entry of `msi_cfg_tbl` (R64): `addr` is ADDR, bits 55:2 of `msi_addr_x`. -/
structure MsiEntry where
  addr : BitVec 54
  data : BitVec 32
  m : Bool
deriving DecidableEq, Repr

/-! ### Requests and messages from devices (R261, R262, R360, R368) -/

/-- Transaction types (R262). Page Requests, type 9, are a structure of their own. -/
inductive Ttyp where
  | untransExec
  | untransRead
  | untransWrite
  | transExec
  | transRead
  | transWrite
  | atsRequest
deriving DecidableEq, Repr

/-- A request on the Device Translation Request interface or the ATS interface (R261). `len` is the number of bytes of a
read, `data` the bytes of a write: the translation does not look at them, the device's own access does (log 28), and so
does the store of an MSI into an MRIF (R172; log 11). `internalError` is `Platform.internal_error(req)` (R568). -/
structure Request where
  tag : Nat
  did : BitVec 24
  pidValid : Bool
  pid : BitVec 20
  supervisor : Bool
  iova : DWord
  ttyp : Ttyp
  len : Nat
  data : List Byte
  exe : Bool
  nw : Bool
  isCxl : Bool
  internalError : Bool
deriving DecidableEq, Repr

/-- A PCIe "Page Request" or "Stop Marker" message (R360, R368). No message has the input `Platform.internal_error` of a
request: the spec does not say whether it can hit one (R568; DESIGN CHOICE, log 49). -/
structure PageRequest where
  did : BitVec 24
  pasidValid : Bool
  pasid : BitVec 20
  priv : Bool
  exec : Bool
  r : Bool
  w : Bool
  l : Bool
  prgi : BitVec 9
  page : BitVec 52
deriving DecidableEq, Repr

/-! ### Outputs -/

/-- The three values of an MRIF-mode MSI translation (R322 step 14, R324). -/
structure MrifInfo where
  mrifAddr : DWord
  noticeAddr : DWord
  noticeData : BitVec 32
deriving DecidableEq, Repr

/-- A successful completion on the Device Translation Completion interface (R260, R263). `span` is log2 of the number of
4-KiB pages of the translation (R312). -/
structure Success where
  spa : DWord
  span : Nat
  r : Bool
  w : Bool
  x : Bool
  pbmt : BitVec 2
  qos : Qos
  mrif : Option MrifInfo
deriving DecidableEq, Repr

/-- A Success response to an ATS Translation Request (R346 to R351). It carries no RCID and MCID: R155 gives them to the IO
bridge 'on successful address translations', R263 on the Device Translation Completion interface alone (DESIGN CHOICE,
log 27). -/
structure AtsSuccess where
  addr : DWord
  span : Nat
  r : Bool
  w : Bool
  x : Bool
  /-- the U bit, "Untranslated access only" (R349) -/
  uOnly : Bool
  priv : Bool
  n : Bool
  global : Bool
  cxlIo : Bool
  ama : BitVec 3
  /-- RCID and MCID of `DC.ta`, for the IO bridge (R219, R260, R263); none where no translation was completed (R346; log 27) -/
  qos : Option Qos
deriving DecidableEq, Repr

/-- The response to an ATS Translation Request (R344 to R346). -/
inductive AtsResponse where
  | completerAbort
  | unsupportedRequest
  | success (c : AtsSuccess)
deriving DecidableEq, Repr

/-- Status of a Page Request Group Response the IOMMU generates (R362). -/
inductive PrgStatus where
  | success
  | invalidRequest
  | responseFailure
deriving DecidableEq, Repr

/-- A PCIe message the IOMMU sends for a command (R461, R465): `segment` is DSEG if DSV, `pasid` is PID if PV. -/
structure AtsMessage where
  segment : Option (BitVec 8)
  rid : BitVec 16
  pasid : Option (BitVec 20)
  payload : DWord
deriving DecidableEq, Repr

/-- What the IOMMU says to the outside. Wires are `State.wire`. -/
inductive Output where
  /-- data of a hart's read (R510, or memory) -/
  | readData (v : DWord)
  /-- what a device's read returns when the read becomes globally visible (R433) -/
  | deviceRead (tag : Nat) (bytes : List Byte)
  /-- a completed translation (R263) -/
  | completion (tag : Nat) (c : Success)
  /-- the IO bridge is asked to abort (R566); `data` is what an aborted read returns -/
  | abort (tag : Nat) (data : DWord)
  /-- the response to an ATS Translation Request -/
  | ats (tag : Nat) (r : AtsResponse)
  /-- an "Invalidation Request" message (R461), numbered `itag` -/
  | invalidationRequest (itag : Nat) (m : AtsMessage)
  /-- the "Page Request Group Response" of an ATS.PRGR command (R465) -/
  | prgResponse (m : AtsMessage)
  /-- a "Page Request Group Response" the IOMMU generates itself (R362, R363) -/
  | prgAuto (did : BitVec 24) (prgi : BitVec 9) (pasid : Option (BitVec 20)) (status : PrgStatus)
  /-- an interrupt message has been written (R593) -/
  | msi (addr : DWord) (data : BitVec 32)
  /-- an MSI was stored in an MRIF and its notice MSI written (R172) -/
  | noticeMsi (addr : DWord) (data : BitVec 32)
deriving DecidableEq, Repr

/-! ### Inputs -/

/-- An access to main memory by a hart or a device that falls between two implicit accesses of the IOMMU (R221, D14). -/
inductive MemAccess where
  /-- a hart's read -/
  | read (addr : DWord) (size : Nat)
  /-- a hart's write -/
  | write (addr : DWord) (bytes : List Byte)
  /-- a device's write through the IO bridge (R222) -/
  | deviceWrite (addr : DWord) (bytes : List Byte)
  /-- the read or write of a device, whose translation is done, that becomes globally visible (R433) -/
  | commit (tag : Nat)
deriving DecidableEq, Repr

/-- What can happen to the machine from outside, or at its own unscheduled moments (log 4). -/
inductive Event where
  /-- a hart reads `size` bytes: the register page or memory (R510) -/
  | hartRead (addr : DWord) (size : Nat)
  /-- a hart's 8-byte register read that the IOMMU makes as two 4-byte reads: the first half (R521, R632, U31) -/
  | hartReadFirst (hart : Nat) (addr : DWord) (lowFirst : Bool)
  /-- the second half of that hart's read -/
  | hartReadSecond (hart : Nat)
  /-- a hart writes `size` bytes; an 8-byte register write is split, low half first if `lowFirst` (R521, U31) -/
  | hartWrite (addr : DWord) (size : Nat) (value : DWord) (lowFirst : Bool)
  /-- a device writes memory through the IO bridge (R222) -/
  | dmaWrite (addr : DWord) (bytes : List Byte)
  /-- a request on the translation or ATS interface (R261, R341) -/
  | request (r : Request)
  /-- a "Page Request" or "Stop Marker" message (R360) -/
  | pageRequest (m : PageRequest)
  /-- an "Invalidation Completion" message from a device (R461) -/
  | invalCompletion (did : BitVec 24) (itag : Nat)
  /-- the protocol-defined timeout of an ATS.INVAL (R463) -/
  | invalTimeout (itag : Nat)
  /-- IOMMU clock cycles elapse (`Platform.cycles_elapsed`, R631) -/
  | cycles (n : Nat)
  /-- the IOATC drops an entry (R234 item c) -/
  | evict (n : Nat)
  /-- a processed device access becomes globally visible (R433) -/
  | busCommit (tag : Nat)
  /-- the command processor takes a turn before the rest of the inbox -/
  | cqTurn
  /-- the IOMMU is reset (R660) -/
  | reset
deriving DecidableEq, Repr

/-! ### The platform, the bus and the caches -/

/-- A range of supervisor physical addresses `lo .. hi-1` and the platform's verdict on accesses that touch it
(R207, D10; log 8): a refusal for each kind of access, of the sizes listed or, if none is listed, of every size. -/
structure PlatRegion where
  lo : Nat
  hi : Nat
  denyRead : Bool
  denyWrite : Bool
  denyAtomic : Bool
  sizes : List Nat
  poisoned : Bool
deriving DecidableEq, Repr

/-- The platform's inputs of D10 that are fixed for a run (R688). -/
structure Platform where
  regions : List PlatRegion
  /-- `Platform.abort_data`: what an aborted read returns to the device (R566, U25) -/
  abortData : DWord
deriving DecidableEq, Repr

/-- Kinds of implicit access (R207). -/
inductive AccessKind where
  | read
  | write
  | atomic
deriving DecidableEq, Repr

/-- One implicit access on the Data Structure interface, with its QoS label (R218, R219). -/
structure BusAccess where
  kind : AccessKind
  addr : Nat
  size : Nat
  qos : Qos
deriving DecidableEq, Repr

/-- A device context (R145): its doublewords. In base format the last four are 0. -/
structure DC where
  tc : DWord
  iohgatp : DWord
  ta : DWord
  fsc : DWord
  msiptp : DWord
  msiAddrMask : DWord
  msiAddrPattern : DWord
  rsvd : DWord
deriving DecidableEq, Repr

/-- A process context (R165). -/
structure PC where
  ta : DWord
  fsc : DWord
deriving DecidableEq, Repr

/-- A first-stage cache entry (R234 `S1`): `space` is none for a host address space (second stage Bare), else the GSCID.
`page` is a page number the entry maps and `span` log2 of the pages one entry at its level maps (R415); `gpath` says the
mapping is global. -/
structure S1Entry where
  space : Option (BitVec 16)
  pscid : BitVec 20
  level : Nat
  page : BitVec 52
  span : Nat
  pte : DWord
  gpath : Bool
deriving DecidableEq, Repr

/-- A second-stage cache entry (R234 `S2`). -/
structure S2Entry where
  gscid : BitVec 16
  level : Nat
  page : BitVec 52
  span : Nat
  pte : DWord
deriving DecidableEq, Repr

/-- A combined cache entry (R234 `S12`): an IOVA page mapped directly to an SPA page, with the tags of both stages.
`guestPage` is the guest page between them, `span` log2 of the pages the entry maps, `span1` that of the first-stage
leaf it is built of, by which IOTINVAL.VMA finds it (R411), and `guestSpan` that of the guest pages its second-stage
scheme has (SXL or not), outside which an ADDR of IOTINVAL.GVMA is not valid for it (R414). -/
structure S12Entry where
  gscid : BitVec 16
  pscid : BitVec 20
  page : BitVec 52
  guestPage : BitVec 52
  spaPage : BitVec 52
  span : Nat
  span1 : Nat
  guestSpan : Nat
  r : Bool
  w : Bool
  x : Bool
  u : Bool
  d : Bool
  gpath : Bool
  pbmt : BitVec 2
deriving DecidableEq, Repr

/-- The shapes of IOATC entries (R234). A cached DC, PC or PDT entry keeps its guest-physical pointers untranslated: the
second stage translates them at each use, one of the two ways R236 and R450 allow (DESIGN CHOICE, log 6). -/
inductive IoatcEntry where
  /-- a non-leaf DDT entry at `level`, for the device_ids that agree with `did` above bit `shift` -/
  | ddtNL (level : Nat) (shift : Nat) (did : BitVec 24) (ddte : DWord)
  | dc (did : BitVec 24) (dc : DC)
  /-- a non-leaf PDT entry of a device at `level`, for the process_ids that agree with `pid` above bit `shift` -/
  | pdtNL (did : BitVec 24) (level : Nat) (shift : Nat) (pid : BitVec 20) (pdte : DWord)
  | pc (did : BitVec 24) (pid : BitVec 20) (pc : PC)
  | s1 (e : S1Entry)
  | s2 (e : S2Entry)
  | msi (gscid : BitVec 16) (page : BitVec 52) (dw0 dw1 : DWord)
  | s12 (e : S12Entry)
deriving DecidableEq, Repr

/-- An ATS.INVAL sent and not yet completed (R461, R463): the command's index, its destination, its number, and the clock
cycles since it was sent. -/
structure OutstandingInval where
  index : BitVec 32
  segment : Option (BitVec 8)
  rid : BitVec 16
  itag : Nat
  age : Nat
deriving DecidableEq, Repr

/-- A device read whose translation has completed, and which is not yet committed to a global ordering point (R433). -/
structure PendingRead where
  tag : Nat
  addr : Nat
  len : Nat
deriving DecidableEq, Repr

/-- A device write whose translation has completed, and which is not yet committed (R433). -/
structure PendingWrite where
  tag : Nat
  addr : Nat
  data : List Byte
deriving DecidableEq, Repr

/-- A hart's 8-byte read of the register at offset `off` of which one half has been made (R521, U31). -/
structure HalfRead where
  hart : Nat
  off : Nat
  lowFirst : Bool
  half : BitVec 32
deriving DecidableEq, Repr

/-! ### State -/

/-- The whole machine. -/
structure State where
  cfg : Cfg
  plat : Platform
  fctl : Fctl
  ddtp : Ddtp
  cqb : QBase
  cqh : BitVec 32
  cqt : BitVec 32
  fqb : QBase
  fqh : BitVec 32
  fqt : BitVec 32
  pqb : QBase
  pqh : BitVec 32
  pqt : BitVec 32
  cqcsr : Cqcsr
  fqcsr : OutCsr
  pqcsr : OutCsr
  ipsr : Ipsr
  iocountinh : BitVec 32
  iohpmcycles : HpmCycles
  iohpmctr : Vector DWord 31
  iohpmevt : Vector HpmEvt 31
  trReqIova : BitVec 52
  trReqCtl : TrReqCtl
  trResponse : DWord
  qosid : Qos
  icvec : Icvec
  msiCfg : Vector MsiEntry 16
  ioatc : List IoatcEntry
  outstanding : List OutstandingInval
  timedOut : Bool
  fetched : Option Instr
  msiPending : Vector Bool 16
  uncommittedReads : List PendingRead
  uncommittedWrites : List PendingWrite
  mem : Memory
  halfReads : List HalfRead
  inbox : List Event
  others : List (List MemAccess)
  out : List Output
  bus : List BusAccess
  itag : Nat
  choices : List Nat
  freeCtr : Nat
  walked : Bool
deriving DecidableEq, Repr

/-- Why the machine stops. -/
inductive Fault where
  /-- Raised by a hart's access event whose bytes are neither in the register page nor inside the physical address space
  `0 .. 2^PAS - 1` (R35, R209): there is no memory there in the model. SAFE: the model stops where the platform would
  answer with a bus error of its own; no command, no device and no implicit access of the IOMMU raises it (log 32). -/
  | outsideMemory (addr : Nat)
deriving DecidableEq, Repr

/-- Why a command has no meaning. -/
inductive Refusal where
  /-- Raised by an arm of `exec` whose command has no meaning yet; no arm raises it now. SAFE: it stops the machine. -/
  | notModelled (mnemonic : String)
deriving DecidableEq, Repr

/-! ### Reset -/

/-- The value of an `OutCsr` after reset: en, ie, on, busy are 0 by R70; the error bits are UNSPECIFIED (log 2). -/
def OutCsr.reset : OutCsr := ⟨false, false, false, false, false, false⟩

/-- An event selector of all zeros (log 2). -/
def HpmEvt.zero : HpmEvt := ⟨0#15, false, 0#20, 0#24, false, false, false, false⟩

/-- The state after reset of the implementation `c` (R70, R71, R660, R661). Fields whose reset value the spec leaves
UNSPECIFIED hold 0 (DESIGN CHOICE, log 2), but that `iocountinh.CY` is 1, so that no interrupt can become pending, which
R71 asks (DESIGN CHOICE, log 46); `fctl` holds a legal value of `c` (R36). -/
def State.resetWith (c : Cfg) : State where
  cfg := c
  plat := ⟨[], 0#64⟩
  fctl := ⟨!c.endBoth && c.beFixed, c.igs == .wsi, !c.gxlWritable && c.gxlFixed⟩
  ddtp := ⟨if c.resetBare then .bare else .off, false, 0#44⟩
  cqb := ⟨0#5, 0#44⟩
  cqh := 0#32
  cqt := 0#32
  fqb := ⟨0#5, 0#44⟩
  fqh := 0#32
  fqt := 0#32
  pqb := ⟨0#5, 0#44⟩
  pqh := 0#32
  pqt := 0#32
  cqcsr := ⟨false, false, false, false, false, false, false, false⟩
  fqcsr := OutCsr.reset
  pqcsr := OutCsr.reset
  ipsr := ⟨false, false, false, false⟩
  iocountinh := if c.hpm then 1#32 else 0#32
  iohpmcycles := ⟨0#63, false⟩
  iohpmctr := Vector.replicate 31 0#64
  iohpmevt := Vector.replicate 31 HpmEvt.zero
  trReqIova := 0#52
  trReqCtl := ⟨false, false, false, false, 0#20, false, 0#24⟩
  trResponse := 0#64
  qosid := ⟨0#12, 0#12⟩
  icvec := ⟨0#4, 0#4, 0#4, 0#4⟩
  msiCfg := Vector.replicate 16 ⟨0#54, 0#32, false⟩
  ioatc := []
  outstanding := []
  timedOut := false
  fetched := none
  msiPending := Vector.replicate 16 false
  uncommittedReads := []
  uncommittedWrites := []
  mem := []
  halfReads := []
  inbox := []
  others := []
  out := []
  bus := []
  itag := 0
  choices := []
  freeCtr := 0
  walked := false

/-- The machine right after reset, in the reference configuration of D2 (log 1). -/
def State.reset : State := State.resetWith Cfg.reference

end Sys2Proof.Machine
end

