-- ==== Sys2Proof/Machine/Flags.lean ====
section
/-! DEFINITION. The conditions the machine computes from its status bits (spec 10_state.md R66; 44_queue_engine.md R482;
60_exceptions.md R591, R592): when the command queue runs, when an interrupt condition holds, what the wires carry. The
IOMMU has no arithmetic flags (R66). -/

namespace Sys2Proof.Machine

/-- `cq_error` of R482. -/
def State.cqError (s : State) : Bool :=
  s.cqcsr.cqmf || s.cqcsr.cmdTo || s.cqcsr.cmdIll

/-- `can_fetch` of R482. -/
def State.canFetch (s : State) : Bool :=
  s.cqcsr.cqon && !s.cqError && s.cqh != s.cqt

/-- `fence_w_ip` as it can be seen: the bit is reserved while `fctl.WSI` is 0 (R50). -/
def State.fenceIp (s : State) : Bool := s.cqcsr.fenceWIp && s.fctl.wsi

/-- The level condition of `update_cip` (R591, R53). -/
def State.cipLevel (s : State) : Bool :=
  s.cqcsr.cie && (s.fenceIp || s.cqcsr.cmdIll || s.cqcsr.cmdTo || s.cqcsr.cqmf)

/-- The level condition of `update_fip` and `update_pip` (R591, R53). -/
def OutCsr.ipLevel (q : OutCsr) : Bool :=
  q.ie && (q.ovf || q.mf)

/-- A queue that discards every record: off, or with an error bit set (R570, R365). -/
def OutCsr.discards (q : OutCsr) : Bool :=
  !q.on || q.ovf || q.mf

/-- The interrupt sources (R590). -/
inductive IntSource where
  | cq
  | fq
  | pm
  | pq
deriving DecidableEq, Repr

/-- The `ipsr` bit of a source (R53). -/
def Ipsr.get (r : Ipsr) : IntSource → Bool
  | .cq => r.cip
  | .fq => r.fip
  | .pm => r.pmip
  | .pq => r.pip

/-- `ipsr` with the bit of a source set to 1. -/
def Ipsr.pend (r : Ipsr) : IntSource → Ipsr
  | .cq => { r with cip := true }
  | .fq => { r with fip := true }
  | .pm => { r with pmip := true }
  | .pq => { r with pip := true }

/-- The vector of a source (R63, R590). -/
def Icvec.vector (r : Icvec) : IntSource → BitVec 4
  | .cq => r.civ
  | .fq => r.fiv
  | .pm => r.pmiv
  | .pq => r.piv

/-- Interrupt wire `v` (R592): the OR of the pending bits mapped to it, when `fctl.WSI` is 1. -/
def State.wire (s : State) (v : BitVec 4) : Bool :=
  s.fctl.wsi &&
    ((s.ipsr.cip && s.icvec.civ == v) || (s.ipsr.fip && s.icvec.fiv == v)
      || (s.ipsr.pmip && s.icvec.pmiv == v) || (s.ipsr.pip && s.icvec.piv == v))

end Sys2Proof.Machine
end

