-- ==== Sys2Proof/Machine/Ops.lean ====
section
/-! DEFINITION. The named operations the meanings share: memory (spec 20_memory.md), the free choices, the queues
(44_queue_engine.md), the interrupts (60_exceptions.md R590 to R594), and taking a fault (R565, R570), which is what this
hardware has for taking an exception. -/

namespace Sys2Proof

/-! ### Memory -/

/-- What a byte of memory that nothing has written reads as (DESIGN CHOICE, log 3). -/
def Memory.blank : Byte := 0#8

/-- The byte at address `a`. -/
def Memory.read : Memory → Nat → Byte
  | [], _ => Memory.blank
  | (k, b) :: m, a => if a = k then b else Memory.read m a

/-- Memory with the byte at `a` set to `v`, in canonical form. -/
def Memory.write : Memory → Nat → Byte → Memory
  | [], a, v => if v = Memory.blank then [] else [(a, v)]
  | (k, b) :: m, a, v =>
    if a < k then (if v = Memory.blank then (k, b) :: m else (a, v) :: (k, b) :: m)
    else if a = k then (if v = Memory.blank then m else (a, v) :: m)
    else (k, b) :: Memory.write m a v

/-- The `n` bytes from address `a` up. -/
def Memory.readBytes (m : Memory) : Nat → Nat → List Byte
  | _, 0 => []
  | a, n + 1 => Memory.read m a :: Memory.readBytes m (a + 1) n

/-- Memory with the bytes `bs` stored from address `a` up. -/
def Memory.writeBytes : Memory → Nat → List Byte → Memory
  | m, _, [] => m
  | m, a, b :: bs => Memory.writeBytes (Memory.write m a b) (a + 1) bs

/-- Every address of `m` is above `lo`, they rise strictly, and no entry equals what an unlisted byte reads as. -/
def Memory.wfAbove : Option Nat → Memory → Bool
  | _, [] => true
  | lo, (k, b) :: m =>
    (match lo with
     | none => true
     | some l => decide (l < k)) && (b != Memory.blank) && Memory.wfAbove (some k) m

/-- The canonical form of memory: addresses strictly rising, no entry equal to `Memory.blank`. -/
def Memory.wf (m : Memory) : Bool := Memory.wfAbove none m

namespace Machine

/-! ### The access primitives (R207, R208) -/

/-- The answer of an implicit read (R208). -/
inductive LoadResult where
  | ok (bytes : List Byte)
  | accessFault
  | corrupt
deriving DecidableEq, Repr

/-- Whether the bytes `a .. a+n-1` touch the region. -/
def PlatRegion.touches (r : PlatRegion) (a n : Nat) : Bool :=
  decide (r.lo < a + n) && decide (a < r.hi)

/-- The region refuses accesses of the kind. -/
def PlatRegion.denies (r : PlatRegion) : AccessKind → Bool
  | .read => r.denyRead
  | .write => r.denyWrite
  | .atomic => r.denyAtomic

/-- The region's refusals are for accesses of `n` bytes. -/
def PlatRegion.sized (r : PlatRegion) (n : Nat) : Bool := r.sizes.isEmpty || r.sizes.contains n

/-- `Platform.check(a, n, kind) = AccessFault` (R207; log 8); also any address outside `0 .. 2^PAS - 1` (R202). -/
def State.accessFaults (s : State) (kind : AccessKind) (a n : Nat) : Bool :=
  decide (2 ^ s.cfg.pas < a + n) ||
    s.plat.regions.any fun r => r.touches a n && r.sized n && r.denies kind

/-- `Platform.poisoned(a, n)` (R207). -/
def State.poisoned (s : State) (a n : Nat) : Bool :=
  s.plat.regions.any fun r => r.touches a n && r.poisoned

/-- `MemRead(a, n)` (R208, with R208's `Cfg.reports_corruption`, D11). -/
def State.load (s : State) (a n : Nat) : LoadResult :=
  if s.accessFaults .read a n then .accessFault
  else if s.poisoned a n then (if s.cfg.reportsCorruption then .corrupt else .accessFault)
  else .ok (Memory.readBytes s.mem a n)

/-- `MemWrite(a, bytes)` (R208): memory with the bytes stored, or none on an access fault. -/
def State.store (s : State) (a : Nat) (bytes : List Byte) : Option Memory :=
  if s.accessFaults .write a bytes.length then none else some (Memory.writeBytes s.mem a bytes)

/-- One implicit access goes out on the Data Structure interface with its label (R218, R219; log 27). -/
def State.logBus (s : State) (kind : AccessKind) (a n : Nat) (q : Qos) : State :=
  { s with bus := s.bus ++ [⟨kind, a, n, q⟩] }

/-- The label of accesses to the DDT, the queues, and of MSIs (R219, R62). -/
def State.iommuQos (s : State) : Qos :=
  if s.cfg.qosid then s.qosid else ⟨0#12, 0#12⟩

/-- Say something to the outside. -/
def State.emit (s : State) (o : Output) : State :=
  { s with out := s.out ++ [o] }

/-! ### Accesses of other agents between those of the IOMMU (R215, R221, D14; log 5) -/

/-- The access touches the register page (R32, R33). -/
def State.inRegPage (s : State) (a n : Nat) : Bool :=
  decide (a < s.cfg.regBase.toNat + 4096) && decide (s.cfg.regBase.toNat < a + n)

/-- The bytes `a .. a+n-1` are in the physical address space (R35). -/
def State.inMemory (s : State) (a n : Nat) : Bool := decide (a + n ≤ 2 ^ s.cfg.pas)

/-! ### Commitment of device accesses (R433; log 28) -/

/-- A processed device read becomes globally visible: the device gets the bytes memory holds now, or the IO bridge
aborts it (R566). -/
def State.commitRead (s : State) (p : PendingRead) : State :=
  if s.accessFaults .read p.addr p.len then s.emit (.abort p.tag s.plat.abortData)
  else s.emit (.deviceRead p.tag (Memory.readBytes s.mem p.addr p.len))

/-- A processed device write becomes globally visible, or the IO bridge discards it (R566). -/
def State.commitWrite (s : State) (p : PendingWrite) : State :=
  match s.store p.addr p.data with
  | none => s
  | some m => { s with mem := m }

/-- The first processed access with the tag becomes globally visible (R433; log 28). -/
def State.commitAccess (s : State) (tag : Nat) : State :=
  match s.uncommittedReads.find? (fun p => p.tag == tag) with
  | some p => ({ s with uncommittedReads := s.uncommittedReads.erase p } : State).commitRead p
  | none =>
    match s.uncommittedWrites.find? (fun p => p.tag == tag) with
    | some p => ({ s with uncommittedWrites := s.uncommittedWrites.erase p } : State).commitWrite p
    | none => s

/-! ### Accesses of other agents (R221; log 5) -/

/-- An access is one to main memory: in the physical address space, and not to the register page. -/
def State.inMainMemory (s : State) (a n : Nat) : Bool := s.inMemory a n && !s.inRegPage a n

/-- A device's write to memory through the IO bridge (R222); the bridge discards one that the platform refuses (R566). -/
def State.deviceWrite (s : State) (a : Nat) (bytes : List Byte) : State :=
  match s.store a bytes with
  | none => s
  | some m => { s with mem := m }

/-- One access of another agent; a hart's that is not to main memory is none. -/
def State.otherAccess (s : State) : MemAccess → State
  | .read a n =>
    if s.inMainMemory a.toNat n then
      s.emit (.readData (BitVec.ofNat 64 (ofBytesLE (Memory.readBytes s.mem a.toNat n))))
    else s
  | .write a bytes =>
    if s.inMainMemory a.toNat bytes.length then { s with mem := Memory.writeBytes s.mem a.toNat bytes } else s
  | .deviceWrite a bytes => s.deviceWrite a.toNat bytes
  | .commit tag => s.commitAccess tag

/-- The accesses of other agents that fall before the next implicit access: the first group of `others`. -/
def State.othersAct (s : State) : State :=
  match s.others with
  | [] => s
  | g :: gs => { g.foldl State.otherAccess s with others := gs }

/-- The sizes of the single-copy atomic accesses that make up one of `n` bytes (R215). -/
def atomicUnits (u n : Nat) : List Nat :=
  List.replicate (n / u) u ++ (if n % u = 0 then [] else [n % u])

/-- The bytes from `a` up, read in units of the sizes given, rising; other agents act before each (R221). -/
def State.readUnits : List Nat → Nat → State → List Byte × State
  | [], _, s => ([], s)
  | k :: ks, a, s =>
    let s1 := s.othersAct
    let (bs, s2) := State.readUnits ks (a + k) s1
    (Memory.readBytes s1.mem a k ++ bs, s2)

/-- The bytes stored from `a` up in units of the sizes given, rising; other agents act before each (R221). -/
def State.writeUnits : List Nat → Nat → List Byte → State → State
  | [], _, _, s => s
  | k :: ks, a, bs, s =>
    let s1 := s.othersAct
    State.writeUnits ks (a + k) (bs.drop k) { s1 with mem := Memory.writeBytes s1.mem a (bs.take k) }

/-- `MemRead(a, n)` on the Data Structure interface (R208, R218), in single-copy atomic units (R215, R221). -/
def State.readMem (s : State) (a n : Nat) (q : Qos) : LoadResult × State :=
  let s1 := s.logBus .read a n q
  match s1.load a n with
  | .ok _ =>
    let (bs, s2) := State.readUnits (atomicUnits s.cfg.atomicSize n) a s1
    (.ok bs, s2)
  | .accessFault => (.accessFault, s1)
  | .corrupt => (.corrupt, s1)

/-- `MemWrite(a, bytes)` on the Data Structure interface (R208, R218), in units; answers whether it succeeded. -/
def State.writeMem (s : State) (a : Nat) (bytes : List Byte) (q : Qos) : Bool × State :=
  let s1 := s.logBus .write a bytes.length q
  if s1.accessFaults .write a bytes.length then (false, s1)
  else (true, State.writeUnits (atomicUnits s.cfg.atomicSize bytes.length) a bytes s1)

/-- `MemAtomicUpdate(a, n, f)` (R208): a read and a write of `f(old)` with nothing between, failing as either half fails;
a refusal of atomic accesses comes before both. Answers what the read found. -/
def State.updateMem (s : State) (a n : Nat) (f : List Byte → List Byte) (q : Qos) : LoadResult × State :=
  let s1 := (s.logBus .atomic a n q).othersAct
  if s1.accessFaults .atomic a n then (.accessFault, s1)
  else
    match s1.load a n with
    | .ok old =>
      if s1.accessFaults .write a n then (.accessFault, s1)
      else (.ok old, { s1 with mem := Memory.writeBytes s1.mem a (f old) })
    | .accessFault => (.accessFault, s1)
    | .corrupt => (.corrupt, s1)

/-! ### Free choices and free values (log 7) -/

/-- The next open choice, a number below `n`. -/
def State.draw (s : State) (n : Nat) : Nat × State :=
  match s.choices with
  | c :: cs => (c % n, { s with choices := cs })
  | [] => (Config.freeChoice s.freeCtr % n, { s with freeCtr := s.freeCtr + 1 })

/-- The next free value. -/
def State.freshValue (s : State) : DWord × State :=
  (Config.freeValue s.freeCtr, { s with freeCtr := s.freeCtr + 1 })

/-! ### Queues (R480, R484, R212) -/

/-- LOG2SZ. -/
def QBase.log2sz (q : QBase) : Nat := q.log2szm1.toNat + 1

/-- `N`, the number of entries. -/
def QBase.entries (q : QBase) : Nat := 2 ^ q.log2sz

/-- The base address of a queue of `2^elog`-byte entries; the low `LOG2SZ + elog - 12` bits of PPN are taken as 0
(R212, D12; log 18). -/
def QBase.addr (q : QBase) (elog : Nat) : Nat :=
  q.ppn.toNat / 2 ^ (q.log2sz + elog - 12) * 2 ^ (q.log2sz + elog - 12) * 4096

/-- `entry_addr(i)` (R480). -/
def QBase.entryAddr (q : QBase) (elog : Nat) (i : BitVec 32) : Nat :=
  q.addr elog + i.toNat * 2 ^ elog

/-- `next(i) = (i + 1) mod N` (R480). -/
def QBase.next (q : QBase) (i : BitVec 32) : BitVec 32 :=
  BitVec.ofNat 32 ((i.toNat + 1) % q.entries)

/-- `index mod N`: what an index register keeps of a written value (R533). -/
def QBase.mask (q : QBase) (i : BitVec 32) : BitVec 32 :=
  BitVec.ofNat 32 (i.toNat % q.entries)

/-! ### Faults (R561 to R564) -/

/-- The CAUSE codes of R561. -/
inductive Cause where
  | instructionAccess
  | readMisaligned
  | readAccess
  | writeMisaligned
  | writeAccess
  | instructionPage
  | readPage
  | writePage
  | instructionGuestPage
  | readGuestPage
  | writeGuestPage
  | allDisallowed
  | ddtLoadAccess
  | ddtNotValid
  | ddtMisconfigured
  | typeDisallowed
  | msiPteLoadAccess
  | msiPteNotValid
  | msiPteMisconfigured
  | mrifAccess
  | pdtLoadAccess
  | pdtNotValid
  | pdtMisconfigured
  | ddtCorruption
  | pdtCorruption
  | msiPtCorruption
  | mrifCorruption
  | internalError
  | msiWriteAccess
  | ptCorruption
deriving DecidableEq, Repr

/-- The number of a cause (R561). -/
def Cause.code : Cause → BitVec 12
  | .instructionAccess => 1#12
  | .readMisaligned => 4#12
  | .readAccess => 5#12
  | .writeMisaligned => 6#12
  | .writeAccess => 7#12
  | .instructionPage => 12#12
  | .readPage => 13#12
  | .writePage => 15#12
  | .instructionGuestPage => 20#12
  | .readGuestPage => 21#12
  | .writeGuestPage => 23#12
  | .allDisallowed => 256#12
  | .ddtLoadAccess => 257#12
  | .ddtNotValid => 258#12
  | .ddtMisconfigured => 259#12
  | .typeDisallowed => 260#12
  | .msiPteLoadAccess => 261#12
  | .msiPteNotValid => 262#12
  | .msiPteMisconfigured => 263#12
  | .mrifAccess => 264#12
  | .pdtLoadAccess => 265#12
  | .pdtNotValid => 266#12
  | .pdtMisconfigured => 267#12
  | .ddtCorruption => 268#12
  | .pdtCorruption => 269#12
  | .msiPtCorruption => 270#12
  | .mrifCorruption => 271#12
  | .internalError => 272#12
  | .msiWriteAccess => 273#12
  | .ptCorruption => 274#12

/-- R561's column "reported if DTF is 1". -/
def Cause.reportedUnderDtf : Cause → Bool
  | .allDisallowed => true
  | .ddtLoadAccess => true
  | .ddtNotValid => true
  | .ddtMisconfigured => true
  | .ddtCorruption => true
  | .internalError => true
  | .msiWriteAccess => true
  | _ => false

/-- A fault record (R560, R563, R564). -/
structure FaultRecord where
  cause : Cause
  ttyp : BitVec 6
  did : BitVec 24
  pv : Bool
  pid : BitVec 20
  priv : Bool
  iotval : DWord
  iotval2 : DWord
deriving DecidableEq, Repr

/-- The four doublewords of a fault record (R180). -/
def FaultRecord.dwords (r : FaultRecord) : List DWord :=
  [r.did ++ r.ttyp ++ bit r.priv ++ bit r.pv ++ r.pid ++ r.cause.code, 0#64, r.iotval, r.iotval2]

/-- The record of a failed MSI write (R594). -/
def FaultRecord.msiWrite (addr : DWord) : FaultRecord :=
  ⟨.msiWriteAccess, 0#6, 0#24, false, 0#20, false, addr, 0#64⟩

/-! ### The fault queue (R570 to R573) -/

/-- Store those doublewords of `ds` that `keep` selects by their number, counted from `k`, 8 bytes each from address `a` up,
in units; other agents act before each (R221). -/
def State.storeSome (keep : Nat → Bool) : Nat → Nat → List DWord → State → State
  | _, _, [], s => s
  | a, k, d :: ds, s =>
    State.storeSome keep (a + 8) (k + 1) ds
      (if keep k then
        State.writeUnits (atomicUnits (min s.cfg.atomicSize 8) 8) a (toBytes s.fctl.be 8 d.toNat) s
      else s)

/-- The write of a record of doublewords at `a`, one `MemWriteDW` each (R570, R365). On an access fault any of the
doublewords that do not fault themselves may have reached memory (R572; log 7). Answers whether the write succeeded. -/
def State.storeRecord (s : State) (a : Nat) (ds : List DWord) : Bool × State :=
  let fails (k : Nat) : Bool := s.accessFaults .write (a + 8 * k) 8
  let s1 := s.logBus .write a (8 * ds.length) s.iommuQos
  if (List.range ds.length).any fails then
    let (c, s2) := s1.draw 16
    (false, State.storeSome (fun k => c.testBit k && !fails k) a 0 ds s2)
  else
    (true, State.writeUnits (atomicUnits (min s.cfg.atomicSize 8) (8 * ds.length)) a (dwordsBytes s.fctl.be ds) s1)

/-- `report` of R570 without its interrupt: the record queued, or the error bit set, or the record discarded. Answers
whether a condition arose that sets `fip` when `fie` is 1 (R591: a new record, or an error bit set). -/
def State.pushRecord (s : State) (r : FaultRecord) : Bool × State :=
  if s.fqcsr.discards then (false, s)
  else if s.fqb.next s.fqt = s.fqh then
    (true, { s with fqcsr := { s.fqcsr with ovf := true } })
  else
    match s.storeRecord (s.fqb.entryAddr 5 s.fqt) r.dwords with
    | (false, s1) => (true, { s1 with fqcsr := { s1.fqcsr with mf := true } })
    | (true, s1) => (true, { s1 with fqt := s1.fqb.next s1.fqt })

/-! ### Interrupts (R590 to R594) -/

/-- The `msi_cfg_tbl` entry of a vector (R592). -/
def State.msiEntry (s : State) (v : BitVec 4) : MsiEntry :=
  s.msiCfg[v.toNat]'(by have := v.isLt; omega)

/-- The address of an entry's message: `msi_addr_x` with bits 1:0 zero (R64). -/
def MsiEntry.address (e : MsiEntry) : DWord := 0#8 ++ e.addr ++ 0#2

/-- `send_msi(v)` of R593 up to the report of a failure: answers the address of a write that met an access fault. -/
def State.trySendMsi (s : State) (v : BitVec 4) : Option DWord × State :=
  let e := s.msiEntry v
  if e.m then
    (none, { s with msiPending := s.msiPending.set v.toNat true (by have := v.isLt; omega) })
  else
    match s.writeMem e.address.toNat (toBytes s.fctl.be 4 e.data.toNat) s.iommuQos with
    | (false, s1) => (some e.address, s1)
    | (true, s1) => (none, s1.emit (.msi e.address e.data))

/-- `ipsr` bit of `b` set to 1. -/
def State.pend (s : State) (b : IntSource) : State :=
  { s with ipsr := s.ipsr.pend b }

/-- `set(fip)` of R591 with its delivery (R592). The record of a failed MSI cannot raise `fip` again, which is 1 by then
(R575). -/
def State.raiseFip (s : State) : State :=
  if s.ipsr.fip then s
  else if s.fctl.wsi then s.pend .fq
  else
    match (s.pend .fq).trySendMsi s.icvec.fiv with
    | (none, s1) => s1
    | (some a, s1) => (s1.pushRecord (.msiWrite a)).2

/-- `report(rec)` (R570). -/
def State.report (s : State) (r : FaultRecord) : State :=
  match s.pushRecord r with
  | (true, s1) => if s1.fqcsr.ie then s1.raiseFip else s1
  | (false, s1) => s1

/-- `send_msi(v)` (R593, R594). -/
def State.sendMsi (s : State) (v : BitVec 4) : State :=
  match s.trySendMsi v with
  | (none, s1) => s1
  | (some a, s1) => s1.report (.msiWrite a)

/-- `set(b)` and `deliver(b)` (R591, R592). -/
def State.raiseIp (s : State) (b : IntSource) : State :=
  if s.ipsr.get b then s
  else if s.fctl.wsi then s.pend b
  else (s.pend b).sendMsi (s.icvec.vector b)

/-- `update_cip()` (R591). -/
def State.updateCip (s : State) : State :=
  if s.cipLevel then s.raiseIp .cq else s

/-- `update_fip()` (R591). -/
def State.updateFip (s : State) : State :=
  if s.fqcsr.ipLevel then s.raiseIp .fq else s

/-- `update_pip()` (R591). -/
def State.updatePip (s : State) : State :=
  if s.pqcsr.ipLevel then s.raiseIp .pq else s

/-! ### Taking a fault (R565) -/

/-- Taking a fault, the exception entry of this hardware (R565): the record goes to the fault queue unless it is
suppressed by its kind (R346, R347, R364) or by the DTF bit of the located device context (R567), and the requester is
answered. There is no saved pc, no handler address and no return (R575). -/
def State.takeFault (s : State) (r : FaultRecord) (suppressed dtf : Bool) (answer : Option Output) : State :=
  let s1 := if suppressed || (dtf && !r.cause.reportedUnderDtf) then s else s.report r
  match answer with
  | none => s1
  | some o => s1.emit o

/-! ### The end of a command (R484 to R487, R436, R437) -/

/-- The command is done: `cqh <- next(cqh)` (R484). -/
def State.advanceCq (s : State) : State :=
  { s with cqh := s.cqb.next s.cqh }

/-- R486: an illegal or unsupported command; `cqh` stays. -/
def State.commandIllegal (s : State) : State :=
  ({ s with cqcsr := { s.cqcsr with cmdIll := true } } : State).updateCip

/-- R487, R436: a memory fault of the fetch or of the command; `cqh` stays. -/
def State.commandMemoryFault (s : State) : State :=
  ({ s with cqcsr := { s.cqcsr with cqmf := true } } : State).updateCip

/-- R437, R463: an earlier ATS.INVAL timed out; the sticky flag is cleared (D29), `cqh` stays. -/
def State.commandTimeout (s : State) : State :=
  ({ s with cqcsr := { s.cqcsr with cmdTo := true }, timedOut := false } : State).updateCip

/-- R434: completion is signalled on the wire. -/
def State.signalFence (s : State) : State :=
  ({ s with cqcsr := { s.cqcsr with fenceWIp := true } } : State).updateCip

/-! ### What a fence commits (R433; log 28) -/

/-- `PR`: all previous reads are committed (R433). -/
def State.commitReads (s : State) : State :=
  s.uncommittedReads.foldl State.commitRead { s with uncommittedReads := [] }

/-- `PW`: all previous writes are committed (R433). -/
def State.commitWrites (s : State) : State :=
  s.uncommittedWrites.foldl State.commitWrite { s with uncommittedWrites := [] }

end Machine

end Sys2Proof
end

