-- ==== Sys2Proof/Machine/Operands.lean ====
section
/-! DEFINITION. The operand forms of the commands: the legality conditions that read `capabilities`, `fctl` or `ddtp`
(spec 30_encoding.md R387 items 5 to 13), the device directory indexes (11_data_structures.md R142), and the NAPOT range
encoding (R396, R415, R417). -/

namespace Sys2Proof

/-- The number of 1 bits below the lowest 0 bit of `v`, at most `fuel`: the X of R396. -/
def trailingOnes : Nat → Nat → Nat
  | 0, _ => 0
  | fuel + 1, v => if v % 2 = 1 then trailingOnes fuel (v / 2) + 1 else 0

namespace Machine

/-! ### device_id and process_id (R142, R163, R273) -/

/-- `DDI[0]` (R142). -/
def ddi0 (flat : Bool) (did : BitVec 24) : Nat :=
  if flat then (did.extractLsb' 0 6).toNat else (did.extractLsb' 0 7).toNat

/-- `DDI[1]` (R142). -/
def ddi1 (flat : Bool) (did : BitVec 24) : Nat :=
  if flat then (did.extractLsb' 6 9).toNat else (did.extractLsb' 7 9).toNat

/-- `DDI[2]` (R142). -/
def ddi2 (flat : Bool) (did : BitVec 24) : Nat :=
  if flat then (did.extractLsb' 15 9).toNat else (did.extractLsb' 16 8).toNat

/-- A `device_id` wider than the mode supports (R270 step 5); no width is defined in Off and Bare (R387, D25). -/
def didTooWide (flat : Bool) (mode : IommuMode) (did : BitVec 24) : Bool :=
  match mode with
  | .lvl2 => ddi2 flat did != 0
  | .lvl1 => ddi2 flat did != 0 || ddi1 flat did != 0
  | .lvl3 => false
  | .off => false
  | .bare => false

/-- R387 item 12: a `process_id` wider than the widest supported `PDn`; with no `PDn` every one is. -/
def pidUnsupported (c : Cfg) (pid : BitVec 20) : Bool :=
  if c.pd20 then false
  else if c.pd17 then decide (2 ^ 17 ≤ pid.toNat)
  else if c.pd8 then decide (2 ^ 8 ≤ pid.toNat)
  else true

/-! ### Illegal and unsupported commands (R386, R387) -/

/-- R387 items 6 and 7. -/
def iotinvalUnsupported (c : Cfg) (nl sBit : Bool) : Bool :=
  (nl && !c.nl) || (sBit && !c.rangeInval)

/-- R387 items 5 to 13, read at the time the command is decoded (R394). -/
def isIllegal (i : Instr) (s : State) : Bool :=
  !i.wellFormed ||
    (match i with
     | .iotinvalVma _ _ _ nl sBit _ _ _ => iotinvalUnsupported s.cfg nl sBit
     | .iotinvalGvma _ _ _ nl sBit _ _ _ => iotinvalUnsupported s.cfg nl sBit
     | .iofenceC _ wsi _ _ _ _ => wsi && (s.cfg.igs == .msi || !s.fctl.wsi)
     | .iodirInvalDdt dv _ did => dv && didTooWide s.cfg.msiFlat s.ddtp.mode did
     | .iodirInvalPdt _ pid did => didTooWide s.cfg.msiFlat s.ddtp.mode did || pidUnsupported s.cfg pid
     | .atsInval _ _ _ _ _ _ => !s.cfg.ats
     | .atsPrgr _ _ _ _ _ _ => !s.cfg.ats)

/-! ### Address ranges (R396, R415, R417) -/

/-- `range(ADDR, S)` of R417 as first and last page number; none when S is 1 and every bit of ADDR is 1, which acts as
AV = 0 (U22; log 19). -/
def pageRange (addr : BitVec 52) (sBit : Bool) : Option (Nat × Nat) :=
  if sBit then
    let x := trailingOnes 52 addr.toNat
    if x = 52 then none
    else
      let base := addr.toNat / 2 ^ (x + 1) * 2 ^ (x + 1)
      some (base, base + 2 ^ (x + 1) - 1)
  else some (addr.toNat, addr.toNat)

/-- `covers(e, range)` of R415: an entry for the `2^span` pages around `page` meets the pages `lo .. hi`. -/
def spanMeets (page : BitVec 52) (span : Nat) (range : Nat × Nat) : Bool :=
  decide (range.1 / 2 ^ span ≤ page.toNat / 2 ^ span) && decide (page.toNat / 2 ^ span ≤ range.2 / 2 ^ span)

/-- The address test of an IOTINVAL with AV = 1: the entry covers the range, and is a leaf unless NL (R411, R412). -/
def addrHits (addr : BitVec 52) (nl sBit : Bool) (page : BitVec 52) (span : Nat) (leaf : Bool) : Bool :=
  match pageRange addr sBit with
  | none => true
  | some r => spanMeets page span r && (leaf || nl)

end Machine

end Sys2Proof
end

