-- ==== Sys2Proof/Machine/AtsCommands.lean ====
section
/-! DEFINITION. The meanings of ATS.INVAL and ATS.PRGR (spec 43_ats_commands.md R460 to R465). -/

namespace Sys2Proof.Machine

/-- The message of an ATS command (R461, R462, R465): the segment only if DSV, the PASID only if PV, the PAYLOAD
unchecked (R393, D26). -/
def atsMessage (pv dsv : Bool) (pid : BitVec 20) (rid : BitVec 16) (dseg : BitVec 8) (payload : DWord) : AtsMessage :=
  ⟨if dsv then some dseg else none, rid, if pv then some pid else none, payload⟩

/-- ATS.INVAL (R461): the Invalidation Request is sent and the command is outstanding from then on. -/
def execAtsInval (pv dsv : Bool) (pid : BitVec 20) (rid : BitVec 16) (dseg : BitVec 8) (payload : DWord) (s : State) :
    Host.Outcome State Fault Refusal :=
  if isIllegal (.atsInval pv dsv pid rid dseg payload) s then .next s.commandIllegal
  else
    let m := atsMessage pv dsv pid rid dseg payload
    .next ({ s with
      out := s.out ++ [.invalidationRequest s.itag m]
      outstanding := s.outstanding ++ [⟨s.cqh, m.segment, rid, s.itag, 0⟩]
      itag := s.itag + 1 } : State).advanceCq

/-- ATS.PRGR (R465): the Page Request Group Response is sent. -/
def execAtsPrgr (pv dsv : Bool) (pid : BitVec 20) (rid : BitVec 16) (dseg : BitVec 8) (payload : DWord) (s : State) :
    Host.Outcome State Fault Refusal :=
  if isIllegal (.atsPrgr pv dsv pid rid dseg payload) s then .next s.commandIllegal
  else .next (s.emit (.prgResponse (atsMessage pv dsv pid rid dseg payload))).advanceCq

end Sys2Proof.Machine
end

