-- ==== Sys2Proof/Machine/Cache.lean ====
section
/-! DEFINITION. The address translation caches, the IOATC (spec 20_memory.md R230 to R239; 21_translation.md R330): which
entries a lookup may use, filling, eviction, and the entries each invalidation command removes (40_iotinval.md R411,
R412; 42_iodir.md R446, R447). Which of the usable entries a step takes, or memory, is a free choice (R232, R238;
log 6). -/

namespace Sys2Proof.Machine

/-! ### Page-table entries: the bits the caches look at (R174, R175) -/

/-- A leaf entry holds R, W or X (R415). -/
def pteLeaf (pte : DWord) : Bool := pte.getLsbD 1 || pte.getLsbD 2 || pte.getLsbD 3

/-- V (R174). -/
def pteV (pte : DWord) : Bool := pte.getLsbD 0

/-- A (R174). -/
def pteA (pte : DWord) : Bool := pte.getLsbD 6

/-- D (R174). -/
def pteD (pte : DWord) : Bool := pte.getLsbD 7

/-! ### Tags (R233; log 33) -/

/-- A GSCID as the implementation keeps it: the low `Cfg.gscid_width` bits. -/
def gscidTag (c : Cfg) (g : BitVec 16) : BitVec 16 := BitVec.ofNat 16 (g.toNat % 2 ^ c.gscidWidth)

/-- A PSCID as the implementation keeps it: the low `Cfg.pscid_width` bits. -/
def pscidTag (c : Cfg) (p : BitVec 20) : BitVec 20 := BitVec.ofNat 20 (p.toNat % 2 ^ c.pscidWidth)

/-- Two pages in the same `2^span`-page block. -/
def samePage (span : Nat) (p q : BitVec 52) : Bool := p.toNat / 2 ^ span == q.toNat / 2 ^ span

/-! ### Validity and filling (R231) -/

/-- Bit 0 of the cached structure, its V bit (R231). A combined entry is built of valid leaves. -/
def IoatcEntry.valid : IoatcEntry → Bool
  | .ddtNL _ _ _ ddte => ddte.getLsbD 0
  | .dc _ x => x.tc.getLsbD 0
  | .pdtNL _ _ _ _ pdte => pdte.getLsbD 0
  | .pc _ _ x => x.ta.getLsbD 0
  | .s1 e => pteV e.pte
  | .s2 e => pteV e.pte
  | .msi _ _ dw0 _ => dw0.getLsbD 0
  | .s12 _ => true

/-- Add an entry a step has used (R234 item a). -/
def State.fill (s : State) (e : IoatcEntry) : State :=
  if s.ioatc.contains e then s else { s with ioatc := e :: s.ioatc }

/-- Drop the entry at position `n` (R234 item c). -/
def State.evict (s : State) (n : Nat) : State :=
  { s with ioatc := s.ioatc.eraseIdx n }

/-! ### Lookup (R234 item b, R330) -/

/-- Take one of the usable entries, or none: then memory is read. No choice is drawn when nothing is usable. -/
def State.choose {α : Type} (s : State) (cands : List α) : Option α × State :=
  match cands with
  | [] => (none, s)
  | c :: cs =>
    let (k, s1) := s.draw ((c :: cs).length + 1)
    ((c :: cs)[k]?, s1)

/-- Cached non-leaf DDT entries at `level` for `did`. -/
def State.ddtCandidates (s : State) (level : Nat) (did : BitVec 24) : List DWord :=
  s.ioatc.filterMap fun
    | .ddtNL l shift d ddte =>
      if l = level ∧ d.toNat / 2 ^ shift = did.toNat / 2 ^ shift then some ddte else none
    | _ => none

/-- Cached device contexts of `did`. -/
def State.dcCandidates (s : State) (did : BitVec 24) : List DC :=
  s.ioatc.filterMap fun
    | .dc d dc => if d = did then some dc else none
    | _ => none

/-- Cached non-leaf PDT entries at `level` for (`did`, `pid`). -/
def State.pdtCandidates (s : State) (did : BitVec 24) (level : Nat) (pid : BitVec 20) : List DWord :=
  s.ioatc.filterMap fun
    | .pdtNL d l shift p pdte =>
      if d = did ∧ l = level ∧ p.toNat / 2 ^ shift = pid.toNat / 2 ^ shift then some pdte else none
    | _ => none

/-- Cached process contexts of (`did`, `pid`). -/
def State.pcCandidates (s : State) (did : BitVec 24) (pid : BitVec 20) : List PC :=
  s.ioatc.filterMap fun
    | .pc d p pc => if d = did ∧ p = pid then some pc else none
    | _ => none

/-- A cached leaf that the access could use without setting A or D; an entry whose bit would have to be set is a miss,
and so is a non-leaf never (R239). -/
def pteUsable (dirties : Bool) (pte : DWord) : Bool :=
  !pteLeaf pte || (pteA pte && (!dirties || pteD pte || !pte.getLsbD 2))

/-- Cached first-stage entries for the page at `level` or below (R234; log 6). -/
def State.s1Candidates (s : State) (space : Option (BitVec 16)) (pscid : BitVec 20) (level : Nat) (page : BitVec 52)
    (dirties : Bool) : List S1Entry :=
  s.ioatc.filterMap fun
    | .s1 e =>
      if e.space = space ∧ e.pscid = pscid ∧ e.level ≤ level ∧ samePage e.span e.page page ∧ pteUsable dirties e.pte
      then some e else none
    | _ => none

/-- Cached second-stage entries for the guest page at `level` or below. -/
def State.s2Candidates (s : State) (gscid : BitVec 16) (level : Nat) (page : BitVec 52) (dirties : Bool) :
    List S2Entry :=
  s.ioatc.filterMap fun
    | .s2 e =>
      if e.gscid = gscid ∧ e.level ≤ level ∧ samePage e.span e.page page ∧ pteUsable dirties e.pte
      then some e else none
    | _ => none

/-- Cached MSI PTEs for the guest page. -/
def State.msiCandidates (s : State) (gscid : BitVec 16) (page : BitVec 52) : List (DWord × DWord) :=
  s.ioatc.filterMap fun
    | .msi g p dw0 dw1 => if g = gscid ∧ p = page then some (dw0, dw1) else none
    | _ => none

/-- Cached combined entries for the IOVA page that pass `ok`, the access's permission test. -/
def State.s12Candidates (s : State) (gscid : BitVec 16) (pscid : BitVec 20) (page : BitVec 52)
    (ok : S12Entry → Bool) : List S12Entry :=
  s.ioatc.filterMap fun
    | .s12 e =>
      if e.gscid = gscid ∧ e.pscid = pscid ∧ samePage e.span e.page page ∧ ok e then some e else none
    | _ => none

/-! ### Invalidation (R411, R412, R446, R447) -/

/-- The IOTINVAL.VMA predicate of R411 on the tags of a first-stage entry. -/
def vmaTagHits (pscv gv : Bool) (pscid : BitVec 20) (gscid : BitVec 16) (space : Option (BitVec 16))
    (ePscid : BitVec 20) (gpath : Bool) : Bool :=
  (match space with
   | none => !gv
   | some g => gv && g == gscid)
  && (!pscv || (ePscid == pscid && !gpath))

/-- The entries IOTINVAL.VMA removes (R411). A combined entry is hit as the first-stage leaf it is built of (R234). -/
def vmaHits (c : Cfg) (av pscv gv nl sBit : Bool) (pscid : BitVec 20) (gscid : BitVec 16) (addr : BitVec 52) :
    IoatcEntry → Bool
  | .s1 e =>
    vmaTagHits pscv gv (pscidTag c pscid) (gscidTag c gscid) e.space e.pscid e.gpath
      && (!av || addrHits addr nl sBit e.page e.span (pteLeaf e.pte))
  | .s12 e =>
    vmaTagHits pscv gv (pscidTag c pscid) (gscidTag c gscid) (some e.gscid) e.pscid e.gpath
      && (!av || addrHits addr nl sBit e.page e.span1 true)
  | _ => false

/-- The entries IOTINVAL.GVMA removes (R412). Of the combined entries every one of the GSCID goes, whatever its guest page
(DESIGN CHOICE among what R412 and R418 allow, log 36), unless no guest page of its scheme is in the range: then ADDR is not
valid and has no effect (R414, U21). A cached MSI PTE goes by its guest page alone: an ADDR above the width of the second-stage
scheme is valid for it, since step 18 of R270 looks for MSI pages before the width is checked (DESIGN CHOICE, log 19). -/
def gvmaHits (c : Cfg) (av gv nl sBit : Bool) (gscid : BitVec 16) (addr : BitVec 52) : IoatcEntry → Bool
  | .s2 e =>
    !gv || (e.gscid == gscidTag c gscid && (!av || addrHits addr nl sBit e.page e.span (pteLeaf e.pte)))
  | .msi g page _ _ =>
    !gv || (g == gscidTag c gscid && (!av || addrHits addr nl sBit page 0 true))
  | .s12 e => !gv || (e.gscid == gscidTag c gscid && (!av || addrHits addr nl sBit 0#52 e.guestSpan true))
  | _ => false

/-- The entries IODIR.INVAL_DDT removes (R446). -/
def ddtHits (dv : Bool) (did : BitVec 24) : IoatcEntry → Bool
  | .ddtNL _ _ _ _ => !dv
  | .dc d _ => !dv || d == did
  | .pdtNL d _ _ _ _ => !dv || d == did
  | .pc d _ _ => !dv || d == did
  | _ => false

/-- The entries IODIR.INVAL_PDT removes (R447). -/
def pdtHits (did : BitVec 24) (pid : BitVec 20) : IoatcEntry → Bool
  | .pc d p _ => d == did && p == pid
  | _ => false

/-- Remove the entries `hits` selects. -/
def State.invalidate (s : State) (hits : IoatcEntry → Bool) : State :=
  { s with ioatc := s.ioatc.filter fun e => !hits e }

end Sys2Proof.Machine
end

