-- ==== Sys2Proof/Machine/Iodir.lean ====
section
/-! DEFINITION. The meanings of IODIR.INVAL_DDT and IODIR.INVAL_PDT (spec 42_iodir.md R445 to R451). -/

namespace Sys2Proof.Machine

/-- IODIR.INVAL_DDT (R446). -/
def execIodirInvalDdt (dv : Bool) (pid : BitVec 20) (did : BitVec 24) (s : State) :
    Host.Outcome State Fault Refusal :=
  if isIllegal (.iodirInvalDdt dv pid did) s then .next s.commandIllegal
  else .next (s.invalidate (ddtHits dv did)).advanceCq

/-- IODIR.INVAL_PDT (R447). -/
def execIodirInvalPdt (dv : Bool) (pid : BitVec 20) (did : BitVec 24) (s : State) :
    Host.Outcome State Fault Refusal :=
  if isIllegal (.iodirInvalPdt dv pid did) s then .next s.commandIllegal
  else .next (s.invalidate (pdtHits did pid)).advanceCq

end Sys2Proof.Machine
end

