-- ==== Sys2Proof/Machine/Iofence.lean ====
section
/-! DEFINITION. The meaning of IOFENCE.C (spec 41_iofence.md R430 to R439). -/

namespace Sys2Proof.Machine

/-- The end of R430: the wired interrupt if asked for, then `cqh` advances. -/
def fenceDone (wsi : Bool) (s : State) : Host.Outcome State Fault Refusal :=
  .next (if wsi then s.signalFence else s).advanceCq

/-- The data store of R430 and R432, or R436 if it faults. R219 and R62 list no label for it: it carries the identifiers of
`iommu_qosid`, as a queue access does (DESIGN CHOICE, log 27). -/
def fenceStore (wsi : Bool) (data : BitVec 32) (addr : BitVec 62) (s : State) : Host.Outcome State Fault Refusal :=
  match s.writeMem (addr.toNat * 4) (toBytes s.fctl.be 4 data.toNat) s.iommuQos with
  | (false, s1) => .next s1.commandMemoryFault
  | (true, s1) => fenceDone wsi s1

/-- What PR and PW commit (R433). -/
def fenceCommit (pr pw : Bool) (s : State) : State :=
  let s1 := if pr then s.commitReads else s
  if pw then s1.commitWrites else s1

/-- IOFENCE.C (R430). While an ATS.INVAL is outstanding it waits: the command stays fetched and the engine comes back to
it (R431, R463; log 22). -/
def execIofenceC (av wsi pr pw : Bool) (data : BitVec 32) (addr : BitVec 62) (s : State) :
    Host.Outcome State Fault Refusal :=
  if isIllegal (.iofenceC av wsi pr pw data addr) s then .next s.commandIllegal
  else if !s.outstanding.isEmpty then .next { s with fetched := some (.iofenceC av wsi pr pw data addr) }
  else if s.timedOut then .next s.commandTimeout
  else if av then fenceStore wsi data addr (fenceCommit pr pw s)
  else fenceDone wsi (fenceCommit pr pw s)

end Sys2Proof.Machine
end

