-- ==== Sys2Proof/Machine/Iotinval.lean ====
section
/-! DEFINITION. The meanings of IOTINVAL.VMA and IOTINVAL.GVMA (spec 40_iotinval.md R410 to R419). Each removes exactly the
entries its rule names; that an implementation may remove more (R418) is `Event.evict`. -/

namespace Sys2Proof.Machine

/-- IOTINVAL.VMA (R411). -/
def execIotinvalVma (av pscv gv nl sBit : Bool) (pscid : BitVec 20) (gscid : BitVec 16) (addr : BitVec 52)
    (s : State) : Host.Outcome State Fault Refusal :=
  if isIllegal (.iotinvalVma av pscv gv nl sBit pscid gscid addr) s then .next s.commandIllegal
  else .next (s.invalidate (vmaHits s.cfg av pscv gv nl sBit pscid gscid addr)).advanceCq

/-- IOTINVAL.GVMA (R412). PSCID is ignored. -/
def execIotinvalGvma (av pscv gv nl sBit : Bool) (pscid : BitVec 20) (gscid : BitVec 16) (addr : BitVec 52)
    (s : State) : Host.Outcome State Fault Refusal :=
  if isIllegal (.iotinvalGvma av pscv gv nl sBit pscid gscid addr) s then .next s.commandIllegal
  else .next (s.invalidate (gvmaHits s.cfg av gv nl sBit gscid addr)).advanceCq

end Sys2Proof.Machine
end

