-- ==== Sys2Proof/Machine/Dispatch.lean ====
section
/-! DEFINITION. One arm for each command: the meaning it calls (spec 44_queue_engine.md R483). -/

namespace Sys2Proof.Machine

/-- The effect of a command that has been fetched and decoded (R483). -/
def exec (i : Instr) (s : State) : Host.Outcome State Fault Refusal :=
  match i with
  | .iotinvalVma av pscv gv nl sBit pscid gscid addr => Sys2Proof.Machine.execIotinvalVma av pscv gv nl sBit pscid gscid addr s
  | .iotinvalGvma av pscv gv nl sBit pscid gscid addr => Sys2Proof.Machine.execIotinvalGvma av pscv gv nl sBit pscid gscid addr s
  | .iofenceC av wsi pr pw data addr => Sys2Proof.Machine.execIofenceC av wsi pr pw data addr s
  | .iodirInvalDdt dv pid did => Sys2Proof.Machine.execIodirInvalDdt dv pid did s
  | .iodirInvalPdt dv pid did => Sys2Proof.Machine.execIodirInvalPdt dv pid did s
  | .atsInval pv dsv pid rid dseg payload => Sys2Proof.Machine.execAtsInval pv dsv pid rid dseg payload s
  | .atsPrgr pv dsv pid rid dseg payload => Sys2Proof.Machine.execAtsPrgr pv dsv pid rid dseg payload s

end Sys2Proof.Machine
end

