-- ==== Sys2Proof/Machine/Engine.lean ====
section
/-! DEFINITION. The command-queue engine (spec 44_queue_engine.md R480 to R491): fetch, decode, execute. -/

namespace Sys2Proof.Machine

/-- Where the next command is (R481). -/
def State.fetchAddr (s : State) : Nat := s.cqb.entryAddr 4 s.cqh

/-- `cq_step()` (R483): one turn of the engine. A command that was fetched and has to wait is taken up again, whatever
`cqt` holds by then (log 22). A change of the command's bytes during the fetch is seen by atomic units (R242). -/
def cqStep (s : State) : Host.Outcome State Fault Refusal :=
  match s.fetched with
  | some i => if s.cqcsr.cqon && !s.cqError then exec i { s with fetched := none } else .next s
  | none =>
    if !s.canFetch then .next s
    else
      match s.readMem s.fetchAddr 16 s.iommuQos with
      | (.accessFault, s1) => .next s1.commandMemoryFault
      | (.corrupt, s1) => .next s1.commandMemoryFault
      | (.ok bs, s1) =>
        match decodeBytes s.fctl.be bs with
        | none => .next s1.commandIllegal
        | some i => exec i s1

end Sys2Proof.Machine
end

