-- ==== Sys2Proof/Machine/Hpm.lean ====
section
/-! DEFINITION. The performance monitor (spec 61_hpm.md): events, filters, counting, overflow, cycles. -/

namespace Sys2Proof.Machine

/-- The standard events (R633). -/
inductive HpmEvent where
  | untranslated
  | translated
  | atsRequest
  | tlbMiss
  | ddtWalk
  | pdtWalk
  | s1Walk
  | s2Walk
deriving DecidableEq, Repr

/-- The eventID of an event (R633). -/
def HpmEvent.id : HpmEvent → BitVec 15
  | .untranslated => 1#15
  | .translated => 2#15
  | .atsRequest => 3#15
  | .tlbMiss => 4#15
  | .ddtWalk => 5#15
  | .pdtWalk => 6#15
  | .s1Walk => 7#15
  | .s2Walk => 8#15

/-- The identifiers of the transaction that causes an event; an absent one is not valid (R635, D36). -/
structure EventIds where
  did : BitVec 24
  pid : Option (BitVec 20)
  gscid : Option (BitVec 16)
  pscid : Option (BitVec 20)
deriving DecidableEq, Repr

/-- `idt_supported` (R634). -/
def idtSupported (e : HpmEvent) (idt : Bool) : Bool :=
  !idt || e == .tlbMiss || e == .s1Walk || e == .s2Walk

/-- `did_match` (R636); an all-ones DID_GSCID with DMASK set matches everything (U26). -/
def didMatch (s : HpmEvt) (id : BitVec 24) : Bool :=
  if s.dmask then
    let k := trailingOnes 24 s.didGscid.toNat
    id.toNat / 2 ^ (k + 1) == s.didGscid.toNat / 2 ^ (k + 1)
  else id == s.didGscid

/-- `filter_match` (R635). -/
def filterMatch (s : HpmEvt) (t : EventIds) : Bool :=
  if s.idt then
    (!s.pvPscv || t.pscid == some s.pidPscid)
      && (!s.dvGscv || (match t.gscid with
                        | none => false
                        | some g => didMatch s (g.setWidth 24)))
  else
    (!s.pvPscv || t.pid == some s.pidPscid) && (!s.dvGscv || didMatch s t.did)

/-- Whether counter `n + 1` counts the event (R634). -/
def State.counts (s : State) (e : HpmEvent) (t : EventIds) (n : Fin 31) : Bool :=
  let sel := s.iohpmevt[n]
  s.cfg.hpm && decide (n.val < s.cfg.hpmCounters) && !s.iocountinh.getLsbD (n.val + 1)
    && sel.eventId == e.id && idtSupported e sel.idt && filterMatch sel t

/-- A counter of width `w` one further, and whether it wrapped (R634). -/
def bump (w : Nat) (c : DWord) : DWord × Bool :=
  let n := c.toNat + 1
  (BitVec.ofNat 64 (n % 2 ^ w), decide (2 ^ w ≤ n))

/-- Counting in counter `n + 1` alone, with its overflow (R634, R637). -/
def State.countIn (s : State) (n : Fin 31) : State :=
  let (c, wrapped) := bump s.cfg.hpmWidth s.iohpmctr[n]
  let sel := s.iohpmevt[n]
  let s1 := { s with iohpmctr := s.iohpmctr.set n c }
  if wrapped && !sel.ovf then
    ({ s1 with iohpmevt := s1.iohpmevt.set n { sel with ovf := true } } : State).raiseIp .pm
  else s1

/-- Counting one event in every counter that counts it (R634). -/
def State.countEvent (s : State) (e : HpmEvent) (t : EventIds) : State :=
  (List.finRange 31).foldl (fun s n => if s.counts e t n then s.countIn n else s) s

/-- The width of `iohpmcycles.counter` (R630): at most 63. -/
def cyclesWidth (c : Cfg) : Nat := min c.hpmWidth 63

/-- The age of every outstanding ATS.INVAL after `n` clock cycles (R463; log 23). -/
def State.ageInvals (s : State) (n : Nat) : State :=
  { s with outstanding := s.outstanding.map fun o => { o with age := o.age + n } }

/-- `n` clock cycles of R631 at once. Between two of them only the first wrap with OF = 0 has an effect, so the order of
the cycles does not matter. -/
def State.tick (s : State) (n : Nat) : State :=
  if s.cfg.hpm && !s.iocountinh.getLsbD 0 then
    let total := s.iohpmcycles.counter.toNat + n
    let s1 := { s with iohpmcycles :=
      ⟨BitVec.ofNat 63 (total % 2 ^ cyclesWidth s.cfg),
       s.iohpmcycles.ovf || decide (2 ^ cyclesWidth s.cfg ≤ total)⟩ }
    if s1.iohpmcycles.ovf && !s.iohpmcycles.ovf then s1.raiseIp .pm else s1
  else s

/-- Bits `0 .. n - 1` of a register whose bit `k` is `f k`. -/
def bitsOf (f : Nat → Bool) : Nat → Nat
  | 0 => 0
  | n + 1 => bitsOf f n + (if f n then 2 ^ n else 0)

/-- `iocountovf` (R54, R638): a view of the OF bits. -/
def State.countovf (s : State) : BitVec 32 :=
  BitVec.ofNat 32 (bitsOf (fun k => if k = 0 then s.iohpmcycles.ovf
    else match s.iohpmevt[k - 1]? with
      | some e => e.ovf
      | none => false) 32)

end Sys2Proof.Machine
end

