-- ==== Sys2Proof/Machine/Context.lean ====
section
/-! DEFINITION. Device contexts and process contexts (spec 11_data_structures.md R144 to R168): their fields, the
misconfiguration checks, and the process that locates a device context (21_translation.md R280, R281). Bit positions are
those the spec gives from general knowledge (PRESUMED, log 9). -/

namespace Sys2Proof.Machine

/-! ### Outcome of a part of the translation process -/

/-- What has been found of the page by the time a request stops (R351): that it is an MSI page, and its memory type. -/
structure PageFound where
  msi : Bool
  pbmt : BitVec 2
deriving DecidableEq, Repr

/-- A `stop(cause)` of 21_translation.md: the cause, iotval2, the device context if a valid one was located by then
(R567), the identifiers known by then (R635), and the page, for an ATS Translation Request that had found it (R351). -/
structure Stop where
  cause : Cause
  iotval2 : DWord
  dc : Option DC
  ids : EventIds
  page : Option PageFound
deriving DecidableEq, Repr

/-- What a part of the process answers: a result or a stop; with the state it leaves either way (R565). -/
inductive Res (α : Type) where
  | ok (a : α) (s : State)
  | stop (f : Stop) (s : State)

/-- The same result, a stop saying what had been found of the page. -/
def Res.finding {α : Type} (p : PageFound) : Res α → Res α
  | .ok a s => .ok a s
  | .stop f s => .stop { f with page := some p } s

/-- Go on with the result. -/
def Res.bind {α β : Type} (r : Res α) (k : α → State → Res β) : Res β :=
  match r with
  | .ok a s => k a s
  | .stop f s => .stop f s

/-! ### Address translation schemes (R153, R156, R176) -/

/-- The schemes, for either stage; in the second stage Sv39 stands for Sv39x4 and so on. -/
inductive Scheme where
  | bare
  | sv32
  | sv39
  | sv48
  | sv57
deriving DecidableEq, Repr

/-- MODE of `iosatp` read with SXL (R156), and of `iohgatp` read with GXL (R153): none for an encoding that is not
valid, custom ones among them (D6). -/
def schemeOf (xl : Bool) (mode : BitVec 4) : Option Scheme :=
  if mode = 0#4 then some .bare
  else if xl then (if mode = 8#4 then some .sv32 else none)
  else if mode = 8#4 then some .sv39
  else if mode = 9#4 then some .sv48
  else if mode = 10#4 then some .sv57
  else none

/-- LEVELS (R176). -/
def Scheme.levels : Scheme → Nat
  | .bare => 0
  | .sv32 => 2
  | .sv39 => 3
  | .sv48 => 4
  | .sv57 => 5

/-- Width of a VPN field (R176). -/
def Scheme.vpnBits : Scheme → Nat
  | .sv32 => 10
  | _ => 9

/-- PTESIZE (R176). -/
def Scheme.pteSize : Scheme → Nat
  | .sv32 => 4
  | _ => 8

/-- Address bits used by the first stage; the second stage uses 2 more (R176). -/
def Scheme.width (x : Scheme) : Nat := 12 + x.levels * x.vpnBits

/-- `capabilities` supports the scheme in the first stage (R160 items 10 and 11). -/
def firstSupported (c : Cfg) : Scheme → Bool
  | .bare => true
  | .sv32 => c.sv32
  | .sv39 => c.sv39
  | .sv48 => c.sv48
  | .sv57 => c.sv57

/-- `capabilities` supports the scheme in the second stage (R160 items 14 and 15). -/
def secondSupported (c : Cfg) : Scheme → Bool
  | .bare => true
  | .sv32 => c.sv32x4
  | .sv39 => c.sv39x4
  | .sv48 => c.sv48x4
  | .sv57 => c.sv57x4

/-! ### Fields -/

/-- PPN of a doubleword that holds it in bits 43:0 (R153, R156, R157, R158). -/
def ppnLow (d : DWord) : BitVec 44 := d.extractLsb' 0 44

/-- MODE of a doubleword that holds it in bits 63:60. -/
def modeHigh (d : DWord) : BitVec 4 := d.extractLsb' 60 4

/-- PPN of a non-leaf directory entry or of a PTE: bits 53:10 (R144, R164, R174). -/
def ppnEntry (d : DWord) : BitVec 44 := d.extractLsb' 10 44

/-- Reserved bits of a non-leaf DDT or PDT entry: 9:1 and 63:54 (R144, R164). -/
def nonLeafReserved (d : DWord) : Bool := d &&& 0xFFC00000000003FE#64 != 0#64

def DC.v (d : DC) : Bool := d.tc.getLsbD 0
def DC.enAts (d : DC) : Bool := d.tc.getLsbD 1
def DC.enPri (d : DC) : Bool := d.tc.getLsbD 2
def DC.t2gpa (d : DC) : Bool := d.tc.getLsbD 3
def DC.dtf (d : DC) : Bool := d.tc.getLsbD 4
def DC.pdtv (d : DC) : Bool := d.tc.getLsbD 5
def DC.prpr (d : DC) : Bool := d.tc.getLsbD 6
def DC.gade (d : DC) : Bool := d.tc.getLsbD 7
def DC.sade (d : DC) : Bool := d.tc.getLsbD 8
def DC.dpe (d : DC) : Bool := d.tc.getLsbD 9
def DC.sbe (d : DC) : Bool := d.tc.getLsbD 10
def DC.sxl (d : DC) : Bool := d.tc.getLsbD 11

/-- `DC.iohgatp.GSCID` (R153). -/
def DC.gscid (d : DC) : BitVec 16 := d.iohgatp.extractLsb' 44 16

/-- `DC.ta.PSCID` and `PC.ta.PSCID` (R155, R166). -/
def pscidOf (ta : DWord) : BitVec 20 := ta.extractLsb' 12 20

/-- The DTF bit in force (R567): 0 if no valid device context was located. -/
def Stop.dtf (f : Stop) : Bool :=
  match f.dc with
  | none => false
  | some d => d.dtf

/-- The QoS identifiers of `DC.ta` (R155), as labels when `capabilities.QOSID` is 1. -/
def DC.qos (c : Cfg) (d : DC) : Qos :=
  if c.qosid then ⟨d.ta.extractLsb' 40 12, d.ta.extractLsb' 52 12⟩ else ⟨0#12, 0#12⟩

/-- The second-stage scheme, Bare for an encoding that is not valid (a checked DC has none). -/
def DC.gScheme (gxl : Bool) (d : DC) : Scheme := (schemeOf gxl (modeHigh d.iohgatp)).getD .bare

def PC.v (p : PC) : Bool := p.ta.getLsbD 0
def PC.ens (p : PC) : Bool := p.ta.getLsbD 1
def PC.sum (p : PC) : Bool := p.ta.getLsbD 2

/-! ### The device-context checks (R160, R161, R162) -/

/-- MGPAW (R159). -/
def mgpaw (c : Cfg) : Nat :=
  if c.sv57x4 then 59 else if c.sv48x4 then 50 else if c.sv39x4 then 41 else if c.sv32x4 then 34 else c.pas

/-- R160 item 1: a bit reserved for future standard use is set, or an encoding of MODE is reserved (also items 8, 9,
13, 16). Bits 31:24 of `tc` are custom and not looked at (log 31). -/
def dcReserved (c : Cfg) (d : DC) : Bool :=
  d.tc &&& 0xFFFFFFFF00FFF000#64 != 0#64
  || d.ta &&& 0x000000FF00000FFF#64 != 0#64
  || (!c.qosid && d.ta &&& 0xFFFFFF0000000000#64 != 0#64)
  || d.fsc &&& 0x0FFFF00000000000#64 != 0#64
  || (c.msiFlat &&
      (d.msiptp &&& 0x0FFFF00000000000#64 != 0#64
       || decide (2 ^ (mgpaw c - 12) ≤ d.msiAddrMask.toNat)
       || decide (2 ^ (mgpaw c - 12) ≤ d.msiAddrPattern.toNat)
       || d.rsvd != 0#64))

/-- R160 item 8: `pdtp.MODE` is not a supported mode; 4 to 15 are reserved or custom (R157, D6). -/
def pdtpBad (c : Cfg) (mode : BitVec 4) : Bool :=
  !(mode == 0#4 || (mode == 1#4 && c.pd8) || (mode == 2#4 && c.pd17) || (mode == 3#4 && c.pd20))

/-- R160 items 9 to 11, and R168 items 2 to 4: a first-stage MODE that is not valid or not supported. -/
def iosatpBad (c : Cfg) (sxl : Bool) (mode : BitVec 4) : Bool :=
  match schemeOf sxl mode with
  | none => true
  | some x => !firstSupported c x

/-- R160 items 13 to 15: a second-stage MODE that is not valid or not supported. -/
def iohgatpBad (c : Cfg) (gxl : Bool) (mode : BitVec 4) : Bool :=
  match schemeOf gxl mode with
  | none => true
  | some x => !secondSupported c x

/-- A page number whose page is not below `2^bits`. -/
def ppnTooWide (bits : Nat) (ppn : BitVec 44) : Bool := decide (2 ^ bits ≤ ppn.toNat * 4096)

/-- R162 with `Cfg.check_addr_width_early`: the width of a table pointer that is a GPA when the second stage is on, else
an SPA (log 30). -/
def pointerTooWide (c : Cfg) (g : Scheme) (ppn : BitVec 44) : Bool :=
  ppnTooWide (if g = .bare then c.pas else g.width + 2) ppn

/-- R162 for a device context (D8). -/
def dcEarly (c : Cfg) (gxl : Bool) (d : DC) : Bool :=
  c.checkAddrWidthEarly &&
    ((d.gScheme gxl != .bare && ppnTooWide c.pas (ppnLow d.iohgatp))
     || (modeHigh d.fsc != 0#4 && pointerTooWide c (d.gScheme gxl) (ppnLow d.fsc))
     || (c.msiFlat && modeHigh d.msiptp != 0#4 && ppnTooWide c.pas (ppnLow d.msiptp)))

/-- `DC_misconfigured` (R160, R161, R162). -/
def dcMisconfigured (c : Cfg) (f : Fctl) (d : DC) : Bool :=
  dcReserved c d
  || (!c.ats && (d.enAts || d.enPri || d.prpr))
  || (!d.enAts && d.t2gpa)
  || (!d.enAts && d.enPri)
  || (!d.enPri && d.prpr)
  || (!c.t2gpa && d.t2gpa)
  || (d.t2gpa && modeHigh d.iohgatp == 0#4)
  || (d.pdtv && pdtpBad c (modeHigh d.fsc))
  || (!d.pdtv && iosatpBad c d.sxl (modeHigh d.fsc))
  || (!d.pdtv && d.dpe)
  || iohgatpBad c f.gxl (modeHigh d.iohgatp)
  || (c.msiFlat && !(modeHigh d.msiptp == 0#4 || modeHigh d.msiptp == 1#4))
  || (modeHigh d.iohgatp != 0#4 && (ppnLow d.iohgatp).extractLsb' 0 2 != 0#2)
  || (!c.amoHwad && (d.sade || d.gade))
  || (!c.endBoth && d.sbe != f.be)
  || (if f.gxl then !d.sxl else d.sxl && !c.gxlWritable)
  || (c.qosid && (decide (2 ^ c.rcidWidth ≤ (d.ta.extractLsb' 40 12).toNat)
                  || decide (2 ^ c.mcidWidth ≤ (d.ta.extractLsb' 52 12).toNat)))
  || (c.msiFlat && modeHigh d.iohgatp == 0#4 && modeHigh d.msiptp != 0#4)
  || dcEarly c f.gxl d

/-- `PC_misconfigured` (R168, R162): reserved bits 11:3 and 63:32 of `ta`, 59:44 of `fsc`. -/
def pcMisconfigured (c : Cfg) (gxl : Bool) (d : DC) (p : PC) : Bool :=
  p.ta &&& 0xFFFFFFFF00000FF8#64 != 0#64
  || p.fsc &&& 0x0FFFF00000000000#64 != 0#64
  || iosatpBad c d.sxl (modeHigh p.fsc)
  || (c.checkAddrWidthEarly && modeHigh p.fsc != 0#4 && pointerTooWide c (d.gScheme gxl) (ppnLow p.fsc))

/-! ### Locating the device context (R281) -/

/-- DC_SIZE (R141). -/
def dcSize (c : Cfg) : Nat := if c.msiFlat then 64 else 32

/-- The doublewords of a device context (R145). -/
def dcOfBytes (c : Cfg) (be : Bool) (bs : List Byte) : DC :=
  if c.msiFlat then
    ⟨dwordAt be bs 0, dwordAt be bs 8, dwordAt be bs 16, dwordAt be bs 24,
     dwordAt be bs 32, dwordAt be bs 40, dwordAt be bs 48, dwordAt be bs 56⟩
  else
    ⟨dwordAt be bs 0, dwordAt be bs 8, dwordAt be bs 16, dwordAt be bs 24, 0#64, 0#64, 0#64, 0#64⟩

/-- `DDI[i]` (R142). -/
def ddi (flat : Bool) (did : BitVec 24) : Nat → Nat
  | 0 => ddi0 flat did
  | 1 => ddi1 flat did
  | _ => ddi2 flat did

/-- The number of `device_id` bits below `DDI[i]`. -/
def ddiShift (flat : Bool) : Nat → Nat
  | 0 => 0
  | i + 1 => (if flat then 6 else 7) + 9 * i

/-- A fault met before a valid device context exists. -/
def stopEarly (ids : EventIds) (c : Cause) : Stop := ⟨c, 0#64, none, ids, none⟩

/-- One read of a DDT entry from memory: counted, logged and answered by R281 steps 3, 4 and 8. -/
def readDdt (ids : EventIds) (a n : Nat) (s : State) : Res (List Byte) :=
  match (s.countEvent .ddtWalk ids).readMem a n s.iommuQos with
  | (.accessFault, s1) => .stop (stopEarly ids .ddtLoadAccess) s1
  | (.corrupt, s1) => .stop (stopEarly ids .ddtCorruption) s1
  | (.ok bs, s1) => .ok bs s1

/-- R281 steps 9 to 11 on a device context just read or cached. -/
def checkDC (ids : EventIds) (dc : DC) (s : State) : Res DC :=
  if !dc.v then .stop (stopEarly ids .ddtNotValid) s
  else if dcMisconfigured s.cfg s.fctl dc then .stop (stopEarly ids .ddtMisconfigured) s
  else .ok dc (s.fill (.dc ids.did dc))

/-- R281 steps 5 and 6 on a non-leaf entry at level `i`. -/
def checkDdte (ids : EventIds) (i : Nat) (e : DWord) (s : State) : Res DWord :=
  if !e.getLsbD 0 then .stop (stopEarly ids .ddtNotValid) s
  else if nonLeafReserved e then .stop (stopEarly ids .ddtMisconfigured) s
  else .ok e (s.fill (.ddtNL i (ddiShift s.cfg.msiFlat i) ids.did e))

/-- R281 from step 2 with the table of level `i` at address `a`. -/
def ddtWalk (ids : EventIds) : Nat → Nat → State → Res DC
  | 0, a, s =>
    (readDdt ids (a + ddi s.cfg.msiFlat ids.did 0 * dcSize s.cfg) (dcSize s.cfg) s).bind fun bs s1 =>
      checkDC ids (dcOfBytes s1.cfg s1.fctl.be bs) s1
  | i + 1, a, s =>
    match s.choose (s.ddtCandidates (i + 1) ids.did) with
    | (some e, s1) =>
      (checkDdte ids (i + 1) e s1).bind fun e s2 => ddtWalk ids i ((ppnEntry e).toNat * 4096) s2
    | (none, s1) =>
      ((readDdt ids (a + ddi s.cfg.msiFlat ids.did (i + 1) * 8) 8 s1).bind fun bs s2 =>
        checkDdte ids (i + 1) (dwordAt s2.fctl.be bs 0) s2).bind fun e s3 =>
          ddtWalk ids i ((ppnEntry e).toNat * 4096) s3

/-- LEVELS - 1 of R281 step 1. -/
def IommuMode.rootLevel : IommuMode → Nat
  | .lvl3 => 2
  | .lvl2 => 1
  | _ => 0

/-- `locate_DC(device_id)` (R281), from the IOATC or from memory (R280). -/
def locateDC (ids : EventIds) (s : State) : Res DC :=
  match s.choose (s.dcCandidates ids.did) with
  | (some dc, s1) => checkDC ids dc s1
  | (none, s1) => ddtWalk ids s1.ddtp.mode.rootLevel (s1.ddtp.ppn.toNat * 4096) s1

end Sys2Proof.Machine
end

