-- ==== Sys2Proof/Machine/Walk.lean ====
section
/-! DEFINITION. The two-stage page walk (spec 21_translation.md R290 to R312) and the process that locates a process
context (R284, R285), whose accesses go through the second stage. A 32-bit PTE is handled zero-extended to 64 bits, where
every rule for a 64-bit PTE says the same of it (R175). -/

namespace Sys2Proof.Machine

/-! ### Access types (R262, R291) -/

/-- The original access type (R262). -/
inductive Acc where
  | instruction
  | read
  | write
deriving DecidableEq, Repr

/-- What a second-stage translation serves (`acc2` and `ctx` of R305). -/
inductive Purpose where
  /-- the transaction's own access -/
  | final
  /-- reading a first-stage PTE -/
  | pteRead
  /-- updating a first-stage PTE -/
  | pteWrite
  /-- reading a PDT entry -/
  | pdt
deriving DecidableEq, Repr

/-- The access-fault cause of an access type (R262). -/
def Acc.accessFault : Acc → Cause
  | .instruction => .instructionAccess
  | .read => .readAccess
  | .write => .writeAccess

/-- The page-fault cause of an access type (R262). -/
def Acc.pageFault : Acc → Cause
  | .instruction => .instructionPage
  | .read => .readPage
  | .write => .writePage

/-- The guest-page-fault cause of an access type (R262). -/
def Acc.guestFault : Acc → Cause
  | .instruction => .instructionGuestPage
  | .read => .readGuestPage
  | .write => .writeGuestPage

/-- What the walk of one request reads: the access, the identifiers, and the two stages it is configured with.
`supervisor` and `sum` are the effective privilege and SUM of R277. An ATS Translation Request walks as a read and
collects permissions (R343). -/
structure WalkCtx where
  acc : Acc
  ats : Bool
  nw : Bool
  ids : EventIds
  dc : DC
  qos : Qos
  gScheme : Scheme
  gRoot : BitVec 44
  gscid : BitVec 16
  gade : Bool
  fScheme : Scheme
  fRoot : BitVec 44
  pscid : BitVec 20
  sade : Bool
  sbe : Bool
  supervisor : Bool
  sum : Bool
deriving DecidableEq, Repr

/-- A completed stage: the translated address, the leaf's permissions and attributes, its D bit (1 when the stage is
Bare), log2 of its size in pages, and, for a leaf with D = 0 read from memory, where it is and what it holds (for R343
item e). -/
structure Leaf where
  addr : DWord
  r : Bool
  w : Bool
  x : Bool
  u : Bool
  d : Bool
  global : Bool
  pbmt : BitVec 2
  span : Nat
  clean : Option (DWord × DWord)
deriving DecidableEq, Repr

/-- A stage that is Bare: the address unchanged, everything permitted (R300 step 0, R305 step 0, R312). -/
def Leaf.identity (c : Cfg) (a : DWord) : Leaf :=
  ⟨a, true, true, true, true, true, false, 0#2, c.bareSpan, none⟩

/-- The page number of an address. -/
def pageOf (a : DWord) : BitVec 52 := a.extractLsb' 12 52

/-! ### Page-table entries (R174 to R177, R300 steps 3, 4, 6, R304) -/

/-- What a PTE read at a level is. -/
inductive PteKind where
  | bad
  | pointer
  | leaf (span : Nat)
deriving DecidableEq, Repr

/-- U (R174). -/
def pteU (pte : DWord) : Bool := pte.getLsbD 4

/-- G (R174). -/
def pteG (pte : DWord) : Bool := pte.getLsbD 5

/-- N (R174). -/
def pteN (pte : DWord) : Bool := pte.getLsbD 63

/-- PBMT (R174). -/
def ptePbmt (pte : DWord) : BitVec 2 := pte.extractLsb' 61 2

/-- `reserved_bits_set` of R304 without N. -/
def pteReserved (c : Cfg) (pte : DWord) : Bool :=
  pte &&& 0x07C0000000000000#64 != 0#64
  || (!c.svrsw60t59b && pte &&& 0x1800000000000000#64 != 0#64)
  || (!c.svpbmt && ptePbmt pte != 0#2)
  || ptePbmt pte == 3#2

/-- R300 steps 3, 4 and 6 (R305 steps 3, 4 and 6). A 32-bit pointer entry with A, D or U set is bad too: step 4 says so of
every entry, R304 that for a 32-bit one only its rule on R, W and X applies (DESIGN CHOICE, log 47). -/
def classify (c : Cfg) (x : Scheme) (level : Nat) (pte : DWord) : PteKind :=
  if !pteV pte || (!pte.getLsbD 1 && pte.getLsbD 2) || pteReserved c pte then .bad
  else if !pte.getLsbD 1 && !pte.getLsbD 3 then
    if pteA pte || pteD pte || pteU pte || pteN pte || ptePbmt pte != 0#2 || level == 0 then .bad else .pointer
  else if (ppnEntry pte).toNat % 2 ^ (level * x.vpnBits) != 0 then .bad
  else if pteN pte then
    if level == 0 && (ppnEntry pte).extractLsb' 0 4 == 8#4 then .leaf 4 else .bad
  else .leaf (level * x.vpnBits)

/-- The address in the `2^span`-page block of page `page` that has the page and offset bits of `a` below. -/
def blockAddr (page span : Nat) (a : DWord) : DWord :=
  BitVec.ofNat 64 ((page / 2 ^ span * 2 ^ span + (pageOf a).toNat % 2 ^ span) * 4096 + a.toNat % 4096)

/-- R300 step 8: the address in the `2^span`-page block the leaf maps. -/
def compose (pte : DWord) (span : Nat) (a : DWord) : DWord := blockAddr (ppnEntry pte).toNat span a

/-- The result of a walk that ends at a leaf; `loc` is the leaf's address if it was read from memory. -/
def Leaf.of (pte : DWord) (span : Nat) (a : DWord) (global : Bool) (loc : Option DWord) : Leaf :=
  ⟨compose pte span a, pte.getLsbD 1, pte.getLsbD 2, pte.getLsbD 3, pteU pte, pteD pte, global, ptePbmt pte, span,
   if pteD pte then none else loc.map fun g => (g, pte)⟩

/-- Index of a page number at a level: the VPN field, in the second stage 2 bits wider at the root (R176). -/
def vpnAt (x : Scheme) (stage2 : Bool) (level : Nat) (page : BitVec 52) : Nat :=
  if stage2 && level + 1 == x.levels then page.toNat / 2 ^ (level * x.vpnBits)
  else page.toNat / 2 ^ (level * x.vpnBits) % 2 ^ x.vpnBits

/-- `pte` with A set, and D if `dirty`. -/
def pteTouch (pte : DWord) (dirty : Bool) : DWord :=
  pte ||| (if dirty then 0xC0#64 else 0x40#64)

/-! ### Stops -/

/-- The stop of a request whose device context is located. -/
def WalkCtx.stop (x : WalkCtx) (c : Cause) : Stop := ⟨c, 0#64, some x.dc, x.ids, none⟩

/-- A guest-page fault: cause by the original access, `iotval2` by R309. -/
def WalkCtx.guestStop (x : WalkCtx) (p : Purpose) (gpa : DWord) : Stop :=
  ⟨x.acc.guestFault,
   (gpa &&& 0xFFFFFFFFFFFFFFFC#64) ||| (if p = .final then 0#64 else 1#64) ||| (if p = .pteWrite then 2#64 else 0#64),
   some x.dc, x.ids, none⟩

/-- The access-fault and corruption stops of an access made for `p` (R305 step 2). -/
def WalkCtx.s2AccessStop (x : WalkCtx) (p : Purpose) : Stop :=
  x.stop (if p = .pdt then .pdtLoadAccess else x.acc.accessFault)

def WalkCtx.s2CorruptStop (x : WalkCtx) (p : Purpose) : Stop :=
  x.stop (if p = .pdt then .pdtCorruption else .ptCorruption)

/-! ### The second stage (R305) -/

/-- The access writes as far as the D bit goes (R305 step 7). -/
def WalkCtx.s2Writes (x : WalkCtx) (p : Purpose) : Bool :=
  p = .pteWrite || (p = .final && x.acc = .write)

/-- R305 step 5: U is required, and the permission of the access; an ATS request collects permissions instead
(R343 item b). -/
def WalkCtx.s2Permits (x : WalkCtx) (p : Purpose) (pte : DWord) : Bool :=
  pteU pte &&
    (match p with
     | .pteRead => pte.getLsbD 1
     | .pdt => pte.getLsbD 1
     | .pteWrite => pte.getLsbD 2
     | .final =>
       x.ats ||
         (match x.acc with
          | .read => pte.getLsbD 1
          | .write => pte.getLsbD 2
          | .instruction => pte.getLsbD 3))

/-- The entry a step of the second-stage walk uses: its level, its value, and its address if it was read from memory
(R305 step 2, R330). -/
def s2Fetch (x : WalkCtx) (p : Purpose) (cached : Bool) (gpa : DWord) (level a : Nat) (s : State) :
    Res (Nat × DWord × Option Nat) :=
  let cands := if cached then
      s.s2Candidates x.gscid level (pageOf gpa) (x.s2Writes p || (p == .final && x.ats && !x.nw))
    else []
  match s.choose cands with
  | (some e, s1) => .ok (e.level, e.pte, none) s1
  | (none, s1) =>
    let pa := a + vpnAt x.gScheme true level (pageOf gpa) * x.gScheme.pteSize
    let s2 := ({ s1 with walked := true } : State).countEvent .s2Walk x.ids
    match s2.readMem pa x.gScheme.pteSize x.qos with
    | (.accessFault, s3) => .stop (x.s2AccessStop p) s3
    | (.corrupt, s3) => .stop (x.s2CorruptStop p) s3
    | (.ok bs, s3) => .ok (level, BitVec.ofNat 64 (ofBytes s3.fctl.be bs), some pa) s3

/-- The compare-and-swap of the PTE at `pa` from `old` to `new` (R216); answers whether it held `old`. -/
def updatePte (q : Qos) (be : Bool) (size pa : Nat) (old new : DWord) (fault corrupt : Stop) (s : State) : Res Bool :=
  match s.updateMem pa size
      (fun bs => if BitVec.ofNat 64 (ofBytes be bs) = old then toBytes be size new.toNat else bs) q with
  | (.accessFault, s1) => .stop fault s1
  | (.corrupt, s1) => .stop corrupt s1
  | (.ok bs, s1) => .ok (decide (BitVec.ofNat 64 (ofBytes be bs) = old)) s1

/-- Cache a second-stage entry. -/
def fillS2 (x : WalkCtx) (gpa : DWord) (level span : Nat) (pte : DWord) (s : State) : State :=
  s.fill (.s2 ⟨x.gscid, level, pageOf gpa, span, pte⟩)

/-- R305 steps 5, 7 and 8 at a leaf: none when the compare of step 7 fails. -/
def s2Leaf (x : WalkCtx) (p : Purpose) (gpa : DWord) (level span : Nat) (pte : DWord) (loc : Option Nat) (s : State) :
    Res (Option Leaf) :=
  if !x.s2Permits p pte then .stop (x.guestStop p gpa) s
  else
    let dirty := x.s2Writes p
    if pteA pte && (!dirty || pteD pte) then
      .ok (some (Leaf.of pte span gpa false (loc.map (BitVec.ofNat 64))))
        (fillS2 x gpa level span pte s)
    else if !x.gade then .stop (x.guestStop p gpa) s
    else
      let new := pteTouch pte dirty
      match loc with
      | none => .stop (x.guestStop p gpa) s
      | some pa =>
        (updatePte x.qos s.fctl.be x.gScheme.pteSize pa pte new (x.s2AccessStop p) (x.s2CorruptStop p) s).bind
          fun done s1 =>
            if done then
              .ok (some (Leaf.of new span gpa false (some (BitVec.ofNat 64 pa)))) (fillS2 x gpa level span new s1)
            else .ok none s1

/-- R305 from step 2. When the compare of step 7 fails, the step is taken again, from then on with memory alone. `fuel` is
above the number of levels and of such repetitions together (log 34). -/
def s2Walk (x : WalkCtx) (p : Purpose) (gpa : DWord) : Nat → Bool → Nat → Nat → State → Res Leaf
  | 0, _, _, _, s => .stop (x.guestStop p gpa) s
  | fuel + 1, cached, level, a, s =>
    (s2Fetch x p cached gpa level a s).bind fun e s1 =>
      match classify s1.cfg x.gScheme e.1 e.2.1 with
      | .bad => .stop (x.guestStop p gpa) s1
      | .pointer =>
        s2Walk x p gpa fuel cached (e.1 - 1) ((ppnEntry e.2.1).toNat * 4096)
          (fillS2 x gpa e.1 (e.1 * x.gScheme.vpnBits) e.2.1 s1)
      | .leaf span =>
        (s2Leaf x p gpa e.1 span e.2.1 e.2.2 s1).bind fun l s2 =>
          match l with
          | some l => .ok l s2
          | none => s2Walk x p gpa fuel false level a s2

/-- The bits of a guest-physical address: those of the scheme (R305 step 1), and 34 if SXL is 1 (R152). -/
def WalkCtx.gpaBits (x : WalkCtx) : Nat :=
  if x.dc.sxl then min 34 (x.gScheme.width + 2) else x.gScheme.width + 2

/-- `second_stage(gpa, ...)` (R305). -/
def secondStage (x : WalkCtx) (p : Purpose) (cached : Bool) (gpa : DWord) (s : State) : Res Leaf :=
  if x.gScheme = .bare then .ok (Leaf.identity s.cfg gpa) s
  else if 2 ^ x.gpaBits ≤ gpa.toNat then .stop (x.guestStop p gpa) s
  else s2Walk x p gpa (6 + s.others.length) cached (x.gScheme.levels - 1) (x.gRoot.toNat * 4096) s

/-! ### The first stage (R300) -/

/-- `canonical(va, MODE)` (R301). -/
def canonical (x : Scheme) (va : DWord) : Bool :=
  match x with
  | .bare => true
  | .sv32 => decide (va.toNat < 2 ^ 32)
  | _ =>
    let top := va.toNat / 2 ^ (x.width - 1)
    top == 0 || top == 2 ^ (65 - x.width) - 1

/-- The privilege half of `permitted` (R302 items a to c). -/
def privPermits (supervisor sum instruction u : Bool) : Bool :=
  if supervisor then !u || (sum && !instruction) else u

/-- `permitted(pte, acc, priv, SUM)` (R302); an ATS request collects permissions instead (R343 items b, c). -/
def WalkCtx.s1Permits (x : WalkCtx) (pte : DWord) : Bool :=
  x.ats ||
    (privPermits x.supervisor x.sum (x.acc = .instruction) (pteU pte) &&
      (match x.acc with
       | .read => pte.getLsbD 1
       | .write => pte.getLsbD 2
       | .instruction => pte.getLsbD 3))

/-- The access sets D in the first stage during the walk (R300 step 7). -/
def WalkCtx.s1Writes (x : WalkCtx) : Bool := !x.ats && x.acc = .write

/-- The address space of first-stage cache entries (R233). -/
def WalkCtx.space (x : WalkCtx) : Option (BitVec 16) :=
  if x.gScheme = .bare then none else some x.gscid

/-- A PTE the walk uses: its level, value, whether the path to it is global, and its guest address if it was read from
memory. -/
structure S1Step where
  level : Nat
  pte : DWord
  gpath : Bool
  loc : Option DWord
deriving DecidableEq, Repr

/-- The entry a step of the first-stage walk uses (R300 step 2, R330). -/
def s1Fetch (x : WalkCtx) (cached gpath : Bool) (va : DWord) (level a : Nat) (s : State) : Res S1Step :=
  let cands := if cached then
      s.s1Candidates x.space x.pscid level (pageOf va) (x.s1Writes || (x.ats && !x.nw))
    else []
  match s.choose cands with
  | (some e, s1) => .ok ⟨e.level, e.pte, gpath || e.gpath, none⟩ s1
  | (none, s1) =>
    let gpa : DWord := BitVec.ofNat 64 (a + vpnAt x.fScheme false level (pageOf va) * x.fScheme.pteSize)
    (secondStage x .pteRead cached gpa s1).bind fun l s2 =>
      let s3 := ({ s2 with walked := true } : State).countEvent .s1Walk x.ids
      match s3.readMem l.addr.toNat x.fScheme.pteSize x.qos with
      | (.accessFault, s4) => .stop (x.stop x.acc.accessFault) s4
      | (.corrupt, s4) => .stop (x.stop .ptCorruption) s4
      | (.ok bs, s4) =>
        let pte : DWord := BitVec.ofNat 64 (ofBytes x.sbe bs)
        .ok ⟨level, pte, gpath || pteG pte, some gpa⟩ s4

/-- The atomic update of a first-stage PTE at guest address `gpa` (R300 step 7, R216): the second stage translates an
implicit write, and the PTE is set to `new` if it is still `old`; answers whether it was. -/
def s1Update (x : WalkCtx) (cached : Bool) (gpa old new : DWord) (s : State) : Res Bool :=
  (secondStage x .pteWrite cached gpa s).bind fun l s1 =>
    updatePte x.qos x.sbe x.fScheme.pteSize l.addr.toNat old new (x.stop x.acc.accessFault) (x.stop .ptCorruption) s1

/-- Cache a first-stage entry. -/
def fillS1 (x : WalkCtx) (va : DWord) (e : S1Step) (span : Nat) (pte : DWord) (s : State) : State :=
  s.fill (.s1 ⟨x.space, x.pscid, e.level, pageOf va, span, pte, e.gpath⟩)

/-- R300 from step 2. When the compare of step 7 fails, the step is taken again, from then on with memory alone
(log 34). -/
def s1Walk (x : WalkCtx) (va : DWord) : Nat → Bool → Bool → Nat → Nat → State → Res Leaf
  | 0, _, _, _, _, s => .stop (x.stop x.acc.pageFault) s
  | fuel + 1, cached, gpath, level, a, s =>
    (s1Fetch x cached gpath va level a s).bind fun e s1 =>
      match classify s1.cfg x.fScheme e.level e.pte with
      | .bad => .stop (x.stop x.acc.pageFault) s1
      | .pointer =>
        s1Walk x va fuel cached e.gpath (e.level - 1) ((ppnEntry e.pte).toNat * 4096)
          (fillS1 x va e (e.level * x.fScheme.vpnBits) e.pte s1)
      | .leaf span =>
        if !x.s1Permits e.pte then .stop (x.stop x.acc.pageFault) s1
        else if pteA e.pte && (!x.s1Writes || pteD e.pte) then
          .ok (Leaf.of e.pte span va e.gpath e.loc)
            (fillS1 x va e span e.pte s1)
        else if !x.sade then .stop (x.stop x.acc.pageFault) s1
        else
          match e.loc with
          | none => .stop (x.stop x.acc.pageFault) s1
          | some g =>
            let new := pteTouch e.pte x.s1Writes
            (s1Update x cached g e.pte new s1).bind fun done s2 =>
              if done then
                .ok (Leaf.of new span va e.gpath (some g))
                  (fillS1 x va e span new s2)
              else s1Walk x va fuel false gpath level a s2

/-- `first_stage(va, ...)` (R300). -/
def firstStage (x : WalkCtx) (cached : Bool) (va : DWord) (s : State) : Res Leaf :=
  if x.fScheme = .bare then .ok (Leaf.identity s.cfg va) s
  else if !canonical x.fScheme va then .stop (x.stop x.acc.pageFault) s
  else s1Walk x va (32 + s.others.length) cached false (x.fScheme.levels - 1) (x.fRoot.toNat * 4096) s

/-! ### Combining the stages (R310, R312) -/

/-- The resolved memory type (R310): a non-zero first-stage PBMT wins. -/
def resolvePbmt (f g : BitVec 2) : BitVec 2 := if f = 0#2 then g else f

/-! ### Locating the process context (R284, R285) -/

/-- `PDI[i]` (R163). -/
def pdi (pid : BitVec 20) : Nat → Nat
  | 0 => (pid.extractLsb' 0 8).toNat
  | 1 => (pid.extractLsb' 8 9).toNat
  | _ => (pid.extractLsb' 17 3).toNat

/-- The number of `process_id` bits below `PDI[i]`. -/
def pdiShift : Nat → Nat
  | 0 => 0
  | i + 1 => 8 + 9 * i

/-- One read of a PDT entry (R285 steps 3, 5 and 10). -/
def readPdt (x : WalkCtx) (a n : Nat) (s : State) : Res (List Byte) :=
  (secondStage x .pdt true (BitVec.ofNat 64 a) s).bind fun l s1 =>
    match (s1.countEvent .pdtWalk x.ids).readMem l.addr.toNat n x.qos with
    | (.accessFault, s2) => .stop (x.stop .pdtLoadAccess) s2
    | (.corrupt, s2) => .stop (x.stop .pdtCorruption) s2
    | (.ok bs, s2) => .ok bs s2

/-- R285 steps 11 to 13. -/
def checkPC (x : WalkCtx) (dc : DC) (pid : BitVec 20) (pc : PC) (s : State) : Res PC :=
  if !pc.v then .stop (x.stop .pdtNotValid) s
  else if pcMisconfigured s.cfg s.fctl.gxl dc pc then .stop (x.stop .pdtMisconfigured) s
  else .ok pc (s.fill (.pc x.ids.did pid pc))

/-- R285 steps 7 and 8. -/
def checkPdte (x : WalkCtx) (pid : BitVec 20) (i : Nat) (e : DWord) (s : State) : Res DWord :=
  if !e.getLsbD 0 then .stop (x.stop .pdtNotValid) s
  else if nonLeafReserved e then .stop (x.stop .pdtMisconfigured) s
  else .ok e (s.fill (.pdtNL x.ids.did i (pdiShift i) pid e))

/-- R285 from step 2 with the table of level `i` at (guest) address `a`. -/
def pdtWalk (x : WalkCtx) (dc : DC) (pid : BitVec 20) : Nat → Nat → State → Res PC
  | 0, a, s =>
    (readPdt x (a + pdi pid 0 * 16) 16 s).bind fun bs s1 =>
      checkPC x dc pid ⟨dwordAt x.sbe bs 0, dwordAt x.sbe bs 8⟩ s1
  | i + 1, a, s =>
    match s.choose (s.pdtCandidates x.ids.did (i + 1) pid) with
    | (some e, s1) =>
      (checkPdte x pid (i + 1) e s1).bind fun e s2 => pdtWalk x dc pid i ((ppnEntry e).toNat * 4096) s2
    | (none, s1) =>
      ((readPdt x (a + pdi pid (i + 1) * 8) 8 s1).bind fun bs s2 =>
        checkPdte x pid (i + 1) (dwordAt x.sbe bs 0) s2).bind fun e s3 =>
          pdtWalk x dc pid i ((ppnEntry e).toNat * 4096) s3

/-- LEVELS - 1 of R285 step 1. -/
def pdtRootLevel (mode : BitVec 4) : Nat :=
  if mode = 3#4 then 2 else if mode = 2#4 then 1 else 0

/-- `locate_PC(DC, process_id)` (R285), from the IOATC or from memory. -/
def locatePC (x : WalkCtx) (dc : DC) (pid : BitVec 20) (s : State) : Res PC :=
  match s.choose (s.pcCandidates x.ids.did pid) with
  | (some pc, s1) => checkPC x dc pid pc s1
  | (none, s1) => pdtWalk x dc pid (pdtRootLevel (modeHigh dc.fsc)) ((ppnLow dc.fsc).toNat * 4096) s1

end Sys2Proof.Machine
end

