-- ==== Sys2Proof/Machine/Msi.lean ====
section
/-! DEFINITION. MSI address translation (spec 21_translation.md R320 to R324; 11_data_structures.md R169 to R172) and the
store of an MSI into a memory-resident interrupt file with its notice MSI (D9; log 11). -/

namespace Sys2Proof.Machine

/-- `extract(x, y)` of R321 on the low `n` bits. -/
def extractBits : Nat → Nat → Nat → Nat
  | 0, _, _ => 0
  | n + 1, x, y =>
    if y % 2 = 1 then x % 2 + 2 * extractBits n (x / 2) (y / 2) else extractBits n (x / 2) (y / 2)

/-- The 52-bit MSI address mask (R159). -/
def DC.msiMask (d : DC) : BitVec 52 := d.msiAddrMask.extractLsb' 0 52

/-- The 52-bit MSI address pattern (R159). -/
def DC.msiPattern (d : DC) : BitVec 52 := d.msiAddrPattern.extractLsb' 0 52

/-- `is_msi_address(A, DC)` with step 18 of R270: MSI recognition is on and `A` matches (R159, R320). -/
def isMsiAddress (c : Cfg) (d : DC) (a : DWord) : Bool :=
  c.msiFlat && modeHigh d.msiptp != 0#4 && (pageOf a &&& ~~~d.msiMask) == (d.msiPattern &&& ~~~d.msiMask)

/-- The interrupt file number and the address of its MSI PTE: `m | (I * 16)` (R322 steps 5 to 7). -/
def msiPteAddr (d : DC) (a : DWord) : Nat :=
  ((ppnLow d.msiptp).toNat * 4096) ||| (extractBits 52 (pageOf a).toNat d.msiMask.toNat * 16)

/-- What an MSI PTE says of an address (R322 steps 13 and 14). -/
inductive MsiResult where
  | basic (spa : DWord)
  | mrif (info : MrifInfo)
deriving DecidableEq, Repr

/-- R322 steps 9 to 14 on an MSI PTE; the reserved bits are those of R170 and R171. A custom format (C = 1) is not
defined and is misconfigured (U16). In basic translate mode the second doubleword is ignored (log 10). -/
def msiDecode (c : Cfg) (dw0 dw1 a : DWord) : Except Cause MsiResult :=
  if !dw0.getLsbD 0 then .error .msiPteNotValid
  else if dw0.getLsbD 63 then .error .msiPteMisconfigured
  else if dw0.extractLsb' 1 2 = 3#2 then
    if dw0 &&& 0x7FC00000000003F8#64 != 0#64 then .error .msiPteMisconfigured
    else .ok (.basic (0#8 ++ ppnEntry dw0 ++ a.extractLsb' 0 12))
  else if dw0.extractLsb' 1 2 = 1#2 then
    if !c.msiMrif then .error .msiPteMisconfigured
    else if dw0 &&& 0x7FC0000000000078#64 != 0#64 || dw1 &&& 0xEFC0000000000000#64 != 0#64 then
      .error .msiPteMisconfigured
    else .ok (.mrif ⟨0#8 ++ dw0.extractLsb' 7 47 ++ 0#9, 0#8 ++ dw1.extractLsb' 10 44 ++ 0#12,
      0#21 ++ dw1.extractLsb' 60 1 ++ dw1.extractLsb' 0 10⟩)
  else .error .msiPteMisconfigured

/-- The MSI PTE from the IOATC or from memory (R322 steps 7 and 8, R330). -/
def msiFetch (x : WalkCtx) (a : DWord) (s : State) : Res (DWord × DWord) :=
  match s.choose (s.msiCandidates x.gscid (pageOf a)) with
  | (some e, s1) => .ok e s1
  | (none, s1) =>
    match s1.readMem (msiPteAddr x.dc a) 16 x.qos with
    | (.accessFault, s2) => .stop (x.stop .msiPteLoadAccess) s2
    | (.corrupt, s2) => .stop (x.stop .msiPtCorruption) s2
    | (.ok bs, s2) => .ok (dwordAt s2.fctl.be bs 0, dwordAt s2.fctl.be bs 8) s2

/-- `msi_translate(A, DC, req)` (R322). A debug request stops at an MRIF-mode PTE (R538), with Exe = 1 too: cause 260 comes
before the cause 1 of step 15a (DESIGN CHOICE, log 42). A read for execute stops at any PTE (step 15a); an ATS request does
not stop at an MRIF-mode one (R349). -/
def msiTranslate (x : WalkCtx) (debug : Bool) (a : DWord) (s : State) : Res MsiResult :=
  (msiFetch x a s).bind fun e s1 =>
    match msiDecode s1.cfg e.1 e.2 a with
    | .error c => .stop (x.stop c) s1
    | .ok r =>
      if debug && (match r with
                   | .mrif _ => true
                   | .basic _ => false) then .stop (x.stop .typeDisallowed) s1
      else if x.acc = .instruction then .stop (x.stop .instructionAccess) s1
      else .ok r (s1.fill (.msi x.gscid (pageOf a) e.1 e.2))

/-! ### Storing an MSI into an MRIF (R172, R324) -/

/-- The doubleword of an MRIF, which is little-endian, with bit `k` set. -/
def mrifSet (k : Nat) (bs : List Byte) : List Byte := toBytes false 8 (ofBytes false bs ||| 2 ^ k)

/-- The pending bit of identity `d` is set in its doubleword: atomically with `capabilities.AMO_MRIF`, else by a read and
a write (R172, R216). -/
def mrifPend (x : WalkCtx) (mrif d : Nat) (s : State) : Res Unit :=
  let pa := mrif + 16 * (d / 64)
  if s.cfg.amoMrif then
    match s.updateMem pa 8 (mrifSet (d % 64)) x.qos with
    | (.accessFault, s1) => .stop (x.stop .mrifAccess) s1
    | (.corrupt, s1) => .stop (x.stop .mrifCorruption) s1
    | (.ok _, s1) => .ok () s1
  else
    match s.readMem pa 8 x.qos with
    | (.accessFault, s1) => .stop (x.stop .mrifAccess) s1
    | (.corrupt, s1) => .stop (x.stop .mrifCorruption) s1
    | (.ok bs, s1) =>
      match s1.writeMem pa (mrifSet (d % 64) bs) x.qos with
      | (false, s2) => .stop (x.stop .mrifAccess) s2
      | (true, s2) => .ok () s2

/-- The notice MSI (R172); an access fault on it is cause 264 (D9). -/
def noticeMsi (x : WalkCtx) (info : MrifInfo) (s : State) : Res Unit :=
  match s.writeMem info.noticeAddr.toNat (toBytes s.fctl.be 4 info.noticeData.toNat) s.iommuQos with
  | (false, s1) => .stop (x.stop .mrifAccess) s1
  | (true, s1) => .ok () (s1.emit (.noticeMsi info.noticeAddr info.noticeData))

/-- Storing the MSI data value `d` (R172): discarded above 2047; else the pending bit is set and, if the enable bit is 1,
the notice MSI is sent. -/
def mrifStore (x : WalkCtx) (info : MrifInfo) (d : Nat) (s : State) : Res Unit :=
  if 2047 < d then .ok () s
  else
    (mrifPend x info.mrifAddr.toNat d s).bind fun _ s1 =>
      let pa := info.mrifAddr.toNat + 16 * (d / 64) + 8
      match s1.readMem pa 8 x.qos with
      | (.accessFault, s2) => .stop (x.stop .mrifAccess) s2
      | (.corrupt, s2) => .stop (x.stop .mrifCorruption) s2
      | (.ok bs, s2) => if (ofBytes false bs).testBit (d % 64) then noticeMsi x info s2 else .ok () s2

/-- An Untranslated or Translated request at a page whose MSI PTE is in MRIF mode (R324, D19): a read stops with cause 5,
a write that is not a naturally aligned 4-byte write with cause 7, any other write is stored. The four bytes of the
device's write give the data value little-endian (DESIGN CHOICE, log 11). -/
def mrifAccess (x : WalkCtx) (info : MrifInfo) (a : DWord) (data : List Byte) (s : State) : Res Unit :=
  if x.acc = .write ∧ data.length = 4 ∧ a.toNat % 4 = 0 then mrifStore x info (ofBytesLE data) s
  else .stop (x.stop x.acc.accessFault) s

end Sys2Proof.Machine
end

