-- ==== Sys2Proof/Machine/Translate.lean ====
section
/-! DEFINITION. The process to translate an IOVA (spec 21_translation.md R260 to R277) for Untranslated and Translated
requests and for the debug interface: the steps that select the contexts, the two stages, the completion, and the fault
(60_exceptions.md R565, R566). ATS Translation Requests share its first part and continue in Machine/Ats.lean. -/

namespace Sys2Proof.Machine

/-! ### Requests (R261, R262, R562, R563) -/

/-- The TTYP code of a transaction type (R562). -/
def Ttyp.code : Ttyp → BitVec 6
  | .untransExec => 1#6
  | .untransRead => 2#6
  | .untransWrite => 3#6
  | .transExec => 5#6
  | .transRead => 6#6
  | .transWrite => 7#6
  | .atsRequest => 8#6

/-- The original access type (R262); an ATS Translation Request walks as a read (R343 item a). -/
def Ttyp.acc : Ttyp → Acc
  | .untransExec => .instruction
  | .transExec => .instruction
  | .untransWrite => .write
  | .transWrite => .write
  | .untransRead => .read
  | .transRead => .read
  | .atsRequest => .read

/-- A Translated request (R270 step 8). -/
def Ttyp.translated : Ttyp → Bool
  | .transExec => true
  | .transRead => true
  | .transWrite => true
  | _ => false

/-- The HPM event of a request's entry (R633). -/
def Ttyp.event (t : Ttyp) : HpmEvent :=
  if t = .atsRequest then .atsRequest else if t.translated then .translated else .untranslated

/-- The effective privilege: Supervisor only with a process_id (R261 item d; log 39). -/
def Request.isSupervisor (r : Request) : Bool := r.pidValid && r.supervisor

/-- The identifiers of a request as it arrives (R635, D18). -/
def Request.ids (r : Request) : EventIds :=
  ⟨r.did, if r.pidValid then some r.pid else none, none, none⟩

/-- The fault record of a request (R563, R564). -/
def Request.record (r : Request) (f : Stop) : FaultRecord :=
  ⟨f.cause, r.ttyp.code, r.did, r.pidValid, if r.pidValid then r.pid else 0#20, r.isSupervisor, r.iova, f.iotval2⟩

/-! ### Steps 1 to 16: the contexts -/

/-- `pid_too_wide` (R273). -/
def pidTooWide (pid : BitVec 20) (mode : BitVec 4) : Bool :=
  (mode == 1#4 && pid.extractLsb' 8 12 != 0#12) || (mode == 2#4 && pid.extractLsb' 17 3 != 0#3)

/-- The identifiers once the device context is located (D36): GSCID is valid unless the second stage is Bare, and has the
bits the implementation keeps (R8; log 33). -/
def idsWithDC (c : Cfg) (r : Request) (gxl : Bool) (dc : DC) : EventIds :=
  { r.ids with gscid := if dc.gScheme gxl = .bare then none else some (gscidTag c dc.gscid) }

/-- The walk of a request with its first stage Bare (steps 9, 12 and 13). -/
def ctxOf (r : Request) (s : State) (dc : DC) : WalkCtx where
  acc := r.ttyp.acc
  ats := r.ttyp == .atsRequest
  nw := r.nw
  ids := idsWithDC s.cfg r s.fctl.gxl dc
  dc := dc
  qos := dc.qos s.cfg
  gScheme := dc.gScheme s.fctl.gxl
  gRoot := ppnLow dc.iohgatp
  gscid := gscidTag s.cfg dc.gscid
  gade := dc.gade
  fScheme := .bare
  fRoot := 0#44
  pscid := 0#20
  sade := dc.sade
  sbe := dc.sbe
  supervisor := r.isSupervisor
  sum := false

/-- The walk with the first-stage context `fsc`, `ta`, SUM (steps 10 and 16). PSCID is valid unless the stage is Bare
(D36). -/
def WalkCtx.withFirst (x : WalkCtx) (c : Cfg) (fsc ta : DWord) (sum : Bool) : WalkCtx :=
  let sch := (schemeOf x.dc.sxl (modeHigh fsc)).getD .bare
  { x with
    fScheme := sch
    fRoot := ppnLow fsc
    pscid := pscidTag c (pscidOf ta)
    sum := sum
    ids := { x.ids with pscid := if sch = .bare then none else some (pscidTag c (pscidOf ta)) } }

/-- What steps 1 to 16 lead to. -/
inductive Plan where
  /-- step 20 at once, "translated address same as the IOVA" -/
  | pass (qos : Qos)
  /-- steps 17 to 20 -/
  | walk (x : WalkCtx)
deriving DecidableEq, Repr

/-- Steps 7 to 16, the device context being located. -/
def planWithDC (r : Request) (dc : DC) (s : State) : Res Plan :=
  let x := ctxOf r s dc
  if (r.ttyp.translated || r.ttyp == .atsRequest) && (!dc.enAts || !s.cfg.ats) then .stop (x.stop .typeDisallowed) s
  else if r.pidValid && !dc.pdtv then .stop (x.stop .typeDisallowed) s
  else if r.pidValid && pidTooWide r.pid (modeHigh dc.fsc) then .stop (x.stop .typeDisallowed) s
  else if r.ttyp.translated then (if dc.t2gpa then .ok (.walk x) s else .ok (.pass (dc.qos s.cfg)) s)
  else if !dc.pdtv then .ok (.walk (x.withFirst s.cfg dc.fsc dc.ta false)) s
  else if !r.pidValid && !dc.dpe then .ok (.walk x) s
  else if modeHigh dc.fsc = 0#4 then .ok (.walk x) s
  else
    (locatePC x dc (if r.pidValid then r.pid else 0#20) s).bind fun pc s1 =>
      if r.isSupervisor && !pc.ens then .stop (x.stop .typeDisallowed) s1
      else .ok (.walk (x.withFirst s1.cfg pc.fsc pc.ta pc.sum)) s1

/-- Steps 1 to 16 (R270), after the check for an internal error (R568). -/
def plan (r : Request) (s : State) : Res Plan :=
  if r.internalError then .stop (stopEarly r.ids .internalError) s
  else
    match s.ddtp.mode with
    | .off => .stop (stopEarly r.ids .allDisallowed) s
    | .bare =>
      if r.ttyp.translated || r.ttyp == .atsRequest then .stop (stopEarly r.ids .typeDisallowed) s
      else .ok (.pass s.iommuQos) s
    | mode =>
      if didTooWide s.cfg.msiFlat mode r.did then .stop (stopEarly r.ids .typeDisallowed) s
      else (locateDC r.ids s).bind fun dc s1 => planWithDC r dc s1

/-! ### Steps 17 to 20 -/

/-- A completion with the identifiers for the event "TLB miss". -/
structure Done where
  c : Success
  ids : EventIds
deriving DecidableEq, Repr

/-- A combined entry that gives the access all it needs (R234; log 36), at a guest page that is not one of the interrupt
files: those are found by step 18 (R270, R320). -/
def s12Permits (c : Cfg) (x : WalkCtx) (iova : DWord) (e : S12Entry) : Bool :=
  !isMsiAddress c x.dc (blockAddr e.guestPage.toNat e.span iova) &&
  privPermits x.supervisor x.sum (x.acc = .instruction) e.u &&
    (match x.acc with
     | .read => e.r
     | .write => e.w && e.d
     | .instruction => e.x)

/-- The completion from a combined entry. -/
def s12Success (x : WalkCtx) (iova : DWord) (e : S12Entry) : Success :=
  ⟨blockAddr e.spaPage.toNat e.span iova, e.span, e.r, e.w, e.x, e.pbmt, x.qos, none⟩

/-- The combined entry of a translation in which both stages are paged. An ADDR of IOTINVAL.GVMA is valid for it within the
guest-physical width of its second-stage scheme, which SXL does not narrow (R414; DESIGN CHOICE, log 19). -/
def s12Of (x : WalkCtx) (iova : DWord) (l1 l2 : Leaf) : S12Entry :=
  ⟨x.gscid, x.pscid, pageOf iova, pageOf l1.addr, pageOf l2.addr, min l1.span l2.span, l1.span, x.gScheme.width + 2 - 12,
   l1.r && l2.r, l1.w && l2.w, l1.x && l2.x, l1.u, l1.d && l2.d, l1.global, resolvePbmt l1.pbmt l2.pbmt⟩

/-- Both stages translate: only then is there a combined entry. -/
def WalkCtx.twoStage (x : WalkCtx) : Bool := x.fScheme != .bare && x.gScheme != .bare

/-- Steps 17 to 20 by walking (R276, R310, R312). An MSI PTE has no PBMT: the memory type of an MSI page is the first
stage's (DESIGN CHOICE, log 11). At an MRIF-mode page the completion carries the MRIF's addresses, and its `spa` is a
free value (R322, R324). -/
def walkStages (x : WalkCtx) (r : Request) (debug : Bool) (s : State) : Res Success :=
  (firstStage x true r.iova s).bind fun l1 s1 =>
    if isMsiAddress s1.cfg x.dc l1.addr then
      (msiTranslate x debug l1.addr s1).bind fun m s2 =>
        match m with
        | .basic spa => .ok ⟨spa, 0, l1.r, l1.w, false, l1.pbmt, x.qos, none⟩ s2
        | .mrif info =>
          (mrifAccess x info l1.addr r.data s2).bind fun _ s3 =>
            let (a, s4) := s3.freshValue
            .ok ⟨a, 0, l1.r, l1.w, false, l1.pbmt, x.qos, some info⟩ s4
    else
      (secondStage x .final true l1.addr s1).bind fun l2 s2 =>
        .ok ⟨l2.addr, min l1.span l2.span, l1.r && l2.r, l1.w && l2.w, l1.x && l2.x, resolvePbmt l1.pbmt l2.pbmt,
            x.qos, none⟩
          (if x.twoStage then s2.fill (.s12 (s12Of x r.iova l1 l2)) else s2)

/-- Steps 17 to 20, from a combined entry or by walking. -/
def runWalk (x : WalkCtx) (r : Request) (debug : Bool) (s : State) : Res Success :=
  let cands := if x.twoStage then s.s12Candidates x.gscid x.pscid (pageOf r.iova) (s12Permits s.cfg x r.iova) else []
  match s.choose cands with
  | (some e, s1) => .ok (s12Success x r.iova e) s1
  | (none, s1) => walkStages x r debug s1

/-- `translate(req)` (R260, R270). -/
def translate (r : Request) (debug : Bool) (s : State) : Res Done :=
  (plan r s).bind fun p s1 =>
    match p with
    | .pass q => .ok ⟨⟨r.iova, s1.cfg.bareSpan, true, true, true, 0#2, q, none⟩, r.ids⟩ s1
    | .walk x => (runWalk x r debug s1).bind fun c s2 => .ok ⟨c, x.ids⟩ s2

/-! ### The completion -/

/-- The request enters (R633 events 1 to 3). -/
def State.enter (s : State) (r : Request) : State :=
  ({ s with walked := false } : State).countEvent r.ttyp.event r.ids

/-- The event "TLB miss", once for a request that read a page-table entry from memory (R633; log 24). -/
def State.leave (s : State) (ids : EventIds) : State :=
  if s.walked then s.countEvent .tlbMiss ids else s

/-- The device's own access, to be committed later (R433; log 28). An MSI stored in an MRIF has been made already. -/
def State.startAccess (s : State) (r : Request) (c : Success) : State :=
  if c.mrif.isSome then s
  else if r.ttyp.acc = .write then
    { s with uncommittedWrites := s.uncommittedWrites ++ [⟨r.tag, c.spa.toNat, r.data⟩] }
  else { s with uncommittedReads := s.uncommittedReads ++ [⟨r.tag, c.spa.toNat, r.len⟩] }

/-- An Untranslated or Translated request from entry to completion or abort (R263, R264, R565, R566). -/
def serveRequest (r : Request) (s : State) : State :=
  match translate r false (s.enter r) with
  | .ok d s1 => (((s1.leave d.ids).startAccess r d.c).emit (.completion r.tag d.c))
  | .stop f s1 =>
    (s1.leave f.ids).takeFault (r.record f) false f.dtf (some (.abort r.tag s1.plat.abortData))

end Sys2Proof.Machine
end

