-- ==== Sys2Proof/Machine/Ats.lean ====
section
/-! DEFINITION. ATS Translation Requests (spec 22_ats_pri.md R340 to R353), Page Requests and the page-request queue
(R360 to R368), and the Invalidation Completion message (43_ats_commands.md R461, R463; 22_ats_pri.md R353). -/

namespace Sys2Proof.Machine

/-! ### The walk of an ATS Translation Request (R342, R343, R348, R349) -/

/-- A completed ATS translation before its response: the two leaves' permissions combined, and the outcome of R348's
privilege test. -/
structure AtsDone where
  addr : DWord
  span : Nat
  r : Bool
  w : Bool
  x : Bool
  uOnly : Bool
  global : Bool
  msi : Bool
  pbmt : BitVec 2
  privOk : Bool
deriving DecidableEq, Repr

/-- R348's privilege test; the U bit is taken as matching when the first stage is Bare. -/
def atsPrivOk (x : WalkCtx) (l1 : Leaf) : Bool :=
  x.fScheme == .bare || privPermits x.supervisor x.sum false l1.u

/-- W "would be granted" by the page tables to a request that asks for it (R343 item e). -/
def atsWantsW (x : WalkCtx) (l1 : Leaf) (w2 : Bool) : Bool :=
  !x.nw && l1.w && w2 && atsPrivOk x l1

/-- Set D in a second-stage leaf at `loc` if it is still what the walk read; answers whether it was (R216). -/
def s2SetD (x : WalkCtx) (loc : Option (DWord × DWord)) (s : State) : Res Bool :=
  match loc with
  | none => .ok true s
  | some (pa, pte) =>
    updatePte x.qos s.fctl.be x.gScheme.pteSize pa.toNat pte (pteTouch pte true) (x.stop x.acc.accessFault)
      (x.stop .ptCorruption) s

/-- Set D in a first-stage leaf at `loc` if it is still what the walk read. -/
def s1SetD (x : WalkCtx) (cached : Bool) (loc : Option (DWord × DWord)) (s : State) : Res Bool :=
  match loc with
  | none => .ok true s
  | some (gpa, pte) => s1Update x cached gpa pte (pteTouch pte true) s

/-- R343 item e: set the D bits that granting W needs. Answers none when an entry has changed and the walk is to be
taken again, else whether W may be granted. `d2` and `clean2` are the second stage's. -/
def atsDirty (x : WalkCtx) (cached : Bool) (l1 : Leaf) (w2 d2 : Bool) (clean2 : Option (DWord × DWord)) (s : State) :
    Res (Option Bool) :=
  if !atsWantsW x l1 w2 then .ok (some (l1.w && w2)) s
  else if (l1.d || x.sade) && (d2 || x.gade) then
    (s1SetD x cached l1.clean s).bind fun ok1 s1 =>
      if ok1 then (s2SetD x clean2 s1).bind fun ok2 s2 => .ok (if ok2 then some true else none) s2
      else .ok none s1
  else .ok (some false) s

/-- Steps 17 to 19 of R270 for an ATS Translation Request. With T2GPA the address is the GPA of step 17, at an MSI page
too (R148, R342); without it an MRIF-mode page gives a free value (R349; log 13). An entry that changed between its
reading and the update of its D bit makes the walk start again with memory alone (log 34). A stop after step 17 says
what the leaves have shown of the page: that it is an MSI page, and a memory type the first stage gives even if the
second stage stops (R351; log 13). -/
def atsWalk (x : WalkCtx) (iova : DWord) (t2gpa : Bool) : Nat → Bool → State → Res AtsDone
  | 0, _, s => .stop (x.stop x.acc.pageFault) s
  | fuel + 1, cached, s =>
    (firstStage x cached iova s).bind fun l1 s1 =>
      if isMsiAddress s1.cfg x.dc l1.addr then
        ((msiTranslate x false l1.addr s1).finding ⟨true, l1.pbmt⟩).bind fun m s2 =>
          ((atsDirty x cached l1 true true none s2).finding ⟨true, l1.pbmt⟩).bind fun w s3 =>
            match w with
            | none => atsWalk x iova t2gpa fuel false s3
            | some w =>
              match m with
              | .basic spa =>
                .ok ⟨if t2gpa then l1.addr else spa, 0, l1.r, w, false, false, false, true, l1.pbmt, atsPrivOk x l1⟩ s3
              | .mrif _ =>
                let (v, s4) := s3.freshValue
                .ok ⟨if t2gpa then l1.addr else v, 0, l1.r, w, false, true, false, true, l1.pbmt, atsPrivOk x l1⟩ s4
      else
        ((secondStage x .final cached l1.addr s1).finding ⟨false, l1.pbmt⟩).bind fun l2 s2 =>
          ((atsDirty x cached l1 l2.w l2.d l2.clean s2).finding ⟨false, resolvePbmt l1.pbmt l2.pbmt⟩).bind fun w s3 =>
            match w with
            | none => atsWalk x iova t2gpa fuel false s3
            | some w =>
              .ok ⟨if t2gpa then l1.addr else l2.addr, min l1.span l2.span, l1.r && l2.r, w, l1.x && l2.x, false,
                l1.global, false, resolvePbmt l1.pbmt l2.pbmt, atsPrivOk x l1⟩ s3

/-! ### The response (R344 to R351) -/

/-- What is known of a request for its CXL.io bit (R351). -/
structure CxlInfo where
  msi : Bool
  t2gpa : Bool
  pbmt : BitVec 2
deriving DecidableEq, Repr

/-- The CXL.io bit (R351): a free choice where the spec leaves it UNSPECIFIED (U20). -/
def cxlIoBit (r : Request) (i : CxlInfo) (s : State) : Bool × State :=
  if !r.isCxl then (false, s)
  else if i.msi || i.t2gpa || i.pbmt != 0#2 then (true, s)
  else
    let (k, s1) := s.draw 2
    (k == 1, s1)

/-- The page of a free value, the translated address of a completion with R = W = 0 (R346, U18). -/
def freePage (s : State) : DWord × State :=
  let (v, s1) := s.freshValue
  (v &&& 0xFFFFFFFFFFFFF000#64, s1)

/-- R348: the permissions of the response, X only to a request with a PASID (R261 item c); with No-Write set, W is 0 or
what the tables give (U19). -/
def atsPerms (x : WalkCtx) (q : Request) (d : AtsDone) (s : State) : (Bool × Bool × Bool) × State :=
  if !d.privOk then ((false, false, false), s)
  else
    let px := d.x && d.r && q.pidValid && q.exe
    if x.nw && d.w then
      let (k, s1) := s.draw 2
      ((d.r, k == 1, px), s1)
    else ((d.r, d.w, px), s)

/-- The Success response of a completed ATS translation (R348 to R351), with the QoS identifiers of the device context (R219,
R260). Global is the first stage's also where the
privilege test of R348 failed (DESIGN CHOICE, log 13). -/
def atsSuccess (x : WalkCtx) (q : Request) (d : AtsDone) (s : State) : AtsSuccess × State :=
  let (p, s1) := atsPerms x q d s
  let (io, s2) := cxlIoBit q ⟨d.msi, x.dc.t2gpa, d.pbmt⟩ s1
  let (a, s3) := if p.1 || p.2.1 then (d.addr &&& 0xFFFFFFFFFFFFF000#64, s2) else freePage s2
  (⟨a, d.span, p.1, p.2.1, p.2.2, d.uOnly, q.isSupervisor, false, q.pidValid && d.global, io, 0#3,
    some x.qos⟩, s3)

/-- The Success response with R = W = 0 to a request that met one of the causes of R346; its CXL.io bit goes by what the
walk had found of the page (R351). No translation was completed, so it has no QoS identifiers (R219; log 27). -/
def atsNoAccess (q : Request) (f : Stop) (s : State) : AtsSuccess × State :=
  let t2gpa := match f.dc with
    | none => false
    | some d => d.t2gpa
  let p := f.page.getD ⟨false, 0#2⟩
  let (io, s1) := cxlIoBit q ⟨p.msi, t2gpa, p.pbmt⟩ s
  let (a, s2) := freePage s1
  (⟨a, 0, false, false, false, false, q.isSupervisor, false, false, io, 0#3, none⟩, s2)

/-- The three kinds of answer to a fault of an ATS Translation Request. -/
inductive AtsFaultKind where
  | completerAbort
  | unsupportedRequest
  | noAccess
deriving DecidableEq, Repr

/-- R344, R345, R346, R347 (D22). -/
def Cause.atsKind : Cause → AtsFaultKind
  | .instructionPage => .noAccess
  | .readPage => .noAccess
  | .writePage => .noAccess
  | .instructionGuestPage => .noAccess
  | .readGuestPage => .noAccess
  | .writeGuestPage => .noAccess
  | .pdtNotValid => .noAccess
  | .msiPteNotValid => .noAccess
  | .allDisallowed => .unsupportedRequest
  | .ddtLoadAccess => .unsupportedRequest
  | .ddtNotValid => .unsupportedRequest
  | .ddtMisconfigured => .unsupportedRequest
  | .typeDisallowed => .unsupportedRequest
  | _ => .completerAbort

/-- A fault of an ATS Translation Request (R344 to R347). -/
def atsFault (q : Request) (f : Stop) (s : State) : State :=
  match f.cause.atsKind with
  | .noAccess =>
    let (c, s1) := atsNoAccess q f s
    s1.takeFault (q.record f) true f.dtf (some (.ats q.tag (.success c)))
  | .unsupportedRequest => s.takeFault (q.record f) false f.dtf (some (.ats q.tag .unsupportedRequest))
  | .completerAbort => s.takeFault (q.record f) false f.dtf (some (.ats q.tag .completerAbort))

/-- An ATS Translation Request up to its Success response (R342). Steps 2 and 8 of R270 never pass one through. -/
def atsTranslate (q : Request) (s : State) : Res (AtsSuccess × EventIds) :=
  (plan q s).bind fun p s1 =>
    match p with
    | .pass _ => .stop (stopEarly q.ids .typeDisallowed) s1
    | .walk x =>
      (atsWalk x q.iova x.dc.t2gpa (8 + s1.others.length) true s1).bind fun d s2 =>
        let (c, s3) := atsSuccess x q d s2
        .ok (c, x.ids) s3

/-- An ATS Translation Request from entry to response. -/
def serveAts (q : Request) (s : State) : State :=
  match atsTranslate q (s.enter q) with
  | .ok d s1 => (s1.leave d.2).emit (.ats q.tag (.success d.1))
  | .stop f s1 => atsFault q f (s1.leave f.ids)

/-! ### Messages (R360, R361) -/

/-- Steps 1 to 6 of R270 for a message. -/
def messageDC (ids : EventIds) (s : State) : Res DC :=
  match s.ddtp.mode with
  | .off => .stop (stopEarly ids .allDisallowed) s
  | .bare => .stop (stopEarly ids .typeDisallowed) s
  | mode =>
    if didTooWide s.cfg.msiFlat mode ids.did then .stop (stopEarly ids .typeDisallowed) s
    else locateDC ids s

/-- The PCIe message code of a Page Request (PRESUMED, log 15). -/
def pageRequestCode : DWord := 0x04#64

/-- The PCIe message code of an Invalidation Completion (PRESUMED, log 14). -/
def invalCompletionCode : DWord := 0x02#64

/-! ### The page-request queue (R365 to R368) -/

/-- "If R and W are both 0 and L is 1, the message is 'Stop Marker'" (R368). -/
def PageRequest.stopMarker (m : PageRequest) : Bool := m.l && !m.r && !m.w

/-- The two doublewords of a page-request record (R181, R368). Of a message without a PASID, PID is 0: R368 says only that
it is valid if PV is 1 (DESIGN CHOICE, log 48). -/
def PageRequest.dwords (m : PageRequest) : List DWord :=
  [m.did ++ 0#5 ++ bit (m.pasidValid && m.exec) ++ bit (m.pasidValid && m.priv) ++ bit m.pasidValid
     ++ (if m.pasidValid then m.pasid else 0#20) ++ 0#12,
   m.page ++ m.prgi ++ bit m.l ++ bit m.w ++ bit m.r]

/-- `pq_enqueue(msg)` (R365): none when queued, else the status of the response. On an access fault either doubleword
that does not fault itself may have reached memory (log 7). -/
def State.pqEnqueue (s : State) (m : PageRequest) : Option PrgStatus × State :=
  if !s.pqcsr.en || !s.pqcsr.on then (some .responseFailure, s)
  else if s.pqcsr.mf then (some .responseFailure, s)
  else if s.pqcsr.ovf then (some .success, s)
  else if s.pqb.next s.pqt = s.pqh then
    (some .success, ({ s with pqcsr := { s.pqcsr with ovf := true } } : State).updatePip)
  else
    match s.storeRecord (s.pqb.entryAddr 4 s.pqt) m.dwords with
    | (false, s1) => (some .responseFailure, ({ s1 with pqcsr := { s1.pqcsr with mf := true } } : State).updatePip)
    | (true, s1) =>
      let s2 := { s1 with pqt := s1.pqb.next s1.pqt }
      (none, if s2.pqcsr.ie then s2.raiseIp .pq else s2)

/-- `respond(status)` (R361, R362, R363): `prpr` is the DC's PRPR, 0 if no valid DC was located. -/
def State.respondPrg (s : State) (m : PageRequest) (prpr : Bool) (status : PrgStatus) : State :=
  if !m.l || m.stopMarker || !s.cfg.priAutoResponse then s
  else
    s.emit (.prgAuto m.did m.prgi
      (if m.pasidValid && (status == .responseFailure || prpr) then some m.pasid else none) status)

/-- The status for a fault met before the queue (R362, D23). -/
def Cause.prgStatus : Cause → PrgStatus
  | .typeDisallowed => .invalidRequest
  | _ => .responseFailure

/-- The fault record of a Page Request (R563, R564). -/
def PageRequest.record (m : PageRequest) (c : Cause) : FaultRecord :=
  ⟨c, 9#6, m.did, m.pasidValid, if m.pasidValid then m.pasid else 0#20, m.pasidValid && m.priv, pageRequestCode, 0#64⟩

/-- `page_request(msg)` (R361). -/
def servePageRequest (m : PageRequest) (s : State) : State :=
  match messageDC ⟨m.did, if m.pasidValid then some m.pasid else none, none, none⟩ s with
  | .stop f s1 =>
    (s1.takeFault (m.record f.cause) false f.dtf none).respondPrg m false f.cause.prgStatus
  | .ok dc s1 =>
    if !dc.enPri || !dc.enAts then
      (s1.takeFault (m.record .typeDisallowed) false dc.dtf none).respondPrg m dc.prpr .invalidRequest
    else
      match s1.pqEnqueue m with
      | (none, s2) => s2
      | (some st, s2) => s2.respondPrg m dc.prpr st

/-! ### Invalidation Completions (R353, R461) -/

/-- The completion answers this outstanding ATS.INVAL: its number, the routing id, and the segment if one was given. -/
def OutstandingInval.answeredBy (o : OutstandingInval) (did : BitVec 24) (itag : Nat) : Bool :=
  o.itag == itag && o.rid == did.extractLsb' 0 16 &&
    (match o.segment with
     | none => true
     | some g => g == did.extractLsb' 16 8)

/-- An "Invalidation Completion" from a device: an unsupported request unless its EN_ATS is 1 (R340, R353; log 14), else
it completes the ATS.INVAL it answers; one that answers nothing is dropped (R528). -/
def serveInvalCompletion (did : BitVec 24) (itag : Nat) (s : State) : State :=
  match messageDC ⟨did, none, none, none⟩ s with
  | .stop f s1 =>
    s1.takeFault ⟨f.cause, 9#6, did, false, 0#20, false, invalCompletionCode, 0#64⟩ false f.dtf none
  | .ok dc s1 =>
    if !dc.enAts then
      s1.takeFault ⟨.typeDisallowed, 9#6, did, false, 0#20, false, invalCompletionCode, 0#64⟩ false dc.dtf none
    else { s1 with outstanding := s1.outstanding.filter fun o => !o.answeredBy did itag }

/-- The protocol-defined timeout of an ATS.INVAL that is at least `Cfg.ats_inval_timeout` old (R463; log 23). -/
def serveInvalTimeout (itag : Nat) (s : State) : State :=
  if s.outstanding.any (fun o => o.itag == itag && decide (s.cfg.atsInvalTimeout ≤ o.age)) then
    { s with outstanding := s.outstanding.filter (fun o => o.itag != itag), timedOut := true }
  else s

end Sys2Proof.Machine
end

