-- ==== Sys2Proof/Machine/Debug.lean ====
section
/-! DEFINITION. The debug translation interface (spec 45_register_operations.md R535 to R541). -/

namespace Sys2Proof.Machine

/-- The request `tr_req_iova` and `tr_req_ctl` describe (R537, D32; Exe = 1 with NW = 0 acts as NW = 1, U8). It
meets no internal error (DESIGN CHOICE, log 42). -/
def State.debugRequest (s : State) : Request where
  tag := 0
  did := s.trReqCtl.did
  pidValid := s.trReqCtl.pv
  pid := s.trReqCtl.pid
  supervisor := s.trReqCtl.priv
  iova := s.trReqIova ++ 0#12
  ttyp := if s.trReqCtl.exe then .untransExec else if s.trReqCtl.nw then .untransRead else .untransWrite
  len := 0
  data := []
  exe := false
  nw := false
  isCxl := false
  internalError := false

/-- `encode_response(spa, size)` of R540 for `2^k` pages. The 44 bits of PPN are the low ones of a page number of 2^44 or
more, which a translation that is Bare can give (DESIGN CHOICE, log 29). -/
def responsePpn (spa : DWord) (k : Nat) : BitVec 44 :=
  if k = 0 then spa.extractLsb' 12 44
  else BitVec.ofNat 44 ((spa.extractLsb' 12 44).toNat / 2 ^ k * 2 ^ k + (2 ^ (k - 1) - 1))

/-- The size reported: the size of the translation, or the largest one the implementation reports (R540, U24; log 29). -/
def reportedSpan (c : Cfg) (span : Nat) : Nat := min span c.debugSpanMax

/-- `tr_response` of a success (R540, R61). -/
def responseOk (c : Cfg) (r : Success) : DWord :=
  let k := reportedSpan c r.span
  0#10 ++ responsePpn r.spa k ++ bit (k != 0) ++ r.pbmt ++ 0#7

/-- `tr_response` of a fault: PBMT, S and PPN are UNSPECIFIED (R61, U11), a free value; the other bits are 0. -/
def responseFault (free : DWord) : DWord := (free &&& 0x003FFFFFFFFFFF80#64) ||| 1#64

/-- `debug_translate()` (R537, R539, R541), to its completion: Go/Busy is 0 again. -/
def State.debugTranslate (s : State) : State :=
  let r := s.debugRequest
  match translate r true (s.enter r) with
  | .ok d s1 =>
    let s2 := s1.leave d.ids
    { s2 with trResponse := responseOk s2.cfg d.c, trReqCtl := { s2.trReqCtl with goBusy := false } }
  | .stop f s1 =>
    let (v, s2) := ((s1.leave f.ids).takeFault (r.record f) false f.dtf none).freshValue
    { s2 with trResponse := responseFault v, trReqCtl := { s2.trReqCtl with goBusy := false } }

end Sys2Proof.Machine
end

