-- ==== Sys2Proof/Machine/Registers.lean ====
section
/-! DEFINITION. The register page (spec 10_state.md R32 to R65; 45_register_operations.md R510 to R545): the layout, what
a read returns, what a write does. Reserved, custom and absent registers read 0 and ignore writes (R33, R65, U35, U36).
Writes take full effect at once (D15; log 5); a write the spec calls UNSPECIFIED is ignored (U2 to U7; log 16). -/

namespace Sys2Proof.Machine

/-- The registers of R33; `iohpmctr n` is `iohpmctr(n+1)`. -/
inductive Reg where
  | capabilities
  | fctl
  | ddtp
  | cqb
  | cqh
  | cqt
  | fqb
  | fqh
  | fqt
  | pqb
  | pqh
  | pqt
  | cqcsr
  | fqcsr
  | pqcsr
  | ipsr
  | iocountovf
  | iocountinh
  | iohpmcycles
  | iohpmctr (n : Fin 31)
  | iohpmevt (n : Fin 31)
  | trReqIova
  | trReqCtl
  | trResponse
  | iommuQosid
  | icvec
  | msiAddr (x : Fin 16)
  | msiData (x : Fin 16)
  | msiVecCtl (x : Fin 16)
deriving DecidableEq, Repr

/-- An 8-byte register (R33). -/
def Reg.wide : Reg → Bool
  | .capabilities => true
  | .ddtp => true
  | .cqb => true
  | .fqb => true
  | .pqb => true
  | .iohpmcycles => true
  | .iohpmctr _ => true
  | .iohpmevt _ => true
  | .trReqIova => true
  | .trReqCtl => true
  | .trResponse => true
  | .icvec => true
  | .msiAddr _ => true
  | _ => false

/-- The register at an offset below 104, and those at 600 to 760 (R33). -/
def fixedReg (off : Nat) : Option Reg :=
  match off with
  | 0 => some .capabilities
  | 8 => some .fctl
  | 16 => some .ddtp
  | 24 => some .cqb
  | 32 => some .cqh
  | 36 => some .cqt
  | 40 => some .fqb
  | 48 => some .fqh
  | 52 => some .fqt
  | 56 => some .pqb
  | 64 => some .pqh
  | 68 => some .pqt
  | 72 => some .cqcsr
  | 76 => some .fqcsr
  | 80 => some .pqcsr
  | 84 => some .ipsr
  | 88 => some .iocountovf
  | 92 => some .iocountinh
  | 96 => some .iohpmcycles
  | 600 => some .trReqIova
  | 608 => some .trReqCtl
  | 616 => some .trResponse
  | 624 => some .iommuQosid
  | 760 => some .icvec
  | _ => none

/-- The register whose first byte is at the offset (R33, R64). -/
def regAt (off : Nat) : Option Reg :=
  if off < 104 then fixedReg off
  else if off < 352 then (if off % 8 = 0 then some (.iohpmctr (Fin.ofNat 31 ((off - 104) / 8))) else none)
  else if off < 600 then (if off % 8 = 0 then some (.iohpmevt (Fin.ofNat 31 ((off - 352) / 8))) else none)
  else if off < 768 then fixedReg off
  else if off < 1024 then
    (if off % 16 = 0 then some (.msiAddr (Fin.ofNat 16 ((off - 768) / 16)))
     else if off % 16 = 8 then some (.msiData (Fin.ofNat 16 ((off - 768) / 16)))
     else if off % 16 = 12 then some (.msiVecCtl (Fin.ofNat 16 ((off - 768) / 16)))
     else none)
  else none

/-- R33's last column, and the entries and counters that are not implemented (R57, R64). -/
def Reg.present (c : Cfg) : Reg → Bool
  | .pqb => c.ats
  | .pqh => c.ats
  | .pqt => c.ats
  | .pqcsr => c.ats
  | .iocountovf => c.hpm
  | .iocountinh => c.hpm
  | .iohpmcycles => c.hpm
  | .iohpmctr n => c.hpm && decide (n.val < c.hpmCounters)
  | .iohpmevt n => c.hpm && decide (n.val < c.hpmCounters)
  | .trReqIova => c.dbg
  | .trReqCtl => c.dbg
  | .trResponse => c.dbg
  | .iommuQosid => c.qosid
  | .msiAddr x => c.igs != .wsi && decide (x.val < c.nVectors)
  | .msiData x => c.igs != .wsi && decide (x.val < c.nVectors)
  | .msiVecCtl x => c.igs != .wsi && decide (x.val < c.nVectors)
  | _ => true

/-! ### What a register reads as -/

/-- `capabilities.IGS` (R34). -/
def igsCode : Igs → BitVec 2
  | .msi => 0#2
  | .wsi => 1#2
  | .both => 2#2

/-- `capabilities` (R34), from bit 63 down. -/
def capabilitiesImage (c : Cfg) : DWord :=
  c.capCustom ++ 0#12 ++ bit c.rangeInval ++ bit c.nl ++ bit c.qosid ++ bit c.pd20 ++ bit c.pd17 ++ bit c.pd8
    ++ BitVec.ofNat 6 c.pas ++ bit c.dbg ++ bit c.hpm ++ igsCode c.igs ++ bit c.endBoth ++ bit c.t2gpa ++ bit c.ats
    ++ bit c.amoHwad ++ bit c.msiMrif ++ bit c.msiFlat ++ bit c.amoMrif ++ 0#1 ++ bit c.sv57x4 ++ bit c.sv48x4
    ++ bit c.sv39x4 ++ bit c.sv32x4 ++ bit c.svpbmt ++ bit c.svrsw60t59b ++ 0#2 ++ bit c.sv57 ++ bit c.sv48
    ++ bit c.sv39 ++ bit c.sv32 ++ c.version

/-- `fctl` (R36). -/
def Fctl.image (r : Fctl) : BitVec 32 := 0#29 ++ bit r.gxl ++ bit r.wsi ++ bit r.be

/-- The encoding of `iommu_mode` (R38). -/
def IommuMode.code : IommuMode → BitVec 4
  | .off => 0#4
  | .bare => 1#4
  | .lvl1 => 2#4
  | .lvl2 => 3#4
  | .lvl3 => 4#4

/-- `ddtp` (R38). -/
def Ddtp.image (r : Ddtp) : DWord := 0#10 ++ r.ppn ++ 0#5 ++ bit r.busy ++ r.mode.code

/-- `cqb`, `fqb`, `pqb` (R40). -/
def QBase.image (r : QBase) : DWord := 0#10 ++ r.ppn ++ 0#5 ++ r.log2szm1

/-- `cqcsr` (R50). -/
def Cqcsr.image (r : Cqcsr) : BitVec 32 :=
  0#14 ++ bit r.busy ++ bit r.cqon ++ 0#4 ++ bit r.fenceWIp ++ bit r.cmdIll ++ bit r.cmdTo ++ bit r.cqmf ++ 0#6
    ++ bit r.cie ++ bit r.cqen

/-- `fqcsr` and `pqcsr` (R51, R52). -/
def OutCsr.image (r : OutCsr) : BitVec 32 :=
  0#14 ++ bit r.busy ++ bit r.on ++ 0#6 ++ bit r.ovf ++ bit r.mf ++ 0#6 ++ bit r.ie ++ bit r.en

/-- `ipsr` (R53). -/
def Ipsr.image (r : Ipsr) : BitVec 32 := 0#28 ++ bit r.pip ++ bit r.pmip ++ bit r.fip ++ bit r.cip

/-- `iohpmevtN` (R58). -/
def HpmEvt.image (r : HpmEvt) : DWord :=
  bit r.ovf ++ bit r.idt ++ bit r.dvGscv ++ bit r.pvPscv ++ r.didGscid ++ r.pidPscid ++ bit r.dmask ++ r.eventId

/-- `tr_req_ctl` (R60). -/
def TrReqCtl.image (r : TrReqCtl) : DWord :=
  r.did ++ 0#7 ++ bit r.pv ++ r.pid ++ 0#8 ++ bit r.nw ++ bit r.exe ++ bit r.priv ++ bit r.goBusy

/-- `iommu_qosid` (R62). -/
def Qos.image (r : Qos) : BitVec 32 := 0#4 ++ r.mcid ++ 0#4 ++ r.rcid

/-- `icvec` (R63). -/
def Icvec.image (r : Icvec) : DWord := 0#48 ++ r.piv ++ r.pmiv ++ r.fiv ++ r.civ

/-- The value of a register that is present, a 4-byte one zero-extended. Of `cqh` the bits from LOG2SZ up read 0 (R31), also
while a queue that is off has been made smaller than the index (log 43). -/
def State.image (s : State) : Reg → DWord
  | .capabilities => capabilitiesImage s.cfg
  | .fctl => s.fctl.image.setWidth 64
  | .ddtp => s.ddtp.image
  | .cqb => s.cqb.image
  | .cqh => (s.cqb.mask s.cqh).setWidth 64
  | .cqt => s.cqt.setWidth 64
  | .fqb => s.fqb.image
  | .fqh => s.fqh.setWidth 64
  | .fqt => s.fqt.setWidth 64
  | .pqb => s.pqb.image
  | .pqh => s.pqh.setWidth 64
  | .pqt => s.pqt.setWidth 64
  | .cqcsr => ({ s.cqcsr with fenceWIp := s.fenceIp } : Cqcsr).image.setWidth 64
  | .fqcsr => s.fqcsr.image.setWidth 64
  | .pqcsr => s.pqcsr.image.setWidth 64
  | .ipsr => s.ipsr.image.setWidth 64
  | .iocountovf => s.countovf.setWidth 64
  | .iocountinh => s.iocountinh.setWidth 64
  | .iohpmcycles => bit s.iohpmcycles.ovf ++ s.iohpmcycles.counter
  | .iohpmctr n => s.iohpmctr[n]
  | .iohpmevt n => s.iohpmevt[n].image
  | .trReqIova => s.trReqIova ++ 0#12
  | .trReqCtl => s.trReqCtl.image
  | .trResponse => s.trResponse
  | .iommuQosid => s.qosid.image.setWidth 64
  | .icvec => s.icvec.image
  | .msiAddr x => s.msiCfg[x].address
  | .msiData x => s.msiCfg[x].data.setWidth 64
  | .msiVecCtl x => (bit s.msiCfg[x].m).setWidth 64

/-- What software reads from a register; 0 if it is absent (R32 item 5). -/
def State.readReg (s : State) (r : Reg) : DWord :=
  if r.present s.cfg then s.image r else 0#64

/-- `reg_read(offset, size)` (R510). A misaligned access, one that spans registers, or one of a size that is not 4 or 8
reads 0 (U2). -/
def State.regRead (s : State) (off size : Nat) : DWord :=
  if size = 4 ∧ off % 4 = 0 then
    match regAt off with
    | some r => (s.readReg r) &&& 0xFFFFFFFF#64
    | none =>
      match regAt (off - 4) with
      | some r => if r.wide && 4 ≤ off then (s.readReg r) >>> 32 else 0#64
      | none => 0#64
  else if size = 8 ∧ off % 8 = 0 then
    match regAt off with
    | some r => if r.wide then s.readReg r else 0#64
    | none => 0#64
  else 0#64

/-! ### What a write does. `v` is the register's 64-bit image with the written half in it; `low` says that the written
half is the low one, which carries the side effect (R521). -/

/-- R525. `fence_w_ip` does not outlive the wires: setting WSI to 0 clears it (DESIGN CHOICE, log 43). -/
def writeFctl (s : State) (v : DWord) : State :=
  let new : Fctl := ⟨if s.cfg.endBoth then v.getLsbD 0 else s.fctl.be,
    if s.cfg.igs = .both then v.getLsbD 1 else s.fctl.wsi,
    if s.cfg.gxlWritable then v.getLsbD 2 else s.fctl.gxl⟩
  if s.ddtp.mode = .off && !s.cqcsr.cqen && !s.cqcsr.cqon && !s.fqcsr.en && !s.fqcsr.on && !s.pqcsr.en && !s.pqcsr.on
  then { s with fctl := new, cqcsr := { s.cqcsr with fenceWIp := s.fenceIp && new.wsi } } else s

/-- A legal `iommu_mode` of the implementation (R38). -/
def legalMode (c : Cfg) (m : BitVec 4) : Option IommuMode :=
  if m = 0#4 then some .off
  else if m = 1#4 then some .bare
  else if m = 2#4 then (if c.ddt1 then some .lvl1 else none)
  else if m = 3#4 then (if c.ddt2 then some .lvl2 else none)
  else if m = 4#4 then (if c.ddt3 then some .lvl3 else none)
  else none

/-- A legal PPN of a register (R38, R532). -/
def legalPpn (c : Cfg) (p : BitVec 44) : Bool := decide (p.toNat * 4096 < 2 ^ c.pas)

/-- R523: the transitions that are not UNSPECIFIED; `same` says that the PPN does not change. -/
def ddtpAllowed (same : Bool) : IommuMode → IommuMode → Bool
  | .off, _ => true
  | .bare, .off => same
  | .bare, _ => true
  | _, .off => same
  | .lvl1, .lvl1 => same
  | .lvl2, .lvl2 => same
  | .lvl3, .lvl3 => same
  | _, _ => false

/-- R520; the transition to Off commits what the IOMMU has processed (R522; log 28). Of an 8-byte write each half is
judged on its own, with the other half's bits as they stand then (DESIGN CHOICE, log 43). -/
def writeDdtp (s : State) (v : DWord) (low : Bool) : State :=
  let mode := (legalMode s.cfg (v.extractLsb' 0 4)).getD s.ddtp.mode
  let p := ppnEntry v
  let ppn := if legalPpn s.cfg p then p else s.ddtp.ppn
  if s.ddtp.busy || !ddtpAllowed (ppn == s.ddtp.ppn) s.ddtp.mode mode then s
  else
    let s1 := if low && mode == .off then s.commitReads.commitWrites else s
    { s1 with ddtp := ⟨mode, false, ppn⟩ }

/-- The new value of a queue base (R532): each field keeps its value if the written one is not legal. Of an 8-byte write
each half is judged on its own, with the other half's bits as they stand then (DESIGN CHOICE, log 43). -/
def newBase (c : Cfg) (max : Nat) (old : QBase) (v : DWord) : QBase :=
  ⟨if (v.extractLsb' 0 5).toNat + 1 ≤ max then v.extractLsb' 0 5 else old.log2szm1,
   if legalPpn c (ppnEntry v) then ppnEntry v else old.ppn⟩

/-- R532 for `cqb`: the low bits of `cqt` become a free value (U9); `cqh` is not affected. -/
def writeCqb (s : State) (v : DWord) (low : Bool) : State :=
  let b := newBase s.cfg s.cfg.cqLog2szMax s.cqb v
  if s.cqcsr.busy || s.cqcsr.cqon then s
  else if low then
    let (f, s1) := s.freshValue
    { s1 with cqb := b, cqt := b.mask (f.setWidth 32) }
  else { s with cqb := b }

/-- R532 for `fqb`. -/
def writeFqb (s : State) (v : DWord) (low : Bool) : State :=
  let b := newBase s.cfg s.cfg.fqLog2szMax s.fqb v
  if s.fqcsr.busy || s.fqcsr.on then s
  else if low then
    let (f, s1) := s.freshValue
    { s1 with fqb := b, fqh := b.mask (f.setWidth 32) }
  else { s with fqb := b }

/-- R532 for `pqb`. -/
def writePqb (s : State) (v : DWord) (low : Bool) : State :=
  let b := newBase s.cfg s.cfg.pqLog2szMax s.pqb v
  if s.pqcsr.busy || s.pqcsr.on then s
  else if low then
    let (f, s1) := s.freshValue
    { s1 with pqb := b, pqh := b.mask (f.setWidth 32) }
  else { s with pqb := b }

/-- R526 to R528 for `cqcsr`. A disable aborts the outstanding ATS.INVAL and a waiting command (D31, R527). -/
def writeCqcsr (s : State) (v : DWord) : State :=
  if s.cqcsr.busy then s
  else
    let q := s.cqcsr
    let q1 : Cqcsr := { q with
      cie := v.getLsbD 1
      cqmf := q.cqmf && !v.getLsbD 8
      cmdTo := q.cmdTo && !v.getLsbD 9
      cmdIll := q.cmdIll && !v.getLsbD 10
      fenceWIp := q.fenceWIp && !v.getLsbD 11 }
    if !q.cqen && v.getLsbD 0 then
      ({ s with
        cqh := 0#32
        cqcsr := ⟨true, v.getLsbD 1, false, false, false, false, true, false⟩ } : State).updateCip
    else if q.cqen && !v.getLsbD 0 then
      ({ s with
        cqcsr := { q1 with cqen := false, cqon := false }
        outstanding := []
        timedOut := false
        fetched := none } : State).updateCip
    else ({ s with cqcsr := q1 } : State).updateCip

/-- The common part of R526, R529 and R530 for `fqcsr` and `pqcsr`: the new CSR, and whether the queue is enabled by the
write. -/
def newOutCsr (q : OutCsr) (v : DWord) : OutCsr × Bool :=
  if !q.en && v.getLsbD 0 then (⟨true, v.getLsbD 1, false, false, true, false⟩, true)
  else
    ({ q with
       ie := v.getLsbD 1
       mf := q.mf && !v.getLsbD 8
       ovf := q.ovf && !v.getLsbD 9
       en := v.getLsbD 0
       on := q.on && v.getLsbD 0 }, false)

/-- R526 and R529 for `fqcsr`. -/
def writeFqcsr (s : State) (v : DWord) : State :=
  if s.fqcsr.busy then s
  else
    let (q, enabled) := newOutCsr s.fqcsr v
    ({ s with fqcsr := q, fqt := if enabled then 0#32 else s.fqt } : State).updateFip

/-- R526 and R530 for `pqcsr`. -/
def writePqcsr (s : State) (v : DWord) : State :=
  if s.pqcsr.busy then s
  else
    let (q, enabled) := newOutCsr s.pqcsr v
    ({ s with pqcsr := q, pqt := if enabled then 0#32 else s.pqt } : State).updatePip

/-- R534: clear, then evaluate the level conditions again. Where several bits are set again, their messages go out in the
order `cip`, `fip`, `pip`: the source gives none (DESIGN CHOICE, log 45). -/
def writeIpsr (s : State) (v : DWord) : State :=
  let r := s.ipsr
  ((({ s with ipsr := ⟨r.cip && !v.getLsbD 0, r.fip && !v.getLsbD 1, r.pmip && !v.getLsbD 2, r.pip && !v.getLsbD 3⟩ }
    : State).updateCip).updateFip).updatePip

/-- R55, R639: the bits of implemented counters. -/
def writeIocountinh (s : State) (v : DWord) : State :=
  { s with iocountinh := BitVec.ofNat 32 (v.toNat % 2 ^ 32 % 2 ^ (s.cfg.hpmCounters + 1)) }

/-- R56, R631. -/
def writeIohpmcycles (s : State) (v : DWord) : State :=
  { s with iohpmcycles := ⟨BitVec.ofNat 63 ((v.extractLsb' 0 63).toNat % 2 ^ cyclesWidth s.cfg), v.getLsbD 63⟩ }

/-- R57: the implemented bits. -/
def writeIohpmctr (s : State) (n : Fin 31) (v : DWord) : State :=
  { s with iohpmctr := s.iohpmctr.set n (BitVec.ofNat 64 (v.toNat % 2 ^ s.cfg.hpmWidth)) }

/-- R58, R633: an eventID that is not supported is not legal. -/
def writeIohpmevt (s : State) (n : Fin 31) (v : DWord) : State :=
  let e : BitVec 15 := v.extractLsb' 0 15
  let new : HpmEvt :=
    ⟨if e = 0#15 || s.cfg.hpmEvents.contains e.toNat then e else s.iohpmevt[n].eventId,
     v.getLsbD 15, v.extractLsb' 16 20, v.extractLsb' 36 24, v.getLsbD 60, v.getLsbD 61, v.getLsbD 62,
     v.getLsbD 63⟩
  { s with iohpmevt := s.iohpmevt.set n new }

/-- R536 for `tr_req_iova`. -/
def writeTrReqIova (s : State) (v : DWord) : State :=
  if s.trReqCtl.goBusy then s else { s with trReqIova := v.extractLsb' 12 52 }

/-- R536 for `tr_req_ctl`: setting Go/Busy runs the translation (R537). -/
def writeTrReqCtl (s : State) (v : DWord) (low : Bool) : State :=
  if s.trReqCtl.goBusy then s
  else
    let go := low && v.getLsbD 0
    let s1 := { s with trReqCtl :=
      ⟨go, v.getLsbD 1, v.getLsbD 2, v.getLsbD 3, v.extractLsb' 12 20, v.getLsbD 32, v.extractLsb' 40 24⟩ }
    if go then s1.debugTranslate else s1

/-- R544. -/
def writeQosid (s : State) (v : DWord) : State :=
  { s with qosid := ⟨BitVec.ofNat 12 ((v.extractLsb' 0 12).toNat % 2 ^ s.cfg.rcidWidth),
      BitVec.ofNat 12 ((v.extractLsb' 16 12).toNat % 2 ^ s.cfg.mcidWidth)⟩ }

/-- `ceil(log2(n))` for 1 to 16 vectors (R63). -/
def vectorBits (n : Nat) : Nat := if n ≤ 1 then 0 else if n ≤ 2 then 1 else if n ≤ 4 then 2 else if n ≤ 8 then 3 else 4

/-- A vector field: the writable bits of `v` (R63, R542), or `old` where they name no vector of the implementation (R64;
log 40). -/
def legalVector (c : Cfg) (old v : BitVec 4) : BitVec 4 :=
  let w := v.toNat % 2 ^ vectorBits c.nVectors
  if w < c.nVectors then BitVec.ofNat 4 w else old

/-- R542. -/
def writeIcvec (s : State) (v : DWord) : State :=
  { s with icvec := ⟨legalVector s.cfg s.icvec.civ (v.extractLsb' 0 4), legalVector s.cfg s.icvec.fiv (v.extractLsb' 4 4),
      legalVector s.cfg s.icvec.pmiv (v.extractLsb' 8 4), legalVector s.cfg s.icvec.piv (v.extractLsb' 12 4)⟩ }

/-- R543 for `msi_addr_x`: an address that does not exist is not stored. Of an 8-byte write each half is judged on its own,
with the other half's bits as they stand then (DESIGN CHOICE, log 43). -/
def writeMsiAddr (s : State) (x : Fin 16) (v : DWord) : State :=
  let a : BitVec 54 := v.extractLsb' 2 54
  if a.toNat * 4 < 2 ^ s.cfg.pas then
    { s with msiCfg := s.msiCfg.set x { s.msiCfg[x] with addr := a } }
  else s

/-- R543 for `msi_data_x`. -/
def writeMsiData (s : State) (x : Fin 16) (v : DWord) : State :=
  { s with msiCfg := s.msiCfg.set x { s.msiCfg[x] with data := v.extractLsb' 0 32 } }

/-- R543 and R593 for `msi_vec_ctl_x`: clearing M sends the message that is pending. -/
def writeMsiVecCtl (s : State) (x : Fin 16) (v : DWord) : State :=
  let s1 := { s with msiCfg := s.msiCfg.set x { s.msiCfg[x] with m := v.getLsbD 0 } }
  if s.msiCfg[x].m && !v.getLsbD 0 && s.msiPending[x] then
    ({ s1 with msiPending := s1.msiPending.set x false } : State).sendMsi (BitVec.ofNat 4 x.val)
  else s1

/-- The effect of a write on a register that is present (R510). -/
def State.writeImage (s : State) (r : Reg) (v : DWord) (low : Bool) : State :=
  match r with
  | .capabilities => s
  | .fctl => writeFctl s v
  | .ddtp => writeDdtp s v low
  | .cqb => writeCqb s v low
  | .cqh => s
  | .cqt => { s with cqt := s.cqb.mask (v.setWidth 32) }
  | .fqb => writeFqb s v low
  | .fqh => { s with fqh := s.fqb.mask (v.setWidth 32) }
  | .fqt => s
  | .pqb => writePqb s v low
  | .pqh => { s with pqh := s.pqb.mask (v.setWidth 32) }
  | .pqt => s
  | .cqcsr => writeCqcsr s v
  | .fqcsr => writeFqcsr s v
  | .pqcsr => writePqcsr s v
  | .ipsr => writeIpsr s v
  | .iocountovf => s
  | .iocountinh => writeIocountinh s v
  | .iohpmcycles => writeIohpmcycles s v
  | .iohpmctr n => writeIohpmctr s n v
  | .iohpmevt n => writeIohpmevt s n v
  | .trReqIova => writeTrReqIova s v
  | .trReqCtl => writeTrReqCtl s v low
  | .trResponse => s
  | .iommuQosid => writeQosid s v
  | .icvec => writeIcvec s v
  | .msiAddr x => writeMsiAddr s x v
  | .msiData x => writeMsiData s x v
  | .msiVecCtl x => writeMsiVecCtl s x v

/-- A 4-byte write of a register's low or high half; ignored if the register is absent (R32 item 5). -/
def State.writeHalf (s : State) (r : Reg) (low : Bool) (v : BitVec 32) : State :=
  if r.present s.cfg then
    let old := s.image r
    s.writeImage r (if low then old.extractLsb' 32 32 ++ v else v ++ old.extractLsb' 0 32) low
  else s

/-- `reg_write(offset, 4, v)`. -/
def State.regWrite4 (s : State) (off : Nat) (v : BitVec 32) : State :=
  match regAt off with
  | some r => s.writeHalf r true v
  | none =>
    match regAt (off - 4) with
    | some r => if r.wide && 4 ≤ off then s.writeHalf r false v else s
    | none => s

/-- `reg_write(offset, size, v)` (R510, R521): an 8-byte write is the high half and then the low half, or, if `lowFirst`,
the other order (U31; log 17). A misaligned access, one that spans registers, or one of another size is ignored (U2). -/
def State.regWrite (s : State) (off size : Nat) (v : DWord) (lowFirst : Bool) : State :=
  if size = 4 ∧ off % 4 = 0 then s.regWrite4 off (v.extractLsb' 0 32)
  else if size = 8 ∧ off % 8 = 0 then
    match regAt off with
    | some r =>
      if !r.wide then s
      else if lowFirst then (s.regWrite4 off (v.extractLsb' 0 32)).regWrite4 (off + 4) (v.extractLsb' 32 32)
      else (s.regWrite4 (off + 4) (v.extractLsb' 32 32)).regWrite4 off (v.extractLsb' 0 32)
    | none => s
  else s

end Sys2Proof.Machine
end

