-- ==== Sys2Proof/Machine/Events.lean ====
section
/-! DEFINITION. What each input does (spec 00_scope.md R7; 20_memory.md R222; log 4). -/

namespace Sys2Proof.Machine

/-- A hart's read: of the register page (R510; an access that begins before the page is none of R210's and reads 0, U2),
or of memory, little-endian (log 3). -/
def hartRead (a n : Nat) (s : State) : Host.Outcome State Fault Refusal :=
  if s.inRegPage a n then
    .next (s.emit (.readData
      (if s.cfg.regBase.toNat ≤ a then s.regRead (a - s.cfg.regBase.toNat) n else 0#64)))
  else if s.inMemory a n then
    .next (s.emit (.readData (BitVec.ofNat 64 (ofBytesLE (Memory.readBytes s.mem a n)))))
  else .fault (.outsideMemory a)

/-- The first half of a hart's 8-byte read of a wide register that is made as two 4-byte reads (R521, R632, U31; log 17).
An 8-byte read of anything else is not split. -/
def hartReadFirst (hart : Nat) (a : Nat) (lowFirst : Bool) (s : State) : Host.Outcome State Fault Refusal :=
  let off := a - s.cfg.regBase.toNat
  if s.inRegPage a 8 && decide (s.cfg.regBase.toNat ≤ a) && off % 8 == 0 && (regAt off).any Reg.wide then
    .next { s with halfReads :=
      ⟨hart, off, lowFirst, (s.regRead (if lowFirst then off else off + 4) 4).setWidth 32⟩
        :: s.halfReads.filter fun h => h.hart != hart }
  else hartRead a 8 s

/-- The second half, and the value of the two: nothing if the hart has no read half made. -/
def hartReadSecond (hart : Nat) (s : State) : State :=
  match s.halfReads.find? (fun h => h.hart == hart) with
  | none => s
  | some h =>
    let other := (s.regRead (if h.lowFirst then h.off + 4 else h.off) 4).setWidth 32
    ({ s with halfReads := s.halfReads.filter fun h => h.hart != hart } : State).emit
      (.readData (if h.lowFirst then other ++ h.half else h.half ++ other))

/-- A hart's write: to the register page (R510), or to memory. -/
def hartWrite (a n : Nat) (v : DWord) (lowFirst : Bool) (s : State) : Host.Outcome State Fault Refusal :=
  if s.inRegPage a n then
    .next (if s.cfg.regBase.toNat ≤ a then s.regWrite (a - s.cfg.regBase.toNat) n v lowFirst else s)
  else if s.inMemory a n then
    .next { s with mem := Memory.writeBytes s.mem a (toBytesLE n v.toNat) }
  else .fault (.outsideMemory a)

/-- A device's write to memory between two steps (R222). -/
def dmaWrite (a : Nat) (bytes : List Byte) (s : State) : State := s.deviceWrite a bytes

/-- A processed access becomes globally visible between two steps (R433; log 28). -/
def busCommit (tag : Nat) (s : State) : State := s.commitAccess tag

/-- Reset (R660, R661; log 35): the registers and the hidden state of the IOMMU; memory, the platform, the accesses that
have left the IOMMU and the model's own bookkeeping stay. -/
def resetEvent (s : State) : State :=
  { State.resetWith s.cfg with
    plat := s.plat
    mem := s.mem
    halfReads := s.halfReads
    uncommittedReads := s.uncommittedReads
    uncommittedWrites := s.uncommittedWrites
    inbox := s.inbox
    others := s.others
    out := s.out
    bus := s.bus
    itag := s.itag
    choices := s.choices
    freeCtr := s.freeCtr }

/-- A request on the translation interface or on the ATS interface. -/
def serve (r : Request) (s : State) : State :=
  if r.ttyp = .atsRequest then serveAts r s else serveRequest r s

/-- What an input does. -/
def handle (e : Event) (s : State) : Host.Outcome State Fault Refusal :=
  match e with
  | .hartRead a n => hartRead a.toNat n s
  | .hartReadFirst hart a lowFirst => hartReadFirst hart a.toNat lowFirst s
  | .hartReadSecond hart => .next (hartReadSecond hart s)
  | .hartWrite a n v lowFirst => hartWrite a.toNat n v lowFirst s
  | .dmaWrite a bytes => .next (dmaWrite a.toNat bytes s)
  | .request r => .next (serve r s)
  | .pageRequest m => .next (servePageRequest m s)
  | .invalCompletion did itag => .next (serveInvalCompletion did itag s)
  | .invalTimeout itag => .next (serveInvalTimeout itag s)
  | .cycles n => .next ((s.ageInvals n).tick n)
  | .evict n => .next (s.evict n)
  | .busCommit tag => .next (busCommit tag s)
  | .cqTurn => cqStep s
  | .reset => .next (resetEvent s)

end Sys2Proof.Machine
end

