-- ==== Sys2Proof/Machine/Step.lean ====
section
/-! DEFINITION. One step of the machine, and the placing of a command where the next step fetches it (log 4). -/

namespace Sys2Proof.Machine

/-- One step: the next input, or, when there is none, a turn of the command-queue engine (R483, R489, D15). -/
def step (s : State) : Host.Outcome State Fault Refusal :=
  match s.inbox with
  | [] => cqStep s
  | e :: es => handle e { s with inbox := es }

/-- `s` with the command of an opcode-table word at the index `cqh` of the command queue, the queue on and holding that
one command, and nothing in the way of its fetch (log 4). -/
def State.withFetchWord (s : State) (nbits w : Nat) : State :=
  let a := s.cqb.entryAddr 4 s.cqh
  { s with
    inbox := []
    others := []
    fetched := none
    cqcsr := { s.cqcsr with cqen := true, cqon := true, busy := false, cqmf := false, cmdTo := false, cmdIll := false }
    cqt := s.cqb.next s.cqh
    plat := { s.plat with regions := s.plat.regions.filter fun r => !r.touches a 16 }
    mem := Memory.writeBytes s.mem a (commandBytes s.fctl.be (tableWord nbits w)) }

end Sys2Proof.Machine
end

