-- ==== Sys2Proof/Safety.lean ====
section
/-! DEFINITION. What a sound state is, in the terms claims use: the invariants of the machine, each a decidable
predicate, and runs of the machine. -/

namespace Sys2Proof.Machine

/-- The IOATC holds no entry whose V bit is 0 (20_memory.md R231). -/
def State.cacheOk (s : State) : Bool := s.ioatc.all IoatcEntry.valid

/-- Every queue is on exactly when it is enabled, and no `busy` bit, nor `Go/Busy`, is seen as 1 (R531, R522; D15). -/
def State.settled (s : State) : Bool :=
  s.cqcsr.cqon == s.cqcsr.cqen && !s.cqcsr.busy && s.fqcsr.on == s.fqcsr.en && !s.fqcsr.busy
    && s.pqcsr.on == s.pqcsr.en && !s.pqcsr.busy && !s.ddtp.busy && !s.trReqCtl.goBusy

/-- A level condition that holds has its pending bit set (R591, R488). -/
def State.interruptsPend (s : State) : Bool :=
  (!s.cipLevel || s.ipsr.cip) && (!s.fqcsr.ipLevel || s.ipsr.fip) && (!s.pqcsr.ipLevel || s.ipsr.pip)

/-- A queue index below the number of entries. -/
def QBase.inRange (q : QBase) (i : BitVec 32) : Bool := decide (i.toNat < q.entries)

/-- The indices that software owns are in range, and those that the IOMMU owns are in range while the queue is on: bits
`31:LOG2SZ` are 0 (R31, R484, R532, R533). -/
def State.indicesOk (s : State) : Bool :=
  s.cqb.inRange s.cqt && s.fqb.inRange s.fqh && s.pqb.inRange s.pqh
    && (!s.cqcsr.cqon || s.cqb.inRange s.cqh) && (!s.fqcsr.on || s.fqb.inRange s.fqt)
    && (!s.pqcsr.on || s.pqb.inRange s.pqt)

/-- The mode is one the implementation has (R38). -/
def modeSupported (c : Cfg) : IommuMode → Bool
  | .off => true
  | .bare => true
  | .lvl1 => c.ddt1
  | .lvl2 => c.ddt2
  | .lvl3 => c.ddt3

/-- The WARL fields of `fctl`, `ddtp` and the queue bases hold legal values (R12, R36, R38, R40, R43, R46). -/
def State.controlLegal (s : State) : Bool :=
  (s.cfg.endBoth || s.fctl.be == s.cfg.beFixed)
    && (s.cfg.igs == .both || s.fctl.wsi == (s.cfg.igs == .wsi))
    && (s.cfg.gxlWritable || s.fctl.gxl == s.cfg.gxlFixed)
    && modeSupported s.cfg s.ddtp.mode && legalPpn s.cfg s.ddtp.ppn
    && decide (s.cqb.log2sz ≤ s.cfg.cqLog2szMax) && legalPpn s.cfg s.cqb.ppn
    && decide (s.fqb.log2sz ≤ s.cfg.fqLog2szMax) && legalPpn s.cfg s.fqb.ppn
    && decide (s.pqb.log2sz ≤ s.cfg.pqLog2szMax) && legalPpn s.cfg s.pqb.ppn

/-- A selector whose event is none or one the implementation has (R58, R633). -/
def HpmEvt.legal (c : Cfg) (e : HpmEvt) : Bool := e.eventId == 0#15 || c.hpmEvents.contains e.eventId.toNat

/-- Registers that the implementation does not have hold 0: event counters and selectors, entries of the MSI table, and
those of R33's last column (R32 item 5, R57, R58, R64). -/
def State.absentZero (s : State) : Bool :=
  (List.finRange 31).all (fun n =>
      (Reg.iohpmctr n).present s.cfg || (s.iohpmctr[n] == 0#64 && s.iohpmevt[n] == HpmEvt.zero))
    && (List.finRange 16).all (fun x => (Reg.msiAddr x).present s.cfg || s.msiCfg[x] == ⟨0#54, 0#32, false⟩)
    && (s.cfg.hpm || (s.iocountinh == 0#32 && s.iohpmcycles == ⟨0#63, false⟩))
    && (s.cfg.ats || (s.pqb == ⟨0#5, 0#44⟩ && s.pqh == 0#32 && s.pqt == 0#32
      && s.pqcsr == ⟨false, false, false, false, false, false⟩))
    && (s.cfg.dbg || (s.trReqIova == 0#52 && s.trReqCtl == ⟨false, false, false, false, 0#20, false, 0#24⟩
      && s.trResponse == 0#64))
    && (s.cfg.qosid || s.qosid == ⟨0#12, 0#12⟩)

/-- The WARL fields of the other registers hold legal values (R55 to R58, R62 to R64). -/
def State.auxiliaryLegal (s : State) : Bool :=
  decide (s.iocountinh.toNat < 2 ^ (s.cfg.hpmCounters + 1))
    && decide (s.iohpmcycles.counter.toNat < 2 ^ cyclesWidth s.cfg)
    && s.iohpmctr.all (fun c => decide (c.toNat < 2 ^ s.cfg.hpmWidth))
    && s.iohpmevt.all (HpmEvt.legal s.cfg)
    && decide (s.qosid.rcid.toNat < 2 ^ s.cfg.rcidWidth) && decide (s.qosid.mcid.toNat < 2 ^ s.cfg.mcidWidth)
    && decide (s.icvec.civ.toNat < s.cfg.nVectors) && decide (s.icvec.fiv.toNat < s.cfg.nVectors)
    && decide (s.icvec.pmiv.toNat < s.cfg.nVectors) && decide (s.icvec.piv.toNat < s.cfg.nVectors)
    && s.msiCfg.all (fun e => decide (e.addr.toNat * 4 < 2 ^ s.cfg.pas))

/-- A sound state: all of the above, in a configuration the spec allows, with memory in canonical form. -/
def State.sound (s : State) : Bool :=
  s.cfg.wellFormed && s.mem.wf && s.cacheOk && s.settled && s.interruptsPend && s.indicesOk && s.controlLegal
    && s.auxiliaryLegal && s.absentZero

/-- What reports and interrupts cannot touch: everything but the error bits of `fqcsr`, `fqt`, `ipsr`, the masked
messages, memory, the outputs, the bus, the free choices, and the accesses that other agents have still to make between
those of the IOMMU, those of devices that are not yet committed among them (log 5; `State.keepsAccesses`). Two states that agree here differ at most by fault records, interrupt messages and such
accesses (R570, R591 to R594). -/
def State.unreported (s : State) : State :=
  { s with
    fqcsr := { s.fqcsr with mf := false, ovf := false }
    fqt := 0#32
    ipsr := ⟨false, false, false, false⟩
    msiPending := Vector.replicate 16 false
    uncommittedReads := []
    uncommittedWrites := []
    mem := []
    others := []
    out := []
    bus := []
    choices := []
    freeCtr := 0 }

/-- Of the device accesses that are processed and not committed, `t` has those of `s` but for some that were committed
between the memory accesses of a step, and all of them where no other agent acts (R433, R221; log 5). -/
def State.keepsAccesses (s t : State) : Prop :=
  t.uncommittedReads.Sublist s.uncommittedReads ∧ t.uncommittedWrites.Sublist s.uncommittedWrites ∧
    (s.others = [] → t.uncommittedReads = s.uncommittedReads ∧ t.uncommittedWrites = s.uncommittedWrites)

/-- No interrupt message or wire change can follow from the command queue's status: its interrupt is not enabled, or is
pending already (R591). -/
def State.cipQuiet (s : State) : Bool := !s.cqcsr.cie || s.ipsr.cip

/-! ### What an IOATC entry is for an invalidation command (20_memory.md R234, 40_iotinval.md R411, R412, R415) -/

/-- The first-stage side of an entry: its address space (none for a host one), PSCID, whether the mapping is global,
whether it holds a leaf, and the `2^span` IOVA pages around `page` that it maps. -/
structure FirstStageTag where
  space : Option (BitVec 16)
  pscid : BitVec 20
  global : Bool
  leaf : Bool
  page : BitVec 52
  span : Nat
deriving DecidableEq, Repr

/-- The second-stage side of an entry: its GSCID, whether it holds a leaf, and the guest pages it maps. -/
structure SecondStageTag where
  gscid : BitVec 16
  leaf : Bool
  page : BitVec 52
  span : Nat
deriving DecidableEq, Repr

/-- The entries of shape `S1` and `S12`, as IOTINVAL.VMA sees them. -/
def IoatcEntry.firstStage : IoatcEntry → Option FirstStageTag
  | .s1 e => some ⟨e.space, e.pscid, e.gpath, pteLeaf e.pte, e.page, e.span⟩
  | .s12 e => some ⟨some e.gscid, e.pscid, e.gpath, true, e.page, e.span1⟩
  | _ => none

/-- The entries of shape `S2` and `MsiE`, as IOTINVAL.GVMA sees them; an MSI PTE is a leaf for one page. -/
def IoatcEntry.secondStage : IoatcEntry → Option SecondStageTag
  | .s2 e => some ⟨e.gscid, pteLeaf e.pte, e.page, e.span⟩
  | .msi g page _ _ => some ⟨g, true, page, 0⟩
  | _ => none

/-- Page `p` is in the range of the ADDR operand (R396, R417): the page itself if S is 0; else every page that agrees
with ADDR above its lowest 0 bit. -/
def pageInRange (addr : BitVec 52) (sBit : Bool) (p : Nat) : Prop :=
  if sBit then
    ∃ x, x < 52 ∧ addr.getLsbD x = false ∧ (∀ j, j < x → addr.getLsbD j = true)
      ∧ p / 2 ^ (x + 1) = addr.toNat / 2 ^ (x + 1)
  else p = addr.toNat

/-- `covers` (R415): some page of the range is among the `2^span` pages around `page`. -/
def rangeCovers (page : BitVec 52) (span : Nat) (addr : BitVec 52) (sBit : Bool) : Prop :=
  ∃ p, p < 2 ^ 52 ∧ pageInRange addr sBit p ∧ p / 2 ^ span = page.toNat / 2 ^ span

/-! ### Runs -/

/-- `t` is reached from `s` by steps that each answer a next state. -/
inductive State.Reaches : State → State → Prop where
  | refl (s : State) : State.Reaches s s
  | step (s t u : State) (h : State.Reaches s t) (hs : Sys2Proof.Machine.step t = .next u) : State.Reaches s u

/-- A run is safe when no state it reaches stops the machine and every one is sound. -/
def State.Safe (s : State) : Prop :=
  ∀ t, State.Reaches s t → t.sound = true ∧ ∃ u, Sys2Proof.Machine.step t = .next u

end Sys2Proof.Machine
end

