-- ==== Sys2Proof/Certificates/Slice0/Obligations.lean ====
section
/-! DEFINITION. The statements for the provers. OBLIGATIONS.json gives each its title, its tier and its rules; where a
statement rests on a choice of the model, its docstring names the log entry. -/

section
open Sys2Proof Sys2Proof.Machine

/-! ### Encoding -/

/-- Decode and encode agree on every command with every operand, and each command has one word: a word that decodes is the
encoding of what it decodes to (R388 to R391, R394, R395). The 16 bytes of a command in the queue decode to it in either byte
order (R380, R203, R481). -/
def Obligations.DecodeEncodeAgree : Prop :=
  (∀ i : Instr, decode (encode i) = some i) ∧
  (∀ (w : CommandWord) (i : Instr), decode w = some i → encode i = w) ∧
  ∀ (be : Bool) (i : Instr), decodeBytes be (commandBytes be (encode i)) = some i

/-- Exactly the words with a listed opcode and function and with every unnamed bit 0 decode (R387 items 1 to 4; the bits
are those of R388 to R391, log 9). That the opcodes 64 to 127, designated for custom use, are refused too is decision
D24 of R387 item 2, for an implementation that defines no custom command (log 20, log 31). -/
def Obligations.ReservedEncodingsRefused : Prop :=
  ∀ w : CommandWord, (decode w).isSome = true ↔
    ((opField w = 0x001#10 ∨ opField w = 0x081#10) ∧
      ∀ j, (j = 11 ∨ (35 ≤ j ∧ j ≤ 43) ∨ (60 ≤ j ∧ j ≤ 72) ∨ (126 ≤ j ∧ j ≤ 127)) → w.getLsbD j = false) ∨
    (opField w = 0x002#10 ∧ ∀ j, ((14 ≤ j ∧ j ≤ 31) ∨ (126 ≤ j ∧ j ≤ 127)) → w.getLsbD j = false) ∨
    ((opField w = 0x003#10 ∨ opField w = 0x083#10) ∧
      ∀ j, ((10 ≤ j ∧ j ≤ 11) ∨ j = 32 ∨ (34 ≤ j ∧ j ≤ 39) ∨ (64 ≤ j ∧ j ≤ 127)) → w.getLsbD j = false) ∨
    ((opField w = 0x004#10 ∨ opField w = 0x084#10) ∧
      ∀ j, ((10 ≤ j ∧ j ≤ 11) ∨ (34 ≤ j ∧ j ≤ 39)) → w.getLsbD j = false)

/-- The worked encodings of R398 decode to their commands (R398; V1). -/
def Obligations.SpecWordsDecode : Prop :=
  decode 0x00000000000000000000000000000001#128
      = some (.iotinvalVma false false false false false 0#20 0#16 0#52) ∧
  decode 0x00000000000000000000500200000081#128
      = some (.iotinvalGvma false false true false false 0#20 5#16 0#52) ∧
  decode 0x00000000048D14000000500300012401#128
      = some (.iotinvalVma true true true false false 0x12#20 5#16 0x12345#52) ∧
  decode 0x00000000000000000000000000000002#128 = some (.iofenceC false false false false 0#32 0#62) ∧
  decode 0x0000000020000400CAFEF00D00003402#128
      = some (.iofenceC true false true true 0xCAFEF00D#32 0x20000400#62) ∧
  decode 0x00000000000000000000000000000003#128 = some (.iodirInvalDdt false 0#20 0#24) ∧
  decode 0x00000000000000000000420200000003#128 = some (.iodirInvalDdt true 0#20 0x42#24) ∧
  decode 0x00000000000000000000420200007083#128 = some (.iodirInvalPdt true 7#20 0x42#24) ∧
  decode 0x00000000000010000001000000000004#128 = some (.atsInval false false 0#20 0x0100#16 0#8 0x1000#64) ∧
  decode 0x01000005000000000001000100003084#128
      = some (.atsPrgr true false 3#20 0x0100#16 0#8 0x0100000500000000#64)

/-! ### The command-queue engine -/

/-- A step with nothing else to do runs the command at `cqh`: it reads its 16 bytes, decodes them in the byte order of
`fctl.BE`, and executes the command (R481, R483). The first clause says it whatever other agents do during the fetch
(R242), the second where they do nothing (log 5). A command fetched earlier that had to wait is taken up again (R431; that
the engine keeps it fetched is the model's form of the wait, log 22). -/
def Obligations.StepRunsDecodedCommand : Prop :=
  ∀ (s : State) (i : Instr), s.inbox = [] →
    (∀ bs t, s.fetched = none → s.canFetch = true →
      s.readMem (s.cqb.entryAddr 4 s.cqh) 16 s.iommuQos = (.ok bs, t) → decodeBytes s.fctl.be bs = some i →
      step s = exec i t) ∧
    (s.fetched = none → s.canFetch = true → s.others = [] →
      s.accessFaults .read (s.cqb.entryAddr 4 s.cqh) 16 = false → s.poisoned (s.cqb.entryAddr 4 s.cqh) 16 = false →
      decodeBytes s.fctl.be (Memory.readBytes s.mem (s.cqb.entryAddr 4 s.cqh) 16) = some i →
      step s = exec i { s with bus := s.bus ++ [⟨.read, s.cqb.entryAddr 4 s.cqh, 16, s.iommuQos⟩] }) ∧
    (s.fetched = some i → s.cqcsr.cqon = true → s.cqError = false → step s = exec i { s with fetched := none })

/-- The engine does nothing when the queue is off, when an error bit is set, or when the queue is empty and no command
waits; else it reads the command at `cqh`. `fence_w_ip` and the mode of the IOMMU play no part (R482, R481, R483). That a
waiting command stays fetched, which the hypothesis that none is rests on, is the model's form of the wait (log 22). -/
def Obligations.EngineFetchesOnlyWhenItMay : Prop :=
  ∀ s : State, s.inbox = [] →
    ((s.cqcsr.cqon = false ∨ s.cqcsr.cqmf = true ∨ s.cqcsr.cmdTo = true ∨ s.cqcsr.cmdIll = true) →
      step s = .next s) ∧
    (s.fetched = none → s.cqh = s.cqt → step s = .next s) ∧
    (s.fetched = none → s.cqcsr.cqon = true → s.cqcsr.cqmf = false → s.cqcsr.cmdTo = false →
      s.cqcsr.cmdIll = false → s.cqh ≠ s.cqt →
      ∃ t, step s = .next t ∧ s.bus ++ [⟨.read, s.cqb.entryAddr 4 s.cqh, 16, s.iommuQos⟩] <+: t.bus)

/-- A fetch that meets an access fault or corrupted data sets `cqmf`, and one whose word decodes to no command sets
`cmd_ill`; `cqh` stays at the command, nothing else happens but the read and, if `cie` is 1, the interrupt (InterruptDelivery
says all that it does; what other agents do meanwhile is log 5), and no command is fetched after it (R486, R487, R387 items 1
to 4; D30). -/
def Obligations.FetchErrorsStopQueue : Prop :=
  ∀ s : State, s.inbox = [] → s.fetched = none → s.canFetch = true →
    let a := s.cqb.entryAddr 4 s.cqh
    let u := (s.readMem a 16 s.iommuQos).2
    (∀ q : Cqcsr,
      (((s.accessFaults .read a 16 = true ∨ s.poisoned a 16 = true) ∧ q = { s.cqcsr with cqmf := true }) ∨
        (∃ bs, s.readMem a 16 s.iommuQos = (.ok bs, u) ∧ decodeBytes s.fctl.be bs = none ∧
          q = { s.cqcsr with cmdIll := true })) →
      let n : State := { u with cqcsr := q }
      ∃ t, step s = .next t ∧ t = (if s.cqcsr.cie then n.raiseIp .cq else n) ∧
        t.cqcsr = q ∧ t.cqh = s.cqh ∧ (s.cqcsr.cie = true → t.ipsr.cip = true) ∧
        t.unreported = ({ s with cqcsr := q } : State).unreported ∧ s.keepsAccesses t ∧
        (s.cipQuiet = true → t = n) ∧ t.canFetch = false) ∧
    ((s.accessFaults .read a 16 = true ∨ s.poisoned a 16 = true ∨ s.others = []) →
      u = { s with bus := s.bus ++ [⟨.read, a, 16, s.iommuQos⟩] })

/-! ### The commands -/

/-- A command whose operands are illegal or unsupported has no effect but `cmd_ill` and, if `cie` is 1, the interrupt, of
which InterruptDelivery says all that it does; `cqh` stays (R486; what other agents do around the interrupt's message is
log 5). -/
def Obligations.IllegalCommandSetsOnlyCmdIll : Prop :=
  ∀ (i : Instr) (s : State), isIllegal i s = true →
    let n : State := { s with cqcsr := { s.cqcsr with cmdIll := true } }
    ∃ t, exec i s = .next t ∧ t = (if s.cqcsr.cie then n.raiseIp .cq else n) ∧
      t.cqcsr = { s.cqcsr with cmdIll := true } ∧ (s.cqcsr.cie = true → t.ipsr.cip = true) ∧
      t.unreported = n.unreported ∧ s.keepsAccesses t ∧ (s.cipQuiet = true → t = n)

/-- When each command is legal, with the widths of R387 items 11 and 12 as bounds on numbers: a `device_id` has at most
6 or 7 bits in 1LVL and 15 or 16 in 2LVL, a `process_id` as many as the widest supported PDT (R387 items 5 to 13; D25
gives the consequence of a wide identifier). -/
def Obligations.CommandLegality : Prop :=
  ∀ s : State,
    (∀ av pscv gv nl sBit pscid gscid addr,
      isIllegal (.iotinvalVma av pscv gv nl sBit pscid gscid addr) s = false ↔
        (nl = true → s.cfg.nl = true) ∧ (sBit = true → s.cfg.rangeInval = true)) ∧
    (∀ av pscv gv nl sBit pscid gscid addr,
      isIllegal (.iotinvalGvma av pscv gv nl sBit pscid gscid addr) s = false ↔
        pscv = false ∧ (nl = true → s.cfg.nl = true) ∧ (sBit = true → s.cfg.rangeInval = true)) ∧
    (∀ av wsi pr pw data addr,
      isIllegal (.iofenceC av wsi pr pw data addr) s = false ↔
        (wsi = true → s.cfg.igs ≠ .msi ∧ s.fctl.wsi = true)) ∧
    (∀ dv pid did,
      isIllegal (.iodirInvalDdt dv pid did) s = false ↔
        pid = 0#20 ∧ (dv = true →
          (s.ddtp.mode = .lvl1 → did.toNat < 2 ^ (if s.cfg.msiFlat then 6 else 7)) ∧
          (s.ddtp.mode = .lvl2 → did.toNat < 2 ^ (if s.cfg.msiFlat then 15 else 16)))) ∧
    (∀ dv pid did,
      isIllegal (.iodirInvalPdt dv pid did) s = false ↔
        dv = true ∧
        (s.ddtp.mode = .lvl1 → did.toNat < 2 ^ (if s.cfg.msiFlat then 6 else 7)) ∧
        (s.ddtp.mode = .lvl2 → did.toNat < 2 ^ (if s.cfg.msiFlat then 15 else 16)) ∧
        (s.cfg.pd20 = true ∨ (s.cfg.pd17 = true ∧ pid.toNat < 2 ^ 17) ∨ (s.cfg.pd8 = true ∧ pid.toNat < 2 ^ 8))) ∧
    (∀ pv dsv pid rid dseg payload,
      isIllegal (.atsInval pv dsv pid rid dseg payload) s = false ↔ s.cfg.ats = true) ∧
    (∀ pv dsv pid rid dseg payload,
      isIllegal (.atsPrgr pv dsv pid rid dseg payload) s = false ↔ s.cfg.ats = true)

/-- IOTINVAL.VMA removes exactly the entries of Table 11, advances `cqh`, and changes nothing else. Identifiers compare
in the bits the implementation keeps (log 33). An ADDR of all ones with S is left out: the source leaves the behaviour
UNSPECIFIED (U22, log 19). That exactly these entries go is the model's choice among the supersets R418 allows (log 6). -/
def Obligations.IotinvalVmaRemovesItsEntries : Prop :=
  ∀ (av pscv gv nl sBit : Bool) (pscid : BitVec 20) (gscid : BitVec 16) (addr : BitVec 52) (s : State),
    (nl = true → s.cfg.nl = true) → (sBit = true → s.cfg.rangeInval = true) →
    ¬(av = true ∧ sBit = true ∧ addr = BitVec.allOnes 52) →
    ∃ t, exec (.iotinvalVma av pscv gv nl sBit pscid gscid addr) s = .next t ∧
      t = { s with ioatc := t.ioatc, cqh := s.cqb.next s.cqh } ∧
      ∀ e, e ∈ t.ioatc ↔ e ∈ s.ioatc ∧ ¬ ∃ g, e.firstStage = some g ∧
        ((gv = false ∧ g.space = none) ∨
          (gv = true ∧ ∃ h, g.space = some h ∧ h.toNat = gscid.toNat % 2 ^ s.cfg.gscidWidth)) ∧
        (pscv = false ∨ (g.pscid.toNat = pscid.toNat % 2 ^ s.cfg.pscidWidth ∧ g.global = false)) ∧
        (av = false ∨ (rangeCovers g.page g.span addr sBit ∧ (g.leaf = true ∨ nl = true)))

/-- IOTINVAL.GVMA removes exactly the second-stage and MSI entries of Table 12 and every combined entry of its scope,
advances `cqh`, and changes nothing else. Identifiers compare in the bits the implementation keeps (log 33). An ADDR of all
ones with S is left out: the source leaves the behaviour UNSPECIFIED (U22, log 19). That exactly these entries go is the
model's choice among the supersets R418 allows (log 6), and so is that every combined entry of the GSCID goes (R412 allows
it; log 36), but where no guest page of the entry's scheme is in the range, so that ADDR is not valid for it and has no
effect (R414, U21; log 19). A cached MSI PTE goes by its guest page whatever the width of the second stage (log 19). -/
def Obligations.IotinvalGvmaRemovesItsEntries : Prop :=
  ∀ (av gv nl sBit : Bool) (pscid : BitVec 20) (gscid : BitVec 16) (addr : BitVec 52) (s : State),
    (nl = true → s.cfg.nl = true) → (sBit = true → s.cfg.rangeInval = true) →
    ¬(gv = true ∧ av = true ∧ sBit = true ∧ addr = BitVec.allOnes 52) →
    ∃ t, exec (.iotinvalGvma av false gv nl sBit pscid gscid addr) s = .next t ∧
      t = { s with ioatc := t.ioatc, cqh := s.cqb.next s.cqh } ∧
      ∀ e, e ∈ t.ioatc ↔ e ∈ s.ioatc ∧
        ¬(∃ g, e.secondStage = some g ∧
          (gv = false ∨ (g.gscid.toNat = gscid.toNat % 2 ^ s.cfg.gscidWidth ∧
            (av = false ∨ (rangeCovers g.page g.span addr sBit ∧ (g.leaf = true ∨ nl = true)))))) ∧
        ¬(∃ c, e = .s12 c ∧ (gv = false ∨ (c.gscid.toNat = gscid.toNat % 2 ^ s.cfg.gscidWidth ∧
          (av = false ∨ rangeCovers 0#52 c.guestSpan addr sBit))))

/-- IODIR.INVAL_DDT: with DV = 0 every directory entry goes; with DV = 1 the device's context and its process-directory
entries (R446). IODIR.INVAL_PDT: the process context of its device and process (R447). Both advance `cqh` and change
nothing else. That nothing more is removed is the model's choice, since R451 always allows it (log 6). -/
def Obligations.IodirRemovesItsEntries : Prop :=
  (∀ (dv : Bool) (did : BitVec 24) (s : State), isIllegal (.iodirInvalDdt dv 0#20 did) s = false →
    ∃ t, exec (.iodirInvalDdt dv 0#20 did) s = .next t ∧
      t = { s with ioatc := t.ioatc, cqh := s.cqb.next s.cqh } ∧
      ∀ e, e ∈ t.ioatc ↔ e ∈ s.ioatc ∧
        ¬((∃ l k d x, e = .ddtNL l k d x ∧ dv = false) ∨
          (∃ d c, e = .dc d c ∧ (dv = false ∨ d = did)) ∨
          (∃ d l k p x, e = .pdtNL d l k p x ∧ (dv = false ∨ d = did)) ∨
          (∃ d p c, e = .pc d p c ∧ (dv = false ∨ d = did)))) ∧
  ∀ (pid : BitVec 20) (did : BitVec 24) (s : State), isIllegal (.iodirInvalPdt true pid did) s = false →
    ∃ t, exec (.iodirInvalPdt true pid did) s = .next t ∧
      t = { s with ioatc := t.ioatc, cqh := s.cqb.next s.cqh } ∧
      ∀ e, e ∈ t.ioatc ↔ e ∈ s.ioatc ∧ ¬ ∃ c, e = .pc did pid c

/-- ATS.INVAL sends the Invalidation Request, with the segment only if DSV and the PASID only if PV, and is outstanding
from then on (R461, R462; the number that marks the request and its age are the model's, log 14, log 23). ATS.PRGR sends
the Page Request Group Response (R465). Both advance `cqh`, and nothing else changes. -/
def Obligations.AtsCommandsSendTheirMessages : Prop :=
  ∀ (pv dsv : Bool) (pid : BitVec 20) (rid : BitVec 16) (dseg : BitVec 8) (payload : DWord) (s : State),
    s.cfg.ats = true →
    exec (.atsInval pv dsv pid rid dseg payload) s = .next { s with
      cqh := s.cqb.next s.cqh
      itag := s.itag + 1
      outstanding := s.outstanding ++ [⟨s.cqh, if dsv then some dseg else none, rid, s.itag, 0⟩]
      out := s.out ++ [.invalidationRequest s.itag
        ⟨if dsv then some dseg else none, rid, if pv then some pid else none, payload⟩] } ∧
    exec (.atsPrgr pv dsv pid rid dseg payload) s = .next { s with
      cqh := s.cqb.next s.cqh
      out := s.out ++ [.prgResponse
        ⟨if dsv then some dseg else none, rid, if pv then some pid else none, payload⟩] }

/-- IOFENCE.C completes when nothing before it is outstanding or timed out and its store, if any, meets no fault: with
AV the four bytes at ADDR*4 become DATA in the byte order of `fctl.BE` and every other byte keeps what the commitment of
PR and PW (log 28) left; with WSI `fence_w_ip` is set, and `cip` if `cie` is 1; `cqh` advances; nothing else changes (R430,
R432, R434). The store is stated with no access of another agent between its atomic units (log 5); its label is log 27. -/
def Obligations.IofenceCompletes : Prop :=
  ∀ (av wsi pr pw : Bool) (data : BitVec 32) (addr : BitVec 62) (s : State),
    (wsi = true → s.cfg.igs ≠ .msi ∧ s.fctl.wsi = true) → s.outstanding = [] → s.timedOut = false →
    (av = true → s.accessFaults .write (addr.toNat * 4) 4 = false ∧ s.others = []) → s.mem.wf = true →
    ∃ t, exec (.iofenceC av wsi pr pw data addr) s = .next t ∧
      t = { s with
        cqh := s.cqb.next s.cqh
        cqcsr := { s.cqcsr with fenceWIp := s.cqcsr.fenceWIp || wsi }
        ipsr := { s.ipsr with cip := s.ipsr.cip || (wsi && s.cqcsr.cie) }
        uncommittedReads := if pr then [] else s.uncommittedReads
        uncommittedWrites := if pw then [] else s.uncommittedWrites
        mem := t.mem
        out := (fenceCommit pr pw s).out
        bus := if av then s.bus ++ [⟨.write, addr.toNat * 4, 4, s.iommuQos⟩] else s.bus } ∧
      (av = true → Memory.readBytes t.mem (addr.toNat * 4) 4 = toBytes s.fctl.be 4 data.toNat) ∧
      (∀ a, (av = false ∨ a < addr.toNat * 4 ∨ addr.toNat * 4 + 4 ≤ a) →
        t.mem.read a = (fenceCommit pr pw s).mem.read a)

/-- PR performs the accesses of the processed reads and PW those of the processed writes, oldest first; one that meets an
access fault is aborted by the IO bridge: a read gets the abort data, a write is discarded (R566). A fence with neither PR
nor PW leaves them (R433; that they are performed at once is the model's form of the wait, log 28). -/
def Obligations.IofenceCommitsDeviceAccesses : Prop :=
  ∀ (pr pw : Bool) (data : BitVec 32) (addr : BitVec 62) (s : State), s.outstanding = [] → s.timedOut = false →
    exec (.iofenceC false false pr pw data addr) s = .next { s with
      cqh := s.cqb.next s.cqh
      uncommittedReads := if pr then [] else s.uncommittedReads
      uncommittedWrites := if pw then [] else s.uncommittedWrites
      out := if pr then
          s.out ++ s.uncommittedReads.map fun p =>
            if s.accessFaults .read p.addr p.len then Output.abort p.tag s.plat.abortData
            else Output.deviceRead p.tag (Memory.readBytes s.mem p.addr p.len)
        else s.out
      mem := if pw then
          s.uncommittedWrites.foldl
            (fun m p => if s.accessFaults .write p.addr p.data.length then m else Memory.writeBytes m p.addr p.data) s.mem
        else s.mem }

/-- When IOFENCE.C does not complete. While an ATS.INVAL before it is outstanding it stays fetched, `cqh` stays at it, and
nothing is stored or signalled (R431, R463; log 22). When it finds an earlier timeout it sets `cmd_to`, clears the sticky
record of the timeout (D29), leaves `cqh` at itself, and neither stores, commits nor signals (R437, R463). When its store
meets an access fault it sets `cqmf`, leaves `cqh` at itself, does not set `fence_w_ip`, and stores nothing (R436); what PR
and PW commit has been committed by then, as the order of R430 says (log 28; the label of the write that faults is log 27).
Either error raises the interrupt if `cie` is 1, of which InterruptDelivery says all that it does (what other agents do
around its message is log 5), and changes nothing else. -/
def Obligations.IofenceWaitsOrStops : Prop :=
  ∀ (av wsi pr pw : Bool) (data : BitVec 32) (addr : BitVec 62) (s : State),
    (wsi = true → s.cfg.igs ≠ .msi ∧ s.fctl.wsi = true) →
    (s.outstanding ≠ [] →
      exec (.iofenceC av wsi pr pw data addr) s
        = .next { s with fetched := some (.iofenceC av wsi pr pw data addr) }) ∧
    (s.outstanding = [] → s.timedOut = true →
      let n : State := { s with cqcsr := { s.cqcsr with cmdTo := true }, timedOut := false }
      ∃ t, exec (.iofenceC av wsi pr pw data addr) s = .next t ∧ t = (if s.cqcsr.cie then n.raiseIp .cq else n) ∧
        t.cqcsr = { s.cqcsr with cmdTo := true } ∧ (s.cqcsr.cie = true → t.ipsr.cip = true) ∧
        t.unreported = n.unreported ∧ s.keepsAccesses t ∧ (s.cipQuiet = true → t = n)) ∧
    (s.outstanding = [] → s.timedOut = false → s.accessFaults .write (addr.toNat * 4) 4 = true →
      let n : State := { fenceCommit pr pw s with
        cqcsr := { s.cqcsr with cqmf := true }
        bus := s.bus ++ [⟨.write, addr.toNat * 4, 4, s.iommuQos⟩] }
      ∃ t, exec (.iofenceC true wsi pr pw data addr) s = .next t ∧ t = (if s.cqcsr.cie then n.raiseIp .cq else n) ∧
        t.cqcsr = { s.cqcsr with cqmf := true } ∧ (s.cqcsr.cie = true → t.ipsr.cip = true) ∧
        t.unreported = ({ s with cqcsr := { s.cqcsr with cqmf := true } } : State).unreported ∧
        ({ s with
          uncommittedReads := if pr then [] else s.uncommittedReads
          uncommittedWrites := if pw then [] else s.uncommittedWrites } : State).keepsAccesses t ∧
        (s.cipQuiet = true → t.mem = (fenceCommit pr pw s).mem ∧ t.ipsr = s.ipsr ∧ t.fqcsr = s.fqcsr ∧ t.fqt = s.fqt
          ∧ t.msiPending = s.msiPending ∧ t.out = (fenceCommit pr pw s).out))

/-- Every command, legal or not, answers a next state, and none changes a register that only software writes, a register
of another unit, or the IOMMU's configuration (R410, R445, R460, R66). -/
def Obligations.CommandsKeepControlRegisters : Prop :=
  ∀ (i : Instr) (s : State), ∃ t, exec i s = .next t ∧
    t.cfg = s.cfg ∧ t.plat = s.plat ∧ t.fctl = s.fctl ∧ t.ddtp = s.ddtp ∧ t.cqb = s.cqb ∧ t.cqt = s.cqt ∧
    t.fqb = s.fqb ∧ t.fqh = s.fqh ∧ t.pqb = s.pqb ∧ t.pqh = s.pqh ∧ t.pqt = s.pqt ∧ t.pqcsr = s.pqcsr ∧
    t.cqcsr.cqen = s.cqcsr.cqen ∧ t.cqcsr.cie = s.cqcsr.cie ∧ t.cqcsr.cqon = s.cqcsr.cqon ∧
    t.fqcsr.en = s.fqcsr.en ∧ t.fqcsr.ie = s.fqcsr.ie ∧ t.fqcsr.on = s.fqcsr.on ∧
    t.iocountinh = s.iocountinh ∧ t.iohpmcycles = s.iohpmcycles ∧ t.iohpmctr = s.iohpmctr ∧
    t.iohpmevt = s.iohpmevt ∧ t.trReqIova = s.trReqIova ∧ t.trReqCtl = s.trReqCtl ∧ t.trResponse = s.trResponse ∧
    t.qosid = s.qosid ∧ t.icvec = s.icvec ∧ t.msiCfg = s.msiCfg ∧ t.inbox = s.inbox ∧
    (t.cqh = s.cqh ∨ t.cqh = s.cqb.next s.cqh)

/-! ### Invariants that every step keeps -/

/-- Memory keeps its canonical form. The form, a rising list without entries for bytes of 0, is the model's own (log 3):
no rule of the spec states it; R201 only makes memory an array of bytes. -/
def Obligations.StepKeepsMemoryForm : Prop :=
  ∀ s t : State, s.mem.wf = true → step s = .next t → t.mem.wf = true

/-- No step caches an entry whose V bit is 0 (R231). -/
def Obligations.StepCachesOnlyValidEntries : Prop :=
  ∀ s t : State, s.cacheOk = true → step s = .next t → t.cacheOk = true

/-- Every queue stays on exactly while it is enabled, and no `busy` bit and no `Go/Busy` is seen as 1 (R531, R522; that
the bits are never seen as 1 is the model's refinement D15, log 5). -/
def Obligations.StepKeepsQueuesSettled : Prop :=
  ∀ s t : State, s.settled = true → step s = .next t → t.settled = true

/-- A level condition of an interrupt that holds has its pending bit set, after every step (R591, R488). -/
def Obligations.StepKeepsInterruptsPending : Prop :=
  ∀ s t : State, s.interruptsPend = true → step s = .next t → t.interruptsPend = true

/-- The indices that software owns, `cqt`, `fqh` and `pqh`, stay below the number of entries always, and those that the
IOMMU owns, `cqh`, `fqt` and `pqt`, while their queue is on: a queue that is off may be made smaller than these, which
R532 leaves alone (R31, R484, R533). Of the register `cqh` the bits from LOG2SZ up read 0 all the same, and the others are
the index's (R31; log 43). -/
def Obligations.StepKeepsIndicesInRange : Prop :=
  (∀ s t : State, s.indicesOk = true → step s = .next t → t.indicesOk = true) ∧
  ∀ s : State, (s.regRead 32 4).toNat = s.cqh.toNat % s.cqb.entries ∧
    (s.cqb.inRange s.cqh = true → s.regRead 32 4 = s.cqh.setWidth 64)

/-- Every WARL field always holds a legal value: those of `fctl`, `ddtp` and the queue bases, the indices `cqt`, `fqh` and
`pqh`, and those of the counters, the selectors, `iommu_qosid`, `icvec` and the MSI table; and what the implementation
does not have holds 0: event counters and selectors, entries of the MSI table, and the registers of an absent unit (R12,
R36, R38, R55 to R58, R62 to R64, R532, R533; R32 item 5; a vector field at or above the number of vectors keeps its
value, log 40). -/
def Obligations.StepKeepsRegistersLegal : Prop :=
  ∀ s t : State, s.controlLegal = true → s.auxiliaryLegal = true → s.absentZero = true →
    s.cqb.inRange s.cqt = true → s.fqb.inRange s.fqh = true → s.pqb.inRange s.pqh = true → step s = .next t →
    t.controlLegal = true ∧ t.auxiliaryLegal = true ∧ t.absentZero = true ∧
    t.cqb.inRange t.cqt = true ∧ t.fqb.inRange t.fqh = true ∧ t.pqb.inRange t.pqh = true

/-- No step changes the implementation or the platform, and each step takes exactly one input if there is one (R34,
R688; the queue of inputs is the model's own, log 4). -/
def Obligations.StepKeepsConfiguration : Prop :=
  ∀ s t : State, step s = .next t → t.cfg = s.cfg ∧ t.plat = s.plat ∧ t.inbox = s.inbox.tail

/-- Every step answers a next state, but for a hart's access outside the physical address space: no command, no request,
no device's access and no register access stops the machine (R395, R483; log 32). -/
def Obligations.OnlyForeignAccessesStop : Prop :=
  ∀ s : State, (∃ t, step s = .next t) ∨
    ∃ e es a n, s.inbox = e :: es ∧ step s = .fault (.outsideMemory a) ∧ 2 ^ s.cfg.pas < a + n ∧
      ((∃ x, e = .hartRead x n ∧ x.toNat = a) ∨ (∃ h x l, e = .hartReadFirst h x l ∧ x.toNat = a ∧ n = 8) ∨
        (∃ x v l, e = .hartWrite x n v l ∧ x.toNat = a))

/-- Only a reset and a hart's write to one of the two halves of `ddtp` change `ddtp` (R520, R524; R66). That an access of
the IOMMU or of a device which falls into the register page acts on memory is log 8. -/
def Obligations.OnlySoftwareChangesDdtp : Prop :=
  ∀ s t : State, step s = .next t → t.ddtp ≠ s.ddtp →
    (∃ es, s.inbox = .reset :: es) ∨
    (∃ a n v l es, s.inbox = .hartWrite a n v l :: es ∧
      (a.toNat = s.cfg.regBase.toNat + 16 ∨ a.toNat = s.cfg.regBase.toNat + 20))

/-- A device's request, message or write, and a device's access becoming globally visible, answer a next state and change
no register that only software writes: what a device does cannot reconfigure the IOMMU (R565, R361, R600, R222). That a
device's access which falls into the register page acts on memory is the model's choice (log 8). -/
def Obligations.DevicesCannotReconfigure : Prop :=
  ∀ (s : State) (e : Event) (es : List Event), s.inbox = e :: es →
    ((∃ r, e = .request r) ∨ (∃ m, e = .pageRequest m) ∨ (∃ d n, e = .invalCompletion d n) ∨
      (∃ a bs, e = .dmaWrite a bs) ∨ (∃ n, e = .busCommit n)) →
    ∃ t, step s = .next t ∧ t.cfg = s.cfg ∧ t.fctl = s.fctl ∧ t.ddtp = s.ddtp ∧ t.cqb = s.cqb ∧ t.cqh = s.cqh ∧
      t.cqt = s.cqt ∧ t.cqcsr = s.cqcsr ∧ t.fqb = s.fqb ∧ t.fqh = s.fqh ∧ t.fqcsr.en = s.fqcsr.en ∧
      t.fqcsr.ie = s.fqcsr.ie ∧ t.pqb = s.pqb ∧ t.pqh = s.pqh ∧ t.pqcsr.en = s.pqcsr.en ∧ t.pqcsr.ie = s.pqcsr.ie ∧
      t.iocountinh = s.iocountinh ∧ t.trReqIova = s.trReqIova ∧ t.trReqCtl = s.trReqCtl ∧ t.qosid = s.qosid ∧
      t.icvec = s.icvec ∧ t.msiCfg = s.msiCfg ∧ (∀ b, s.ipsr.get b = true → t.ipsr.get b = true)

/-! ### Reset -/

/-- The reset values R70 gives, for every implementation: those it gives as 0, the mode, the empty caches, and
`capabilities`, which holds the implementation's features, each at its bits, the reserved bits 0, and reads so in every
state, not only after reset (R34). -/
def Obligations.ResetValues : Prop :=
  ∀ c : Cfg, let s := State.resetWith c
    s.cqcsr.cqen = false ∧ s.cqcsr.cie = false ∧ s.cqcsr.cqon = false ∧ s.cqcsr.busy = false ∧
    s.fqcsr.en = false ∧ s.fqcsr.ie = false ∧ s.fqcsr.on = false ∧ s.fqcsr.busy = false ∧
    s.pqcsr.en = false ∧ s.pqcsr.ie = false ∧ s.pqcsr.on = false ∧ s.pqcsr.busy = false ∧
    s.trReqCtl.goBusy = false ∧ s.ddtp.busy = false ∧ s.ipsr = ⟨false, false, false, false⟩ ∧
    (s.ddtp.mode = .off ∨ s.ddtp.mode = .bare) ∧ s.ioatc = [] ∧ (s.ddtp.mode = .bare → s.qosid.rcid = 0#12) ∧
    s.cfg = c ∧
    ∀ t : State, t.cfg = c →
      let cap := t.regRead 0 8
      (∀ j b, (j, b) ∈ [(8, c.sv32), (9, c.sv39), (10, c.sv48), (11, c.sv57), (14, c.svrsw60t59b), (15, c.svpbmt),
        (16, c.sv32x4), (17, c.sv39x4), (18, c.sv48x4), (19, c.sv57x4), (21, c.amoMrif), (22, c.msiFlat),
        (23, c.msiMrif), (24, c.amoHwad), (25, c.ats), (26, c.t2gpa), (27, c.endBoth), (30, c.hpm), (31, c.dbg),
        (38, c.pd8), (39, c.pd17), (40, c.pd20), (41, c.qosid), (42, c.nl), (43, c.rangeInval)] → cap.getLsbD j = b) ∧
      cap.extractLsb' 0 8 = c.version ∧
      cap.extractLsb' 28 2 = (if c.igs = .msi then 0#2 else if c.igs = .wsi then 1#2 else 2#2) ∧
      cap.extractLsb' 32 6 = BitVec.ofNat 6 c.pas ∧ cap.extractLsb' 56 8 = c.capCustom ∧
      cap.extractLsb' 12 2 = 0#2 ∧ cap.getLsbD 20 = false ∧ cap.extractLsb' 44 12 = 0#12

/-- The state after reset of every implementation the spec allows is sound: all the invariants hold. Where they speak of
fields whose reset value the spec leaves UNSPECIFIED, they rest on the model's values (log 2, log 46). -/
def Obligations.ResetStateIsSound : Prop :=
  (∀ c : Cfg, c.wellFormed = true → (State.resetWith c).sound = true) ∧ State.reset.sound = true

/-- A reset while the machine runs: every register has the value it has after reset, the hidden state is empty (no cached
entry, no outstanding ATS.INVAL, no timeout, no fetched command, no masked message), and memory is not written (R660,
R661). Nothing that runs by itself raises an interrupt until software enables it: the cycle counter stands, no event is
counted, and no record and no Page Request is queued (R71; that the cycle counter is inhibited is the model's choice,
log 46). The platform, the accesses that have left the IOMMU, half a register read, and the model's own bookkeeping stay
(log 35). -/
def Obligations.ResetClearsIommuKeepsMemory : Prop :=
  ∀ (s : State) (es : List Event), s.inbox = .reset :: es →
    ∃ t, step s = .next t ∧
      (∀ r : Reg, t.readReg r = (State.resetWith s.cfg).readReg r) ∧
      t.ioatc = [] ∧ t.outstanding = [] ∧ t.timedOut = false ∧ t.fetched = none ∧
      t.msiPending = Vector.replicate 16 false ∧ t.canFetch = false ∧ (∀ v, t.wire v = false) ∧
      (∀ n, t.tick n = t) ∧ (∀ e ids, t.countEvent e ids = t) ∧ (∀ r, t.report r = t) ∧
      (∀ m, t.pqEnqueue m = (some .responseFailure, t)) ∧
      t.cfg = s.cfg ∧ t.mem = s.mem ∧ t.plat = s.plat ∧ t.uncommittedReads = s.uncommittedReads ∧
      t.uncommittedWrites = s.uncommittedWrites ∧ t.halfReads = s.halfReads ∧ t.others = s.others ∧ t.inbox = es ∧
      t.out = s.out ∧ t.bus = s.bus ∧ t.itag = s.itag ∧ t.choices = s.choices ∧ t.freeCtr = s.freeCtr

/-! ### Faults and the fault queue -/

/-- The fields of the first doubleword of a fault record, and the others (R180, whose positions the spec gives from
general knowledge, log 9; R563, R564). -/
def Obligations.FaultRecordLayout : Prop :=
  ∀ r : FaultRecord, ∃ d : DWord, r.dwords = [d, 0#64, r.iotval, r.iotval2] ∧
    d.extractLsb' 0 12 = r.cause.code ∧ d.extractLsb' 12 20 = r.pid ∧ d.getLsbD 32 = r.pv ∧ d.getLsbD 33 = r.priv ∧
    d.extractLsb' 34 6 = r.ttyp ∧ d.extractLsb' 40 24 = r.did

/-- A report to a queue that is on, free of errors and not full stores the four doublewords at `fqt` in the byte order
of `fctl.BE`, leaves every other byte of memory alone, and advances `fqt`; nothing else changes but that `fip` is raised,
with its delivery, when the queue's interrupt is enabled (R570, R560, R591). Stated with no access of another agent between
the doublewords (log 5). -/
def Obligations.ReportWritesRecord : Prop :=
  ∀ (s : State) (r : FaultRecord), s.mem.wf = true → s.fqcsr.on = true → s.fqcsr.ovf = false → s.fqcsr.mf = false →
    s.fqb.next s.fqt ≠ s.fqh → s.others = [] →
    let a := s.fqb.entryAddr 5 s.fqt
    (∀ k, k < 4 → s.accessFaults .write (a + 8 * k) 8 = false) →
    ∃ m : Memory,
      let t := { s with
        fqt := s.fqb.next s.fqt
        mem := m
        bus := s.bus ++ [⟨.write, a, 32, s.iommuQos⟩] }
      s.report r = (if s.fqcsr.ie then t.raiseIp .fq else t) ∧
      (s.fqcsr.ie = true → (s.report r).ipsr.fip = true) ∧
      (∀ k, (hk : k < 4) →
        dwordAt s.fctl.be (Memory.readBytes m a 32) (8 * k) = r.dwords[k]'(by simpa [FaultRecord.dwords] using hk)) ∧
      (∀ b, (b < a ∨ a + 32 ≤ b) → m.read b = s.mem.read b)

/-- Records that find the queue off, or `fqof` or `fqmf` set, are discarded without any effect; the answer to the device
is given all the same; after reset the queue is off (R570, R571, R572, R573). -/
def Obligations.DiscardedRecordsLeaveNoTrace : Prop :=
  (∀ (s : State) (r : FaultRecord), (s.fqcsr.on = false ∨ s.fqcsr.ovf = true ∨ s.fqcsr.mf = true) →
    s.report r = s ∧ ∀ suppressed dtf o, s.takeFault r suppressed dtf (some o) = s.emit o) ∧
  ∀ c : Cfg, (State.resetWith c).fqcsr.on = false

/-- A record that finds the queue full sets `fqof` and is discarded: no byte is stored and `fqt` stays (R573). One whose
write meets an access fault sets `fqmf`: `fqt` stays, no byte outside the entry changes, and each doubleword of the entry
holds what it held, or, if its own write does not fault, the record's (R572; which of them reached memory is a free choice,
log 7; stated with no access of another agent in between, log 5). Either way `fip` is raised, with its delivery, when the
queue's interrupt is enabled (R591), and nothing else changes. -/
def Obligations.FaultQueueErrors : Prop :=
  ∀ (s : State) (r : FaultRecord), s.fqcsr.on = true → s.fqcsr.ovf = false → s.fqcsr.mf = false →
    (s.fqb.next s.fqt = s.fqh →
      let t := { s with fqcsr := { s.fqcsr with ovf := true } }
      s.report r = (if s.fqcsr.ie then t.raiseIp .fq else t) ∧
      (s.report r).fqcsr = { s.fqcsr with ovf := true } ∧ (s.report r).fqt = s.fqt ∧
      (s.fqcsr.ie = true → (s.report r).ipsr.fip = true)) ∧
    (s.mem.wf = true → s.fqb.next s.fqt ≠ s.fqh → s.others = [] →
      let a := s.fqb.entryAddr 5 s.fqt
      (∃ k, k < 4 ∧ s.accessFaults .write (a + 8 * k) 8 = true) →
      ∃ m c n,
        let t := { s with
          fqcsr := { s.fqcsr with mf := true }
          mem := m
          bus := s.bus ++ [⟨.write, a, 32, s.iommuQos⟩]
          choices := c
          freeCtr := n }
        s.report r = (if s.fqcsr.ie then t.raiseIp .fq else t) ∧
        (s.report r).fqcsr = { s.fqcsr with mf := true } ∧ (s.report r).fqt = s.fqt ∧
        (s.fqcsr.ie = true → (s.report r).ipsr.fip = true) ∧
        (∀ b, (b < a ∨ a + 32 ≤ b) → Memory.read m b = s.mem.read b) ∧
        (∀ k, (hk : k < 4) →
          (∀ b, a + 8 * k ≤ b → b < a + 8 * k + 8 → Memory.read m b = s.mem.read b) ∨
          (s.accessFaults .write (a + 8 * k) 8 = false ∧
            dwordAt s.fctl.be (Memory.readBytes m a 32) (8 * k)
              = r.dwords[k]'(by simpa [FaultRecord.dwords] using hk))))

/-- With DTF = 1 exactly the causes 256 to 259, 268, 272 and 273 are still reported; the others only get their answer
(R561, R567). -/
def Obligations.DtfSuppressesReports : Prop :=
  ∀ (s : State) (r : FaultRecord) (o : Output),
    s.takeFault r false true (some o) =
      if (256 ≤ r.cause.code.toNat ∧ r.cause.code.toNat ≤ 259) ∨ r.cause.code.toNat = 268 ∨
          r.cause.code.toNat = 272 ∨ r.cause.code.toNat = 273
      then (s.report r).emit o else s.emit o

/-! ### Requests -/

/-- The requests that stop before any context is located. One that meets an internal error: cause 272 (R568; that it comes
first is log 42). In mode Off every one: cause 256. In mode Bare a Translated request (R270 step 2 and R524; R661 ends
otherwise, and that the two are followed is log 44) and an ATS Translation Request, and in 1LVL and 2LVL one whose
`device_id` is wider than the directory: cause 260 (R270 steps 1, 2 and 5, R272). The fault is reported, and the device
gets an abort, or, for an ATS Translation Request, Unsupported Request (R345), or Completer Abort for cause 272 (R568; D22,
log 13) (R565, R566). That `iotval` holds the whole IOVA, page offset too, is the model's choice (U14, log 41). -/
def Obligations.RequestsRefusedBeforeContext : Prop :=
  ∀ (s : State) (r : Request) (es : List Event) (c : Cause), s.inbox = .request r :: es →
    ((r.internalError = true ∧ c = .internalError) ∨
      (r.internalError = false ∧
        ((s.ddtp.mode = .off ∧ c = .allDisallowed) ∨
          (c = .typeDisallowed ∧
            ((s.ddtp.mode = .bare ∧
                (r.ttyp = .transRead ∨ r.ttyp = .transWrite ∨ r.ttyp = .transExec ∨ r.ttyp = .atsRequest)) ∨
              (s.ddtp.mode = .lvl1 ∧ 2 ^ (if s.cfg.msiFlat then 6 else 7) ≤ r.did.toNat) ∨
              (s.ddtp.mode = .lvl2 ∧ 2 ^ (if s.cfg.msiFlat then 15 else 16) ≤ r.did.toNat)))))) →
    step s = .next
      (((({ s with inbox := es } : State).enter r).report
        ⟨c, r.ttyp.code, r.did, r.pidValid, if r.pidValid then r.pid else 0#20,
          r.pidValid && r.supervisor, r.iova, 0#64⟩).emit
        (if r.ttyp = .atsRequest then
          .ats r.tag (if r.internalError then .completerAbort else .unsupportedRequest)
        else .abort r.tag s.plat.abortData))

/-- In mode Bare an Untranslated request passes through with its address, all permissions, and the QoS label of
`iommu_qosid`; its own access is then pending, and nothing else changes (R270 step 2, R271, R62; log 28, log 29). -/
def Obligations.BareModePassesThrough : Prop :=
  ∀ (s : State) (r : Request) (es : List Event), s.inbox = .request r :: es → s.ddtp.mode = .bare →
    r.internalError = false → (r.ttyp = .untransRead ∨ r.ttyp = .untransWrite ∨ r.ttyp = .untransExec) →
    let u := ({ s with inbox := es } : State).enter r
    step s = .next { u with
      uncommittedReads :=
        if r.ttyp = .untransWrite then u.uncommittedReads else u.uncommittedReads ++ [⟨r.tag, r.iova.toNat, r.len⟩]
      uncommittedWrites :=
        if r.ttyp = .untransWrite then u.uncommittedWrites ++ [⟨r.tag, r.iova.toNat, r.data⟩]
        else u.uncommittedWrites
      out := u.out ++ [.completion r.tag ⟨r.iova, s.cfg.bareSpan, true, true, true, 0#2, s.iommuQos, none⟩] }

/-- Locating a device context, from memory or from the IOATC. From memory, with nothing cached, through a one-level DDT: one
read of the entry, then the causes in the order access fault, corruption, not valid, misconfigured, else the context, which
is cached. Through one to three levels: the same at each non-leaf entry, where a reserved bit is the misconfiguration; the
entry is cached, and its PPN is the next table (R281, R142, R144, R569; stated with no access of another agent during the
read, log 5). A cached context is used only for its own `device_id`, and a cached non-leaf entry only at its own level and
for a `device_id` that is the same above the index of that level; it stands for the read alone, and the tests follow as for
an entry read (R330, R233, R234). With no such entry memory is read; any such entry may be used, and so may memory, by a
free choice (R232; that an entry used is always cached, and which is used, is log 6; the choice is log 7). What caching an
entry does is said once: it is in the IOATC, and nothing else changes. A device context is misconfigured in exactly the
cases of R160, R161 and R162: the 22 items, a second stage that is Bare under an MSI page table (D7), and, if the
implementation looks for it then, a pointer wider than its address space (D8, log 30). Custom bits and encodings are log 31,
a custom MODE is not valid (D6), and the bits are those of R146 to R159 (log 9). -/
def Obligations.DeviceContextLookup : Prop :=
  let stop (c : Cause) (ids : EventIds) (t : State) : Res DC := .stop ⟨c, 0#64, none, ids, none⟩ t
  let free (s : State) (c : List Nat) (n : Nat) : State := { s with choices := c, freeCtr := n }
  let corruption (s : State) : Cause := if s.cfg.reportsCorruption then .ddtCorruption else .ddtLoadAccess
  (∀ (s : State) (ids : EventIds), s.ddtp.mode = .lvl1 → s.ioatc = [] → s.others = [] →
      let a := s.ddtp.ppn.toNat * 4096 + ddi s.cfg.msiFlat ids.did 0 * dcSize s.cfg
      let n := dcSize s.cfg
      let s1 := (s.countEvent .ddtWalk ids).logBus .read a n s.iommuQos
      let dc := dcOfBytes s.cfg s.fctl.be (Memory.readBytes s1.mem a n)
      locateDC ids s =
        if s.accessFaults .read a n then stop .ddtLoadAccess ids s1
        else if s.poisoned a n then stop (corruption s) ids s1
        else if dc.v = false then stop .ddtNotValid ids s1
        else if dcMisconfigured s.cfg s.fctl dc then stop .ddtMisconfigured ids s1
        else .ok dc { s1 with ioatc := [.dc ids.did dc] }) ∧
  (∀ (s : State) (e : IoatcEntry), s.fill e = { s with ioatc := if e ∈ s.ioatc then s.ioatc else e :: s.ioatc }) ∧
  (∀ (s : State) (ids : EventIds) (i : Nat),
    (i = 0 ∧ s.ddtp.mode = .lvl1) ∨ (i = 1 ∧ s.ddtp.mode = .lvl2) ∨ (i = 2 ∧ s.ddtp.mode = .lvl3) →
    let walked (t : State) := locateDC ids s = ddtWalk ids i (s.ddtp.ppn.toNat * 4096) t
    let hit (dc : DC) (t : State) := locateDC ids s =
      if dc.v = false then stop .ddtNotValid ids t
      else if dcMisconfigured s.cfg s.fctl dc then stop .ddtMisconfigured ids t
      else .ok dc t
    ((∀ dc, IoatcEntry.dc ids.did dc ∉ s.ioatc) → walked s) ∧
    (∀ dc, IoatcEntry.dc ids.did dc ∈ s.ioatc → ∃ k, ∀ cs, s.choices = k :: cs → hit dc { s with choices := cs }) ∧
    ∃ c n, walked (free s c n) ∨ ∃ dc, IoatcEntry.dc ids.did dc ∈ s.ioatc ∧ hit dc (free s c n)) ∧
  (∀ (s : State) (ids : EventIds) (i b : Nat), s.others = [] →
    (i < 2 →
      let below := (if s.cfg.msiFlat then 6 else 7) + 9 * i
      let a := b + ids.did.toNat / 2 ^ below % 512 * 8
      let goesOn (e : DWord) (t : State) : Res DC :=
        if e.getLsbD 0 = false then stop .ddtNotValid ids t
        else if e.extractLsb' 1 9 ≠ 0#9 ∨ e.extractLsb' 54 10 ≠ 0#10 then stop .ddtMisconfigured ids t
        else ddtWalk ids i ((e.extractLsb' 10 44).toNat * 4096) (t.fill (.ddtNL (i + 1) below ids.did e))
      let memory (t : State) : Prop :=
        let t1 := (t.countEvent .ddtWalk ids).logBus .read a 8 s.iommuQos
        ddtWalk ids (i + 1) b s =
          if s.accessFaults .read a 8 then stop .ddtLoadAccess ids t1
          else if s.poisoned a 8 then stop (corruption s) ids t1
          else goesOn (dwordAt s.fctl.be (Memory.readBytes t1.mem a 8) 0) t1
      let usable (e : DWord) : Prop := ∃ k d, IoatcEntry.ddtNL (i + 1) k d e ∈ s.ioatc ∧
        d.toNat / 2 ^ k = ids.did.toNat / 2 ^ k
      ((∀ e, ¬usable e) → memory s) ∧
      (∀ e, usable e → ∃ k, ∀ cs, s.choices = k :: cs →
        ddtWalk ids (i + 1) b s = goesOn e { s with choices := cs }) ∧
      ∃ c n, memory (free s c n) ∨ ∃ e, usable e ∧ ddtWalk ids (i + 1) b s = goesOn e (free s c n)) ∧
    (let a := b + ids.did.toNat % (if s.cfg.msiFlat then 64 else 128) * dcSize s.cfg
     let n := dcSize s.cfg
     let s1 := (s.countEvent .ddtWalk ids).logBus .read a n s.iommuQos
     let dc := dcOfBytes s.cfg s.fctl.be (Memory.readBytes s1.mem a n)
     ddtWalk ids 0 b s =
      if s.accessFaults .read a n then stop .ddtLoadAccess ids s1
      else if s.poisoned a n then stop (corruption s) ids s1
      else if dc.v = false then stop .ddtNotValid ids s1
      else if dcMisconfigured s.cfg s.fctl dc then stop .ddtMisconfigured ids s1
      else .ok dc (s1.fill (.dc ids.did dc)))) ∧
  ∀ (c : Cfg) (f : Fctl) (d : DC),
    let hmode := d.iohgatp.extractLsb' 60 4
    let fmode := d.fsc.extractLsb' 60 4
    let mmode := d.msiptp.extractLsb' 60 4
    let sxl := d.tc.getLsbD 11
    let wide (bits : Nat) (p : BitVec 44) : Prop := 2 ^ bits ≤ p.toNat * 4096
    let mgpaw := if c.sv57x4 then 59 else if c.sv48x4 then 50 else if c.sv39x4 then 41 else if c.sv32x4 then 34 else c.pas
    dcMisconfigured c f d = true ↔
      (∃ j, ((12 ≤ j ∧ j ≤ 23) ∨ (32 ≤ j ∧ j ≤ 63)) ∧ d.tc.getLsbD j = true) ∨
      (∃ j, (j ≤ 11 ∨ (32 ≤ j ∧ j ≤ 39) ∨ (c.qosid = false ∧ 40 ≤ j ∧ j ≤ 63)) ∧ d.ta.getLsbD j = true) ∨
      (∃ j, 44 ≤ j ∧ j ≤ 59 ∧ (d.fsc.getLsbD j = true ∨ (c.msiFlat = true ∧ d.msiptp.getLsbD j = true))) ∨
      (c.msiFlat = true ∧ (d.rsvd ≠ 0#64 ∨
        ∃ j, mgpaw - 12 ≤ j ∧ (d.msiAddrMask.getLsbD j = true ∨ d.msiAddrPattern.getLsbD j = true))) ∨
      (c.ats = false ∧ (d.tc.getLsbD 1 = true ∨ d.tc.getLsbD 2 = true ∨ d.tc.getLsbD 6 = true)) ∨
      (d.tc.getLsbD 1 = false ∧ (d.tc.getLsbD 3 = true ∨ d.tc.getLsbD 2 = true)) ∨
      (d.tc.getLsbD 2 = false ∧ d.tc.getLsbD 6 = true) ∨
      (d.tc.getLsbD 3 = true ∧ (c.t2gpa = false ∨ hmode = 0#4)) ∨
      (d.tc.getLsbD 5 = true ∧ ¬(fmode = 0#4 ∨ (fmode = 1#4 ∧ c.pd8 = true) ∨ (fmode = 2#4 ∧ c.pd17 = true) ∨
        (fmode = 3#4 ∧ c.pd20 = true))) ∨
      (d.tc.getLsbD 5 = false ∧ (d.tc.getLsbD 9 = true ∨ ¬(fmode = 0#4 ∨
        (sxl = false ∧ ((fmode = 8#4 ∧ c.sv39 = true) ∨ (fmode = 9#4 ∧ c.sv48 = true) ∨ (fmode = 10#4 ∧ c.sv57 = true))) ∨
        (sxl = true ∧ fmode = 8#4 ∧ c.sv32 = true)))) ∨
      ¬(hmode = 0#4 ∨
        (f.gxl = false ∧ ((hmode = 8#4 ∧ c.sv39x4 = true) ∨ (hmode = 9#4 ∧ c.sv48x4 = true) ∨
          (hmode = 10#4 ∧ c.sv57x4 = true))) ∨
        (f.gxl = true ∧ hmode = 8#4 ∧ c.sv32x4 = true)) ∨
      (c.msiFlat = true ∧ mmode ≠ 0#4 ∧ (mmode ≠ 1#4 ∨ hmode = 0#4)) ∨
      (hmode ≠ 0#4 ∧ d.iohgatp.extractLsb' 0 2 ≠ 0#2) ∨
      (c.amoHwad = false ∧ (d.tc.getLsbD 7 = true ∨ d.tc.getLsbD 8 = true)) ∨
      (c.endBoth = false ∧ d.tc.getLsbD 10 ≠ f.be) ∨
      (f.gxl = true ∧ sxl = false) ∨ (f.gxl = false ∧ sxl = true ∧ c.gxlWritable = false) ∨
      (c.qosid = true ∧ (2 ^ c.rcidWidth ≤ (d.ta.extractLsb' 40 12).toNat ∨
        2 ^ c.mcidWidth ≤ (d.ta.extractLsb' 52 12).toNat)) ∨
      (c.checkAddrWidthEarly = true ∧
        ((hmode ≠ 0#4 ∧ wide c.pas (d.iohgatp.extractLsb' 0 44)) ∨
        (fmode ≠ 0#4 ∧ wide (if hmode = 0#4 then c.pas else if f.gxl then 34 else if hmode = 8#4 then 41
          else if hmode = 9#4 then 50 else 59) (d.fsc.extractLsb' 0 44)) ∨
        (c.msiFlat = true ∧ mmode ≠ 0#4 ∧ wide c.pas (d.msiptp.extractLsb' 0 44))))

/-- Steps 7 to 16 of the process, its device context being located. A Translated request or an ATS Translation Request of a
device without ATS, a `process_id` for a device without a process directory, and one wider than the directory, stop with
cause 260 under the device context's DTF; any other Translated request completes with its own address, all permissions and
the context's QoS label if T2GPA is 0, and its own access is then pending; with T2GPA 1 its first stage is Bare (R270 steps
7 to 9, R273, R274; the bits of `tc`, `ta`, `fsc` and `iohgatp` are those of R146 and R153 to R157, log 9; that a Bare
directory takes a `process_id` of any width is D17, log 42; the size is log 29, the pending access log 28). Without PDTV the
first stage is that of `fsc` and the PSCID that of `ta`. With PDTV it is Bare where neither the request nor DPE gives a
`process_id`, and for a Bare directory; else the process context is located, of process 0 where DPE stands in, and gives the
first stage, the PSCID and SUM, but a Supervisor request without ENS stops with cause 260 (steps 10 to 16, R275, R261; the
privilege without a `process_id` is log 39; the tags are cut to the implementation's widths, log 33; the identifiers for
filters are D36, log 24). Then the translation is that of the two stages (steps 17 to 20, MsiAddressRecognition), or, where
both stages translate, that of a combined entry of the IOATC that gives the access all it needs (R234, log 6, log 36); its
completion goes out, and the device's own access is pending unless it was the store to an MRIF; a stop is the fault of the
request, with its record under DTF and the abort (R565, R566, R567). -/
def Obligations.ContextSelection : Prop :=
  (∀ (r : Request) (dc : DC) (s u : State), r.internalError = false →
    (s.ddtp.mode = .lvl1 ∨ s.ddtp.mode = .lvl2 ∨ s.ddtp.mode = .lvl3) →
    didTooWide s.cfg.msiFlat s.ddtp.mode r.did = false → locateDC r.ids s = .ok dc u →
    let refused := ((r.ttyp.translated = true ∨ r.ttyp = .atsRequest) ∧ (dc.tc.getLsbD 1 = false ∨ s.cfg.ats = false)) ∨
      (r.pidValid = true ∧ (dc.tc.getLsbD 5 = false ∨
        (dc.fsc.extractLsb' 60 4 = 1#4 ∧ 2 ^ 8 ≤ r.pid.toNat) ∨ (dc.fsc.extractLsb' 60 4 = 2#4 ∧ 2 ^ 17 ≤ r.pid.toNat)))
    let c : Success := ⟨r.iova, s.cfg.bareSpan, true, true, true, 0#2, dc.qos s.cfg, none⟩
    (refused → ∃ f, f.cause = .typeDisallowed ∧ f.iotval2 = 0#64 ∧ f.dc = some dc ∧
      (∀ debug, translate r debug s = .stop f u) ∧ atsTranslate r s = .stop f u) ∧
    (¬refused → r.ttyp.translated = true → dc.tc.getLsbD 3 = false →
      (∀ debug, translate r debug s = .ok ⟨c, r.ids⟩ u) ∧
      ∀ w : State, w.enter r = s →
        serveRequest r w = { u.leave r.ids with
          uncommittedReads :=
            if r.ttyp = .transWrite then (u.leave r.ids).uncommittedReads
            else (u.leave r.ids).uncommittedReads ++ [⟨r.tag, r.iova.toNat, r.len⟩]
          uncommittedWrites :=
            if r.ttyp = .transWrite then (u.leave r.ids).uncommittedWrites ++ [⟨r.tag, r.iova.toNat, r.data⟩]
            else (u.leave r.ids).uncommittedWrites
          out := (u.leave r.ids).out ++ [.completion r.tag c] }) ∧
    let scheme (xl : Bool) (mode : BitVec 4) : Scheme :=
      if mode = 8#4 then (if xl then .sv32 else .sv39) else if xl = false ∧ mode = 9#4 then .sv48
      else if xl = false ∧ mode = 10#4 then .sv57 else .bare
    let hscheme := scheme s.fctl.gxl (dc.iohgatp.extractLsb' 60 4)
    let gscid := BitVec.ofNat 16 ((dc.iohgatp.extractLsb' 44 16).toNat % 2 ^ s.cfg.gscidWidth)
    let x : WalkCtx := {
      acc := if r.ttyp = .untransExec ∨ r.ttyp = .transExec then .instruction
        else if r.ttyp = .untransWrite ∨ r.ttyp = .transWrite then .write else .read
      ats := r.ttyp == .atsRequest
      nw := r.nw
      ids := ⟨r.did, if r.pidValid then some r.pid else none, if hscheme = .bare then none else some gscid, none⟩
      dc := dc
      qos := if s.cfg.qosid then ⟨dc.ta.extractLsb' 40 12, dc.ta.extractLsb' 52 12⟩ else ⟨0#12, 0#12⟩
      gScheme := hscheme
      gRoot := dc.iohgatp.extractLsb' 0 44
      gscid := gscid
      gade := dc.tc.getLsbD 7
      fScheme := .bare
      fRoot := 0#44
      pscid := 0#20
      sade := dc.tc.getLsbD 8
      sbe := dc.tc.getLsbD 10
      supervisor := r.pidValid && r.supervisor
      sum := false }
    let first (fsc ta : DWord) (sum : Bool) : WalkCtx :=
      let fscheme := scheme (dc.tc.getLsbD 11) (fsc.extractLsb' 60 4)
      let pscid := BitVec.ofNat 20 ((ta.extractLsb' 12 20).toNat % 2 ^ s.cfg.pscidWidth)
      { x with
        fScheme := fscheme
        fRoot := fsc.extractLsb' 0 44
        pscid := pscid
        sum := sum
        ids := { x.ids with pscid := if fscheme = .bare then none else some pscid } }
    (¬refused → r.ttyp.translated = true → dc.tc.getLsbD 3 = true → plan r s = .ok (.walk x) u) ∧
    (¬refused → r.ttyp.translated = false →
      (dc.tc.getLsbD 5 = false → plan r s = .ok (.walk (first dc.fsc dc.ta false)) u) ∧
      (dc.tc.getLsbD 5 = true →
        ((r.pidValid = false ∧ dc.tc.getLsbD 9 = false) ∨ dc.fsc.extractLsb' 60 4 = 0#4 → plan r s = .ok (.walk x) u) ∧
        ((r.pidValid = true ∨ dc.tc.getLsbD 9 = true) → dc.fsc.extractLsb' 60 4 ≠ 0#4 →
          let located := locatePC x dc (if r.pidValid then r.pid else 0#20) u
          (∀ f w, located = .stop f w → plan r s = .stop f w) ∧
          ∀ pc w, located = .ok pc w →
            (r.pidValid = true → r.supervisor = true → pc.ta.getLsbD 1 = false →
              plan r s = .stop ⟨.typeDisallowed, 0#64, some dc, x.ids, none⟩ w) ∧
            (r.pidValid = false ∨ r.supervisor = false ∨ pc.ta.getLsbD 1 = true →
              plan r s = .ok (.walk (first pc.fsc pc.ta (pc.ta.getLsbD 2))) w))))) ∧
  (∀ (r : Request) (debug : Bool) (s u : State),
    (∀ f, plan r s = .stop f u → translate r debug s = .stop f u) ∧
    ∀ x, plan r s = .ok (.walk x) u →
      (∀ f w, runWalk x r debug u = .stop f w → translate r debug s = .stop f w) ∧
      ∀ c w, runWalk x r debug u = .ok c w → translate r debug s = .ok ⟨c, x.ids⟩ w) ∧
  (∀ (x : WalkCtx) (r : Request) (debug : Bool) (s : State),
    (x.fScheme = .bare ∨ x.gScheme = .bare ∨ s.ioatc = [] → runWalk x r debug s = walkStages x r debug s) ∧
    ∃ l n, let t : State := { s with choices := l, freeCtr := n }
      runWalk x r debug s = walkStages x r debug t ∨
      ∃ e, IoatcEntry.s12 e ∈ s.ioatc ∧ e.gscid = x.gscid ∧ e.pscid = x.pscid ∧
        e.page.toNat / 2 ^ e.span = (r.iova.extractLsb' 12 52).toNat / 2 ^ e.span ∧
        s12Permits s.cfg x r.iova e = true ∧
        runWalk x r debug s =
          .ok ⟨blockAddr e.spaPage.toNat e.span r.iova, e.span, e.r, e.w, e.x, e.pbmt, x.qos, none⟩ t) ∧
  ∀ (r : Request) (s : State) (es : List Event), s.inbox = .request r :: es →
    let w : State := { s with inbox := es }
    step s = .next (if r.ttyp = .atsRequest then serveAts r w else serveRequest r w) ∧
    (∀ f u, translate r false (w.enter r) = .stop f u →
      serveRequest r w = (u.leave f.ids).takeFault
        ⟨f.cause, r.ttyp.code, r.did, r.pidValid, if r.pidValid then r.pid else 0#20, r.pidValid && r.supervisor, r.iova,
          f.iotval2⟩ false f.dtf (some (.abort r.tag u.plat.abortData))) ∧
    ∀ d u, translate r false (w.enter r) = .ok d u →
      let v := u.leave d.ids
      let isWrite := r.ttyp = .untransWrite ∨ r.ttyp = .transWrite
      serveRequest r w = { v with
        uncommittedReads :=
          if d.c.mrif.isSome ∨ isWrite then v.uncommittedReads
          else v.uncommittedReads ++ [⟨r.tag, d.c.spa.toNat, r.len⟩]
        uncommittedWrites :=
          if d.c.mrif.isSome = false ∧ isWrite then v.uncommittedWrites ++ [⟨r.tag, d.c.spa.toNat, r.data⟩]
          else v.uncommittedWrites
        out := v.out ++ [.completion r.tag d.c] }

/-- Locating a process context, from memory or from the IOATC. Each entry read, at every level: the second stage translates
its address as an implicit read on behalf of a PDT access; a stop of it is the stop of the request, and is a guest-page
fault of the original access with bit 0 of `iotval2` 1 and bit 1 0 (U14, log 41), or cause 265 for an access fault, or cause
269 for corruption; then the entry is read at the translated address, and that read stops with 265 or 269 too (R284, R285
steps 2, 3, 5, 6 and 10). At a non-leaf entry, not valid and misconfigured come next, else it is cached and its PPN is the
next table; at the leaf the context is checked, and cached (R285, R163, R234; log 6; the layouts of R157, R164 and R166 are
log 9). A cached context is used only for its own `device_id` and `process_id`, a cached non-leaf entry only for its
`device_id`, at its level, and for a `process_id` that is the same above the index of that level; the tests follow as for an
entry read (R330, R233). With no such entry memory is read; any such entry may be used, and so may memory, by a free choice
(R232; log 6, log 7). Over a Bare second stage, with no access of another agent during the read (log 5), the reads are
spelled out: one read of the entry in the byte order of SBE, then the causes in the order access fault, corruption, not
valid, misconfigured, else the context. A process context is misconfigured in exactly the cases of R168, and, if the
implementation looks for it then, for a pointer wider than its address space (R162, D8, log 30; a custom MODE is not valid,
D6). -/
def Obligations.ProcessContextLookup : Prop :=
  let stop {α : Type} (x : WalkCtx) (c : Cause) (t : State) : Res α := .stop ⟨c, 0#64, some x.dc, x.ids, none⟩ t
  let corruption (s : State) : Cause := if s.cfg.reportsCorruption then .pdtCorruption else .pdtLoadAccess
  let free (s : State) (c : List Nat) (n : Nat) : State := { s with choices := c, freeCtr := n }
  let through (x : WalkCtx) (a n : Nat) (t : State) (answer : Res PC) (k : List Byte → State → Res PC) : Prop :=
    let gpa : DWord := BitVec.ofNat 64 a
    (∀ f u, secondStage x .pdt true gpa t = .stop f u → answer = .stop f u ∧
      (f = ⟨x.acc.guestFault, (gpa &&& 0xFFFFFFFFFFFFFFFC#64) ||| 1#64, some x.dc, x.ids, none⟩ ∨
        f = ⟨.pdtLoadAccess, 0#64, some x.dc, x.ids, none⟩ ∨ f = ⟨.pdtCorruption, 0#64, some x.dc, x.ids, none⟩)) ∧
    ∀ l u, secondStage x .pdt true gpa t = .ok l u →
      let read := (u.countEvent .pdtWalk x.ids).readMem l.addr.toNat n x.qos
      (read.1 = .accessFault → answer = stop x .pdtLoadAccess read.2) ∧
      (read.1 = .corrupt → answer = stop x .pdtCorruption read.2) ∧
      ∀ bs, read.1 = .ok bs → answer = k bs read.2
  (∀ (x : WalkCtx) (dc : DC) (pid : BitVec 20) (s : State), x.gScheme = .bare → s.ioatc = [] → s.others = [] →
      dc.fsc.extractLsb' 60 4 = 1#4 → pid.toNat < 256 →
      let a := (dc.fsc.extractLsb' 0 44).toNat * 4096 + pid.toNat * 16
      let s1 := (s.countEvent .pdtWalk x.ids).logBus .read a 16 x.qos
      let pc : PC := ⟨dwordAt x.sbe (Memory.readBytes s1.mem a 16) 0, dwordAt x.sbe (Memory.readBytes s1.mem a 16) 8⟩
      locatePC x dc pid s =
        if s.accessFaults .read a 16 then stop x .pdtLoadAccess s1
        else if s.poisoned a 16 then stop x (corruption s) s1
        else if pc.ta.getLsbD 0 = false then stop x .pdtNotValid s1
        else if pcMisconfigured s.cfg s.fctl.gxl dc pc then stop x .pdtMisconfigured s1
        else .ok pc { s1 with ioatc := [.pc x.ids.did pid pc] }) ∧
  (∀ (x : WalkCtx) (dc : DC) (pid : BitVec 20) (i : Nat) (s : State),
    (i = 0 ∧ dc.fsc.extractLsb' 60 4 = 1#4) ∨ (i = 1 ∧ dc.fsc.extractLsb' 60 4 = 2#4) ∨
      (i = 2 ∧ dc.fsc.extractLsb' 60 4 = 3#4) →
    let walked (t : State) := locatePC x dc pid s = pdtWalk x dc pid i ((dc.fsc.extractLsb' 0 44).toNat * 4096) t
    let hit (pc : PC) (t : State) := locatePC x dc pid s =
      if pc.ta.getLsbD 0 = false then stop x .pdtNotValid t
      else if pcMisconfigured s.cfg s.fctl.gxl dc pc then stop x .pdtMisconfigured t
      else .ok pc t
    ((∀ pc, IoatcEntry.pc x.ids.did pid pc ∉ s.ioatc) → walked s) ∧
    (∀ pc, IoatcEntry.pc x.ids.did pid pc ∈ s.ioatc → ∃ k, ∀ cs, s.choices = k :: cs → hit pc { s with choices := cs }) ∧
    ∃ c n, walked (free s c n) ∨ ∃ pc, IoatcEntry.pc x.ids.did pid pc ∈ s.ioatc ∧ hit pc (free s c n)) ∧
  (∀ (x : WalkCtx) (dc : DC) (pid : BitVec 20) (b : Nat) (s : State),
    (∀ i, i < 2 →
      let walk := pdtWalk x dc pid (i + 1) b s
      let goesOn (e : DWord) (t : State) : Res PC :=
        if e.getLsbD 0 = false then stop x .pdtNotValid t
        else if e.extractLsb' 1 9 ≠ 0#9 ∨ e.extractLsb' 54 10 ≠ 0#10 then stop x .pdtMisconfigured t
        else pdtWalk x dc pid i ((e.extractLsb' 10 44).toNat * 4096)
          (t.fill (.pdtNL x.ids.did (i + 1) (8 + 9 * i) pid e))
      let memory (t : State) : Prop :=
        through x (b + pid.toNat / 2 ^ (8 + 9 * i) % 512 * 8) 8 t walk (fun bs u => goesOn (dwordAt x.sbe bs 0) u)
      let usable (e : DWord) : Prop := ∃ k p, IoatcEntry.pdtNL x.ids.did (i + 1) k p e ∈ s.ioatc ∧
        p.toNat / 2 ^ k = pid.toNat / 2 ^ k
      ((∀ e, ¬usable e) → memory s) ∧
      (∀ e, usable e → ∃ k, ∀ cs, s.choices = k :: cs → walk = goesOn e { s with choices := cs }) ∧
      ∃ c n, memory (free s c n) ∨ ∃ e, usable e ∧ walk = goesOn e (free s c n)) ∧
    through x (b + pid.toNat % 256 * 16) 16 s (pdtWalk x dc pid 0 b s) (fun bs u =>
      let pc : PC := ⟨dwordAt x.sbe bs 0, dwordAt x.sbe bs 8⟩
      if pc.ta.getLsbD 0 = false then stop x .pdtNotValid u
      else if pcMisconfigured u.cfg u.fctl.gxl dc pc then stop x .pdtMisconfigured u
      else .ok pc (u.fill (.pc x.ids.did pid pc)))) ∧
  (∀ (x : WalkCtx) (dc : DC) (pid : BitVec 20) (i b : Nat) (s : State), x.gScheme = .bare → s.others = [] →
    b + 4096 ≤ 2 ^ 64 →
    (i < 2 → s.pdtCandidates x.ids.did (i + 1) pid = [] →
      let a := b + pid.toNat / 2 ^ (8 + 9 * i) % 512 * 8
      let s1 := (s.countEvent .pdtWalk x.ids).logBus .read a 8 x.qos
      let e := dwordAt x.sbe (Memory.readBytes s1.mem a 8) 0
      pdtWalk x dc pid (i + 1) b s =
        if s.accessFaults .read a 8 then stop x .pdtLoadAccess s1
        else if s.poisoned a 8 then stop x (corruption s) s1
        else if e.getLsbD 0 = false then stop x .pdtNotValid s1
        else if e.extractLsb' 1 9 ≠ 0#9 ∨ e.extractLsb' 54 10 ≠ 0#10 then
          stop x .pdtMisconfigured s1
        else pdtWalk x dc pid i ((e.extractLsb' 10 44).toNat * 4096)
          (s1.fill (.pdtNL x.ids.did (i + 1) (8 + 9 * i) pid e))) ∧
    (let a := b + pid.toNat % 256 * 16
     let s1 := (s.countEvent .pdtWalk x.ids).logBus .read a 16 x.qos
     let pc : PC := ⟨dwordAt x.sbe (Memory.readBytes s1.mem a 16) 0, dwordAt x.sbe (Memory.readBytes s1.mem a 16) 8⟩
     pdtWalk x dc pid 0 b s =
      if s.accessFaults .read a 16 then stop x .pdtLoadAccess s1
      else if s.poisoned a 16 then stop x (corruption s) s1
      else if pc.ta.getLsbD 0 = false then stop x .pdtNotValid s1
      else if pcMisconfigured s.cfg s.fctl.gxl dc pc then stop x .pdtMisconfigured s1
      else .ok pc (s1.fill (.pc x.ids.did pid pc)))) ∧
  ∀ (c : Cfg) (gxl : Bool) (d : DC) (p : PC),
    let hmode := d.iohgatp.extractLsb' 60 4
    let mode := p.fsc.extractLsb' 60 4
    let sxl := d.tc.getLsbD 11
    (hmode = 0#4 ∨ (gxl = false ∧ (hmode = 8#4 ∨ hmode = 9#4 ∨ hmode = 10#4)) ∨ (gxl = true ∧ hmode = 8#4)) →
    (pcMisconfigured c gxl d p = true ↔
      (∃ j, ((3 ≤ j ∧ j ≤ 11) ∨ (32 ≤ j ∧ j ≤ 63)) ∧ p.ta.getLsbD j = true) ∨
      (∃ j, 44 ≤ j ∧ j ≤ 59 ∧ p.fsc.getLsbD j = true) ∨
      ¬(mode = 0#4 ∨
        (sxl = false ∧ ((mode = 8#4 ∧ c.sv39 = true) ∨ (mode = 9#4 ∧ c.sv48 = true) ∨ (mode = 10#4 ∧ c.sv57 = true))) ∨
        (sxl = true ∧ mode = 8#4 ∧ c.sv32 = true)) ∨
      (c.checkAddrWidthEarly = true ∧ mode ≠ 0#4 ∧
        2 ^ (if hmode = 0#4 then c.pas else if gxl then 34 else if hmode = 8#4 then 41
          else if hmode = 9#4 then 50 else 59) ≤ (p.fsc.extractLsb' 0 44).toNat * 4096))

/-- The first stage. Bare: the address unchanged, and everything permitted. An address that is not canonical is a page fault
of the original access, and nothing is read (R300 step 0, R301). What a PTE is, at any level of any scheme: bad, a pointer,
or a leaf of `2^k` pages (R300 steps 3, 4, 6, R304, R177; the layouts of R174 to R176 the spec gives from general knowledge,
log 9; a 32-bit pointer with A, D or U is log 47). A canonical address is walked from the root at the scheme's top level, of
2, 3, 4 or 5 levels (step 1, R176). A level, of any scheme, over any second stage: the entry's address is the table's plus
the index times 4 or 8 bytes; the second stage translates it as an implicit read, and its stop is the walk's; it is read in
the byte order of SBE (step 2). A bad entry is a page fault; a pointer leads to its table, one level down; a leaf is a page
fault without the permission (R302; an ATS walk collects permissions instead, R343, D21, log 12), and with A clear, or D
clear for a write, if SADE is 0; if SADE is 1 the second stage translates the entry's address as an implicit write, its stop
is the walk's, and the entry is compared and swapped, or, if it has changed, the step repeated from memory (step 7, R303,
R216; how often is log 34); else the page is found, global if a PTE on the path is (step 8). A step may take a cached PTE in
place of the read, only one of the same PSCID, the same GSCID or, over a Bare second stage, of none, that covers the
address, at this level or below, and, for a leaf, with the A and D bits set that the access would set; any such entry, or
memory, by a free choice (R330, R233, R234, R232, R239; log 6, log 7). Sv39 over a Bare second stage, nothing cached and no
access of another agent in between (log 5), is spelled out to the end: access fault, corruption, a leaf of 1 GiB at the root
with its update, where else only the IOATC and the bus record change (R312), and two pointers and a last leaf, where no
counter counts the walk. -/
def Obligations.FirstStageTranslates : Prop :=
  let levels (x : Scheme) : Nat := if x = .sv32 then 2 else if x = .sv39 then 3 else if x = .sv48 then 4
    else if x = .sv57 then 5 else 0
  (∀ (x : WalkCtx) (cached : Bool) (va : DWord) (s : State),
    (x.fScheme = .bare → ∃ l, firstStage x cached va s = .ok l s ∧ l.addr = va ∧ l.r = true ∧ l.w = true ∧ l.x = true ∧
      l.global = false ∧ l.pbmt = 0#2) ∧
    (((x.fScheme = .sv32 ∧ ∃ j, 32 ≤ j ∧ va.getLsbD j = true) ∨
        (x.fScheme = .sv39 ∧ ∃ j, 39 ≤ j ∧ j < 64 ∧ va.getLsbD j ≠ va.getLsbD 38) ∨
        (x.fScheme = .sv48 ∧ ∃ j, 48 ≤ j ∧ j < 64 ∧ va.getLsbD j ≠ va.getLsbD 47) ∨
        (x.fScheme = .sv57 ∧ ∃ j, 57 ≤ j ∧ j < 64 ∧ va.getLsbD j ≠ va.getLsbD 56)) →
      firstStage x cached va s = .stop ⟨x.acc.pageFault, 0#64, some x.dc, x.ids, none⟩ s)) ∧
  (∀ (c : Cfg) (x : Scheme) (level : Nat) (pte : DWord),
    let n := level * (if x = .sv32 then 10 else 9)
    let ppn := (pte.extractLsb' 10 44).toNat
    let v := pte.getLsbD 0
    let r := pte.getLsbD 1
    let w := pte.getLsbD 2
    let e := pte.getLsbD 3
    let napot := pte.getLsbD 63
    let reserved := (∃ j, 54 ≤ j ∧ j ≤ 58 ∧ pte.getLsbD j = true) ∨
      (c.svrsw60t59b = false ∧ (pte.getLsbD 59 = true ∨ pte.getLsbD 60 = true)) ∨
      (c.svpbmt = false ∧ pte.extractLsb' 61 2 ≠ 0#2) ∨ pte.extractLsb' 61 2 = 3#2
    let refused := v = false ∨ (r = false ∧ w = true) ∨ reserved
    let pointer := r = false ∧ e = false
    let badPointer := pte.getLsbD 6 = true ∨ pte.getLsbD 7 = true ∨ pte.getLsbD 4 = true ∨ napot = true ∨
      pte.extractLsb' 61 2 ≠ 0#2 ∨ level = 0
    (classify c x level pte = .bad ↔
      refused ∨ (pointer ∧ badPointer) ∨
        (¬pointer ∧ (ppn % 2 ^ n ≠ 0 ∨ (napot = true ∧ ¬(level = 0 ∧ ppn % 16 = 8))))) ∧
    (classify c x level pte = .pointer ↔ ¬refused ∧ pointer ∧ ¬badPointer) ∧
    ∀ k, classify c x level pte = .leaf k ↔ ¬refused ∧ ¬pointer ∧ ppn % 2 ^ n = 0 ∧
      ((napot = false ∧ k = n) ∨ (napot = true ∧ level = 0 ∧ ppn % 16 = 8 ∧ k = 4))) ∧
  (∀ (x : WalkCtx) (cached : Bool) (va : DWord) (s : State), x.fScheme ≠ .bare →
    ¬((x.fScheme = .sv32 ∧ ∃ j, 32 ≤ j ∧ va.getLsbD j = true) ∨
        (x.fScheme = .sv39 ∧ ∃ j, 39 ≤ j ∧ j < 64 ∧ va.getLsbD j ≠ va.getLsbD 38) ∨
        (x.fScheme = .sv48 ∧ ∃ j, 48 ≤ j ∧ j < 64 ∧ va.getLsbD j ≠ va.getLsbD 47) ∨
        (x.fScheme = .sv57 ∧ ∃ j, 57 ≤ j ∧ j < 64 ∧ va.getLsbD j ≠ va.getLsbD 56)) →
    firstStage x cached va s =
      s1Walk x va (32 + s.others.length) cached false (levels x.fScheme - 1) (x.fRoot.toNat * 4096) s) ∧
  (∀ (x : WalkCtx) (va : DWord) (fuel : Nat) (cached gpath : Bool) (level a : Nat) (s : State),
    let size := if x.fScheme = .sv32 then 4 else 8
    let bits := if x.fScheme = .sv32 then 10 else 9
    let page : BitVec 52 := va.extractLsb' 12 52
    let gpa : DWord := BitVec.ofNat 64 (a + page.toNat / 2 ^ (level * bits) % 2 ^ bits * size)
    let space : Option (BitVec 16) := if x.gScheme = .bare then none else some x.gscid
    let writes := x.ats = false ∧ x.acc = .write
    let walk := s1Walk x va (fuel + 1) cached gpath level a s
    let stop (c : Cause) (t : State) : Res Leaf := .stop ⟨c, 0#64, some x.dc, x.ids, none⟩ t
    let keep (lv k : Nat) (pte : DWord) (global : Bool) (t : State) : State :=
      t.fill (.s1 ⟨space, x.pscid, lv, page, k, pte, global⟩)
    let goesOn (lv : Nat) (pte : DWord) (global : Bool) (loc : Option DWord) (t : State) : Prop :=
      let kind := classify t.cfg x.fScheme lv pte
      let user := pte.getLsbD 4
      let permits := x.ats = true ∨
        ((x.supervisor = false → user = true) ∧
          (x.supervisor = true → user = true → x.sum = true ∧ x.acc ≠ .instruction) ∧
          (x.acc = .read → pte.getLsbD 1 = true) ∧ (x.acc = .write → pte.getLsbD 2 = true) ∧
          (x.acc = .instruction → pte.getLsbD 3 = true))
      let current := pte.getLsbD 6 = true ∧ (writes → pte.getLsbD 7 = true)
      (kind = .bad → walk = stop x.acc.pageFault t) ∧
      (kind = .pointer → walk = s1Walk x va fuel cached global (lv - 1) ((pte.extractLsb' 10 44).toNat * 4096)
        (keep lv (lv * bits) pte global t)) ∧
      ∀ k, kind = .leaf k →
        let found (q : DWord) : Leaf :=
          { addr := BitVec.ofNat 64 (((q.extractLsb' 10 44).toNat / 2 ^ k * 2 ^ k + page.toNat % 2 ^ k) * 4096 +
              va.toNat % 4096)
            r := q.getLsbD 1
            w := q.getLsbD 2
            x := q.getLsbD 3
            u := q.getLsbD 4
            d := q.getLsbD 7
            global := global
            pbmt := q.extractLsb' 61 2
            span := k
            clean := if q.getLsbD 7 then none else loc.map fun g => (g, q) }
        (¬permits → walk = stop x.acc.pageFault t) ∧
        (permits → current → walk = .ok (found pte) (keep lv k pte global t)) ∧
        (permits → ¬current → x.sade = false → walk = stop x.acc.pageFault t) ∧
        ∀ g, permits → ¬current → x.sade = true → loc = some g →
          (∀ f u, secondStage x .pteWrite cached g t = .stop f u → walk = .stop f u) ∧
          ∀ l u, secondStage x .pteWrite cached g t = .ok l u →
            let new := pte ||| 0x40#64 ||| (if x.ats = false ∧ x.acc = .write then 0x80#64 else 0#64)
            let cas := u.updateMem l.addr.toNat size (fun bs =>
              if BitVec.ofNat 64 (ofBytes x.sbe bs) = pte then toBytes x.sbe size new.toNat else bs) x.qos
            (cas.1 = .accessFault → walk = stop x.acc.accessFault cas.2) ∧
            (cas.1 = .corrupt → walk = stop .ptCorruption cas.2) ∧
            ∀ bs, cas.1 = .ok bs →
              (BitVec.ofNat 64 (ofBytes x.sbe bs) = pte → walk = .ok (found new) (keep lv k new global cas.2)) ∧
              (BitVec.ofNat 64 (ofBytes x.sbe bs) ≠ pte → walk = s1Walk x va fuel false gpath level a cas.2)
    let memory (t : State) : Prop :=
      (∀ f u, secondStage x .pteRead cached gpa t = .stop f u → walk = .stop f u) ∧
      ∀ l u, secondStage x .pteRead cached gpa t = .ok l u →
        let read := (({ u with walked := true } : State).countEvent .s1Walk x.ids).readMem l.addr.toNat size x.qos
        (read.1 = .accessFault → walk = stop x.acc.accessFault read.2) ∧
        (read.1 = .corrupt → walk = stop .ptCorruption read.2) ∧
        ∀ bs, read.1 = .ok bs →
          let pte : DWord := BitVec.ofNat 64 (ofBytes x.sbe bs)
          goesOn level pte (gpath || pte.getLsbD 5) (some gpa) read.2
    let usable (e : S1Entry) : Prop := cached = true ∧ IoatcEntry.s1 e ∈ s.ioatc ∧ e.space = space ∧
      e.pscid = x.pscid ∧ e.level ≤ level ∧ e.page.toNat / 2 ^ e.span = page.toNat / 2 ^ e.span ∧
      ((e.pte.getLsbD 1 = true ∨ e.pte.getLsbD 2 = true ∨ e.pte.getLsbD 3 = true) → e.pte.getLsbD 6 = true ∧
        (writes ∨ (x.ats = true ∧ x.nw = false) → e.pte.getLsbD 7 = true ∨ e.pte.getLsbD 2 = false))
    ((∀ e, ¬usable e) → memory s) ∧
    (∀ e, usable e → ∃ k, ∀ cs, s.choices = k :: cs →
      goesOn e.level e.pte (gpath || e.gpath) none { s with choices := cs }) ∧
    ∃ c n, let t : State := { s with choices := c, freeCtr := n }
      memory t ∨ ∃ e, usable e ∧ goesOn e.level e.pte (gpath || e.gpath) none t) ∧
  (∀ (x : WalkCtx) (va : DWord) (s : State), x.fScheme = .sv39 → x.gScheme = .bare →
    (∀ j, 39 ≤ j → j < 64 → va.getLsbD j = va.getLsbD 38) → s.others = [] →
    let a := x.fRoot.toNat * 4096 + va.toNat / 2 ^ 30 % 512 * 8
    let s1 := (({ s with walked := true } : State).countEvent .s1Walk x.ids).logBus .read a 8 x.qos
    let pte : DWord := BitVec.ofNat 64 (ofBytes x.sbe (Memory.readBytes s1.mem a 8))
    let stop (c : Cause) : Res Leaf := .stop ⟨c, 0#64, some x.dc, x.ids, none⟩ s1
    let user := pte.getLsbD 4
    let permits := x.ats = true ∨
      ((x.supervisor = false → user = true) ∧
        (x.supervisor = true → user = true → x.sum = true ∧ x.acc ≠ .instruction) ∧
        (x.acc = .read → pte.getLsbD 1 = true) ∧ (x.acc = .write → pte.getLsbD 2 = true) ∧
        (x.acc = .instruction → pte.getLsbD 3 = true))
    let writes := x.ats = false ∧ x.acc = .write
    let current := pte.getLsbD 6 = true ∧ (writes → pte.getLsbD 7 = true)
    (s.accessFaults .read a 8 = true → firstStage x false va s = stop x.acc.accessFault) ∧
    (s.accessFaults .read a 8 = false → s.poisoned a 8 = true →
      firstStage x false va s = stop (if s.cfg.reportsCorruption then .ptCorruption else x.acc.accessFault)) ∧
    (s.accessFaults .read a 8 = false → s.poisoned a 8 = false →
      (classify s.cfg .sv39 2 pte = .bad → firstStage x false va s = stop x.acc.pageFault) ∧
      (classify s.cfg .sv39 2 pte = .leaf 18 →
        (¬permits → firstStage x false va s = stop x.acc.pageFault) ∧
        (permits → ¬current → x.sade = false → firstStage x false va s = stop x.acc.pageFault) ∧
        (permits → (current ∨ (x.sade = true ∧ s.accessFaults .atomic a 8 = false ∧ s.accessFaults .write a 8 = false)) →
          ∃ l t, firstStage x false va s = .ok l t ∧
            l.addr.toNat = (pte.extractLsb' 10 44).toNat / 2 ^ 18 * 2 ^ 30 + va.toNat % 2 ^ 30 ∧ l.span = 18 ∧
            l.r = pte.getLsbD 1 ∧ l.w = pte.getLsbD 2 ∧ l.x = pte.getLsbD 3 ∧ l.u = user ∧ l.global = pte.getLsbD 5 ∧
            l.pbmt = pte.extractLsb' 61 2 ∧
            (current → t = { s1 with ioatc := t.ioatc }) ∧
            (¬current → t = { s1 with
              mem := Memory.writeBytes s1.mem a (toBytes x.sbe 8
                (pte ||| 0x40#64 ||| (if x.ats = false ∧ x.acc = .write then 0x80#64 else 0#64)).toNat)
              bus := s1.bus ++ [⟨.atomic, a, 8, x.qos⟩]
              ioatc := t.ioatc }))))) ∧
  ∀ (x : WalkCtx) (va : DWord) (s : State), x.fScheme = .sv39 → x.gScheme = .bare →
    (∀ j, 39 ≤ j → j < 64 → va.getLsbD j = va.getLsbD 38) → s.others = [] →
    (∀ n : Fin 31, s.counts .s1Walk x.ids n = false) →
    let word (a : Nat) : DWord := BitVec.ofNat 64 (ofBytes x.sbe (Memory.readBytes s.mem a 8))
    let ppn (pte : DWord) : Nat := (pte.extractLsb' 10 44).toNat
    let a2 := x.fRoot.toNat * 4096 + va.toNat / 2 ^ 30 % 512 * 8
    let a1 := ppn (word a2) * 4096 + va.toNat / 2 ^ 21 % 512 * 8
    let a0 := ppn (word a1) * 4096 + va.toNat / 2 ^ 12 % 512 * 8
    let leaf := word a0
    (∀ a, a = a2 ∨ a = a1 ∨ a = a0 → s.accessFaults .read a 8 = false ∧ s.poisoned a 8 = false) →
    classify s.cfg .sv39 2 (word a2) = .pointer → classify s.cfg .sv39 1 (word a1) = .pointer →
    classify s.cfg .sv39 0 leaf = .leaf 0 → x.s1Permits leaf = true → leaf.getLsbD 6 = true →
    (x.s1Writes = true → leaf.getLsbD 7 = true) →
    ∃ l t, firstStage x false va s = .ok l t ∧ l.addr.toNat = ppn leaf * 4096 + va.toNat % 4096 ∧ l.span = 0 ∧
      l.r = leaf.getLsbD 1 ∧ l.w = leaf.getLsbD 2 ∧ l.x = leaf.getLsbD 3 ∧ l.u = leaf.getLsbD 4 ∧
      l.global = ((word a2).getLsbD 5 || (word a1).getLsbD 5 || leaf.getLsbD 5) ∧
      t = { s with
        walked := true
        bus := s.bus ++ [⟨.read, a2, 8, x.qos⟩, ⟨.read, a1, 8, x.qos⟩, ⟨.read, a0, 8, x.qos⟩]
        ioatc := t.ioatc }

/-- The second stage. Bare: the address unchanged. A guest-physical address with a bit above the scheme's width (34, 41, 50
or 59 bits, and 34 if SXL is 1) is a guest-page fault of the original access, with `iotval2` as R309 says (R305 step 0,
R152; that it keeps the page offset is U14, log 41); any other is walked from the root, at the top level of the scheme (step
1). Every stop is such a guest-page fault, or an access fault, or corruption, of the request or, on behalf of a PDT access,
with causes 265 and 269 (step 2, R284). A level of the walk, of any scheme: the entry's address is the table's plus the
index of the level, 10 bits for Sv32x4 and 9 else, 2 bits wider at the root, times 4 or 8 bytes; the entry is read in the
byte order of `fctl.BE`; a bad entry is a guest-page fault; a pointer leads to its table, one level down; a leaf without U,
or without the permission of the access, is a guest-page fault, but that the final access of an ATS Translation Request
needs no permission, only collects them (R343, D21, log 12); with A clear, or D clear for a write, a guest-page fault if
GADE is 0, and if GADE is 1 the entry is compared and swapped, or, where it has changed, the step is taken again from memory
(step 7, R216; the number of repetitions is log 34); else the page is found and the bits below it pass through (steps 2 to
8; what a PTE is stands in FirstStageTranslates; log 9). A step may take a cached PTE in place of the read, only one of the
same GSCID that covers the address, at this level or below, and, for a leaf, with the A and D bits set that the access would
set; any such entry, or memory, by a free choice (R330, R233, R234, R232, R239; log 6, log 7). Then a leaf of 1 GiB at the
root of Sv39x4 is spelled out to the end, with nothing cached and no access of another agent in between (log 5). -/
def Obligations.SecondStageTranslates : Prop :=
  let fault (x : WalkCtx) (p : Purpose) (gpa : DWord) : Stop := ⟨x.acc.guestFault,
    (gpa &&& 0xFFFFFFFFFFFFFFFC#64) ||| (if p = .final then 0#64 else 1#64) ||| (if p = .pteWrite then 2#64 else 0#64),
    some x.dc, x.ids, none⟩
  let access (x : WalkCtx) (p : Purpose) : Stop :=
    ⟨if p = .pdt then .pdtLoadAccess else x.acc.accessFault, 0#64, some x.dc, x.ids, none⟩
  let corrupt (x : WalkCtx) (p : Purpose) : Stop :=
    ⟨if p = .pdt then .pdtCorruption else .ptCorruption, 0#64, some x.dc, x.ids, none⟩
  let levels (x : Scheme) : Nat := if x = .sv32 then 2 else if x = .sv39 then 3 else if x = .sv48 then 4
    else if x = .sv57 then 5 else 0
  (∀ (x : WalkCtx) (p : Purpose) (cached : Bool) (gpa : DWord) (s : State),
    let width := if x.dc.tc.getLsbD 11 ∨ x.gScheme = .sv32 then 34 else if x.gScheme = .sv39 then 41
      else if x.gScheme = .sv48 then 50 else 59
    (x.gScheme = .bare → ∃ l, secondStage x p cached gpa s = .ok l s ∧ l.addr = gpa ∧ l.r = true ∧ l.w = true ∧
      l.x = true ∧ l.pbmt = 0#2) ∧
    (x.gScheme ≠ .bare →
      (2 ^ width ≤ gpa.toNat → secondStage x p cached gpa s = .stop (fault x p gpa) s) ∧
      (gpa.toNat < 2 ^ width → secondStage x p cached gpa s =
        s2Walk x p gpa (6 + s.others.length) cached (levels x.gScheme - 1) (x.gRoot.toNat * 4096) s)) ∧
    ∀ f u, secondStage x p cached gpa s = .stop f u → f = fault x p gpa ∨ f = access x p ∨ f = corrupt x p) ∧
  (∀ (x : WalkCtx) (p : Purpose) (gpa : DWord) (fuel : Nat) (cached : Bool) (level a : Nat) (s : State),
    let size := if x.gScheme = .sv32 then 4 else 8
    let bits := if x.gScheme = .sv32 then 10 else 9
    let page : BitVec 52 := gpa.extractLsb' 12 52
    let above := page.toNat / 2 ^ (level * bits)
    let pa := a + (if level + 1 = levels x.gScheme then above else above % 2 ^ bits) * size
    let writes := p = .pteWrite ∨ (p = .final ∧ x.acc = .write)
    let walk := s2Walk x p gpa (fuel + 1) cached level a s
    let keep (lv k : Nat) (pte : DWord) (t : State) : State := t.fill (.s2 ⟨x.gscid, lv, page, k, pte⟩)
    let goesOn (lv : Nat) (pte : DWord) (loc : Option Nat) (t : State) : Prop :=
      let kind := classify t.cfg x.gScheme lv pte
      let permits := pte.getLsbD 4 = true ∧
        ((p = .pteRead ∨ p = .pdt) → pte.getLsbD 1 = true) ∧ (p = .pteWrite → pte.getLsbD 2 = true) ∧
        (p = .final → x.ats = false →
          (x.acc = .read → pte.getLsbD 1 = true) ∧ (x.acc = .write → pte.getLsbD 2 = true) ∧
          (x.acc = .instruction → pte.getLsbD 3 = true))
      let current := pte.getLsbD 6 = true ∧ (writes → pte.getLsbD 7 = true)
      (kind = .bad → walk = .stop (fault x p gpa) t) ∧
      (kind = .pointer →
        walk = s2Walk x p gpa fuel cached (lv - 1) ((pte.extractLsb' 10 44).toNat * 4096) (keep lv (lv * bits) pte t)) ∧
      ∀ k, kind = .leaf k →
        let found (q : DWord) : Leaf :=
          { addr := BitVec.ofNat 64 (((q.extractLsb' 10 44).toNat / 2 ^ k * 2 ^ k + page.toNat % 2 ^ k) * 4096 +
              gpa.toNat % 4096)
            r := q.getLsbD 1
            w := q.getLsbD 2
            x := q.getLsbD 3
            u := q.getLsbD 4
            d := q.getLsbD 7
            global := false
            pbmt := q.extractLsb' 61 2
            span := k
            clean := if q.getLsbD 7 then none else loc.map fun n => (BitVec.ofNat 64 n, q) }
        (¬permits → walk = .stop (fault x p gpa) t) ∧
        (permits → current → walk = .ok (found pte) (keep lv k pte t)) ∧
        (permits → ¬current → x.gade = false → walk = .stop (fault x p gpa) t) ∧
        ∀ n, permits → ¬current → x.gade = true → loc = some n →
          let new := pte ||| 0x40#64 ||| (if p = .pteWrite ∨ (p = .final ∧ x.acc = .write) then 0x80#64 else 0#64)
          let cas := t.updateMem n size (fun bs =>
            if BitVec.ofNat 64 (ofBytes t.fctl.be bs) = pte then toBytes t.fctl.be size new.toNat else bs) x.qos
          (cas.1 = .accessFault → walk = .stop (access x p) cas.2) ∧
          ∀ bs, cas.1 = .ok bs →
            (BitVec.ofNat 64 (ofBytes t.fctl.be bs) = pte → walk = .ok (found new) (keep lv k new cas.2)) ∧
            (BitVec.ofNat 64 (ofBytes t.fctl.be bs) ≠ pte → walk = s2Walk x p gpa fuel false level a cas.2)
    let memory (t : State) : Prop :=
      let read := (({ t with walked := true } : State).countEvent .s2Walk x.ids).readMem pa size x.qos
      (read.1 = .accessFault → walk = .stop (access x p) read.2) ∧
      (read.1 = .corrupt → walk = .stop (corrupt x p) read.2) ∧
      ∀ bs, read.1 = .ok bs → goesOn level (BitVec.ofNat 64 (ofBytes read.2.fctl.be bs)) (some pa) read.2
    let usable (e : S2Entry) : Prop := cached = true ∧ IoatcEntry.s2 e ∈ s.ioatc ∧ e.gscid = x.gscid ∧
      e.level ≤ level ∧ e.page.toNat / 2 ^ e.span = page.toNat / 2 ^ e.span ∧
      ((e.pte.getLsbD 1 = true ∨ e.pte.getLsbD 2 = true ∨ e.pte.getLsbD 3 = true) → e.pte.getLsbD 6 = true ∧
        (writes ∨ (p = .final ∧ x.ats = true ∧ x.nw = false) → e.pte.getLsbD 7 = true ∨ e.pte.getLsbD 2 = false))
    ((∀ e, ¬usable e) → memory s) ∧
    (∀ e, usable e → ∃ k, ∀ cs, s.choices = k :: cs → goesOn e.level e.pte none { s with choices := cs }) ∧
    ∃ c n, let t : State := { s with choices := c, freeCtr := n }
      memory t ∨ ∃ e, usable e ∧ goesOn e.level e.pte none t) ∧
  ∀ (x : WalkCtx) (p : Purpose) (gpa : DWord) (s : State), x.gScheme = .sv39 →
    gpa.toNat < 2 ^ (if x.dc.tc.getLsbD 11 then 34 else 41) → s.others = [] →
    let a := x.gRoot.toNat * 4096 + gpa.toNat / 2 ^ 30 * 8
    let s1 := (({ s with walked := true } : State).countEvent .s2Walk x.ids).logBus .read a 8 x.qos
    let pte : DWord := BitVec.ofNat 64 (ofBytes s.fctl.be (Memory.readBytes s1.mem a 8))
    let writes := p = .pteWrite ∨ (p = .final ∧ x.acc = .write)
    let permits := pte.getLsbD 4 = true ∧
      ((p = .pteRead ∨ p = .pdt) → pte.getLsbD 1 = true) ∧ (p = .pteWrite → pte.getLsbD 2 = true) ∧
      (p = .final → x.ats = false →
        (x.acc = .read → pte.getLsbD 1 = true) ∧ (x.acc = .write → pte.getLsbD 2 = true) ∧
        (x.acc = .instruction → pte.getLsbD 3 = true))
    let current := pte.getLsbD 6 = true ∧ (writes → pte.getLsbD 7 = true)
    s.accessFaults .read a 8 = false → s.poisoned a 8 = false → classify s.cfg .sv39 2 pte = .leaf 18 →
    (¬permits → secondStage x p false gpa s = .stop (fault x p gpa) s1) ∧
    (permits → ¬current → x.gade = false → secondStage x p false gpa s = .stop (fault x p gpa) s1) ∧
    (permits → (current ∨ (x.gade = true ∧ s.accessFaults .atomic a 8 = false ∧ s.accessFaults .write a 8 = false)) →
      ∃ l t, secondStage x p false gpa s = .ok l t ∧
        l.addr.toNat = (ppnEntry pte).toNat / 2 ^ 18 * 2 ^ 30 + gpa.toNat % 2 ^ 30 ∧ l.span = 18 ∧
        l.r = pte.getLsbD 1 ∧ l.w = pte.getLsbD 2 ∧ l.x = pte.getLsbD 3 ∧
        (current → t.mem = s1.mem) ∧
        (¬current → t.mem = Memory.writeBytes s1.mem a (toBytes s.fctl.be 8
          (pte ||| 0x40#64 ||| (if p = .pteWrite ∨ (p = .final ∧ x.acc = .write) then 0x80#64 else 0#64)).toNat)))

/-- The response to an ATS Translation Request. It is that of the translation of the request as it entered: steps 1 to 16
select the contexts (ContextSelection), the walk follows (MsiAddressRecognition), and what the walk gives is answered by a
Success; a stop of either is the request's (R342). A fault gives Unsupported Request or Completer Abort, with its record,
or, for the causes of R346, a Success with R = W = 0, the smallest size and no record, with Priv as for any other, Global, N
and AMA 0, and with CXL.io as what the walk had found of the page asks (R344 to R347, R351; log 13; D22 for the causes the
source does not list; that the record holds the whole IOVA is U14, log 41). The Success of a completed translation (R348 to
R351): nothing is granted where the privilege test failed, else R as the walk gives it, W likewise unless No-Write asks for
none (then it may be granted or not, U19), and X only with R, to a request with a PASID that asks for it; Priv and Global
only with a PASID, and Global never for the translation of an MSI address; N is 0; AMA is 0, the default of R351, which lets
an implementation give others (log 7); the size is the translation's; RCID and MCID are those of the device context, none
where no translation was completed (R219; log 27); an address is given, without its offset, where R or W is granted (the
address is free otherwise, U18); CXL.io as R351 says where it says it (U20). Global where the privilege test failed is log
13. -/
def Obligations.AtsResponses : Prop :=
  (∀ (q : Request) (s u : State) (d : AtsSuccess × EventIds), atsTranslate q (s.enter q) = .ok d u →
    serveAts q s = (u.leave d.2).emit (.ats q.tag (.success d.1))) ∧
  (∀ (q : Request) (s u : State),
    (∀ f, plan q s = .stop f u → atsTranslate q s = .stop f u) ∧
    ∀ x, plan q s = .ok (.walk x) u →
      let walk := atsWalk x q.iova (x.dc.tc.getLsbD 3) (8 + u.others.length) true u
      (∀ f v, walk = .stop f v → atsTranslate q s = .stop f v) ∧
      ∀ d v, walk = .ok d v → atsTranslate q s = .ok ((atsSuccess x q d v).1, x.ids) (atsSuccess x q d v).2) ∧
  (∀ (q : Request) (s u : State) (f : Stop), atsTranslate q (s.enter q) = .stop f u →
    let v := u.leave f.ids
    let r : FaultRecord := ⟨f.cause, q.ttyp.code, q.did, q.pidValid, if q.pidValid then q.pid else 0#20,
      q.pidValid && q.supervisor, q.iova, f.iotval2⟩
    (f.cause.code.toNat ∈ [256, 257, 258, 259, 260] →
      serveAts q s = v.takeFault r false f.dtf (some (.ats q.tag .unsupportedRequest))) ∧
    (f.cause.code.toNat ∈ [1, 5, 7, 261, 263, 265, 267, 268, 269, 270, 272, 274] →
      serveAts q s = v.takeFault r false f.dtf (some (.ats q.tag .completerAbort))) ∧
    (f.cause.code.toNat ∈ [12, 13, 15, 20, 21, 23, 262, 266] →
      ∃ c l n, serveAts q s = ({ v with choices := l, freeCtr := n } : State).emit (.ats q.tag (.success c)) ∧
        c.r = false ∧ c.w = false ∧ c.x = false ∧ c.span = 0 ∧ c.priv = (q.pidValid && q.supervisor) ∧
        c.global = false ∧ c.n = false ∧ c.ama = 0#3 ∧ c.qos = none ∧ (q.isCxl = false → c.cxlIo = false) ∧
        (q.isCxl = true → ((∃ p, f.page = some p ∧ (p.msi = true ∨ p.pbmt ≠ 0#2)) ∨
          ∃ d, f.dc = some d ∧ d.t2gpa = true) → c.cxlIo = true))) ∧
  (∀ (x : WalkCtx) (q : Request) (t2gpa : Bool) (fuel : Nat) (cached : Bool) (s u : State) (d : AtsDone),
    atsWalk x q.iova t2gpa fuel cached s = .ok d u → d.msi = true → (atsSuccess x q d u).1.global = false) ∧
  ∀ (x : WalkCtx) (q : Request) (d : AtsDone) (s : State),
    let c := (atsSuccess x q d s).1
    (∃ l n, (atsSuccess x q d s).2 = { s with choices := l, freeCtr := n }) ∧
    (d.privOk = false → c.r = false ∧ c.w = false ∧ c.x = false) ∧
    (d.privOk = true → c.r = d.r ∧ (c.w = true → d.w = true) ∧ (x.nw = false → c.w = d.w) ∧
      c.x = (d.x && d.r && q.pidValid && q.exe)) ∧
    c.priv = (q.pidValid && q.supervisor) ∧ c.global = (q.pidValid && d.global) ∧ c.n = false ∧ c.ama = 0#3 ∧
    c.qos = some x.qos ∧ c.uOnly = d.uOnly ∧ c.span = d.span ∧ c.addr.extractLsb' 0 12 = 0#12 ∧
    ((c.r = true ∨ c.w = true) → c.addr.extractLsb' 12 52 = d.addr.extractLsb' 12 52) ∧
    (q.isCxl = false → c.cxlIo = false) ∧
    (q.isCxl = true → (d.msi = true ∨ x.dc.t2gpa = true ∨ d.pbmt ≠ 0#2) → c.cxlIo = true)

/-! ### Interrupts -/

/-- Setting a pending bit: nothing if it is set already; with `fctl.WSI` the bit alone, which drives its wire; else the
bit and the message of its vector, held back if the vector is masked, written if not, and reported with cause 273 if the
write meets an access fault (R591 to R594). The write is stated with no access of another agent in between (log 5). -/
def Obligations.InterruptDelivery : Prop :=
  ∀ (s : State) (b : IntSource),
    let v := s.icvec.vector b
    let e := s.msiEntry v
    let p : State := { s with ipsr := s.ipsr.pend b }
    let sent : State := { p with bus := s.bus ++ [⟨.write, e.address.toNat, 4, s.iommuQos⟩] }
    (s.ipsr.get b = true → s.raiseIp b = s) ∧
    (s.ipsr.get b = false → s.fctl.wsi = true → s.raiseIp b = p ∧ (s.raiseIp b).wire v = true) ∧
    (s.ipsr.get b = false → s.fctl.wsi = false → e.m = true →
      s.raiseIp b = { p with msiPending := s.msiPending.set v.toNat true (by have := v.isLt; omega) }) ∧
    (s.ipsr.get b = false → s.fctl.wsi = false → e.m = false → s.accessFaults .write e.address.toNat 4 = false →
      s.others = [] →
      s.raiseIp b = { sent with
        mem := Memory.writeBytes s.mem e.address.toNat (toBytes s.fctl.be 4 e.data.toNat)
        out := s.out ++ [.msi e.address e.data] }) ∧
    (s.ipsr.get b = false → s.fctl.wsi = false → e.m = false → s.accessFaults .write e.address.toNat 4 = true →
      s.raiseIp b = sent.report ⟨.msiWriteAccess, 0#6, 0#24, false, 0#20, false, e.address, 0#64⟩)

/-- Writes to an entry of the MSI table that the implementation has. Each half of `msi_addr_x` is stored if the address it
makes is in the physical address space, else the entry stays as it is (that each half is judged on its own is log 43, that
an illegal address leaves it is log 40); `msi_data_x` is stored; M of `msi_vec_ctl_x` is stored; each is read back, and
nothing else changes. But clearing the mask bit of a vector with a message pending sends that message once, with the entry's
address and data (R64, R593, R543; that it is sent whatever has become of the pending bit is D34, log 26; no access of
another agent in between, log 5). An entry that the implementation does not have reads 0 and ignores writes (R64). -/
def Obligations.MsiTableWrites : Prop :=
  (∀ (s : State) (x : Fin 16) (v : DWord) (lowFirst : Bool), s.cfg.igs ≠ .wsi → x.val < s.cfg.nVectors →
      s.msiCfg[x].m = true → s.msiPending[x] = true → v.getLsbD 0 = false →
      s.accessFaults .write s.msiCfg[x].address.toNat 4 = false → s.others = [] →
      s.regWrite (768 + 16 * x.val + 12) 4 v lowFirst = { s with
        msiCfg := s.msiCfg.set x { s.msiCfg[x] with m := false }
        msiPending := s.msiPending.set x false
        mem := Memory.writeBytes s.mem s.msiCfg[x].address.toNat (toBytes s.fctl.be 4 s.msiCfg[x].data.toNat)
        bus := s.bus ++ [⟨.write, s.msiCfg[x].address.toNat, 4, s.iommuQos⟩]
        out := s.out ++ [.msi s.msiCfg[x].address s.msiCfg[x].data] }) ∧
  ∀ (s : State) (x : Fin 16) (v : DWord) (lowFirst : Bool),
    let off := 768 + 16 * x.val
    let old := s.msiCfg[x]
    let entry (e : MsiEntry) : State := { s with msiCfg := s.msiCfg.set x e }
    let legal (a : BitVec 54) : Prop := a.toNat * 4 < 2 ^ s.cfg.pas
    (s.cfg.igs ≠ .wsi → x.val < s.cfg.nVectors →
      (let a : BitVec 54 := old.addr.extractLsb' 30 24 ++ v.extractLsb' 2 30
       (legal a → s.regWrite off 4 v lowFirst = entry { old with addr := a } ∧
          (s.regWrite off 4 v lowFirst).regRead off 4 = (v.extractLsb' 2 30 ++ 0#2).setWidth 64) ∧
       (¬legal a → s.regWrite off 4 v lowFirst = s)) ∧
      (let a : BitVec 54 := v.extractLsb' 0 24 ++ old.addr.extractLsb' 0 30
       (legal a → s.regWrite (off + 4) 4 v lowFirst = entry { old with addr := a } ∧
          (s.regWrite (off + 4) 4 v lowFirst).regRead (off + 4) 4 = (v.extractLsb' 0 24).setWidth 64) ∧
       (¬legal a → s.regWrite (off + 4) 4 v lowFirst = s)) ∧
      (s.regWrite (off + 8) 4 v lowFirst = entry { old with data := v.extractLsb' 0 32 } ∧
        (s.regWrite (off + 8) 4 v lowFirst).regRead (off + 8) 4 = (v.extractLsb' 0 32).setWidth 64) ∧
      ((old.m = false ∨ v.getLsbD 0 = true ∨ s.msiPending[x] = false) →
        s.regWrite (off + 12) 4 v lowFirst = entry { old with m := v.getLsbD 0 } ∧
        (s.regWrite (off + 12) 4 v lowFirst).regRead (off + 12) 4 = (v.extractLsb' 0 1).setWidth 64)) ∧
    (s.cfg.igs = .wsi ∨ s.cfg.nVectors ≤ x.val → ∀ k, k ∈ [0, 4, 8, 12] →
      s.regRead (off + k) 4 = 0#64 ∧ s.regWrite (off + k) 4 v lowFirst = s)

/-- A write to `ipsr` clears the bits written as 1 and evaluates the level conditions again (R534, R591). With wired
interrupts a bit whose condition holds is set, or stays set, and nothing else changes. With message interrupts nothing
else changes where no condition holds; where that of one source alone holds, its bit is raised again, with its delivery:
if it was cleared a second message is sent (R595). -/
def Obligations.IpsrWriteClearsAndReevaluates : Prop :=
  ∀ (s : State) (v : DWord) (lowFirst : Bool),
    let cleared : State := { s with ipsr :=
      { cip := s.ipsr.cip && !v.getLsbD 0
        fip := s.ipsr.fip && !v.getLsbD 1
        pmip := s.ipsr.pmip && !v.getLsbD 2
        pip := s.ipsr.pip && !v.getLsbD 3 } }
    let level : IntSource → Bool
      | .cq => s.cipLevel
      | .fq => s.fqcsr.ipLevel
      | .pm => false
      | .pq => s.pqcsr.ipLevel
    (s.fctl.wsi = true →
      s.regWrite 84 4 v lowFirst = { s with ipsr :=
        { cip := (s.ipsr.cip && !v.getLsbD 0) || s.cipLevel
          fip := (s.ipsr.fip && !v.getLsbD 1) || s.fqcsr.ipLevel
          pmip := s.ipsr.pmip && !v.getLsbD 2
          pip := (s.ipsr.pip && !v.getLsbD 3) || s.pqcsr.ipLevel } }) ∧
    ((∀ b, level b = false) → s.regWrite 84 4 v lowFirst = cleared) ∧
    (∀ b, level b = true → (∀ c, c ≠ b → level c = false) →
      s.regWrite 84 4 v lowFirst = cleared.raiseIp b ∧
      (let e := s.msiEntry (s.icvec.vector b)
       s.fctl.wsi = false → cleared.ipsr.get b = false → e.m = false →
        s.accessFaults .write e.address.toNat 4 = false → s.others = [] →
        (s.regWrite 84 4 v lowFirst).ipsr.get b = true ∧
        (s.regWrite 84 4 v lowFirst).out = s.out ++ [.msi e.address e.data]))

/-! ### Registers -/

/-- How accesses reach the register page. A hart's read or write that begins in the page is the read or write of the
register at its offset, and the read's value goes out; a read changes nothing else (R510, R32). Reserved and custom offsets
read as 0 and ignore writes (R65); custom ones for an implementation that defines no custom use (log 31). Writes to the
read-only registers `capabilities`, `cqh`, `fqt`, `pqt`, `iocountovf`, `tr_response` are ignored, whole or by halves (R510,
R34, R41, R45, R48, R54, R61). For misaligned accesses and those of another size than 4 or 8 that the first clause takes in,
that they read 0 and do nothing is the model's choice (R210, U2, log 16), and so it is for an 8-byte access to anything but
an 8-byte register. An 8-byte write of an 8-byte register is two 4-byte writes, first of the high half and then of the low
half, or the other way round (R521, U31, log 17). An 8-byte read is both halves at once, or two 4-byte reads as two inputs,
between which others may come, each half read in its own state (R632, log 17). -/
def Obligations.RegisterPageAccesses : Prop :=
  (∀ (s : State) (es : List Event) (a : DWord) (off size : Nat) (v : DWord) (lowFirst : Bool),
    a.toNat = s.cfg.regBase.toNat + off → off < 4096 → 1 ≤ size →
    (s.inbox = .hartWrite a size v lowFirst :: es →
      step s = .next (({ s with inbox := es } : State).regWrite off size v lowFirst)) ∧
    (s.inbox = .hartRead a size :: es →
      step s = .next { s with inbox := es, out := s.out ++ [.readData (s.regRead off size)] })) ∧
  (∀ (s : State) (off size : Nat) (v : DWord) (lowFirst : Bool),
      (((12 ≤ off ∧ off ≤ 15) ∨ (628 ≤ off ∧ off ≤ 759) ∨ (1024 ≤ off ∧ off ≤ 4095)) →
        s.regRead off size = 0#64 ∧ s.regWrite off size v lowFirst = s) ∧
      (((off ∈ [0, 616] ∧ (size = 4 ∨ size = 8)) ∨ (off ∈ [4, 32, 52, 68, 88, 620] ∧ size = 4)) →
        s.regWrite off size v lowFirst = s)) ∧
  let wide (off : Nat) : Prop := off ∈ [0, 16, 24, 40, 56, 96, 600, 608, 616, 760] ∨
    (104 ≤ off ∧ off < 600 ∧ off % 8 = 0) ∨ (768 ≤ off ∧ off < 1024 ∧ off % 16 = 0)
  (∀ (s : State) (off : Nat) (v : DWord) (a b : Bool),
    (wide off →
      s.regWrite off 8 v false = (s.regWrite (off + 4) 4 ((v.extractLsb' 32 32).setWidth 64) a).regWrite off 4
        ((v.extractLsb' 0 32).setWidth 64) b ∧
      s.regWrite off 8 v true = (s.regWrite off 4 ((v.extractLsb' 0 32).setWidth 64) a).regWrite (off + 4) 4
        ((v.extractLsb' 32 32).setWidth 64) b ∧
      s.regRead off 8 = (s.regRead (off + 4) 4).setWidth 32 ++ (s.regRead off 4).setWidth 32) ∧
    (¬wide off → s.regRead off 8 = 0#64 ∧ s.regWrite off 8 v a = s)) ∧
  (∀ (s : State) (hart : Nat) (a : BitVec 64) (lowFirst : Bool) (es : List Event) (off : Nat),
    s.inbox = .hartReadFirst hart a lowFirst :: es → a.toNat = s.cfg.regBase.toNat + off → wide off →
    step s = .next { s with
      inbox := es
      halfReads := ⟨hart, off, lowFirst, (s.regRead (if lowFirst then off else off + 4) 4).setWidth 32⟩
        :: s.halfReads.filter fun h => h.hart != hart }) ∧
  ∀ (s : State) (hart : Nat) (es : List Event) (h : HalfRead), s.inbox = .hartReadSecond hart :: es →
    s.halfReads.find? (fun x => x.hart == hart) = some h →
    let other := (s.regRead (if h.lowFirst then h.off + 4 else h.off) 4).setWidth 32
    step s = .next { s with
      inbox := es
      halfReads := s.halfReads.filter fun x => x.hart != hart
      out := s.out ++ [.readData (if h.lowFirst then other ++ h.half else h.half ++ other)] }

/-- Enabling a queue: setting the enable bit from 0 turns the queue on, zeroes the index the IOMMU owns and the error
bits, stores the interrupt enable, and leaves the software's index and all else alone (R526; `busy` never seen as 1 is
D15, log 5). Disabling the command queue turns it off at once, keeps `cqh` and `cqt`, and drops the outstanding ATS.INVAL
commands, the sticky timeout and a waiting fence; an engine turn then does nothing (R527, R528; D31, log 21). Disabling the
fault queue turns it off at once and keeps `fqh` and `fqt`; a record is then lost without trace (R529). Disabling the
page-request queue turns it off at once and keeps `pqh` and `pqt`; a Page Request is then answered Response Failure and not
stored (R530). A disable keeps the error bits but for those written 1 (R526), and changes nothing else, but that an error
bit left set raises the interrupt if it is enabled, of which InterruptDelivery says all that it does (what other agents do
around its message is log 5). -/
def Obligations.EnablingAndDisablingQueues : Prop :=
  ∀ (s : State) (v : DWord) (lowFirst : Bool),
    (v.getLsbD 0 = true →
      (s.cqcsr.busy = false → s.cqcsr.cqen = false →
        s.regWrite 72 4 v lowFirst = { s with
          cqh := 0#32
          cqcsr := ⟨true, v.getLsbD 1, false, false, false, false, true, false⟩ }) ∧
      (s.fqcsr.busy = false → s.fqcsr.en = false →
        s.regWrite 76 4 v lowFirst = { s with fqt := 0#32, fqcsr := ⟨true, v.getLsbD 1, false, false, true, false⟩ }) ∧
      (s.cfg.ats = true → s.pqcsr.busy = false → s.pqcsr.en = false →
        s.regWrite 80 4 v lowFirst = { s with pqt := 0#32, pqcsr := ⟨true, v.getLsbD 1, false, false, true, false⟩ })) ∧
    (v.getLsbD 0 = false →
      (s.cqcsr.busy = false → s.cqcsr.cqen = true →
        let q : Cqcsr := ⟨false, v.getLsbD 1, s.cqcsr.cqmf && !v.getLsbD 8, s.cqcsr.cmdTo && !v.getLsbD 9,
          s.cqcsr.cmdIll && !v.getLsbD 10, s.cqcsr.fenceWIp && !v.getLsbD 11, false, false⟩
        let n : State := { s with
          cqcsr := q
          outstanding := []
          timedOut := false
          fetched := none }
        let t := s.regWrite 72 4 v lowFirst
        t = (if q.cie && ((q.fenceWIp && s.fctl.wsi) || q.cmdIll || q.cmdTo || q.cqmf) then n.raiseIp .cq else n) ∧
        t.cqcsr = q ∧ t.outstanding = [] ∧ t.timedOut = false ∧ t.fetched = none ∧ t.cqh = s.cqh ∧ t.cqt = s.cqt ∧
        t.ioatc = s.ioatc ∧ (t.inbox = [] → step t = .next t)) ∧
      (s.fqcsr.busy = false → s.fqcsr.en = true →
        let q : OutCsr := ⟨false, v.getLsbD 1, s.fqcsr.mf && !v.getLsbD 8, s.fqcsr.ovf && !v.getLsbD 9, false, false⟩
        let n : State := { s with fqcsr := q }
        let t := s.regWrite 76 4 v lowFirst
        t = (if q.ie && (q.ovf || q.mf) then n.raiseIp .fq else n) ∧ t.fqcsr = q ∧ t.fqh = s.fqh ∧ t.fqt = s.fqt ∧
        (∀ r, t.report r = t) ∧
        t.unreported = ({ s with fqcsr := t.fqcsr } : State).unreported ∧ s.keepsAccesses t) ∧
      (s.cfg.ats = true → s.pqcsr.busy = false → s.pqcsr.en = true →
        let q : OutCsr := ⟨false, v.getLsbD 1, s.pqcsr.mf && !v.getLsbD 8, s.pqcsr.ovf && !v.getLsbD 9, false, false⟩
        let n : State := { s with pqcsr := q }
        let t := s.regWrite 80 4 v lowFirst
        t = (if q.ie && (q.ovf || q.mf) then n.raiseIp .pq else n) ∧ t.pqcsr = q ∧ t.pqh = s.pqh ∧ t.pqt = s.pqt ∧
        (∀ m, t.pqEnqueue m = (some .responseFailure, t)) ∧
        t.unreported = ({ s with pqcsr := t.pqcsr } : State).unreported ∧ s.keepsAccesses t))

/-- A write to a queue's CSR that keeps the enable bit stores the interrupt enable and clears the error bits written 1,
changes nothing else but by the interrupt, which follows if it is enabled and an error bit is left (of which
InterruptDelivery says all that it does; what other agents do around its message is log 5), and leaves the indices alone
(R526). When all of `cqmf`, `cmd_to` and `cmd_ill` are clear then, the engine resumes at the same `cqh` (R485). With `fqof`
and `fqmf`, or `pqof` and `pqmf`, cleared the queue discards no more (what it then stores is ReportWritesRecord and
PageRequestQueueing). -/
def Obligations.ClearingErrorBits : Prop :=
  ∀ (s : State) (v : DWord) (lowFirst : Bool),
    (s.cqcsr.busy = false → v.getLsbD 0 = s.cqcsr.cqen →
      let q := { s.cqcsr with
        cie := v.getLsbD 1
        cqmf := s.cqcsr.cqmf && !v.getLsbD 8
        cmdTo := s.cqcsr.cmdTo && !v.getLsbD 9
        cmdIll := s.cqcsr.cmdIll && !v.getLsbD 10
        fenceWIp := s.cqcsr.fenceWIp && !v.getLsbD 11 }
      let t := s.regWrite 72 4 v lowFirst
      let n : State := { s with cqcsr := q }
      t = (if q.cie && ((q.fenceWIp && s.fctl.wsi) || q.cmdIll || q.cmdTo || q.cqmf) then n.raiseIp .cq else n) ∧
      t.cqcsr = q ∧ t.cqh = s.cqh ∧ t.cqt = s.cqt ∧ t.unreported = n.unreported ∧ s.keepsAccesses t ∧
      (s.ipsr.cip = true ∨ v.getLsbD 1 = false → t = { s with cqcsr := q }) ∧
      (s.cqcsr.cqon = true → (v.getLsbD 8 = true ∨ s.cqcsr.cqmf = false) → (v.getLsbD 9 = true ∨ s.cqcsr.cmdTo = false) →
        (v.getLsbD 10 = true ∨ s.cqcsr.cmdIll = false) → s.inbox = [] → s.fetched = none → s.cqh ≠ s.cqt →
        ∃ u, step t = .next u ∧ t.bus ++ [⟨.read, s.cqb.entryAddr 4 s.cqh, 16, s.iommuQos⟩] <+: u.bus)) ∧
    (s.fqcsr.busy = false → v.getLsbD 0 = s.fqcsr.en →
      let q := { s.fqcsr with
        ie := v.getLsbD 1
        mf := s.fqcsr.mf && !v.getLsbD 8
        ovf := s.fqcsr.ovf && !v.getLsbD 9
        on := s.fqcsr.on && s.fqcsr.en }
      let t := s.regWrite 76 4 v lowFirst
      let n : State := { s with fqcsr := q }
      t = (if q.ie && (q.ovf || q.mf) then n.raiseIp .fq else n) ∧
      t.unreported = n.unreported ∧ s.keepsAccesses t ∧ t.fqh = s.fqh ∧
      (s.ipsr.fip = true ∨ q.ipLevel = false → t = n) ∧
      (q.ipLevel = true → t.ipsr.fip = true ∧ t.fqcsr = q ∧ t.fqt = s.fqt) ∧
      (s.fqcsr.on = true → s.fqcsr.en = true → (v.getLsbD 8 = true ∨ s.fqcsr.mf = false) →
        (v.getLsbD 9 = true ∨ s.fqcsr.ovf = false) → t.fqcsr.on = true ∧ t.fqcsr.mf = false ∧ t.fqcsr.ovf = false)) ∧
    (s.cfg.ats = true → s.pqcsr.busy = false → v.getLsbD 0 = s.pqcsr.en →
      let q := { s.pqcsr with
        ie := v.getLsbD 1
        mf := s.pqcsr.mf && !v.getLsbD 8
        ovf := s.pqcsr.ovf && !v.getLsbD 9
        on := s.pqcsr.on && s.pqcsr.en }
      let t := s.regWrite 80 4 v lowFirst
      let n : State := { s with pqcsr := q }
      t = (if q.ie && (q.ovf || q.mf) then n.raiseIp .pq else n) ∧
      t.pqcsr = q ∧ t.unreported = n.unreported ∧ s.keepsAccesses t ∧ t.pqh = s.pqh ∧ t.pqt = s.pqt ∧
      (s.ipsr.pip = true ∨ q.ipLevel = false → t = n) ∧
      (q.ipLevel = true → t.ipsr.pip = true) ∧
      (s.pqcsr.on = true → s.pqcsr.en = true → (v.getLsbD 8 = true ∨ s.pqcsr.mf = false) →
        (v.getLsbD 9 = true ∨ s.pqcsr.ovf = false) → t.pqcsr.on = true ∧ t.pqcsr.mf = false ∧ t.pqcsr.ovf = false))

/-- Writes to `fctl`, each writable field taking its bit, are accepted while the IOMMU is Off and every queue disabled, and
ignored otherwise (R525, R36; that they are ignored is U6, log 16; that `fence_w_ip` does not survive WSI = 0 is log 43). A
write to the low half of `cqb`, `fqb` or `pqb` while the queue is off stores each of size and PPN that is legal, and leaves
the index that software owns a free value below the size; one to the high half stores the PPN if it is legal, and no more;
while the queue is on either is ignored (R532; that it is ignored is U4, log 16; the free value is U9, log 7; that a half
is judged on its own is log 43). The index the IOMMU owns keeps its value, as all else does (what `cqh` then reads is
log 43). -/
def Obligations.WritesOfFctlAndQueueBases : Prop :=
  ∀ (s : State) (v : DWord) (lowFirst : Bool),
    let base (max : Nat) (old : QBase) (p : BitVec 44) : QBase :=
      ⟨if (v.extractLsb' 0 5).toNat + 1 ≤ max then v.extractLsb' 0 5 else old.log2szm1,
       if p.toNat * 4096 < 2 ^ s.cfg.pas then p else old.ppn⟩
    let high (old : QBase) (p : BitVec 44) : QBase :=
      ⟨old.log2szm1, if p.toNat * 4096 < 2 ^ s.cfg.pas then p else old.ppn⟩
    let lowPpn (old : QBase) : BitVec 44 := old.ppn.extractLsb' 22 22 ++ v.extractLsb' 10 22
    let highPpn (old : QBase) : BitVec 44 := v.extractLsb' 0 22 ++ old.ppn.extractLsb' 0 22
    (let off := s.ddtp.mode = .off ∧ s.cqcsr.cqen = false ∧ s.cqcsr.cqon = false ∧ s.fqcsr.en = false ∧
        s.fqcsr.on = false ∧ s.pqcsr.en = false ∧ s.pqcsr.on = false
     let f : Fctl := ⟨if s.cfg.endBoth then v.getLsbD 0 else s.fctl.be,
        if s.cfg.igs = .both then v.getLsbD 1 else s.fctl.wsi, if s.cfg.gxlWritable then v.getLsbD 2 else s.fctl.gxl⟩
     (off → s.regWrite 8 4 v lowFirst = { s with
        fctl := f, cqcsr := { s.cqcsr with fenceWIp := s.cqcsr.fenceWIp && s.fctl.wsi && f.wsi } }) ∧
     (¬off → s.regWrite 8 4 v lowFirst = s)) ∧
    ((s.cqcsr.busy = false ∧ s.cqcsr.cqon = false →
        let b := base s.cfg.cqLog2szMax s.cqb (lowPpn s.cqb)
        (∃ i, s.regWrite 24 4 v lowFirst = { s with
            cqb := b
            cqt := i
            freeCtr := s.freeCtr + 1 } ∧
          i.toNat < 2 ^ (b.log2szm1.toNat + 1)) ∧
        s.regWrite 28 4 v lowFirst = { s with cqb := high s.cqb (highPpn s.cqb) }) ∧
      (s.cqcsr.busy = true ∨ s.cqcsr.cqon = true →
        s.regWrite 24 4 v lowFirst = s ∧ s.regWrite 28 4 v lowFirst = s)) ∧
    ((s.fqcsr.busy = false ∧ s.fqcsr.on = false →
        let b := base s.cfg.fqLog2szMax s.fqb (lowPpn s.fqb)
        (∃ i, s.regWrite 40 4 v lowFirst = { s with fqb := b, fqh := i, freeCtr := s.freeCtr + 1 } ∧
          i.toNat < 2 ^ (b.log2szm1.toNat + 1)) ∧
        s.regWrite 44 4 v lowFirst = { s with fqb := high s.fqb (highPpn s.fqb) }) ∧
      (s.fqcsr.busy = true ∨ s.fqcsr.on = true →
        s.regWrite 40 4 v lowFirst = s ∧ s.regWrite 44 4 v lowFirst = s)) ∧
    (s.cfg.ats = true →
      (s.pqcsr.busy = false ∧ s.pqcsr.on = false →
        let b := base s.cfg.pqLog2szMax s.pqb (lowPpn s.pqb)
        (∃ i, s.regWrite 56 4 v lowFirst = { s with pqb := b, pqh := i, freeCtr := s.freeCtr + 1 } ∧
          i.toNat < 2 ^ (b.log2szm1.toNat + 1)) ∧
        s.regWrite 60 4 v lowFirst = { s with pqb := high s.pqb (highPpn s.pqb) }) ∧
      (s.pqcsr.busy = true ∨ s.pqcsr.on = true →
        s.regWrite 56 4 v lowFirst = s ∧ s.regWrite 60 4 v lowFirst = s))

/-- Writes to `ddtp`. A written mode that is not legal, or a PPN of an address that does not exist, counts as the one held
(R520, D3). Of the low half: from Off to any mode, from Bare to any (to Off with the PPN kept), from an nLVL mode to Off or
to itself with the PPN kept, mode and PPN are stored, nothing else changes, and the IOATC is not touched (R523, R524), but
that a write that leaves Off first commits the device accesses already processed (R522; that they are performed at once is
the model's form, log 28). Any other write is ignored (those the source leaves UNSPECIFIED, U7, log 16). A write of the high
half, which carries no side effect (R521), stores the PPN where the mode may keep while the PPN changes, and is else ignored
(that each half is judged on its own is log 43). -/
def Obligations.DdtpTransitions : Prop :=
  ∀ (s : State) (v : DWord) (lowFirst : Bool) (m : IommuMode), s.ddtp.busy = false →
    ((v.extractLsb' 0 4 = m.code ∧ modeSupported s.cfg m = true) ∨
      ((¬∃ k : IommuMode, v.extractLsb' 0 4 = k.code ∧ modeSupported s.cfg k = true) ∧ m = s.ddtp.mode)) →
    let w : BitVec 44 := s.ddtp.ppn.extractLsb' 22 22 ++ v.extractLsb' 10 22
    let p : BitVec 44 := if w.toNat * 4096 < 2 ^ s.cfg.pas then w else s.ddtp.ppn
    let wh : BitVec 44 := v.extractLsb' 0 22 ++ s.ddtp.ppn.extractLsb' 0 22
    let ph : BitVec 44 := if wh.toNat * 4096 < 2 ^ s.cfg.pas then wh else s.ddtp.ppn
    let allowed := s.ddtp.mode = .off ∨ (s.ddtp.mode = .bare ∧ (m ≠ .off ∨ p = s.ddtp.ppn)) ∨
      (p = s.ddtp.ppn ∧ (m = .off ∨ m = s.ddtp.mode))
    (allowed → m ≠ .off → s.regWrite 16 4 v lowFirst = { s with ddtp := ⟨m, false, p⟩ }) ∧
    (allowed → m = .off →
      s.regWrite 16 4 v lowFirst = { s.commitReads.commitWrites with ddtp := ⟨.off, false, p⟩ }) ∧
    (¬allowed → s.regWrite 16 4 v lowFirst = s) ∧
    ((s.ddtp.mode = .off ∨ s.ddtp.mode = .bare) →
      s.regWrite 20 4 v lowFirst = { s with ddtp := ⟨s.ddtp.mode, false, ph⟩ }) ∧
    (¬(s.ddtp.mode = .off ∨ s.ddtp.mode = .bare) → s.regWrite 20 4 v lowFirst = s)

/-- How the registers read, and what a legal write stores and that it is read back. Reads: each register at its offset, each
field at its bits, the reserved and custom bits 0: `fctl`, `ddtp`, `cqb`, `fqb`, `pqb`, the index registers, `cqcsr`,
`fqcsr`, `pqcsr`, with the enables in bits 0 and 1, the error bits from bit 8, on in bit 16 and busy in bit 17, `ipsr`,
`icvec`, `iocountinh`, the counters and their event selectors, `tr_req_iova`, `tr_req_ctl`, `tr_response`, `iommu_qosid`
(R36, R38, R40 to R63; of `cqh` the bits below the number of entries, and `fence_w_ip` as 0 while WSI is 0, log 43); a
register that the implementation does not have reads 0 (R32, R33); a 4-byte read of an 8-byte register is one of its halves.
`tr_response` after a debug translation: on a fault bit 0 is 1; on a success bit 0 is 0, PBMT is that of the translation, S
says that the reported size is above a page, and PPN encodes that size (R61, R540; the size reported is log 29; the request
translated is D32, log 42; the bits that a fault leaves UNSPECIFIED are a free value, log 7). Writes: the index registers
software owns: the value modulo the number of entries; `pqh` where the implementation has ATS (R533, R42). `icvec`: of each
field the low bits that count the vectors, but the field keeps its value where they name no vector there is (R542, R63, R64;
log 40). `iommu_qosid`: the implemented bits of RCID and MCID (R544). `tr_req_iova` and `tr_req_ctl` by halves, while no
debug translation runs and none is started; while one runs the write is ignored (R59, R60, R536, U5, log 16). The counters:
the implemented bits (R56, R57); `iohpmevtN`: every field, but an eventID the implementation does not have leaves that field
(R58, R633; log 40); each by halves. Nothing else changes. -/
def Obligations.RegisterWritesReadBack : Prop :=
  (∀ s : State,
    let flags (off : Nat) (named : List (Nat × Bool)) : Prop :=
      ∀ j, (s.regRead off 4).getLsbD j = true ↔ (j, true) ∈ named
    let flag (b : Bool) : BitVec 1 := if b then 1#1 else 0#1
    let base (off : Nat) (b : QBase) : Prop := s.regRead off 8 = 0#10 ++ b.ppn ++ 0#5 ++ b.log2szm1
    let index (off : Nat) (i : BitVec 32) : Prop := s.regRead off 4 = i.setWidth 64
    let m := s.ddtp.mode
    let mode : BitVec 4 := if m = .off then 0#4 else if m = .bare then 1#4 else if m = .lvl1 then 2#4
      else if m = .lvl2 then 3#4 else 4#4
    let c := s.cqcsr
    let f := s.fqcsr
    let p := s.pqcsr
    flags 8 [(0, s.fctl.be), (1, s.fctl.wsi), (2, s.fctl.gxl)] ∧
    s.regRead 16 8 = 0#10 ++ s.ddtp.ppn ++ 0#5 ++ flag s.ddtp.busy ++ mode ∧
    base 24 s.cqb ∧ base 40 s.fqb ∧ index 36 s.cqt ∧ index 48 s.fqh ∧ index 52 s.fqt ∧
    s.regRead 32 4 = BitVec.ofNat 64 (s.cqh.toNat % s.cqb.entries) ∧
    flags 72 [(0, c.cqen), (1, c.cie), (8, c.cqmf), (9, c.cmdTo), (10, c.cmdIll), (11, c.fenceWIp && s.fctl.wsi),
      (16, c.cqon), (17, c.busy)] ∧
    flags 76 [(0, f.en), (1, f.ie), (8, f.mf), (9, f.ovf), (16, f.on), (17, f.busy)] ∧
    flags 84 [(0, s.ipsr.cip), (1, s.ipsr.fip), (2, s.ipsr.pmip), (3, s.ipsr.pip)] ∧
    s.regRead 760 8 = 0#48 ++ s.icvec.piv ++ s.icvec.pmiv ++ s.icvec.fiv ++ s.icvec.civ ∧
    (s.cfg.ats = true → base 56 s.pqb ∧ index 64 s.pqh ∧ index 68 s.pqt ∧
      flags 80 [(0, p.en), (1, p.ie), (8, p.mf), (9, p.ovf), (16, p.on), (17, p.busy)]) ∧
    (s.cfg.hpm = true → index 92 s.iocountinh ∧ s.regRead 96 8 = flag s.iohpmcycles.ovf ++ s.iohpmcycles.counter) ∧
    (∀ n : Fin 31, s.cfg.hpm = true → n.val < s.cfg.hpmCounters →
      let e := s.iohpmevt[n]
      s.regRead (104 + 8 * n.val) 8 = s.iohpmctr[n] ∧
      s.regRead (352 + 8 * n.val) 8 = flag e.ovf ++ flag e.idt ++ flag e.dvGscv ++ flag e.pvPscv ++ e.didGscid ++
        e.pidPscid ++ flag e.dmask ++ e.eventId) ∧
    (s.cfg.dbg = true → s.regRead 600 8 = s.trReqIova ++ 0#12 ∧
      (let q := s.trReqCtl
       s.regRead 608 8 = q.did ++ 0#7 ++ flag q.pv ++ q.pid ++ 0#8 ++ flag q.nw ++ flag q.exe ++ flag q.priv ++
        flag q.goBusy) ∧
      s.regRead 616 8 = s.trResponse) ∧
    (s.cfg.qosid = true → s.regRead 624 4 = (0#4 ++ s.qosid.mcid ++ 0#4 ++ s.qosid.rcid).setWidth 64) ∧
    (∀ off size, (s.cfg.ats = false ∧ off ∈ [56, 60, 64, 68, 80]) ∨ (s.cfg.hpm = false ∧ 88 ≤ off ∧ off < 600) ∨
      (s.cfg.dbg = false ∧ 600 ≤ off ∧ off < 624) ∨ (s.cfg.qosid = false ∧ off = 624) ∨
      (∃ n, n < 31 ∧ s.cfg.hpmCounters ≤ n ∧ (off = 104 + 8 * n ∨ off = 352 + 8 * n)) → s.regRead off size = 0#64) ∧
    (∀ off, off ∈ [0, 16, 24, 40, 56, 96, 600, 608, 616, 760] ∨ (104 ≤ off ∧ off < 600 ∧ off % 8 = 0) →
      s.regRead off 4 = ((s.regRead off 8).extractLsb' 0 32).setWidth 64 ∧
      s.regRead (off + 4) 4 = ((s.regRead off 8).extractLsb' 32 32).setWidth 64)) ∧
  (∀ (s : State) (v : DWord) (lowFirst : Bool), s.cfg.dbg = true → s.trReqCtl.goBusy = false → v.getLsbD 0 = true →
    let c : TrReqCtl := { s.trReqCtl with
      goBusy := true
      priv := v.getLsbD 1
      exe := v.getLsbD 2
      nw := v.getLsbD 3
      pid := v.extractLsb' 12 20 }
    let w : State := { s with trReqCtl := c }
    let q : Request := {
      tag := 0
      did := c.did
      pidValid := c.pv
      pid := c.pid
      supervisor := c.priv
      iova := s.trReqIova ++ 0#12
      ttyp := if c.exe then .untransExec else if c.nw then .untransRead else .untransWrite
      len := 0
      data := []
      exe := false
      nw := false
      isCxl := false
      internalError := false }
    let t := s.regWrite 608 4 v lowFirst
    let r := t.regRead 616 8
    t.trReqCtl.goBusy = false ∧ r.extractLsb' 1 6 = 0#6 ∧ r.extractLsb' 54 10 = 0#10 ∧
    (∀ f u, translate q true (w.enter q) = .stop f u → r.getLsbD 0 = true) ∧
    ∀ d u, translate q true (w.enter q) = .ok d u →
      let k := min d.c.span s.cfg.debugSpanMax
      r.getLsbD 0 = false ∧ r.extractLsb' 7 2 = d.c.pbmt ∧ (r.getLsbD 9 = true ↔ k ≠ 0) ∧
      ∀ j, j < 44 → r.getLsbD (10 + j) =
        if j + 1 < k then true else if j + 1 = k then false else d.c.spa.getLsbD (12 + j)) ∧
  (∀ (s : State) (v : DWord) (lowFirst : Bool), v.toNat < 2 ^ 32 →
      (s.regWrite 36 4 v lowFirst = { s with cqt := BitVec.ofNat 32 (v.toNat % s.cqb.entries) } ∧
        ((s.regWrite 36 4 v lowFirst).regRead 36 4).toNat = v.toNat % s.cqb.entries) ∧
      (s.regWrite 48 4 v lowFirst = { s with fqh := BitVec.ofNat 32 (v.toNat % s.fqb.entries) } ∧
        ((s.regWrite 48 4 v lowFirst).regRead 48 4).toNat = v.toNat % s.fqb.entries) ∧
      (s.cfg.ats = true →
        s.regWrite 64 4 v lowFirst = { s with pqh := BitVec.ofNat 32 (v.toNat % s.pqb.entries) } ∧
        ((s.regWrite 64 4 v lowFirst).regRead 64 4).toNat = v.toNat % s.pqb.entries)) ∧
  (∀ (s : State) (v : DWord) (lowFirst : Bool) (k : Nat), 1 ≤ s.cfg.nVectors → s.cfg.nVectors ≤ 16 →
    s.cfg.nVectors ≤ 2 ^ k → (∀ j, j < k → 2 ^ j < s.cfg.nVectors) →
    let field (old w : BitVec 4) : BitVec 4 :=
      if w.toNat % 2 ^ k < s.cfg.nVectors then BitVec.ofNat 4 (w.toNat % 2 ^ k) else old
    let i : Icvec := ⟨field s.icvec.civ (v.extractLsb' 0 4), field s.icvec.fiv (v.extractLsb' 4 4),
      field s.icvec.pmiv (v.extractLsb' 8 4), field s.icvec.piv (v.extractLsb' 12 4)⟩
    s.regWrite 760 4 v lowFirst = { s with icvec := i } ∧
    (s.regWrite 760 4 v lowFirst).regRead 760 4 = (i.piv ++ i.pmiv ++ i.fiv ++ i.civ).setWidth 64) ∧
  (∀ (s : State) (v : DWord) (lowFirst : Bool), s.cfg.qosid = true →
    let rcid := BitVec.ofNat 12 ((v.extractLsb' 0 12).toNat % 2 ^ s.cfg.rcidWidth)
    let mcid := BitVec.ofNat 12 ((v.extractLsb' 16 12).toNat % 2 ^ s.cfg.mcidWidth)
    s.regWrite 624 4 v lowFirst = { s with qosid := ⟨rcid, mcid⟩ } ∧
    (s.regWrite 624 4 v lowFirst).regRead 624 4 = (mcid ++ 0#4 ++ rcid).setWidth 64) ∧
  (∀ (s : State) (v : DWord) (lowFirst : Bool), s.cfg.dbg = true →
    (s.trReqCtl.goBusy = true → ∀ off, off ∈ [600, 604, 608, 612] → s.regWrite off 4 v lowFirst = s) ∧
    (s.trReqCtl.goBusy = false →
      (s.regWrite 600 4 v lowFirst = { s with trReqIova := s.trReqIova.extractLsb' 20 32 ++ v.extractLsb' 12 20 } ∧
        (s.regWrite 600 4 v lowFirst).regRead 600 4 = (v.extractLsb' 12 20 ++ 0#12).setWidth 64) ∧
      (s.regWrite 604 4 v lowFirst = { s with trReqIova := v.extractLsb' 0 32 ++ s.trReqIova.extractLsb' 0 20 } ∧
        (s.regWrite 604 4 v lowFirst).regRead 604 4 = (v.extractLsb' 0 32).setWidth 64) ∧
      (v.getLsbD 0 = false →
        s.regWrite 608 4 v lowFirst = { s with trReqCtl := { s.trReqCtl with
          priv := v.getLsbD 1
          exe := v.getLsbD 2
          nw := v.getLsbD 3
          pid := v.extractLsb' 12 20 } } ∧
        (s.regWrite 608 4 v lowFirst).regRead 608 4 = (v.extractLsb' 12 20 ++ 0#8 ++ v.extractLsb' 0 4).setWidth 64) ∧
      (s.regWrite 612 4 v lowFirst = { s with trReqCtl := { s.trReqCtl with
          pv := v.getLsbD 0
          did := v.extractLsb' 8 24 } } ∧
        (s.regWrite 612 4 v lowFirst).regRead 612 4 = (v.extractLsb' 8 24 ++ 0#7 ++ v.extractLsb' 0 1).setWidth 64))) ∧
  (∀ (s : State) (v : DWord) (lowFirst : Bool) (n : Fin 31), s.cfg.hpm = true → n.val < s.cfg.hpmCounters →
    32 ≤ s.cfg.hpmWidth → s.cfg.hpmWidth ≤ 64 →
    let off := 104 + 8 * n.val
    let w := s.cfg.hpmWidth
    let counter (c : DWord) : State := { s with iohpmctr := s.iohpmctr.set n (BitVec.ofNat 64 (c.toNat % 2 ^ w)) }
    s.regWrite off 4 v lowFirst = counter ((s.iohpmctr[n]).extractLsb' 32 32 ++ v.extractLsb' 0 32) ∧
    s.regWrite (off + 4) 4 v lowFirst = counter (v.extractLsb' 0 32 ++ (s.iohpmctr[n]).extractLsb' 0 32) ∧
    ((s.regWrite off 4 v lowFirst).regRead off 4).toNat = (v.extractLsb' 0 32).toNat ∧
    ((s.regWrite (off + 4) 4 v lowFirst).regRead (off + 4) 4).toNat = (v.extractLsb' 0 32).toNat % 2 ^ (w - 32)) ∧
  (∀ (s : State) (v : DWord) (lowFirst : Bool) (n : Fin 31), s.cfg.hpm = true → n.val < s.cfg.hpmCounters →
    let off := 352 + 8 * n.val
    let old := s.iohpmevt[n]
    let event : BitVec 15 := if v.extractLsb' 0 15 = 0#15 ∨ (v.extractLsb' 0 15).toNat ∈ s.cfg.hpmEvents
      then v.extractLsb' 0 15 else old.eventId
    (s.regWrite off 4 v lowFirst = { s with iohpmevt := s.iohpmevt.set n { old with
        eventId := event
        dmask := v.getLsbD 15
        pidPscid := old.pidPscid.extractLsb' 16 4 ++ v.extractLsb' 16 16 } } ∧
      (s.regWrite off 4 v lowFirst).regRead off 4 = (v.extractLsb' 15 17 ++ event).setWidth 64) ∧
    s.regWrite (off + 4) 4 v lowFirst = { s with iohpmevt := s.iohpmevt.set n { old with
        pidPscid := v.extractLsb' 0 4 ++ old.pidPscid.extractLsb' 0 16
        didGscid := v.extractLsb' 4 24
        pvPscv := v.getLsbD 28
        dvGscv := v.getLsbD 29
        idt := v.getLsbD 30
        ovf := v.getLsbD 31 } } ∧
    (s.regWrite (off + 4) 4 v lowFirst).regRead (off + 4) 4 = (v.extractLsb' 0 32).setWidth 64) ∧
  ∀ (s : State) (v : DWord) (lowFirst : Bool), s.cfg.hpm = true → 32 ≤ s.cfg.hpmWidth →
    let w := min s.cfg.hpmWidth 63
    let old := s.iohpmcycles
    let cycles (c : BitVec 63) (o : Bool) : State := { s with iohpmcycles := ⟨BitVec.ofNat 63 (c.toNat % 2 ^ w), o⟩ }
    s.regWrite 96 4 v lowFirst = cycles (old.counter.extractLsb' 32 31 ++ v.extractLsb' 0 32) old.ovf ∧
    s.regWrite 100 4 v lowFirst = cycles (v.extractLsb' 0 31 ++ old.counter.extractLsb' 0 32) (v.getLsbD 31) ∧
    ((s.regWrite 96 4 v lowFirst).regRead 96 4).toNat = (v.extractLsb' 0 32).toNat ∧
    ((s.regWrite 100 4 v lowFirst).regRead 100 4).toNat =
      (v.extractLsb' 0 31).toNat % 2 ^ (w - 32) + (if v.getLsbD 31 then 2 ^ 31 else 0)

/-- Debug translation through the low half of `tr_req_ctl`, in the two modes without a directory (R537, R539, R540). It is
counted as an untranslated request, which R541 allows and D33 chooses (log 42). With Exe = 1 it is a read for execute,
whatever NW says (U8, log 42). In Off it stops with cause 256: the record of the request the registers describe is reported,
with the transaction type of the request, and `tr_response` has `fault` set and its reserved bits 0 (the others are a free
value, U11, log 7). In Bare it succeeds with the page number of the IOVA, of which PPN has the low 44 bits, and with the
size of a Bare translation as far as the implementation reports it, encoded as R540 says (log 29). Either way `Go/Busy` is 0
again and nothing else changes. -/
def Obligations.DebugInOffAndBare : Prop :=
  ∀ (s : State) (v : DWord) (lowFirst : Bool), s.cfg.dbg = true → s.trReqCtl.goBusy = false → v.getLsbD 0 = true →
    let c : TrReqCtl := { s.trReqCtl with
      goBusy := true
      priv := v.getLsbD 1
      exe := v.getLsbD 2
      nw := v.getLsbD 3
      pid := v.extractLsb' 12 20 }
    let u := ({ s with trReqCtl := c, walked := false } : State).countEvent .untranslated
      ⟨c.did, if c.pv then some c.pid else none, none, none⟩
    let t := s.regWrite 608 4 v lowFirst
    (s.ddtp.mode = .off →
      let w := u.report ⟨.allDisallowed, if c.exe then 1#6 else if c.nw then 2#6 else 3#6, c.did, c.pv,
        if c.pv then c.pid else 0#20, c.pv && c.priv, s.trReqIova ++ 0#12, 0#64⟩
      t = { w with trReqCtl := { c with goBusy := false }, trResponse := t.trResponse, freeCtr := w.freeCtr + 1 } ∧
      t.trResponse.getLsbD 0 = true ∧ t.trResponse.extractLsb' 1 6 = 0#6 ∧ t.trResponse.extractLsb' 54 10 = 0#10) ∧
    (s.ddtp.mode = .bare →
      let k := min s.cfg.bareSpan s.cfg.debugSpanMax
      ∃ ppn : BitVec 44,
        t = { u with
          trReqCtl := { c with goBusy := false }
          trResponse := 0#10 ++ ppn ++ (if k = 0 then 0#1 else 1#1) ++ 0#9 } ∧
        ∀ j, j < 44 →
          ppn.getLsbD j = if j + 1 < k then true else if j + 1 = k then false else s.trReqIova.getLsbD j)

/-! ### The performance monitor -/

/-- Counting. A counter counts an event when it is implemented and not inhibited, its selector names the event and takes
the kind of identifiers it asks for, and the identifiers agree: a `process_id` or PSCID that must be there whole, a
`device_id` or GSCID whole or, with DMASK, in the bits above the lowest 0 bit of DID_GSCID (R634 to R636; none if there is
no 0 bit, U26, log 42; the identifiers a transaction has are log 24, cut to the implementation's widths, log 33). An event
adds one to exactly the counters that count it, modulo their width; those that wrap set OF; and `pmip` is raised, with its
delivery, exactly if one of them had OF 0 (R634, R637). Nothing else changes. Of one counter alone: at the top of its width
it wraps to 0, sets OF, and, if OF was 0, sets `pmip`. Clock cycles advance `iohpmcycles` by their number
unless `iocountinh` inhibits it, and its wrap sets OF and, if OF was 0, `pmip` (R631, R639; they age the outstanding
ATS.INVAL besides, log 23). `iocountinh` keeps the bits of the counters there are (R639; log 40). -/
def Obligations.CountersAndFilters : Prop :=
  (∀ (s : State) (e : HpmEvent) (t : EventIds) (n : Fin 31),
    let sel := s.iohpmevt[n]
    let agrees (id : BitVec 24) : Prop :=
      (sel.dmask = false ∧ id = sel.didGscid) ∨
      (sel.dmask = true ∧ ∀ j, j < 24 → (∃ i, i < j ∧ sel.didGscid.getLsbD i = false) →
        id.getLsbD j = sel.didGscid.getLsbD j)
    s.counts e t n = true ↔
      s.cfg.hpm = true ∧ n.val < s.cfg.hpmCounters ∧ s.iocountinh.getLsbD (n.val + 1) = false ∧ sel.eventId = e.id ∧
      (sel.idt = true → (e = .tlbMiss ∨ e = .s1Walk ∨ e = .s2Walk) ∧
        (sel.pvPscv = true → t.pscid = some sel.pidPscid) ∧
        (sel.dvGscv = true → ∃ g, t.gscid = some g ∧ agrees (g.setWidth 24))) ∧
      (sel.idt = false → (sel.pvPscv = true → t.pid = some sel.pidPscid) ∧ (sel.dvGscv = true → agrees t.did))) ∧
  (∀ (s : State) (e : HpmEvent) (t : EventIds), s.cfg.hpmWidth ≤ 64 →
    let w := s.cfg.hpmWidth
    let wraps (n : Fin 31) : Prop := s.counts e t n = true ∧ 2 ^ w ≤ (s.iohpmctr[n]).toNat + 1
    ∃ (v : Vector DWord 31) (o : Vector HpmEvt 31),
      let u : State := { s with iohpmctr := v, iohpmevt := o }
      (∀ n : Fin 31, (v[n]).toNat =
        if s.counts e t n then ((s.iohpmctr[n]).toNat + 1) % 2 ^ w else (s.iohpmctr[n]).toNat) ∧
      (∀ n : Fin 31, (wraps n → o[n] = { s.iohpmevt[n] with ovf := true }) ∧ (¬wraps n → o[n] = s.iohpmevt[n])) ∧
      ((∃ n : Fin 31, wraps n ∧ s.iohpmevt[n].ovf = false) →
        s.countEvent e t = u.raiseIp .pm ∧ (u.raiseIp .pm).ipsr.pmip = true) ∧
      ((∀ n : Fin 31, wraps n → s.iohpmevt[n].ovf = true) → s.countEvent e t = u)) ∧
  (∀ (s : State) (es : List Event) (n : Nat), s.inbox = .cycles n :: es →
    let w := min s.cfg.hpmWidth 63
    let total := s.iohpmcycles.counter.toNat + n
    let aged : State := { s with
      inbox := es
      outstanding := s.outstanding.map fun o => { o with age := o.age + n } }
    let wrapped : State := { aged with iohpmcycles := ⟨BitVec.ofNat 63 (total % 2 ^ w), true⟩ }
    ((s.cfg.hpm = false ∨ s.iocountinh.getLsbD 0 = true) → step s = .next aged) ∧
    (s.cfg.hpm = true → s.iocountinh.getLsbD 0 = false →
      (total < 2 ^ w →
        step s = .next { aged with iohpmcycles := ⟨BitVec.ofNat 63 total, s.iohpmcycles.ovf⟩ }) ∧
      (2 ^ w ≤ total → s.iohpmcycles.ovf = true → step s = .next wrapped) ∧
      (2 ^ w ≤ total → s.iohpmcycles.ovf = false →
        step s = .next (wrapped.raiseIp .pm) ∧ (wrapped.raiseIp .pm).ipsr.pmip = true))) ∧
  (∀ (s : State) (v : DWord) (lowFirst : Bool), s.cfg.hpm = true →
    s.regWrite 92 4 v lowFirst
      = { s with iocountinh := BitVec.ofNat 32 (v.toNat % 2 ^ 32 % 2 ^ (s.cfg.hpmCounters + 1)) }) ∧
  ∀ (s : State) (n : Fin 31), s.cfg.hpmWidth ≤ 64 → (s.iohpmctr[n]).toNat < 2 ^ s.cfg.hpmWidth →
    ((s.iohpmctr[n]).toNat + 1 < 2 ^ s.cfg.hpmWidth →
      s.countIn n = { s with iohpmctr := s.iohpmctr.set n (s.iohpmctr[n] + 1#64) }) ∧
    ((s.iohpmctr[n]).toNat + 1 = 2 ^ s.cfg.hpmWidth →
      (s.countIn n).iohpmctr = s.iohpmctr.set n 0#64 ∧ (s.countIn n).iohpmevt[n].ovf = true ∧
      (s.iohpmevt[n].ovf = true → s.countIn n = { s with iohpmctr := s.iohpmctr.set n 0#64 }) ∧
      (s.iohpmevt[n].ovf = false → (s.countIn n).ipsr.pmip = true))

/-- `iocountovf` is a read-only view: bit 0 is the OF bit of the cycle counter and bit N that of event counter N; that is
what software reads; its own writes are ignored; an OF bit is cleared (or set) by writing it in `iohpmcycles` or
`iohpmevtN` (R638). -/
def Obligations.CountovfIsView : Prop :=
  ∀ (s : State) (v : DWord) (lowFirst : Bool),
    s.countovf.getLsbD 0 = s.iohpmcycles.ovf ∧
    (∀ n : Fin 31, s.countovf.getLsbD (n.val + 1) = s.iohpmevt[n].ovf) ∧
    (s.cfg.hpm = true → s.regRead 88 4 = s.countovf.setWidth 64) ∧
    s.regWrite 88 4 v lowFirst = s ∧
    (s.cfg.hpm = true → (s.regWrite 100 4 v lowFirst).iohpmcycles.ovf = v.getLsbD 31) ∧
    (∀ n : Fin 31, s.cfg.hpm = true → n.val < s.cfg.hpmCounters →
      (s.regWrite (352 + 8 * n.val + 4) 4 v lowFirst).iohpmevt[n].ovf = v.getLsbD 31)

/-! ### Page requests -/

/-- What a Page Request does at the queue. Off: answered Response Failure; `pqmf` set: Response Failure; `pqof` set:
Success; and nothing changes. Full: `pqof` is set, and the answer is Success. A write that meets an access fault: `pqmf`
is set, the answer is Response Failure, `pqt` stays, and no byte outside the entry changes (which of its two doublewords
reached memory is a free choice, log 7). Else it is stored as its two doublewords at `pqt` (without a PASID the record's
PID is 0, log 48), which advances, and no other byte changes. `pip` is raised, with its delivery, if `pie` is 1 (R362, R365
to R367). Stated with no access of another agent between the doublewords (log 5). -/
def Obligations.PageRequestQueueing : Prop :=
  ∀ (s : State) (m : PageRequest), s.mem.wf = true →
    let a := s.pqb.entryAddr 4 s.pqt
    ((s.pqcsr.en = false ∨ s.pqcsr.on = false) → s.pqEnqueue m = (some .responseFailure, s)) ∧
    (s.pqcsr.en = true → s.pqcsr.on = true →
      (s.pqcsr.mf = true → s.pqEnqueue m = (some .responseFailure, s)) ∧
      (s.pqcsr.mf = false → s.pqcsr.ovf = true → s.pqEnqueue m = (some .success, s)) ∧
      (s.pqcsr.mf = false → s.pqcsr.ovf = false → s.pqb.next s.pqt = s.pqh →
        let t := { s with pqcsr := { s.pqcsr with ovf := true } }
        s.pqEnqueue m = (some .success, if s.pqcsr.ie then t.raiseIp .pq else t) ∧
        (s.pqcsr.ie = true → (s.pqEnqueue m).2.ipsr.pip = true)) ∧
      (s.pqcsr.mf = false → s.pqcsr.ovf = false → s.pqb.next s.pqt ≠ s.pqh → s.others = [] →
        (∃ k, k < 2 ∧ s.accessFaults .write (a + 8 * k) 8 = true) →
        ∃ n c k,
          let t := { s with
            pqcsr := { s.pqcsr with mf := true }
            mem := n
            bus := s.bus ++ [⟨.write, a, 16, s.iommuQos⟩]
            choices := c
            freeCtr := k }
          s.pqEnqueue m = (some .responseFailure, if s.pqcsr.ie then t.raiseIp .pq else t) ∧
          (s.pqcsr.ie = true → (s.pqEnqueue m).2.ipsr.pip = true) ∧
          ∀ b, (b < a ∨ a + 16 ≤ b) → Memory.read n b = s.mem.read b) ∧
      (s.pqcsr.mf = false → s.pqcsr.ovf = false → s.pqb.next s.pqt ≠ s.pqh → s.others = [] →
        (∀ k, k < 2 → s.accessFaults .write (a + 8 * k) 8 = false) →
        ∃ n : Memory,
          let t := { s with
            pqt := s.pqb.next s.pqt
            mem := n
            bus := s.bus ++ [⟨.write, a, 16, s.iommuQos⟩] }
          s.pqEnqueue m = (none, if s.pqcsr.ie then t.raiseIp .pq else t) ∧
          (s.pqcsr.ie = true → (s.pqEnqueue m).2.ipsr.pip = true) ∧
          (∀ k, (hk : k < 2) →
            dwordAt s.fctl.be (Memory.readBytes n a 16) (8 * k)
              = m.dwords[k]'(by simpa [PageRequest.dwords] using hk)) ∧
          (∀ b, (b < a ∨ a + 16 ≤ b) → n.read b = s.mem.read b)))

/-- How a Page Request is answered. Queued: not at all. Not queued though the device may send it: the status of the queue,
without a fault record (R364). From a device without EN_PRI or EN_ATS: a record of cause 260, and Invalid Request. Where no
device context is found: a record of its cause, and Invalid Request for cause 260, Response Failure for any other (R361,
R362; D23). The step that takes the message does exactly this. No answer where none is needed (L = 0), to a Stop Marker, or
where the implementation gives none; the PASID goes with it on Response Failure, or if PRPR is 1, which is taken as 0 where
no context is found (R362, R363). The record has TTYP 9 and the message code (PRESUMED, log 15). In Off the cause is 256, in
Bare 260. A message meets no internal error (log 49). The bits of `tc` are those of R146, which the spec gives from general
knowledge (log 9). -/
def Obligations.PageRequestResponses : Prop :=
  ∀ (m : PageRequest) (s : State),
    let ids : EventIds := ⟨m.did, if m.pasidValid then some m.pasid else none, none, none⟩
    let answered (u : State) (prpr : Bool) (st : PrgStatus) : State :=
      if m.l = false ∨ (m.r = false ∧ m.w = false) ∨ s.cfg.priAutoResponse = false then u
      else u.emit (.prgAuto m.did m.prgi
        (if m.pasidValid = true ∧ (st = .responseFailure ∨ prpr = true) then some m.pasid else none) st)
    let record (c : Cause) : FaultRecord :=
      ⟨c, 9#6, m.did, m.pasidValid, if m.pasidValid then m.pasid else 0#20, m.pasidValid && m.priv, 4#64, 0#64⟩
    (∀ dc u, messageDC ids s = .ok dc u → dc.tc.getLsbD 1 = true → dc.tc.getLsbD 2 = true →
      ((u.pqEnqueue m).1 = none → servePageRequest m s = (u.pqEnqueue m).2) ∧
      (∀ st, (u.pqEnqueue m).1 = some st →
        servePageRequest m s = answered (u.pqEnqueue m).2 (dc.tc.getLsbD 6) st)) ∧
    (∀ dc u, messageDC ids s = .ok dc u → (dc.tc.getLsbD 1 = false ∨ dc.tc.getLsbD 2 = false) →
      servePageRequest m s = answered (u.takeFault (record .typeDisallowed) false (dc.tc.getLsbD 4) none)
        (dc.tc.getLsbD 6) .invalidRequest) ∧
    (∀ f u, messageDC ids s = .stop f u →
      servePageRequest m s = answered (u.takeFault (record f.cause) false f.dtf none) false
        (if f.cause = .typeDisallowed then .invalidRequest else .responseFailure)) ∧
    (s.ddtp.mode = .off → messageDC ids s = .stop ⟨.allDisallowed, 0#64, none, ids, none⟩ s) ∧
    (s.ddtp.mode = .bare → messageDC ids s = .stop ⟨.typeDisallowed, 0#64, none, ids, none⟩ s) ∧
    ∀ es, step { s with inbox := .pageRequest m :: es } = .next (servePageRequest m { s with inbox := es })

/-- What ends an outstanding ATS.INVAL. An Invalidation Completion of a device with EN_ATS removes exactly the requests it
answers: of its number, its routing id, and its segment if one was given; nothing else changes, and that is the step that
takes it (R461; the number and the routing are the model's, log 14). One of a device without EN_ATS, or without a context,
is an unsupported request: a record, and the set stays (R340, R353; log 14). A timeout removes the request if it is at least
`Cfg.ats_inval_timeout` clock cycles old, and is remembered for the next IOFENCE.C; nothing else changes (R463; log 23). A
message meets no internal error (log 49). The bits of `tc` are those of R146, which the spec gives from general knowledge
(log 9). -/
def Obligations.InvalidationOutcomes : Prop :=
  (∀ (did : BitVec 24) (n : Nat) (s u : State) (dc : DC), messageDC ⟨did, none, none, none⟩ s = .ok dc u →
    let t := serveInvalCompletion did n s
    let r : FaultRecord := ⟨.typeDisallowed, 9#6, did, false, 0#20, false, 2#64, 0#64⟩
    (dc.tc.getLsbD 1 = true → t = { u with outstanding := t.outstanding } ∧
      ∀ o, o ∈ t.outstanding ↔ o ∈ s.outstanding ∧ ¬(o.itag = n ∧ o.rid = did.extractLsb' 0 16 ∧
        (o.segment = none ∨ o.segment = some (did.extractLsb' 16 8)))) ∧
    (dc.tc.getLsbD 1 = false → t = u.takeFault r false (dc.tc.getLsbD 4) none ∧ t.outstanding = s.outstanding)) ∧
  (∀ (did : BitVec 24) (n : Nat) (s u : State) (f : Stop), messageDC ⟨did, none, none, none⟩ s = .stop f u →
    serveInvalCompletion did n s = u.takeFault ⟨f.cause, 9#6, did, false, 0#20, false, 2#64, 0#64⟩ false f.dtf none ∧
    (serveInvalCompletion did n s).outstanding = s.outstanding) ∧
  (∀ (s : State) (es : List Event) (did : BitVec 24) (n : Nat), s.inbox = .invalCompletion did n :: es →
    step s = .next (serveInvalCompletion did n { s with inbox := es })) ∧
  ∀ (s : State) (es : List Event) (n : Nat), s.inbox = .invalTimeout n :: es →
    ((∃ o ∈ s.outstanding, o.itag = n ∧ s.cfg.atsInvalTimeout ≤ o.age) →
      step s = .next { s with
        inbox := es
        outstanding := s.outstanding.filter (fun o => o.itag != n)
        timedOut := true }) ∧
    ((¬∃ o ∈ s.outstanding, o.itag = n ∧ s.cfg.atsInvalTimeout ≤ o.age) → step s = .next { s with inbox := es })

/-! ### MSI address translation -/

/-- `extract(x, y)` on the low `n` bits: each bit of `x` under a 1 of `y` lands at the position that counts the 1s of `y`
below it, and every bit above the last of them is 0 (R321). -/
def Obligations.ExtractGathersMaskedBits : Prop :=
  ∀ n x y : Nat,
    (∀ j, j < n → y.testBit j = true →
      (extractBits n x y).testBit ((List.range j).filter (fun i => y.testBit i)).length = x.testBit j) ∧
    (∀ k, ((List.range n).filter (fun i => y.testBit i)).length ≤ k → (extractBits n x y).testBit k = false)

/-- Step 18 of the process. An address is that of a virtual interrupt file exactly when the implementation has MSI_FLAT, the
MSI page table is not Off, and the page number agrees with the pattern in the bits the mask leaves (R320, R159; the places of
the fields are log 9). Then MSI translation gives the page, and with it the answer, of the memory type of the first stage
(log 11), without execute permission, and its stop is the request's; at an MRIF page the access is made at once, and the
address is a free value (R324, log 7); the second stage plays no part. At any other address the second stage gives the page,
of the smaller of the two sizes and with the permissions both give, and the first stage's memory type wins unless it is 0
(R270 steps 17 to 19, R310, R312). An ATS Translation Request takes the same path (R320, R342, R343): at an MSI page it gets
the page of a basic PTE, or, with T2GPA, the guest address (at an MRIF page without T2GPA the address is a free value, log
13), 4 KiB, no execute permission, Global 0, and "Untranslated access only" exactly at an MRIF page (R349, R350); at any
other address what the second stage gives, or the guest address. R is what both stages give, and W so far as the D bits allow
it: with No-Write, without W in both stages or where the privilege test of R348 fails none is set; else W is withheld where a
D bit is clear that its stage may not set; else the D bits that are clear are set, each by an atomic update, stated for one
(log 12), and an entry that has changed meanwhile makes the walk start again with memory alone (R216, log 34). A stop after
the first stage says what had been found of the page (R351, log 13). -/
def Obligations.MsiAddressRecognition : Prop :=
  (∀ (c : Cfg) (d : DC) (a : DWord),
    isMsiAddress c d a = true ↔ c.msiFlat = true ∧ d.msiptp.extractLsb' 60 4 ≠ 0#4 ∧
      ∀ j, j < 52 → d.msiAddrMask.getLsbD j = false → a.getLsbD (12 + j) = d.msiAddrPattern.getLsbD j) ∧
  (∀ (x : WalkCtx) (r : Request) (debug : Bool) (s : State),
    (∀ f u, firstStage x true r.iova s = .stop f u → walkStages x r debug s = .stop f u) ∧
    ∀ l1 s1, firstStage x true r.iova s = .ok l1 s1 →
      (isMsiAddress s1.cfg x.dc l1.addr = true →
        (∀ f u, msiTranslate x debug l1.addr s1 = .stop f u → walkStages x r debug s = .stop f u) ∧
        (∀ spa u, msiTranslate x debug l1.addr s1 = .ok (.basic spa) u →
          walkStages x r debug s = .ok ⟨spa, 0, l1.r, l1.w, false, l1.pbmt, x.qos, none⟩ u) ∧
        (∀ info u, msiTranslate x debug l1.addr s1 = .ok (.mrif info) u →
          (∀ f t, mrifAccess x info l1.addr r.data u = .stop f t → walkStages x r debug s = .stop f t) ∧
          (∀ t, mrifAccess x info l1.addr r.data u = .ok () t →
            ∃ a, walkStages x r debug s = .ok ⟨a, 0, l1.r, l1.w, false, l1.pbmt, x.qos, some info⟩
              { t with freeCtr := t.freeCtr + 1 }))) ∧
      (isMsiAddress s1.cfg x.dc l1.addr = false →
        (∀ f u, secondStage x .final true l1.addr s1 = .stop f u → walkStages x r debug s = .stop f u) ∧
        (∀ l2 u, secondStage x .final true l1.addr s1 = .ok l2 u →
          ∃ t, walkStages x r debug s = .ok ⟨l2.addr, min l1.span l2.span, l1.r && l2.r, l1.w && l2.w, l1.x && l2.x,
              if l1.pbmt = 0#2 then l2.pbmt else l1.pbmt, x.qos, none⟩ t ∧
            t = { u with ioatc := t.ioatc }))) ∧
  let privOk (x : WalkCtx) (l1 : Leaf) : Bool := x.fScheme == .bare || (if x.supervisor then !l1.u || x.sum else l1.u)
  (∀ (x : WalkCtx) (iova : DWord) (t2gpa : Bool) (fuel : Nat) (cached : Bool) (s : State),
    let walk := atsWalk x iova t2gpa (fuel + 1) cached s
    let again (t : State) := atsWalk x iova t2gpa fuel false t
    let found (msi : Bool) (pbmt : BitVec 2) (f : Stop) : Stop := { f with page := some ⟨msi, pbmt⟩ }
    (∀ f u, firstStage x cached iova s = .stop f u → walk = .stop f u) ∧
    ∀ l1 s1, firstStage x cached iova s = .ok l1 s1 →
      let done (w : Bool) : AtsDone :=
        { addr := l1.addr, span := 0, r := l1.r, w := w, x := false, uOnly := false, global := false, msi := true,
          pbmt := l1.pbmt, privOk := privOk x l1 }
      (isMsiAddress s1.cfg x.dc l1.addr = true →
        (∀ f u, msiTranslate x false l1.addr s1 = .stop f u → walk = .stop (found true l1.pbmt f) u) ∧
        ∀ m u, msiTranslate x false l1.addr s1 = .ok m u →
          (∀ f v, atsDirty x cached l1 true true none u = .stop f v → walk = .stop (found true l1.pbmt f) v) ∧
          (∀ v, atsDirty x cached l1 true true none u = .ok none v → walk = again v) ∧
          ∀ w v, atsDirty x cached l1 true true none u = .ok (some w) v →
            (∀ spa, m = .basic spa → walk = .ok { done w with addr := if t2gpa then l1.addr else spa } v) ∧
            ∀ info, m = .mrif info → ∃ a, (t2gpa = true → a = l1.addr) ∧
              walk = .ok { done w with addr := a, uOnly := true } { v with freeCtr := v.freeCtr + 1 }) ∧
      (isMsiAddress s1.cfg x.dc l1.addr = false →
        (∀ f u, secondStage x .final cached l1.addr s1 = .stop f u → walk = .stop (found false l1.pbmt f) u) ∧
        ∀ l2 u, secondStage x .final cached l1.addr s1 = .ok l2 u →
          let pbmt := if l1.pbmt = 0#2 then l2.pbmt else l1.pbmt
          (∀ f v, atsDirty x cached l1 l2.w l2.d l2.clean u = .stop f v → walk = .stop (found false pbmt f) v) ∧
          (∀ v, atsDirty x cached l1 l2.w l2.d l2.clean u = .ok none v → walk = again v) ∧
          ∀ w v, atsDirty x cached l1 l2.w l2.d l2.clean u = .ok (some w) v →
            walk = .ok { done w with
              addr := if t2gpa then l1.addr else l2.addr
              span := min l1.span l2.span
              r := l1.r && l2.r
              x := l1.x && l2.x
              global := l1.global
              msi := false
              pbmt := pbmt } v)) ∧
  ∀ (x : WalkCtx) (cached : Bool) (l1 : Leaf) (w2 d2 : Bool) (clean2 : Option (DWord × DWord)) (s : State),
    let dirty := atsDirty x cached l1 w2 d2 clean2 s
    let wanted := x.nw = false ∧ l1.w = true ∧ w2 = true ∧ privOk x l1 = true
    let mayDirty := (l1.d = true ∨ x.sade = true) ∧ (d2 = true ∨ x.gade = true)
    let update (be : Bool) (n : Nat) (a pte : DWord) : Prop :=
      s.others = [] → (∀ k, s.accessFaults k a.toNat n = false) → s.poisoned a.toNat n = false →
      (BitVec.ofNat 64 (ofBytes be (Memory.readBytes s.mem a.toNat n)) = pte →
        dirty = .ok (some true) { s with
          mem := Memory.writeBytes s.mem a.toNat (toBytes be n (pte ||| 0xC0#64).toNat)
          bus := s.bus ++ [⟨.atomic, a.toNat, n, x.qos⟩] }) ∧
      (BitVec.ofNat 64 (ofBytes be (Memory.readBytes s.mem a.toNat n)) ≠ pte → ∃ v, dirty = .ok none v)
    (¬wanted → dirty = .ok (some (l1.w && w2)) s) ∧
    (wanted → ¬mayDirty → dirty = .ok (some false) s) ∧
    (wanted → mayDirty →
      (l1.clean = none → clean2 = none → dirty = .ok (some true) s) ∧
      (∀ a pte, x.gScheme = .bare → l1.clean = some (a, pte) → clean2 = none → update x.sbe x.fScheme.pteSize a pte) ∧
      (∀ a pte, l1.clean = none → clean2 = some (a, pte) → update s.fctl.be x.gScheme.pteSize a pte))

/-- MSI pages. The MSI PTE, if it is read from memory, is 16 bytes at the table's address OR 16 times the interrupt file
number, and its stops come in the order access fault, corruption, not valid, misconfigured (C set, a mode that is neither 3
nor 1, MRIF mode without `capabilities.MSI_MRIF`, a reserved bit), MRIF mode for the debug interface (R538), a read for
execute; a basic PTE gives the page, an MRIF PTE the three values, and the PTE is cached (R322; the bits are those of R170
and R171, log 9; C = 1 is U16, log 31, log 42; cause 260 for a debug request that would execute is log 42). A cached MSI PTE
is used only for its own GSCID and guest page, and the tests follow as for one read; with none memory is read; any such PTE
may be used, and so may memory, by a free choice (R330, R233, R234, R232; log 6, log 7). At an MRIF page a read stops with
cause 5, and a write that is not a naturally aligned 4-byte write with cause 7 (R324; D19, log 42); a data value above 2047
is discarded; else its pending bit is set in its doubleword, no other byte changes, and, if its enable bit is 1, the notice
MSI is written; an access fault on either doubleword or on the notice is cause 264, corruption cause 271, and a pending bit
set before it stays (R172, R569; that the IOMMU makes the store and the notice, and the cause of a notice that faults, is
D9, log 11; R568; the order of the device's bytes is log 11). In basic translate mode doubleword 1 is not looked at (R170;
against the vector V85, log 10). No access of another agent in between (log 5). -/
def Obligations.MsiPageAccesses : Prop :=
  (∀ (x : WalkCtx) (debug : Bool) (a : DWord) (s : State), s.others = [] →
    let page : BitVec 52 := a.extractLsb' 12 52
    let pa := (x.dc.msiptp.extractLsb' 0 44).toNat * 4096 |||
      extractBits 52 page.toNat (x.dc.msiAddrMask.extractLsb' 0 52).toNat * 16
    let stop (c : Cause) (t : State) : Res MsiResult := .stop ⟨c, 0#64, some x.dc, x.ids, none⟩ t
    let goesOn (dw0 dw1 : DWord) (t : State) : Res MsiResult :=
      let kept := t.fill (.msi x.gscid page dw0 dw1)
      if dw0.getLsbD 0 = false then stop .msiPteNotValid t
      else if dw0.getLsbD 63 = true ∨ (dw0.extractLsb' 1 2 ≠ 3#2 ∧ dw0.extractLsb' 1 2 ≠ 1#2) then stop .msiPteMisconfigured t
      else if dw0.extractLsb' 1 2 = 3#2 then
        if dw0.extractLsb' 3 7 ≠ 0#7 ∨ dw0.extractLsb' 54 9 ≠ 0#9 then stop .msiPteMisconfigured t
        else if x.acc = .instruction then stop .instructionAccess t
        else .ok (.basic (0#8 ++ dw0.extractLsb' 10 44 ++ a.extractLsb' 0 12)) kept
      else if s.cfg.msiMrif = false ∨ dw0.extractLsb' 3 4 ≠ 0#4 ∨ dw0.extractLsb' 54 9 ≠ 0#9 ∨
          dw1.extractLsb' 54 6 ≠ 0#6 ∨ dw1.extractLsb' 61 3 ≠ 0#3 then stop .msiPteMisconfigured t
      else if debug then stop .typeDisallowed t
      else if x.acc = .instruction then stop .instructionAccess t
      else .ok (.mrif ⟨0#8 ++ dw0.extractLsb' 7 47 ++ 0#9, 0#8 ++ dw1.extractLsb' 10 44 ++ 0#12,
        0#21 ++ dw1.extractLsb' 60 1 ++ dw1.extractLsb' 0 10⟩) kept
    let memory (t : State) : Res MsiResult :=
      let t1 := t.logBus .read pa 16 x.qos
      let bytes := Memory.readBytes s.mem pa 16
      if s.accessFaults .read pa 16 then stop .msiPteLoadAccess t1
      else if s.poisoned pa 16 then stop (if s.cfg.reportsCorruption then .msiPtCorruption else .msiPteLoadAccess) t1
      else goesOn (dwordAt s.fctl.be bytes 0) (dwordAt s.fctl.be bytes 8) t1
    ((∀ dw0 dw1, IoatcEntry.msi x.gscid page dw0 dw1 ∉ s.ioatc) → msiTranslate x debug a s = memory s) ∧
    (∀ dw0 dw1, IoatcEntry.msi x.gscid page dw0 dw1 ∈ s.ioatc → ∃ k, ∀ cs, s.choices = k :: cs →
      msiTranslate x debug a s = goesOn dw0 dw1 { s with choices := cs }) ∧
    ∃ c n, let t : State := { s with choices := c, freeCtr := n }
      msiTranslate x debug a s = memory t ∨
      ∃ dw0 dw1, IoatcEntry.msi x.gscid page dw0 dw1 ∈ s.ioatc ∧ msiTranslate x debug a s = goesOn dw0 dw1 t) ∧
  ∀ (x : WalkCtx) (info : MrifInfo) (a : DWord) (data : List Byte) (s : State), s.others = [] →
    let d := ofBytesLE data
    let pa := info.mrifAddr.toNat + 16 * (d / 64)
    let pend (m : Memory) : Memory :=
      Memory.writeBytes m pa (toBytesLE 8 (ofBytesLE (Memory.readBytes m pa 8) ||| 2 ^ (d % 64)))
    let stop (c : Cause) (t : State) : Res Unit := .stop ⟨c, 0#64, some x.dc, x.ids, none⟩ t
    let corruption : Cause := if s.cfg.reportsCorruption then .mrifCorruption else .mrifAccess
    let pendFault : Option Cause :=
      if (s.cfg.amoMrif = true ∧ s.accessFaults .atomic pa 8 = true) ∨ s.accessFaults .read pa 8 = true then
        some .mrifAccess
      else if s.poisoned pa 8 then some corruption
      else if s.accessFaults .write pa 8 then some .mrifAccess
      else none
    (¬(x.acc = .write ∧ data.length = 4 ∧ a.toNat % 4 = 0) →
      mrifAccess x info a data s = .stop ⟨x.acc.accessFault, 0#64, some x.dc, x.ids, none⟩ s) ∧
    (x.acc = .write → data.length = 4 → a.toNat % 4 = 0 →
      (2047 < d → mrifAccess x info a data s = .ok () s) ∧
      (∀ c, d ≤ 2047 → pendFault = some c → ∃ t, mrifAccess x info a data s = stop c t ∧ t = { s with bus := t.bus }) ∧
      (d ≤ 2047 → pendFault = none →
        let pended (t : State) : State := { s with mem := pend s.mem, bus := t.bus }
        let enabled := (ofBytesLE (Memory.readBytes (pend s.mem) (pa + 8) 8)).testBit (d % 64)
        (s.accessFaults .read (pa + 8) 8 = true → ∃ t, mrifAccess x info a data s = stop .mrifAccess t ∧ t = pended t) ∧
        (s.accessFaults .read (pa + 8) 8 = false → s.poisoned (pa + 8) 8 = true →
          ∃ t, mrifAccess x info a data s = stop corruption t ∧ t = pended t) ∧
        (s.accessFaults .read (pa + 8) 8 = false → s.poisoned (pa + 8) 8 = false → enabled = true →
          s.accessFaults .write info.noticeAddr.toNat 4 = true →
          ∃ t, mrifAccess x info a data s = stop .mrifAccess t ∧ t = pended t) ∧
        (s.accessFaults .read (pa + 8) 8 = false → s.poisoned (pa + 8) 8 = false → enabled = false →
          ∃ t, mrifAccess x info a data s = .ok () t ∧ t = pended t) ∧
        (s.accessFaults .read (pa + 8) 8 = false → s.poisoned (pa + 8) 8 = false → enabled = true →
          s.accessFaults .write info.noticeAddr.toNat 4 = false →
          ∃ t, mrifAccess x info a data s = .ok () t ∧
            t = { s with
              mem := Memory.writeBytes (pend s.mem) info.noticeAddr.toNat
                (toBytes s.fctl.be 4 info.noticeData.toNat)
              out := s.out ++ [.noticeMsi info.noticeAddr info.noticeData]
              bus := t.bus })))

end
end

