-- ==== Sys2Proof/Laws/Cache.lean ====
section
/-! SUPPORT. The IOATC: what a free choice among cached entries can give, and which entries a lookup may use, said by their
tags. -/

namespace Sys2Proof.Machine

/-! ### The choice (R232, R238) -/

/-- A choice among no entries is none, and draws nothing; any other is none or one of them, and only the state of the free
choices changes. -/
theorem State.choose_cases {α : Type} (s : State) (cands : List α) :
    (cands = [] ∧ s.choose cands = (none, s)) ∨
    (cands ≠ [] ∧ ∃ c n, let t : State := { s with choices := c, freeCtr := n }
      s.choose cands = (none, t) ∨ ∃ e, e ∈ cands ∧ s.choose cands = (some e, t)) := by
  cases cands with
  | nil => exact .inl ⟨rfl, rfl⟩
  | cons a as =>
    refine .inr ⟨by simp, ?_⟩
    have key : ∀ (k : Nat) (t : State), ((a :: as)[k]?, t) = (none, t) ∨
        ∃ e, e ∈ a :: as ∧ ((a :: as)[k]?, t) = (some e, t) := by
      intro k t
      cases h : (a :: as)[k]? with
      | none => exact .inl rfl
      | some e => exact .inr ⟨e, List.mem_of_getElem? h, rfl⟩
    rcases hc : s.choices with _ | ⟨c, cs⟩
    · refine ⟨[], s.freeCtr + 1, ?_⟩
      have : s.choose (a :: as) =
          ((a :: as)[Config.freeChoice s.freeCtr % ((a :: as).length + 1)]?, { s with freeCtr := s.freeCtr + 1 }) := by
        simp [State.choose, State.draw, hc]
      rw [this]
      have e2 : ({ s with freeCtr := s.freeCtr + 1 } : State) = { s with choices := [], freeCtr := s.freeCtr + 1 } := by
        rw [← hc]
      rw [e2]; exact key _ _
    · refine ⟨cs, s.freeCtr, ?_⟩
      have : s.choose (a :: as) = ((a :: as)[c % ((a :: as).length + 1)]?, { s with choices := cs }) := by
        simp [State.choose, State.draw, hc]
      rw [this]; exact key _ _

/-- Every entry of a choice is taken by some number at the head of `choices`. -/
theorem State.choose_takes {α : Type} {cands : List α} {e : α} (s : State) (h : e ∈ cands) :
    ∃ k, ∀ cs, s.choices = k :: cs → s.choose cands = (some e, { s with choices := cs }) := by
  obtain ⟨k, hk, he⟩ := List.mem_iff_getElem.1 h
  refine ⟨k, fun cs hc => ?_⟩
  cases cands with
  | nil => cases h
  | cons a as =>
    have hm : k % ((a :: as).length + 1) = k := Nat.mod_eq_of_lt (by omega)
    have hs : s.choose (a :: as) = ((a :: as)[k % ((a :: as).length + 1)]?, { s with choices := cs }) := by
      simp [State.choose, State.draw, hc]
    rw [hs, hm, List.getElem?_eq_getElem hk, he]

/-! ### The candidates (R233, R234 item b, R330) -/

/-- A cached PTE is usable if it is no leaf, or has the A and D bits that the access would set (R239). -/
theorem pteUsable_iff (d : Bool) (pte : DWord) : pteUsable d pte = true ↔
    ((pte.getLsbD 1 = true ∨ pte.getLsbD 2 = true ∨ pte.getLsbD 3 = true) → pte.getLsbD 6 = true ∧
      (d = true → pte.getLsbD 7 = true ∨ pte.getLsbD 2 = false)) := by
  unfold pteUsable pteLeaf pteA pteD
  cases d <;> cases pte.getLsbD 1 <;> cases pte.getLsbD 2 <;> cases pte.getLsbD 3 <;>
    cases pte.getLsbD 6 <;> cases pte.getLsbD 7 <;> simp

/-- The second-stage entries that a lookup may use (R233, R239). -/
theorem mem_s2Candidates {s : State} {g : BitVec 16} {l : Nat} {p : BitVec 52} {d : Bool} {e : S2Entry} :
    e ∈ s.s2Candidates g l p d ↔ IoatcEntry.s2 e ∈ s.ioatc ∧ e.gscid = g ∧ e.level ≤ l ∧
      samePage e.span e.page p = true ∧ pteUsable d e.pte = true := by
  unfold State.s2Candidates
  simp only [List.mem_filterMap]
  constructor
  · rintro ⟨a, ha, h⟩
    cases a <;> simp at h
    obtain ⟨⟨h1, h2, h3, h4⟩, rfl⟩ := h
    exact ⟨ha, h1, h2, h3, h4⟩
  · rintro ⟨h, h1, h2, h3, h4⟩
    exact ⟨_, h, by simp [h1, h2, h3, h4]⟩

/-- The first-stage entries that a lookup may use (R233, R239). -/
theorem mem_s1Candidates {s : State} {g} {q : BitVec 20} {l : Nat} {p : BitVec 52} {d : Bool} {e : S1Entry} :
    e ∈ s.s1Candidates g q l p d ↔ IoatcEntry.s1 e ∈ s.ioatc ∧ e.space = g ∧ e.pscid = q ∧
      e.level ≤ l ∧ samePage e.span e.page p = true ∧ pteUsable d e.pte = true := by
  unfold State.s1Candidates
  simp only [List.mem_filterMap]
  constructor
  · rintro ⟨a, ha, h⟩
    cases a <;> simp at h
    obtain ⟨⟨h1, h2, h3, h4, h5⟩, rfl⟩ := h
    exact ⟨ha, h1, h2, h3, h4, h5⟩
  · rintro ⟨h, h1, h2, h3, h4, h5⟩
    exact ⟨_, h, by simp [h1, h2, h3, h4, h5]⟩

/-- The device contexts that a lookup may use (R233). -/
theorem mem_dcCandidates {s : State} {did : BitVec 24} {dc : DC} :
    dc ∈ s.dcCandidates did ↔ IoatcEntry.dc did dc ∈ s.ioatc := by
  unfold State.dcCandidates
  simp only [List.mem_filterMap]
  constructor
  · rintro ⟨a, ha, h⟩
    cases a <;> simp at h
    obtain ⟨rfl, rfl⟩ := h
    exact ha
  · intro h; exact ⟨_, h, by simp⟩

/-- The process contexts that a lookup may use (R233). -/
theorem mem_pcCandidates {s : State} {did : BitVec 24} {pid : BitVec 20} {pc : PC} :
    pc ∈ s.pcCandidates did pid ↔ IoatcEntry.pc did pid pc ∈ s.ioatc := by
  unfold State.pcCandidates
  simp only [List.mem_filterMap]
  constructor
  · rintro ⟨a, ha, h⟩
    cases a <;> simp at h
    obtain ⟨⟨rfl, rfl⟩, rfl⟩ := h
    exact ha
  · intro h; exact ⟨_, h, by simp⟩

/-- The non-leaf DDT entries that a lookup may use (R233). -/
theorem mem_ddtCandidates {s : State} {l : Nat} {did : BitVec 24} {e : DWord} :
    e ∈ s.ddtCandidates l did ↔
      ∃ k d, IoatcEntry.ddtNL l k d e ∈ s.ioatc ∧ d.toNat / 2 ^ k = did.toNat / 2 ^ k := by
  unfold State.ddtCandidates
  simp only [List.mem_filterMap]
  constructor
  · rintro ⟨a, ha, h⟩
    cases a <;> simp at h
    obtain ⟨⟨rfl, h2⟩, rfl⟩ := h
    exact ⟨_, _, ha, h2⟩
  · rintro ⟨k, d, h, h2⟩; exact ⟨_, h, by simp [h2]⟩

/-- The non-leaf PDT entries that a lookup may use (R233). -/
theorem mem_pdtCandidates {s : State} {did : BitVec 24} {l : Nat} {pid : BitVec 20} {e : DWord} :
    e ∈ s.pdtCandidates did l pid ↔
      ∃ k p, IoatcEntry.pdtNL did l k p e ∈ s.ioatc ∧ p.toNat / 2 ^ k = pid.toNat / 2 ^ k := by
  unfold State.pdtCandidates
  simp only [List.mem_filterMap]
  constructor
  · rintro ⟨a, ha, h⟩
    cases a <;> simp at h
    obtain ⟨⟨rfl, rfl, h2⟩, rfl⟩ := h
    exact ⟨_, _, ha, h2⟩
  · rintro ⟨k, d, h, h2⟩; exact ⟨_, h, by simp [h2]⟩

/-- The MSI PTEs that a lookup may use (R233). -/
theorem mem_msiCandidates {s : State} {g : BitVec 16} {page : BitVec 52} {d0 d1 : DWord} :
    (d0, d1) ∈ s.msiCandidates g page ↔ IoatcEntry.msi g page d0 d1 ∈ s.ioatc := by
  unfold State.msiCandidates
  simp only [List.mem_filterMap]
  constructor
  · rintro ⟨a, ha, h⟩
    cases a <;> simp at h
    obtain ⟨⟨rfl, rfl⟩, rfl, rfl⟩ := h
    exact ha
  · intro h; exact ⟨_, h, by simp⟩

end Sys2Proof.Machine
end

