-- ==== Sys2Proof/Laws/Counters.lean ====
section
/-! SUPPORT. An interrupt, with the accesses, records and messages it takes, neither reads nor writes the event counters and
their selectors: it commutes with a change of them (61_hpm.md R634, R637; 60_exceptions.md R591 to R594). -/

namespace Sys2Proof.Machine

/-- `s` with other event counters and selectors. -/
def State.withCounters (s : State) (v : Vector DWord 31) (o : Vector HpmEvt 31) : State :=
  { s with iohpmctr := v, iohpmevt := o }

variable (s : State) (v : Vector DWord 31) (o : Vector HpmEvt 31)

theorem State.commitRead_withCounters (p : PendingRead) :
    (s.withCounters v o).commitRead p = (s.commitRead p).withCounters v o := by
  unfold State.commitRead
  have h : (s.withCounters v o).accessFaults .read p.addr p.len = s.accessFaults .read p.addr p.len := rfl
  rw [h]; split <;> rfl

theorem State.deviceWrite_withCounters (a : Nat) (bs : List Byte) :
    (s.withCounters v o).deviceWrite a bs = (s.deviceWrite a bs).withCounters v o := by
  unfold State.deviceWrite
  have h : (s.withCounters v o).store a bs = s.store a bs := rfl
  rw [h]; cases s.store a bs <;> rfl

theorem State.commitWrite_withCounters (p : PendingWrite) :
    (s.withCounters v o).commitWrite p = (s.commitWrite p).withCounters v o :=
  State.deviceWrite_withCounters s v o p.addr p.data

theorem State.commitAccess_withCounters (tag : Nat) :
    (s.withCounters v o).commitAccess tag = (s.commitAccess tag).withCounters v o := by
  unfold State.commitAccess
  have h : (s.withCounters v o).uncommittedReads = s.uncommittedReads := rfl
  have k : (s.withCounters v o).uncommittedWrites = s.uncommittedWrites := rfl
  rw [h, k]
  cases s.uncommittedReads.find? (fun p => p.tag == tag) with
  | some p => exact State.commitRead_withCounters { s with uncommittedReads := s.uncommittedReads.erase p } v o p
  | none =>
    cases s.uncommittedWrites.find? (fun p => p.tag == tag) with
    | some p => exact State.commitWrite_withCounters { s with uncommittedWrites := s.uncommittedWrites.erase p } v o p
    | none => rfl

theorem State.otherAccess_withCounters (a : MemAccess) :
    (s.withCounters v o).otherAccess a = (s.otherAccess a).withCounters v o := by
  cases a with
  | read a n =>
    simp only [State.otherAccess]
    have h : (s.withCounters v o).inMainMemory a.toNat n = s.inMainMemory a.toNat n := rfl
    rw [h]; split <;> rfl
  | write a bs =>
    simp only [State.otherAccess]
    have h : (s.withCounters v o).inMainMemory a.toNat bs.length = s.inMainMemory a.toNat bs.length := rfl
    rw [h]; split <;> rfl
  | deviceWrite a bs => exact State.deviceWrite_withCounters s v o _ _
  | commit t => exact State.commitAccess_withCounters s v o t

theorem State.otherAccesses_withCounters (g : List MemAccess) :
    g.foldl State.otherAccess (s.withCounters v o) = (g.foldl State.otherAccess s).withCounters v o := by
  induction g generalizing s with
  | nil => rfl
  | cons a g ih => rw [List.foldl_cons, State.otherAccess_withCounters, ih, List.foldl_cons]

theorem State.othersAct_withCounters : (s.withCounters v o).othersAct = s.othersAct.withCounters v o := by
  unfold State.othersAct
  have h : (s.withCounters v o).others = s.others := rfl
  rw [h]
  cases s.others with
  | nil => rfl
  | cons g gs => simp only [State.otherAccesses_withCounters]; rfl

theorem State.writeUnits_withCounters (ks : List Nat) (a : Nat) (bs : List Byte) :
    State.writeUnits ks a bs (s.withCounters v o) = (State.writeUnits ks a bs s).withCounters v o := by
  induction ks generalizing a bs s with
  | nil => rfl
  | cons k ks ih =>
    unfold State.writeUnits; rw [State.othersAct_withCounters]
    exact ih { s.othersAct with mem := Memory.writeBytes s.othersAct.mem a (bs.take k) } _ _

theorem State.storeSome_withCounters (keep : Nat → Bool) (a k : Nat) (ds : List DWord) :
    State.storeSome keep a k ds (s.withCounters v o) = (State.storeSome keep a k ds s).withCounters v o := by
  induction ds generalizing a k s with
  | nil => rfl
  | cons d ds ih =>
    unfold State.storeSome
    split
    · rw [State.writeUnits_withCounters]; exact ih _ _ _
    · exact ih _ _ _

theorem State.writeMem_withCounters (a : Nat) (bs : List Byte) (q : Qos) :
    (s.withCounters v o).writeMem a bs q = ((s.writeMem a bs q).1, (s.writeMem a bs q).2.withCounters v o) := by
  unfold State.writeMem
  have h : ((s.withCounters v o).logBus .write a bs.length q) = (s.logBus .write a bs.length q).withCounters v o := rfl
  simp only [h]
  have k : ((s.logBus .write a bs.length q).withCounters v o).accessFaults .write a bs.length
    = (s.logBus .write a bs.length q).accessFaults .write a bs.length := rfl
  rw [k, State.writeUnits_withCounters]
  split <;> rfl

theorem State.draw_withCounters (n : Nat) :
    (s.withCounters v o).draw n = ((s.draw n).1, (s.draw n).2.withCounters v o) := by
  unfold State.draw
  have h : (s.withCounters v o).choices = s.choices := rfl
  rw [h]; cases s.choices <;> rfl

theorem State.storeRecord_withCounters (a : Nat) (ds : List DWord) :
    (s.withCounters v o).storeRecord a ds = ((s.storeRecord a ds).1, (s.storeRecord a ds).2.withCounters v o) := by
  unfold State.storeRecord
  have h (n : Nat) (q : Qos) : ((s.withCounters v o).logBus .write a n q) = (s.logBus .write a n q).withCounters v o := rfl
  have k (a : Nat) : (s.withCounters v o).accessFaults .write a 8 = s.accessFaults .write a 8 := rfl
  simp only [h, k, State.draw_withCounters, State.storeSome_withCounters, State.writeUnits_withCounters]
  split <;> rfl

theorem State.pushRecord_withCounters (r : FaultRecord) :
    (s.withCounters v o).pushRecord r = ((s.pushRecord r).1, (s.pushRecord r).2.withCounters v o) := by
  unfold State.pushRecord
  have h1 : (s.withCounters v o).fqcsr = s.fqcsr := rfl
  have h2 : (s.withCounters v o).fqb = s.fqb := rfl
  have h3 : (s.withCounters v o).fqt = s.fqt := rfl
  have h4 : (s.withCounters v o).fqh = s.fqh := rfl
  simp only [h1, h2, h3, h4, State.storeRecord_withCounters]
  split
  · rfl
  · split
    · rfl
    · rcases s.storeRecord (s.fqb.entryAddr 5 s.fqt) r.dwords with ⟨b, t⟩; cases b <;> rfl

theorem State.trySendMsi_withCounters (x : BitVec 4) :
    (s.withCounters v o).trySendMsi x = ((s.trySendMsi x).1, (s.trySendMsi x).2.withCounters v o) := by
  unfold State.trySendMsi
  have h : (s.withCounters v o).msiEntry x = s.msiEntry x := rfl
  have k : (s.withCounters v o).fctl = s.fctl := rfl
  have l : (s.withCounters v o).iommuQos = s.iommuQos := rfl
  simp only [h, k, l, State.writeMem_withCounters]
  split
  · rfl
  · rcases s.writeMem (s.msiEntry x).address.toNat (toBytes s.fctl.be 4 (s.msiEntry x).data.toNat) s.iommuQos with ⟨b, t⟩
    cases b <;> rfl

theorem State.raiseFip_withCounters : (s.withCounters v o).raiseFip = s.raiseFip.withCounters v o := by
  unfold State.raiseFip
  have h : ((s.withCounters v o).pend .fq) = (s.pend .fq).withCounters v o := rfl
  rw [h]
  have h1 : (s.withCounters v o).ipsr = s.ipsr := rfl
  have h2 : (s.withCounters v o).fctl = s.fctl := rfl
  have h3 : (s.withCounters v o).icvec = s.icvec := rfl
  rw [h1, h2, h3, State.trySendMsi_withCounters]
  split
  · rfl
  · split
    · rfl
    · rcases (s.pend .fq).trySendMsi s.icvec.fiv with ⟨b, t⟩
      cases b with
      | none => rfl
      | some a => simp only [State.pushRecord_withCounters]

theorem State.report_withCounters (r : FaultRecord) :
    (s.withCounters v o).report r = (s.report r).withCounters v o := by
  unfold State.report
  rw [State.pushRecord_withCounters]
  rcases s.pushRecord r with ⟨b, t⟩
  cases b with
  | false => rfl
  | true =>
    show (if t.fqcsr.ie then (t.withCounters v o).raiseFip else t.withCounters v o) = _
    rw [State.raiseFip_withCounters]; exact (apply_ite (State.withCounters · v o) _ _ _).symm

theorem State.sendMsi_withCounters (x : BitVec 4) :
    (s.withCounters v o).sendMsi x = (s.sendMsi x).withCounters v o := by
  unfold State.sendMsi
  rw [State.trySendMsi_withCounters]
  rcases s.trySendMsi x with ⟨b, t⟩
  cases b with
  | none => rfl
  | some a => exact State.report_withCounters t v o _

/-- An interrupt neither reads nor writes the event counters and their selectors. -/
theorem State.raiseIp_withCounters (b : IntSource) :
    (s.withCounters v o).raiseIp b = (s.raiseIp b).withCounters v o := by
  unfold State.raiseIp
  have h1 : (s.withCounters v o).ipsr = s.ipsr := rfl
  have h2 : (s.withCounters v o).fctl = s.fctl := rfl
  have h3 : (s.withCounters v o).icvec = s.icvec := rfl
  have h : ((s.withCounters v o).pend b) = (s.pend b).withCounters v o := rfl
  rw [h1, h2, h3, h, State.sendMsi_withCounters]
  split
  · rfl
  · exact (apply_ite (State.withCounters · v o) _ _ _).symm

end Sys2Proof.Machine
end

