-- ==== Sys2Proof/Laws/Memory.lean ====
section
/-! SUPPORT. Memory: a write is read back, leaves every other byte alone, and keeps the canonical form (20_memory.md
R201; log 3). -/

namespace Sys2Proof

theorem Memory.wfAbove_weaken {l : Nat} {m : Memory} (h : Memory.wfAbove (some l) m = true) :
    Memory.wfAbove none m = true := by
  cases m with
  | nil => rfl
  | cons c m => obtain ⟨k, b⟩ := c; simp_all [Memory.wfAbove]

theorem Memory.wfAbove_mono {l l' : Nat} {m : Memory} (hl : l' ≤ l) (h : Memory.wfAbove (some l) m = true) :
    Memory.wfAbove (some l') m = true := by
  cases m with
  | nil => rfl
  | cons c m => obtain ⟨k, b⟩ := c; simp_all [Memory.wfAbove]; omega

/-- A write above a bound keeps the form above that bound. -/
theorem Memory.wfAbove_write (lo : Option Nat) (m : Memory) (a : Nat) (v : Byte)
    (hlo : ∀ l, lo = some l → l < a) (h : Memory.wfAbove lo m = true) :
    Memory.wfAbove lo (Memory.write m a v) = true := by
  induction m generalizing lo with
  | nil =>
    simp only [Memory.write]
    split
    · rfl
    · cases lo <;> simp_all [Memory.wfAbove]
  | cons c m ih =>
    obtain ⟨k, b⟩ := c
    have hk : Memory.wfAbove (some k) m = true := by simp_all [Memory.wfAbove]
    simp only [Memory.write]
    split
    · split
      · exact h
      · cases lo <;> simp_all [Memory.wfAbove]
    · split
      · subst_vars
        split
        · cases lo with
          | none => exact Memory.wfAbove_weaken hk
          | some l => exact Memory.wfAbove_mono (by have := hlo l rfl; omega) hk
        · cases lo <;> simp_all [Memory.wfAbove]
      · have hr := ih (some k) (fun l hl => by cases hl; omega) hk
        cases lo <;> simp_all [Memory.wfAbove]

/-- A write keeps the canonical form. -/
theorem Memory.wf_write {m : Memory} (h : m.wf = true) (a : Nat) (v : Byte) : (Memory.write m a v).wf = true :=
  Memory.wfAbove_write none m a v (fun _ hl => by cases hl) h

/-- Storing bytes keeps the canonical form. -/
theorem Memory.wf_writeBytes {m : Memory} (h : m.wf = true) (a : Nat) (bs : List Byte) :
    (Memory.writeBytes m a bs).wf = true := by
  induction bs generalizing m a with
  | nil => exact h
  | cons b bs ih => exact ih (Memory.wf_write h a b) (a + 1)

theorem Memory.read_of_above {l a : Nat} {m : Memory} (h : Memory.wfAbove (some l) m = true) (ha : a ≤ l) :
    Memory.read m a = Memory.blank := by
  induction m generalizing l with
  | nil => rfl
  | cons c m ih =>
    obtain ⟨k, b⟩ := c
    simp only [Memory.wfAbove, Bool.and_eq_true, decide_eq_true_eq] at h
    simp only [Memory.read]
    rw [if_neg (by omega)]
    exact ih h.2 (by omega)

/-- A write leaves every other byte alone. -/
theorem Memory.read_write_other {m : Memory} {a b : Nat} (hab : b ≠ a) (v : Byte) :
    Memory.read (Memory.write m a v) b = Memory.read m b := by
  induction m with
  | nil => simp only [Memory.write]; split <;> simp [Memory.read, hab]
  | cons c m ih =>
    obtain ⟨k, x⟩ := c
    simp only [Memory.write]
    split
    · split <;> simp [Memory.read, hab]
    · split
      · subst_vars; split <;> simp [Memory.read, hab]
      · simp [Memory.read, ih]

theorem Memory.read_write_same_above (lo : Option Nat) {m : Memory} (h : Memory.wfAbove lo m = true) (a : Nat) (v : Byte) :
    Memory.read (Memory.write m a v) a = v := by
  induction m generalizing lo with
  | nil => simp only [Memory.write]; split <;> simp_all [Memory.read]
  | cons c m ih =>
    obtain ⟨k, x⟩ := c
    have hk : Memory.wfAbove (some k) m = true := by simp_all [Memory.wfAbove]
    simp only [Memory.write]
    split
    · split
      · have : Memory.read m a = Memory.blank := Memory.read_of_above hk (by omega)
        simp only [Memory.read]; rw [if_neg (by omega), this]; simp_all
      · simp [Memory.read]
    · split
      · subst_vars
        split
        · simp_all [Memory.read_of_above hk]
        · simp [Memory.read]
      · simp only [Memory.read]; rw [if_neg (by assumption)]; exact ih (some k) hk

/-- A write is read back. -/
theorem Memory.read_write_same {m : Memory} (h : m.wf = true) (a : Nat) (v : Byte) :
    Memory.read (Memory.write m a v) a = v :=
  Memory.read_write_same_above none h a v

/-- Storing bytes leaves every byte outside them alone. -/
theorem Memory.read_writeBytes_outside {m : Memory} {a b : Nat} {bs : List Byte} (hb : b < a ∨ a + bs.length ≤ b) :
    Memory.read (Memory.writeBytes m a bs) b = Memory.read m b := by
  induction bs generalizing m a with
  | nil => rfl
  | cons x bs ih =>
    simp only [Memory.writeBytes]
    simp only [List.length_cons] at hb
    rw [ih (by omega), Memory.read_write_other (by omega)]

/-- Stored bytes are read back. -/
theorem Memory.readBytes_writeBytes {m : Memory} (h : m.wf = true) (a : Nat) (bs : List Byte) :
    Memory.readBytes (Memory.writeBytes m a bs) a bs.length = bs := by
  induction bs generalizing m a with
  | nil => rfl
  | cons x bs ih =>
    simp only [Memory.writeBytes, List.length_cons, Memory.readBytes]
    rw [ih (Memory.wf_write h a x), Memory.read_writeBytes_outside (by omega), Memory.read_write_same h]

@[simp] theorem Memory.length_readBytes (m : Memory) (a n : Nat) : (Memory.readBytes m a n).length = n := by
  induction n generalizing a with
  | zero => rfl
  | succ n ih => simp [Memory.readBytes, ih]

@[simp] theorem toBytesLE_length (n v : Nat) : (toBytesLE n v).length = n := by
  induction n generalizing v with
  | zero => rfl
  | succ n ih => simp [toBytesLE, ih]

@[simp] theorem toBytes_length (be : Bool) (n v : Nat) : (toBytes be n v).length = n := by
  cases be <;> simp [toBytes]

theorem ofBytesLE_toBytesLE (n v : Nat) : ofBytesLE (toBytesLE n v) = v % 256 ^ n := by
  induction n generalizing v with
  | zero => simp [toBytesLE, ofBytesLE, Nat.mod_one]
  | succ n ih =>
    have h8 : (BitVec.ofNat 8 v).toNat = v % 256 := BitVec.toNat_ofNat v 8
    rw [toBytesLE, ofBytesLE, ih, h8, Nat.pow_succ, Nat.mul_comm (256 ^ n), Nat.mod_mul]

/-- Bytes laid out in a byte order give the number back (R203). -/
theorem ofBytes_toBytes (be : Bool) (n v : Nat) : ofBytes be (toBytes be n v) = v % 256 ^ n := by
  cases be <;> simp [ofBytes, toBytes, ofBytesLE_toBytesLE]

end Sys2Proof
end

