-- ==== Sys2Proof/Laws/PerInstr.lean ====
section
/-! SUPPORT. Statements made per command. The family `F`: the word of a command carries in its bits 9:0 the func3 and
opcode of its row of R382 and R383, whatever its operands. -/

namespace Sys2Proof.Laws.F

/-- The func3 and opcode of R382 and R383, as bits 9:0 of the word. -/
def op : Instr → BitVec 10
  | .iotinvalVma _ _ _ _ _ _ _ _ => 0x001#10
  | .iotinvalGvma _ _ _ _ _ _ _ _ => 0x081#10
  | .iofenceC _ _ _ _ _ _ => 0x002#10
  | .iodirInvalDdt _ _ _ => 0x003#10
  | .iodirInvalPdt _ _ _ => 0x083#10
  | .atsInval _ _ _ _ _ _ => 0x004#10
  | .atsPrgr _ _ _ _ _ _ => 0x084#10

/-- The word's bits 9:0 are the command's own. -/
def Statement (i : Instr) : Prop := opField (encode i) = op i

theorem low_append {n : Nat} (x : BitVec n) (y : BitVec 10) : (x ++ y).extractLsb' 0 10 = y := by
  apply BitVec.eq_of_getLsbD_eq
  intro i hi
  rw [BitVec.getLsbD_extractLsb', BitVec.getLsbD_append]
  simp [hi]

theorem iotinvalVma (av pscv gv nl sBit : Bool) (pscid : BitVec 20) (gscid : BitVec 16) (addr : BitVec 52) :
    Statement (.iotinvalVma av pscv gv nl sBit pscid gscid addr) := low_append _ _

theorem iotinvalGvma (av pscv gv nl sBit : Bool) (pscid : BitVec 20) (gscid : BitVec 16) (addr : BitVec 52) :
    Statement (.iotinvalGvma av pscv gv nl sBit pscid gscid addr) := low_append _ _

theorem iofenceC (av wsi pr pw : Bool) (data : BitVec 32) (addr : BitVec 62) :
    Statement (.iofenceC av wsi pr pw data addr) := low_append _ _

theorem iodirInvalDdt (dv : Bool) (pid : BitVec 20) (did : BitVec 24) :
    Statement (.iodirInvalDdt dv pid did) := low_append _ _

theorem iodirInvalPdt (dv : Bool) (pid : BitVec 20) (did : BitVec 24) :
    Statement (.iodirInvalPdt dv pid did) := low_append _ _

theorem atsInval (pv dsv : Bool) (pid : BitVec 20) (rid : BitVec 16) (dseg : BitVec 8) (payload : DWord) :
    Statement (.atsInval pv dsv pid rid dseg payload) := low_append _ _

theorem atsPrgr (pv dsv : Bool) (pid : BitVec 20) (rid : BitVec 16) (dseg : BitVec 8) (payload : DWord) :
    Statement (.atsPrgr pv dsv pid rid dseg payload) := low_append _ _

end Sys2Proof.Laws.F
end

