-- ==== Sys2Proof/Laws/State.lean ====
section
/-! SUPPORT. Each named update of the state, field by field: what it writes and what it keeps. -/

namespace Sys2Proof.Machine

@[simp] theorem State.logBus_cfg (s : State) (k : AccessKind) (a n : Nat) (q : Qos) : (s.logBus k a n q).cfg = s.cfg := rfl
@[simp] theorem State.logBus_plat (s : State) (k : AccessKind) (a n : Nat) (q : Qos) : (s.logBus k a n q).plat = s.plat := rfl
@[simp] theorem State.logBus_fctl (s : State) (k : AccessKind) (a n : Nat) (q : Qos) : (s.logBus k a n q).fctl = s.fctl := rfl
@[simp] theorem State.logBus_ddtp (s : State) (k : AccessKind) (a n : Nat) (q : Qos) : (s.logBus k a n q).ddtp = s.ddtp := rfl
@[simp] theorem State.logBus_cqb (s : State) (k : AccessKind) (a n : Nat) (q : Qos) : (s.logBus k a n q).cqb = s.cqb := rfl
@[simp] theorem State.logBus_cqh (s : State) (k : AccessKind) (a n : Nat) (q : Qos) : (s.logBus k a n q).cqh = s.cqh := rfl
@[simp] theorem State.logBus_cqt (s : State) (k : AccessKind) (a n : Nat) (q : Qos) : (s.logBus k a n q).cqt = s.cqt := rfl
@[simp] theorem State.logBus_fqb (s : State) (k : AccessKind) (a n : Nat) (q : Qos) : (s.logBus k a n q).fqb = s.fqb := rfl
@[simp] theorem State.logBus_fqh (s : State) (k : AccessKind) (a n : Nat) (q : Qos) : (s.logBus k a n q).fqh = s.fqh := rfl
@[simp] theorem State.logBus_fqt (s : State) (k : AccessKind) (a n : Nat) (q : Qos) : (s.logBus k a n q).fqt = s.fqt := rfl
@[simp] theorem State.logBus_pqb (s : State) (k : AccessKind) (a n : Nat) (q : Qos) : (s.logBus k a n q).pqb = s.pqb := rfl
@[simp] theorem State.logBus_pqh (s : State) (k : AccessKind) (a n : Nat) (q : Qos) : (s.logBus k a n q).pqh = s.pqh := rfl
@[simp] theorem State.logBus_pqt (s : State) (k : AccessKind) (a n : Nat) (q : Qos) : (s.logBus k a n q).pqt = s.pqt := rfl
@[simp] theorem State.logBus_cqcsr (s : State) (k : AccessKind) (a n : Nat) (q : Qos) : (s.logBus k a n q).cqcsr = s.cqcsr := rfl
@[simp] theorem State.logBus_fqcsr (s : State) (k : AccessKind) (a n : Nat) (q : Qos) : (s.logBus k a n q).fqcsr = s.fqcsr := rfl
@[simp] theorem State.logBus_pqcsr (s : State) (k : AccessKind) (a n : Nat) (q : Qos) : (s.logBus k a n q).pqcsr = s.pqcsr := rfl
@[simp] theorem State.logBus_ipsr (s : State) (k : AccessKind) (a n : Nat) (q : Qos) : (s.logBus k a n q).ipsr = s.ipsr := rfl
@[simp] theorem State.logBus_iocountinh (s : State) (k : AccessKind) (a n : Nat) (q : Qos) : (s.logBus k a n q).iocountinh = s.iocountinh := rfl
@[simp] theorem State.logBus_iohpmcycles (s : State) (k : AccessKind) (a n : Nat) (q : Qos) : (s.logBus k a n q).iohpmcycles = s.iohpmcycles := rfl
@[simp] theorem State.logBus_iohpmctr (s : State) (k : AccessKind) (a n : Nat) (q : Qos) : (s.logBus k a n q).iohpmctr = s.iohpmctr := rfl
@[simp] theorem State.logBus_iohpmevt (s : State) (k : AccessKind) (a n : Nat) (q : Qos) : (s.logBus k a n q).iohpmevt = s.iohpmevt := rfl
@[simp] theorem State.logBus_trReqIova (s : State) (k : AccessKind) (a n : Nat) (q : Qos) : (s.logBus k a n q).trReqIova = s.trReqIova := rfl
@[simp] theorem State.logBus_trReqCtl (s : State) (k : AccessKind) (a n : Nat) (q : Qos) : (s.logBus k a n q).trReqCtl = s.trReqCtl := rfl
@[simp] theorem State.logBus_trResponse (s : State) (k : AccessKind) (a n : Nat) (q : Qos) : (s.logBus k a n q).trResponse = s.trResponse := rfl
@[simp] theorem State.logBus_qosid (s : State) (k : AccessKind) (a n : Nat) (q : Qos) : (s.logBus k a n q).qosid = s.qosid := rfl
@[simp] theorem State.logBus_icvec (s : State) (k : AccessKind) (a n : Nat) (q : Qos) : (s.logBus k a n q).icvec = s.icvec := rfl
@[simp] theorem State.logBus_msiCfg (s : State) (k : AccessKind) (a n : Nat) (q : Qos) : (s.logBus k a n q).msiCfg = s.msiCfg := rfl
@[simp] theorem State.logBus_ioatc (s : State) (k : AccessKind) (a n : Nat) (q : Qos) : (s.logBus k a n q).ioatc = s.ioatc := rfl
@[simp] theorem State.logBus_outstanding (s : State) (k : AccessKind) (a n : Nat) (q : Qos) : (s.logBus k a n q).outstanding = s.outstanding := rfl
@[simp] theorem State.logBus_timedOut (s : State) (k : AccessKind) (a n : Nat) (q : Qos) : (s.logBus k a n q).timedOut = s.timedOut := rfl
@[simp] theorem State.logBus_fetched (s : State) (k : AccessKind) (a n : Nat) (q : Qos) : (s.logBus k a n q).fetched = s.fetched := rfl
@[simp] theorem State.logBus_msiPending (s : State) (k : AccessKind) (a n : Nat) (q : Qos) : (s.logBus k a n q).msiPending = s.msiPending := rfl
@[simp] theorem State.logBus_uncommittedReads (s : State) (k : AccessKind) (a n : Nat) (q : Qos) : (s.logBus k a n q).uncommittedReads = s.uncommittedReads := rfl
@[simp] theorem State.logBus_uncommittedWrites (s : State) (k : AccessKind) (a n : Nat) (q : Qos) : (s.logBus k a n q).uncommittedWrites = s.uncommittedWrites := rfl
@[simp] theorem State.logBus_mem (s : State) (k : AccessKind) (a n : Nat) (q : Qos) : (s.logBus k a n q).mem = s.mem := rfl
@[simp] theorem State.logBus_inbox (s : State) (k : AccessKind) (a n : Nat) (q : Qos) : (s.logBus k a n q).inbox = s.inbox := rfl
@[simp] theorem State.logBus_halfReads (s : State) (k : AccessKind) (a n : Nat) (q : Qos) : (s.logBus k a n q).halfReads = s.halfReads := rfl
@[simp] theorem State.logBus_others (s : State) (k : AccessKind) (a n : Nat) (q : Qos) : (s.logBus k a n q).others = s.others := rfl
@[simp] theorem State.logBus_out (s : State) (k : AccessKind) (a n : Nat) (q : Qos) : (s.logBus k a n q).out = s.out := rfl
@[simp] theorem State.logBus_bus (s : State) (k : AccessKind) (a n : Nat) (q : Qos) : (s.logBus k a n q).bus = s.bus ++ [⟨k, a, n, q⟩] := rfl
@[simp] theorem State.logBus_itag (s : State) (k : AccessKind) (a n : Nat) (q : Qos) : (s.logBus k a n q).itag = s.itag := rfl
@[simp] theorem State.logBus_choices (s : State) (k : AccessKind) (a n : Nat) (q : Qos) : (s.logBus k a n q).choices = s.choices := rfl
@[simp] theorem State.logBus_freeCtr (s : State) (k : AccessKind) (a n : Nat) (q : Qos) : (s.logBus k a n q).freeCtr = s.freeCtr := rfl
@[simp] theorem State.logBus_walked (s : State) (k : AccessKind) (a n : Nat) (q : Qos) : (s.logBus k a n q).walked = s.walked := rfl

@[simp] theorem State.emit_cfg (s : State) (o : Output) : (s.emit o).cfg = s.cfg := rfl
@[simp] theorem State.emit_plat (s : State) (o : Output) : (s.emit o).plat = s.plat := rfl
@[simp] theorem State.emit_fctl (s : State) (o : Output) : (s.emit o).fctl = s.fctl := rfl
@[simp] theorem State.emit_ddtp (s : State) (o : Output) : (s.emit o).ddtp = s.ddtp := rfl
@[simp] theorem State.emit_cqb (s : State) (o : Output) : (s.emit o).cqb = s.cqb := rfl
@[simp] theorem State.emit_cqh (s : State) (o : Output) : (s.emit o).cqh = s.cqh := rfl
@[simp] theorem State.emit_cqt (s : State) (o : Output) : (s.emit o).cqt = s.cqt := rfl
@[simp] theorem State.emit_fqb (s : State) (o : Output) : (s.emit o).fqb = s.fqb := rfl
@[simp] theorem State.emit_fqh (s : State) (o : Output) : (s.emit o).fqh = s.fqh := rfl
@[simp] theorem State.emit_fqt (s : State) (o : Output) : (s.emit o).fqt = s.fqt := rfl
@[simp] theorem State.emit_pqb (s : State) (o : Output) : (s.emit o).pqb = s.pqb := rfl
@[simp] theorem State.emit_pqh (s : State) (o : Output) : (s.emit o).pqh = s.pqh := rfl
@[simp] theorem State.emit_pqt (s : State) (o : Output) : (s.emit o).pqt = s.pqt := rfl
@[simp] theorem State.emit_cqcsr (s : State) (o : Output) : (s.emit o).cqcsr = s.cqcsr := rfl
@[simp] theorem State.emit_fqcsr (s : State) (o : Output) : (s.emit o).fqcsr = s.fqcsr := rfl
@[simp] theorem State.emit_pqcsr (s : State) (o : Output) : (s.emit o).pqcsr = s.pqcsr := rfl
@[simp] theorem State.emit_ipsr (s : State) (o : Output) : (s.emit o).ipsr = s.ipsr := rfl
@[simp] theorem State.emit_iocountinh (s : State) (o : Output) : (s.emit o).iocountinh = s.iocountinh := rfl
@[simp] theorem State.emit_iohpmcycles (s : State) (o : Output) : (s.emit o).iohpmcycles = s.iohpmcycles := rfl
@[simp] theorem State.emit_iohpmctr (s : State) (o : Output) : (s.emit o).iohpmctr = s.iohpmctr := rfl
@[simp] theorem State.emit_iohpmevt (s : State) (o : Output) : (s.emit o).iohpmevt = s.iohpmevt := rfl
@[simp] theorem State.emit_trReqIova (s : State) (o : Output) : (s.emit o).trReqIova = s.trReqIova := rfl
@[simp] theorem State.emit_trReqCtl (s : State) (o : Output) : (s.emit o).trReqCtl = s.trReqCtl := rfl
@[simp] theorem State.emit_trResponse (s : State) (o : Output) : (s.emit o).trResponse = s.trResponse := rfl
@[simp] theorem State.emit_qosid (s : State) (o : Output) : (s.emit o).qosid = s.qosid := rfl
@[simp] theorem State.emit_icvec (s : State) (o : Output) : (s.emit o).icvec = s.icvec := rfl
@[simp] theorem State.emit_msiCfg (s : State) (o : Output) : (s.emit o).msiCfg = s.msiCfg := rfl
@[simp] theorem State.emit_ioatc (s : State) (o : Output) : (s.emit o).ioatc = s.ioatc := rfl
@[simp] theorem State.emit_outstanding (s : State) (o : Output) : (s.emit o).outstanding = s.outstanding := rfl
@[simp] theorem State.emit_timedOut (s : State) (o : Output) : (s.emit o).timedOut = s.timedOut := rfl
@[simp] theorem State.emit_fetched (s : State) (o : Output) : (s.emit o).fetched = s.fetched := rfl
@[simp] theorem State.emit_msiPending (s : State) (o : Output) : (s.emit o).msiPending = s.msiPending := rfl
@[simp] theorem State.emit_uncommittedReads (s : State) (o : Output) : (s.emit o).uncommittedReads = s.uncommittedReads := rfl
@[simp] theorem State.emit_uncommittedWrites (s : State) (o : Output) : (s.emit o).uncommittedWrites = s.uncommittedWrites := rfl
@[simp] theorem State.emit_mem (s : State) (o : Output) : (s.emit o).mem = s.mem := rfl
@[simp] theorem State.emit_inbox (s : State) (o : Output) : (s.emit o).inbox = s.inbox := rfl
@[simp] theorem State.emit_halfReads (s : State) (o : Output) : (s.emit o).halfReads = s.halfReads := rfl
@[simp] theorem State.emit_others (s : State) (o : Output) : (s.emit o).others = s.others := rfl
@[simp] theorem State.emit_out (s : State) (o : Output) : (s.emit o).out = s.out ++ [o] := rfl
@[simp] theorem State.emit_bus (s : State) (o : Output) : (s.emit o).bus = s.bus := rfl
@[simp] theorem State.emit_itag (s : State) (o : Output) : (s.emit o).itag = s.itag := rfl
@[simp] theorem State.emit_choices (s : State) (o : Output) : (s.emit o).choices = s.choices := rfl
@[simp] theorem State.emit_freeCtr (s : State) (o : Output) : (s.emit o).freeCtr = s.freeCtr := rfl
@[simp] theorem State.emit_walked (s : State) (o : Output) : (s.emit o).walked = s.walked := rfl

@[simp] theorem State.pend_cfg (s : State) (b : IntSource) : (s.pend b).cfg = s.cfg := rfl
@[simp] theorem State.pend_plat (s : State) (b : IntSource) : (s.pend b).plat = s.plat := rfl
@[simp] theorem State.pend_fctl (s : State) (b : IntSource) : (s.pend b).fctl = s.fctl := rfl
@[simp] theorem State.pend_ddtp (s : State) (b : IntSource) : (s.pend b).ddtp = s.ddtp := rfl
@[simp] theorem State.pend_cqb (s : State) (b : IntSource) : (s.pend b).cqb = s.cqb := rfl
@[simp] theorem State.pend_cqh (s : State) (b : IntSource) : (s.pend b).cqh = s.cqh := rfl
@[simp] theorem State.pend_cqt (s : State) (b : IntSource) : (s.pend b).cqt = s.cqt := rfl
@[simp] theorem State.pend_fqb (s : State) (b : IntSource) : (s.pend b).fqb = s.fqb := rfl
@[simp] theorem State.pend_fqh (s : State) (b : IntSource) : (s.pend b).fqh = s.fqh := rfl
@[simp] theorem State.pend_fqt (s : State) (b : IntSource) : (s.pend b).fqt = s.fqt := rfl
@[simp] theorem State.pend_pqb (s : State) (b : IntSource) : (s.pend b).pqb = s.pqb := rfl
@[simp] theorem State.pend_pqh (s : State) (b : IntSource) : (s.pend b).pqh = s.pqh := rfl
@[simp] theorem State.pend_pqt (s : State) (b : IntSource) : (s.pend b).pqt = s.pqt := rfl
@[simp] theorem State.pend_cqcsr (s : State) (b : IntSource) : (s.pend b).cqcsr = s.cqcsr := rfl
@[simp] theorem State.pend_fqcsr (s : State) (b : IntSource) : (s.pend b).fqcsr = s.fqcsr := rfl
@[simp] theorem State.pend_pqcsr (s : State) (b : IntSource) : (s.pend b).pqcsr = s.pqcsr := rfl
@[simp] theorem State.pend_ipsr (s : State) (b : IntSource) : (s.pend b).ipsr = s.ipsr.pend b := rfl
@[simp] theorem State.pend_iocountinh (s : State) (b : IntSource) : (s.pend b).iocountinh = s.iocountinh := rfl
@[simp] theorem State.pend_iohpmcycles (s : State) (b : IntSource) : (s.pend b).iohpmcycles = s.iohpmcycles := rfl
@[simp] theorem State.pend_iohpmctr (s : State) (b : IntSource) : (s.pend b).iohpmctr = s.iohpmctr := rfl
@[simp] theorem State.pend_iohpmevt (s : State) (b : IntSource) : (s.pend b).iohpmevt = s.iohpmevt := rfl
@[simp] theorem State.pend_trReqIova (s : State) (b : IntSource) : (s.pend b).trReqIova = s.trReqIova := rfl
@[simp] theorem State.pend_trReqCtl (s : State) (b : IntSource) : (s.pend b).trReqCtl = s.trReqCtl := rfl
@[simp] theorem State.pend_trResponse (s : State) (b : IntSource) : (s.pend b).trResponse = s.trResponse := rfl
@[simp] theorem State.pend_qosid (s : State) (b : IntSource) : (s.pend b).qosid = s.qosid := rfl
@[simp] theorem State.pend_icvec (s : State) (b : IntSource) : (s.pend b).icvec = s.icvec := rfl
@[simp] theorem State.pend_msiCfg (s : State) (b : IntSource) : (s.pend b).msiCfg = s.msiCfg := rfl
@[simp] theorem State.pend_ioatc (s : State) (b : IntSource) : (s.pend b).ioatc = s.ioatc := rfl
@[simp] theorem State.pend_outstanding (s : State) (b : IntSource) : (s.pend b).outstanding = s.outstanding := rfl
@[simp] theorem State.pend_timedOut (s : State) (b : IntSource) : (s.pend b).timedOut = s.timedOut := rfl
@[simp] theorem State.pend_fetched (s : State) (b : IntSource) : (s.pend b).fetched = s.fetched := rfl
@[simp] theorem State.pend_msiPending (s : State) (b : IntSource) : (s.pend b).msiPending = s.msiPending := rfl
@[simp] theorem State.pend_uncommittedReads (s : State) (b : IntSource) : (s.pend b).uncommittedReads = s.uncommittedReads := rfl
@[simp] theorem State.pend_uncommittedWrites (s : State) (b : IntSource) : (s.pend b).uncommittedWrites = s.uncommittedWrites := rfl
@[simp] theorem State.pend_mem (s : State) (b : IntSource) : (s.pend b).mem = s.mem := rfl
@[simp] theorem State.pend_inbox (s : State) (b : IntSource) : (s.pend b).inbox = s.inbox := rfl
@[simp] theorem State.pend_halfReads (s : State) (b : IntSource) : (s.pend b).halfReads = s.halfReads := rfl
@[simp] theorem State.pend_others (s : State) (b : IntSource) : (s.pend b).others = s.others := rfl
@[simp] theorem State.pend_out (s : State) (b : IntSource) : (s.pend b).out = s.out := rfl
@[simp] theorem State.pend_bus (s : State) (b : IntSource) : (s.pend b).bus = s.bus := rfl
@[simp] theorem State.pend_itag (s : State) (b : IntSource) : (s.pend b).itag = s.itag := rfl
@[simp] theorem State.pend_choices (s : State) (b : IntSource) : (s.pend b).choices = s.choices := rfl
@[simp] theorem State.pend_freeCtr (s : State) (b : IntSource) : (s.pend b).freeCtr = s.freeCtr := rfl
@[simp] theorem State.pend_walked (s : State) (b : IntSource) : (s.pend b).walked = s.walked := rfl

@[simp] theorem State.evict_cfg (s : State) (n : Nat) : (s.evict n).cfg = s.cfg := rfl
@[simp] theorem State.evict_plat (s : State) (n : Nat) : (s.evict n).plat = s.plat := rfl
@[simp] theorem State.evict_fctl (s : State) (n : Nat) : (s.evict n).fctl = s.fctl := rfl
@[simp] theorem State.evict_ddtp (s : State) (n : Nat) : (s.evict n).ddtp = s.ddtp := rfl
@[simp] theorem State.evict_cqb (s : State) (n : Nat) : (s.evict n).cqb = s.cqb := rfl
@[simp] theorem State.evict_cqh (s : State) (n : Nat) : (s.evict n).cqh = s.cqh := rfl
@[simp] theorem State.evict_cqt (s : State) (n : Nat) : (s.evict n).cqt = s.cqt := rfl
@[simp] theorem State.evict_fqb (s : State) (n : Nat) : (s.evict n).fqb = s.fqb := rfl
@[simp] theorem State.evict_fqh (s : State) (n : Nat) : (s.evict n).fqh = s.fqh := rfl
@[simp] theorem State.evict_fqt (s : State) (n : Nat) : (s.evict n).fqt = s.fqt := rfl
@[simp] theorem State.evict_pqb (s : State) (n : Nat) : (s.evict n).pqb = s.pqb := rfl
@[simp] theorem State.evict_pqh (s : State) (n : Nat) : (s.evict n).pqh = s.pqh := rfl
@[simp] theorem State.evict_pqt (s : State) (n : Nat) : (s.evict n).pqt = s.pqt := rfl
@[simp] theorem State.evict_cqcsr (s : State) (n : Nat) : (s.evict n).cqcsr = s.cqcsr := rfl
@[simp] theorem State.evict_fqcsr (s : State) (n : Nat) : (s.evict n).fqcsr = s.fqcsr := rfl
@[simp] theorem State.evict_pqcsr (s : State) (n : Nat) : (s.evict n).pqcsr = s.pqcsr := rfl
@[simp] theorem State.evict_ipsr (s : State) (n : Nat) : (s.evict n).ipsr = s.ipsr := rfl
@[simp] theorem State.evict_iocountinh (s : State) (n : Nat) : (s.evict n).iocountinh = s.iocountinh := rfl
@[simp] theorem State.evict_iohpmcycles (s : State) (n : Nat) : (s.evict n).iohpmcycles = s.iohpmcycles := rfl
@[simp] theorem State.evict_iohpmctr (s : State) (n : Nat) : (s.evict n).iohpmctr = s.iohpmctr := rfl
@[simp] theorem State.evict_iohpmevt (s : State) (n : Nat) : (s.evict n).iohpmevt = s.iohpmevt := rfl
@[simp] theorem State.evict_trReqIova (s : State) (n : Nat) : (s.evict n).trReqIova = s.trReqIova := rfl
@[simp] theorem State.evict_trReqCtl (s : State) (n : Nat) : (s.evict n).trReqCtl = s.trReqCtl := rfl
@[simp] theorem State.evict_trResponse (s : State) (n : Nat) : (s.evict n).trResponse = s.trResponse := rfl
@[simp] theorem State.evict_qosid (s : State) (n : Nat) : (s.evict n).qosid = s.qosid := rfl
@[simp] theorem State.evict_icvec (s : State) (n : Nat) : (s.evict n).icvec = s.icvec := rfl
@[simp] theorem State.evict_msiCfg (s : State) (n : Nat) : (s.evict n).msiCfg = s.msiCfg := rfl
@[simp] theorem State.evict_ioatc (s : State) (n : Nat) : (s.evict n).ioatc = s.ioatc.eraseIdx n := rfl
@[simp] theorem State.evict_outstanding (s : State) (n : Nat) : (s.evict n).outstanding = s.outstanding := rfl
@[simp] theorem State.evict_timedOut (s : State) (n : Nat) : (s.evict n).timedOut = s.timedOut := rfl
@[simp] theorem State.evict_fetched (s : State) (n : Nat) : (s.evict n).fetched = s.fetched := rfl
@[simp] theorem State.evict_msiPending (s : State) (n : Nat) : (s.evict n).msiPending = s.msiPending := rfl
@[simp] theorem State.evict_uncommittedReads (s : State) (n : Nat) : (s.evict n).uncommittedReads = s.uncommittedReads := rfl
@[simp] theorem State.evict_uncommittedWrites (s : State) (n : Nat) : (s.evict n).uncommittedWrites = s.uncommittedWrites := rfl
@[simp] theorem State.evict_mem (s : State) (n : Nat) : (s.evict n).mem = s.mem := rfl
@[simp] theorem State.evict_inbox (s : State) (n : Nat) : (s.evict n).inbox = s.inbox := rfl
@[simp] theorem State.evict_halfReads (s : State) (n : Nat) : (s.evict n).halfReads = s.halfReads := rfl
@[simp] theorem State.evict_others (s : State) (n : Nat) : (s.evict n).others = s.others := rfl
@[simp] theorem State.evict_out (s : State) (n : Nat) : (s.evict n).out = s.out := rfl
@[simp] theorem State.evict_bus (s : State) (n : Nat) : (s.evict n).bus = s.bus := rfl
@[simp] theorem State.evict_itag (s : State) (n : Nat) : (s.evict n).itag = s.itag := rfl
@[simp] theorem State.evict_choices (s : State) (n : Nat) : (s.evict n).choices = s.choices := rfl
@[simp] theorem State.evict_freeCtr (s : State) (n : Nat) : (s.evict n).freeCtr = s.freeCtr := rfl
@[simp] theorem State.evict_walked (s : State) (n : Nat) : (s.evict n).walked = s.walked := rfl

@[simp] theorem State.invalidate_cfg (s : State) (f : IoatcEntry → Bool) : (s.invalidate f).cfg = s.cfg := rfl
@[simp] theorem State.invalidate_plat (s : State) (f : IoatcEntry → Bool) : (s.invalidate f).plat = s.plat := rfl
@[simp] theorem State.invalidate_fctl (s : State) (f : IoatcEntry → Bool) : (s.invalidate f).fctl = s.fctl := rfl
@[simp] theorem State.invalidate_ddtp (s : State) (f : IoatcEntry → Bool) : (s.invalidate f).ddtp = s.ddtp := rfl
@[simp] theorem State.invalidate_cqb (s : State) (f : IoatcEntry → Bool) : (s.invalidate f).cqb = s.cqb := rfl
@[simp] theorem State.invalidate_cqh (s : State) (f : IoatcEntry → Bool) : (s.invalidate f).cqh = s.cqh := rfl
@[simp] theorem State.invalidate_cqt (s : State) (f : IoatcEntry → Bool) : (s.invalidate f).cqt = s.cqt := rfl
@[simp] theorem State.invalidate_fqb (s : State) (f : IoatcEntry → Bool) : (s.invalidate f).fqb = s.fqb := rfl
@[simp] theorem State.invalidate_fqh (s : State) (f : IoatcEntry → Bool) : (s.invalidate f).fqh = s.fqh := rfl
@[simp] theorem State.invalidate_fqt (s : State) (f : IoatcEntry → Bool) : (s.invalidate f).fqt = s.fqt := rfl
@[simp] theorem State.invalidate_pqb (s : State) (f : IoatcEntry → Bool) : (s.invalidate f).pqb = s.pqb := rfl
@[simp] theorem State.invalidate_pqh (s : State) (f : IoatcEntry → Bool) : (s.invalidate f).pqh = s.pqh := rfl
@[simp] theorem State.invalidate_pqt (s : State) (f : IoatcEntry → Bool) : (s.invalidate f).pqt = s.pqt := rfl
@[simp] theorem State.invalidate_cqcsr (s : State) (f : IoatcEntry → Bool) : (s.invalidate f).cqcsr = s.cqcsr := rfl
@[simp] theorem State.invalidate_fqcsr (s : State) (f : IoatcEntry → Bool) : (s.invalidate f).fqcsr = s.fqcsr := rfl
@[simp] theorem State.invalidate_pqcsr (s : State) (f : IoatcEntry → Bool) : (s.invalidate f).pqcsr = s.pqcsr := rfl
@[simp] theorem State.invalidate_ipsr (s : State) (f : IoatcEntry → Bool) : (s.invalidate f).ipsr = s.ipsr := rfl
@[simp] theorem State.invalidate_iocountinh (s : State) (f : IoatcEntry → Bool) : (s.invalidate f).iocountinh = s.iocountinh := rfl
@[simp] theorem State.invalidate_iohpmcycles (s : State) (f : IoatcEntry → Bool) : (s.invalidate f).iohpmcycles = s.iohpmcycles := rfl
@[simp] theorem State.invalidate_iohpmctr (s : State) (f : IoatcEntry → Bool) : (s.invalidate f).iohpmctr = s.iohpmctr := rfl
@[simp] theorem State.invalidate_iohpmevt (s : State) (f : IoatcEntry → Bool) : (s.invalidate f).iohpmevt = s.iohpmevt := rfl
@[simp] theorem State.invalidate_trReqIova (s : State) (f : IoatcEntry → Bool) : (s.invalidate f).trReqIova = s.trReqIova := rfl
@[simp] theorem State.invalidate_trReqCtl (s : State) (f : IoatcEntry → Bool) : (s.invalidate f).trReqCtl = s.trReqCtl := rfl
@[simp] theorem State.invalidate_trResponse (s : State) (f : IoatcEntry → Bool) : (s.invalidate f).trResponse = s.trResponse := rfl
@[simp] theorem State.invalidate_qosid (s : State) (f : IoatcEntry → Bool) : (s.invalidate f).qosid = s.qosid := rfl
@[simp] theorem State.invalidate_icvec (s : State) (f : IoatcEntry → Bool) : (s.invalidate f).icvec = s.icvec := rfl
@[simp] theorem State.invalidate_msiCfg (s : State) (f : IoatcEntry → Bool) : (s.invalidate f).msiCfg = s.msiCfg := rfl
@[simp] theorem State.invalidate_ioatc (s : State) (f : IoatcEntry → Bool) : (s.invalidate f).ioatc = s.ioatc.filter fun e => !f e := rfl
@[simp] theorem State.invalidate_outstanding (s : State) (f : IoatcEntry → Bool) : (s.invalidate f).outstanding = s.outstanding := rfl
@[simp] theorem State.invalidate_timedOut (s : State) (f : IoatcEntry → Bool) : (s.invalidate f).timedOut = s.timedOut := rfl
@[simp] theorem State.invalidate_fetched (s : State) (f : IoatcEntry → Bool) : (s.invalidate f).fetched = s.fetched := rfl
@[simp] theorem State.invalidate_msiPending (s : State) (f : IoatcEntry → Bool) : (s.invalidate f).msiPending = s.msiPending := rfl
@[simp] theorem State.invalidate_uncommittedReads (s : State) (f : IoatcEntry → Bool) : (s.invalidate f).uncommittedReads = s.uncommittedReads := rfl
@[simp] theorem State.invalidate_uncommittedWrites (s : State) (f : IoatcEntry → Bool) : (s.invalidate f).uncommittedWrites = s.uncommittedWrites := rfl
@[simp] theorem State.invalidate_mem (s : State) (f : IoatcEntry → Bool) : (s.invalidate f).mem = s.mem := rfl
@[simp] theorem State.invalidate_inbox (s : State) (f : IoatcEntry → Bool) : (s.invalidate f).inbox = s.inbox := rfl
@[simp] theorem State.invalidate_halfReads (s : State) (f : IoatcEntry → Bool) : (s.invalidate f).halfReads = s.halfReads := rfl
@[simp] theorem State.invalidate_others (s : State) (f : IoatcEntry → Bool) : (s.invalidate f).others = s.others := rfl
@[simp] theorem State.invalidate_out (s : State) (f : IoatcEntry → Bool) : (s.invalidate f).out = s.out := rfl
@[simp] theorem State.invalidate_bus (s : State) (f : IoatcEntry → Bool) : (s.invalidate f).bus = s.bus := rfl
@[simp] theorem State.invalidate_itag (s : State) (f : IoatcEntry → Bool) : (s.invalidate f).itag = s.itag := rfl
@[simp] theorem State.invalidate_choices (s : State) (f : IoatcEntry → Bool) : (s.invalidate f).choices = s.choices := rfl
@[simp] theorem State.invalidate_freeCtr (s : State) (f : IoatcEntry → Bool) : (s.invalidate f).freeCtr = s.freeCtr := rfl
@[simp] theorem State.invalidate_walked (s : State) (f : IoatcEntry → Bool) : (s.invalidate f).walked = s.walked := rfl

@[simp] theorem State.advanceCq_cfg (s : State) : (s.advanceCq).cfg = s.cfg := rfl
@[simp] theorem State.advanceCq_plat (s : State) : (s.advanceCq).plat = s.plat := rfl
@[simp] theorem State.advanceCq_fctl (s : State) : (s.advanceCq).fctl = s.fctl := rfl
@[simp] theorem State.advanceCq_ddtp (s : State) : (s.advanceCq).ddtp = s.ddtp := rfl
@[simp] theorem State.advanceCq_cqb (s : State) : (s.advanceCq).cqb = s.cqb := rfl
@[simp] theorem State.advanceCq_cqh (s : State) : (s.advanceCq).cqh = s.cqb.next s.cqh := rfl
@[simp] theorem State.advanceCq_cqt (s : State) : (s.advanceCq).cqt = s.cqt := rfl
@[simp] theorem State.advanceCq_fqb (s : State) : (s.advanceCq).fqb = s.fqb := rfl
@[simp] theorem State.advanceCq_fqh (s : State) : (s.advanceCq).fqh = s.fqh := rfl
@[simp] theorem State.advanceCq_fqt (s : State) : (s.advanceCq).fqt = s.fqt := rfl
@[simp] theorem State.advanceCq_pqb (s : State) : (s.advanceCq).pqb = s.pqb := rfl
@[simp] theorem State.advanceCq_pqh (s : State) : (s.advanceCq).pqh = s.pqh := rfl
@[simp] theorem State.advanceCq_pqt (s : State) : (s.advanceCq).pqt = s.pqt := rfl
@[simp] theorem State.advanceCq_cqcsr (s : State) : (s.advanceCq).cqcsr = s.cqcsr := rfl
@[simp] theorem State.advanceCq_fqcsr (s : State) : (s.advanceCq).fqcsr = s.fqcsr := rfl
@[simp] theorem State.advanceCq_pqcsr (s : State) : (s.advanceCq).pqcsr = s.pqcsr := rfl
@[simp] theorem State.advanceCq_ipsr (s : State) : (s.advanceCq).ipsr = s.ipsr := rfl
@[simp] theorem State.advanceCq_iocountinh (s : State) : (s.advanceCq).iocountinh = s.iocountinh := rfl
@[simp] theorem State.advanceCq_iohpmcycles (s : State) : (s.advanceCq).iohpmcycles = s.iohpmcycles := rfl
@[simp] theorem State.advanceCq_iohpmctr (s : State) : (s.advanceCq).iohpmctr = s.iohpmctr := rfl
@[simp] theorem State.advanceCq_iohpmevt (s : State) : (s.advanceCq).iohpmevt = s.iohpmevt := rfl
@[simp] theorem State.advanceCq_trReqIova (s : State) : (s.advanceCq).trReqIova = s.trReqIova := rfl
@[simp] theorem State.advanceCq_trReqCtl (s : State) : (s.advanceCq).trReqCtl = s.trReqCtl := rfl
@[simp] theorem State.advanceCq_trResponse (s : State) : (s.advanceCq).trResponse = s.trResponse := rfl
@[simp] theorem State.advanceCq_qosid (s : State) : (s.advanceCq).qosid = s.qosid := rfl
@[simp] theorem State.advanceCq_icvec (s : State) : (s.advanceCq).icvec = s.icvec := rfl
@[simp] theorem State.advanceCq_msiCfg (s : State) : (s.advanceCq).msiCfg = s.msiCfg := rfl
@[simp] theorem State.advanceCq_ioatc (s : State) : (s.advanceCq).ioatc = s.ioatc := rfl
@[simp] theorem State.advanceCq_outstanding (s : State) : (s.advanceCq).outstanding = s.outstanding := rfl
@[simp] theorem State.advanceCq_timedOut (s : State) : (s.advanceCq).timedOut = s.timedOut := rfl
@[simp] theorem State.advanceCq_fetched (s : State) : (s.advanceCq).fetched = s.fetched := rfl
@[simp] theorem State.advanceCq_msiPending (s : State) : (s.advanceCq).msiPending = s.msiPending := rfl
@[simp] theorem State.advanceCq_uncommittedReads (s : State) : (s.advanceCq).uncommittedReads = s.uncommittedReads := rfl
@[simp] theorem State.advanceCq_uncommittedWrites (s : State) : (s.advanceCq).uncommittedWrites = s.uncommittedWrites := rfl
@[simp] theorem State.advanceCq_mem (s : State) : (s.advanceCq).mem = s.mem := rfl
@[simp] theorem State.advanceCq_inbox (s : State) : (s.advanceCq).inbox = s.inbox := rfl
@[simp] theorem State.advanceCq_halfReads (s : State) : (s.advanceCq).halfReads = s.halfReads := rfl
@[simp] theorem State.advanceCq_others (s : State) : (s.advanceCq).others = s.others := rfl
@[simp] theorem State.advanceCq_out (s : State) : (s.advanceCq).out = s.out := rfl
@[simp] theorem State.advanceCq_bus (s : State) : (s.advanceCq).bus = s.bus := rfl
@[simp] theorem State.advanceCq_itag (s : State) : (s.advanceCq).itag = s.itag := rfl
@[simp] theorem State.advanceCq_choices (s : State) : (s.advanceCq).choices = s.choices := rfl
@[simp] theorem State.advanceCq_freeCtr (s : State) : (s.advanceCq).freeCtr = s.freeCtr := rfl
@[simp] theorem State.advanceCq_walked (s : State) : (s.advanceCq).walked = s.walked := rfl

@[simp] theorem State.freshValue_cfg (s : State) : s.freshValue.2.cfg = s.cfg := rfl
@[simp] theorem State.freshValue_plat (s : State) : s.freshValue.2.plat = s.plat := rfl
@[simp] theorem State.freshValue_fctl (s : State) : s.freshValue.2.fctl = s.fctl := rfl
@[simp] theorem State.freshValue_ddtp (s : State) : s.freshValue.2.ddtp = s.ddtp := rfl
@[simp] theorem State.freshValue_cqb (s : State) : s.freshValue.2.cqb = s.cqb := rfl
@[simp] theorem State.freshValue_cqh (s : State) : s.freshValue.2.cqh = s.cqh := rfl
@[simp] theorem State.freshValue_cqt (s : State) : s.freshValue.2.cqt = s.cqt := rfl
@[simp] theorem State.freshValue_fqb (s : State) : s.freshValue.2.fqb = s.fqb := rfl
@[simp] theorem State.freshValue_fqh (s : State) : s.freshValue.2.fqh = s.fqh := rfl
@[simp] theorem State.freshValue_fqt (s : State) : s.freshValue.2.fqt = s.fqt := rfl
@[simp] theorem State.freshValue_pqb (s : State) : s.freshValue.2.pqb = s.pqb := rfl
@[simp] theorem State.freshValue_pqh (s : State) : s.freshValue.2.pqh = s.pqh := rfl
@[simp] theorem State.freshValue_pqt (s : State) : s.freshValue.2.pqt = s.pqt := rfl
@[simp] theorem State.freshValue_cqcsr (s : State) : s.freshValue.2.cqcsr = s.cqcsr := rfl
@[simp] theorem State.freshValue_fqcsr (s : State) : s.freshValue.2.fqcsr = s.fqcsr := rfl
@[simp] theorem State.freshValue_pqcsr (s : State) : s.freshValue.2.pqcsr = s.pqcsr := rfl
@[simp] theorem State.freshValue_ipsr (s : State) : s.freshValue.2.ipsr = s.ipsr := rfl
@[simp] theorem State.freshValue_iocountinh (s : State) : s.freshValue.2.iocountinh = s.iocountinh := rfl
@[simp] theorem State.freshValue_iohpmcycles (s : State) : s.freshValue.2.iohpmcycles = s.iohpmcycles := rfl
@[simp] theorem State.freshValue_iohpmctr (s : State) : s.freshValue.2.iohpmctr = s.iohpmctr := rfl
@[simp] theorem State.freshValue_iohpmevt (s : State) : s.freshValue.2.iohpmevt = s.iohpmevt := rfl
@[simp] theorem State.freshValue_trReqIova (s : State) : s.freshValue.2.trReqIova = s.trReqIova := rfl
@[simp] theorem State.freshValue_trReqCtl (s : State) : s.freshValue.2.trReqCtl = s.trReqCtl := rfl
@[simp] theorem State.freshValue_trResponse (s : State) : s.freshValue.2.trResponse = s.trResponse := rfl
@[simp] theorem State.freshValue_qosid (s : State) : s.freshValue.2.qosid = s.qosid := rfl
@[simp] theorem State.freshValue_icvec (s : State) : s.freshValue.2.icvec = s.icvec := rfl
@[simp] theorem State.freshValue_msiCfg (s : State) : s.freshValue.2.msiCfg = s.msiCfg := rfl
@[simp] theorem State.freshValue_ioatc (s : State) : s.freshValue.2.ioatc = s.ioatc := rfl
@[simp] theorem State.freshValue_outstanding (s : State) : s.freshValue.2.outstanding = s.outstanding := rfl
@[simp] theorem State.freshValue_timedOut (s : State) : s.freshValue.2.timedOut = s.timedOut := rfl
@[simp] theorem State.freshValue_fetched (s : State) : s.freshValue.2.fetched = s.fetched := rfl
@[simp] theorem State.freshValue_msiPending (s : State) : s.freshValue.2.msiPending = s.msiPending := rfl
@[simp] theorem State.freshValue_uncommittedReads (s : State) : s.freshValue.2.uncommittedReads = s.uncommittedReads := rfl
@[simp] theorem State.freshValue_uncommittedWrites (s : State) : s.freshValue.2.uncommittedWrites = s.uncommittedWrites := rfl
@[simp] theorem State.freshValue_mem (s : State) : s.freshValue.2.mem = s.mem := rfl
@[simp] theorem State.freshValue_inbox (s : State) : s.freshValue.2.inbox = s.inbox := rfl
@[simp] theorem State.freshValue_halfReads (s : State) : s.freshValue.2.halfReads = s.halfReads := rfl
@[simp] theorem State.freshValue_others (s : State) : s.freshValue.2.others = s.others := rfl
@[simp] theorem State.freshValue_out (s : State) : s.freshValue.2.out = s.out := rfl
@[simp] theorem State.freshValue_bus (s : State) : s.freshValue.2.bus = s.bus := rfl
@[simp] theorem State.freshValue_itag (s : State) : s.freshValue.2.itag = s.itag := rfl
@[simp] theorem State.freshValue_choices (s : State) : s.freshValue.2.choices = s.choices := rfl
@[simp] theorem State.freshValue_freeCtr (s : State) : s.freshValue.2.freeCtr = s.freeCtr + 1 := rfl
@[simp] theorem State.freshValue_walked (s : State) : s.freshValue.2.walked = s.walked := rfl

@[simp] theorem State.ageInvals_cfg (s : State) (n : Nat) : (s.ageInvals n).cfg = s.cfg := rfl
@[simp] theorem State.ageInvals_plat (s : State) (n : Nat) : (s.ageInvals n).plat = s.plat := rfl
@[simp] theorem State.ageInvals_fctl (s : State) (n : Nat) : (s.ageInvals n).fctl = s.fctl := rfl
@[simp] theorem State.ageInvals_ddtp (s : State) (n : Nat) : (s.ageInvals n).ddtp = s.ddtp := rfl
@[simp] theorem State.ageInvals_cqb (s : State) (n : Nat) : (s.ageInvals n).cqb = s.cqb := rfl
@[simp] theorem State.ageInvals_cqh (s : State) (n : Nat) : (s.ageInvals n).cqh = s.cqh := rfl
@[simp] theorem State.ageInvals_cqt (s : State) (n : Nat) : (s.ageInvals n).cqt = s.cqt := rfl
@[simp] theorem State.ageInvals_fqb (s : State) (n : Nat) : (s.ageInvals n).fqb = s.fqb := rfl
@[simp] theorem State.ageInvals_fqh (s : State) (n : Nat) : (s.ageInvals n).fqh = s.fqh := rfl
@[simp] theorem State.ageInvals_fqt (s : State) (n : Nat) : (s.ageInvals n).fqt = s.fqt := rfl
@[simp] theorem State.ageInvals_pqb (s : State) (n : Nat) : (s.ageInvals n).pqb = s.pqb := rfl
@[simp] theorem State.ageInvals_pqh (s : State) (n : Nat) : (s.ageInvals n).pqh = s.pqh := rfl
@[simp] theorem State.ageInvals_pqt (s : State) (n : Nat) : (s.ageInvals n).pqt = s.pqt := rfl
@[simp] theorem State.ageInvals_cqcsr (s : State) (n : Nat) : (s.ageInvals n).cqcsr = s.cqcsr := rfl
@[simp] theorem State.ageInvals_fqcsr (s : State) (n : Nat) : (s.ageInvals n).fqcsr = s.fqcsr := rfl
@[simp] theorem State.ageInvals_pqcsr (s : State) (n : Nat) : (s.ageInvals n).pqcsr = s.pqcsr := rfl
@[simp] theorem State.ageInvals_ipsr (s : State) (n : Nat) : (s.ageInvals n).ipsr = s.ipsr := rfl
@[simp] theorem State.ageInvals_iocountinh (s : State) (n : Nat) : (s.ageInvals n).iocountinh = s.iocountinh := rfl
@[simp] theorem State.ageInvals_iohpmcycles (s : State) (n : Nat) : (s.ageInvals n).iohpmcycles = s.iohpmcycles := rfl
@[simp] theorem State.ageInvals_iohpmctr (s : State) (n : Nat) : (s.ageInvals n).iohpmctr = s.iohpmctr := rfl
@[simp] theorem State.ageInvals_iohpmevt (s : State) (n : Nat) : (s.ageInvals n).iohpmevt = s.iohpmevt := rfl
@[simp] theorem State.ageInvals_trReqIova (s : State) (n : Nat) : (s.ageInvals n).trReqIova = s.trReqIova := rfl
@[simp] theorem State.ageInvals_trReqCtl (s : State) (n : Nat) : (s.ageInvals n).trReqCtl = s.trReqCtl := rfl
@[simp] theorem State.ageInvals_trResponse (s : State) (n : Nat) : (s.ageInvals n).trResponse = s.trResponse := rfl
@[simp] theorem State.ageInvals_qosid (s : State) (n : Nat) : (s.ageInvals n).qosid = s.qosid := rfl
@[simp] theorem State.ageInvals_icvec (s : State) (n : Nat) : (s.ageInvals n).icvec = s.icvec := rfl
@[simp] theorem State.ageInvals_msiCfg (s : State) (n : Nat) : (s.ageInvals n).msiCfg = s.msiCfg := rfl
@[simp] theorem State.ageInvals_ioatc (s : State) (n : Nat) : (s.ageInvals n).ioatc = s.ioatc := rfl
@[simp] theorem State.ageInvals_outstanding (s : State) (n : Nat) : (s.ageInvals n).outstanding = s.outstanding.map fun o => { o with age := o.age + n } := rfl
@[simp] theorem State.ageInvals_timedOut (s : State) (n : Nat) : (s.ageInvals n).timedOut = s.timedOut := rfl
@[simp] theorem State.ageInvals_fetched (s : State) (n : Nat) : (s.ageInvals n).fetched = s.fetched := rfl
@[simp] theorem State.ageInvals_msiPending (s : State) (n : Nat) : (s.ageInvals n).msiPending = s.msiPending := rfl
@[simp] theorem State.ageInvals_uncommittedReads (s : State) (n : Nat) : (s.ageInvals n).uncommittedReads = s.uncommittedReads := rfl
@[simp] theorem State.ageInvals_uncommittedWrites (s : State) (n : Nat) : (s.ageInvals n).uncommittedWrites = s.uncommittedWrites := rfl
@[simp] theorem State.ageInvals_mem (s : State) (n : Nat) : (s.ageInvals n).mem = s.mem := rfl
@[simp] theorem State.ageInvals_inbox (s : State) (n : Nat) : (s.ageInvals n).inbox = s.inbox := rfl
@[simp] theorem State.ageInvals_halfReads (s : State) (n : Nat) : (s.ageInvals n).halfReads = s.halfReads := rfl
@[simp] theorem State.ageInvals_others (s : State) (n : Nat) : (s.ageInvals n).others = s.others := rfl
@[simp] theorem State.ageInvals_out (s : State) (n : Nat) : (s.ageInvals n).out = s.out := rfl
@[simp] theorem State.ageInvals_bus (s : State) (n : Nat) : (s.ageInvals n).bus = s.bus := rfl
@[simp] theorem State.ageInvals_itag (s : State) (n : Nat) : (s.ageInvals n).itag = s.itag := rfl
@[simp] theorem State.ageInvals_choices (s : State) (n : Nat) : (s.ageInvals n).choices = s.choices := rfl
@[simp] theorem State.ageInvals_freeCtr (s : State) (n : Nat) : (s.ageInvals n).freeCtr = s.freeCtr := rfl
@[simp] theorem State.ageInvals_walked (s : State) (n : Nat) : (s.ageInvals n).walked = s.walked := rfl

end Sys2Proof.Machine
end

