-- ==== Sys2Proof/Laws/Work.lean ====
section
/-! SUPPORT. What the IOMMU's internal work can do to the state: implicit accesses, cache fills, counting, interrupts and
fault reports. `Work s t` says it once; every shared operation has one lemma here or in the files that import this one,
which later proofs cite instead of unfolding the operation. -/

namespace Sys2Proof.Machine

/-- The part of the state that internal work never changes. -/
def State.fixed (s : State) : State :=
  { s with
    fqcsr := { s.fqcsr with mf := false, ovf := false }
    fqt := 0#32
    ipsr := ⟨false, false, false, false⟩
    iohpmctr := Vector.replicate 31 0#64
    iohpmevt := Vector.replicate 31 HpmEvt.zero
    ioatc := []
    msiPending := Vector.replicate 16 false
    uncommittedReads := []
    uncommittedWrites := []
    mem := []
    others := []
    out := []
    bus := []
    choices := []
    freeCtr := 0
    walked := false }

/-- Every performance counter fits its width, every selector selects an event the implementation has, and the counters
and selectors it does not have are 0. -/
def State.hpmLegal (s : State) : Bool :=
  s.iohpmctr.all (fun c => decide (c.toNat < 2 ^ s.cfg.hpmWidth)) && s.iohpmevt.all (HpmEvt.legal s.cfg)
    && (List.finRange 31).all fun n =>
      (Reg.iohpmctr n).present s.cfg || (s.iohpmctr[n] == 0#64 && s.iohpmevt[n] == HpmEvt.zero)

theorem State.keepsAccesses.of_eq {s t : State} (hr : t.uncommittedReads = s.uncommittedReads)
    (hw : t.uncommittedWrites = s.uncommittedWrites) : s.keepsAccesses t :=
  ⟨hr ▸ List.Sublist.refl _, hw ▸ List.Sublist.refl _, fun _ => ⟨hr, hw⟩⟩

theorem State.keepsAccesses.trans {s t u : State} (h : s.keepsAccesses t) (k : t.keepsAccesses u)
    (ho : s.others = [] → t.others = []) : s.keepsAccesses u :=
  ⟨k.1.trans h.1, k.2.1.trans h.2.1, fun hs =>
    ⟨(k.2.2 (ho hs)).1.trans (h.2.2 hs).1, (k.2.2 (ho hs)).2.trans (h.2.2 hs).2⟩⟩

/-- Where other agents act, some of the device accesses may be gone. -/
theorem State.keepsAccesses.of_sublist {s t : State} (ho : s.others ≠ [])
    (hr : t.uncommittedReads.Sublist s.uncommittedReads) (hw : t.uncommittedWrites.Sublist s.uncommittedWrites) :
    s.keepsAccesses t :=
  ⟨hr, hw, fun h => absurd h ho⟩

/-- Internal work, but for the interrupt it may owe: the fixed part is kept, what has gone out stays, pending bits are
never cleared, `fqt` stays in range, memory stays canonical, the caches and the counters stay legal, of the accesses
of other agents the first ones are made, and of those of devices some may be committed among them. -/
structure Quiet (s t : State) : Prop where
  fixed : t.fixed = s.fixed
  out : s.out <+: t.out
  bus : s.bus <+: t.bus
  ipsr : ∀ b, s.ipsr.get b = true → t.ipsr.get b = true
  fqt : s.fqb.inRange s.fqt = true → t.fqb.inRange t.fqt = true
  mem : s.mem.wf = true → t.mem.wf = true
  cache : s.cacheOk = true → t.cacheOk = true
  hpm : s.hpmLegal = true → t.hpmLegal = true
  others : t.others <:+ s.others
  accesses : s.keepsAccesses t

/-- Internal work with its interrupts: an error bit of the fault queue that interrupts has its pending bit set. -/
structure Work (s t : State) : Prop extends Quiet s t where
  fip : (s.fqcsr.ipLevel = true → s.ipsr.fip = true) → t.fqcsr.ipLevel = true → t.ipsr.fip = true

theorem Quiet.refl (s : State) : Quiet s s := ⟨rfl, List.prefix_rfl, List.prefix_rfl, fun _ h => h, id, id, id, id, List.suffix_rfl, .of_eq rfl rfl⟩

theorem Quiet.trans {s t u : State} (h : Quiet s t) (k : Quiet t u) : Quiet s u :=
  ⟨k.fixed.trans h.fixed, h.out.trans k.out, h.bus.trans k.bus, fun b hb => k.ipsr b (h.ipsr b hb), k.fqt ∘ h.fqt, k.mem ∘ h.mem, k.cache ∘ h.cache,
    k.hpm ∘ h.hpm, k.others.trans h.others,
    h.accesses.trans k.accesses fun hs => List.suffix_nil.mp (hs ▸ h.others)⟩

theorem Work.refl (s : State) : Work s s := ⟨Quiet.refl s, fun h => h⟩

theorem Work.trans {s t u : State} (h : Work s t) (k : Work t u) : Work s u :=
  ⟨h.toQuiet.trans k.toQuiet, fun hi => k.fip (h.fip hi)⟩

/-! ### The fixed part, field by field -/

section Fixed
variable {s t : State}
theorem Quiet.cfg (h : Quiet s t) : t.cfg = s.cfg := (congrArg State.cfg h.fixed :)
theorem Quiet.plat (h : Quiet s t) : t.plat = s.plat := (congrArg State.plat h.fixed :)
theorem Quiet.fctl (h : Quiet s t) : t.fctl = s.fctl := (congrArg State.fctl h.fixed :)
theorem Quiet.ddtp (h : Quiet s t) : t.ddtp = s.ddtp := (congrArg State.ddtp h.fixed :)
theorem Quiet.cqb (h : Quiet s t) : t.cqb = s.cqb := (congrArg State.cqb h.fixed :)
theorem Quiet.cqh (h : Quiet s t) : t.cqh = s.cqh := (congrArg State.cqh h.fixed :)
theorem Quiet.cqt (h : Quiet s t) : t.cqt = s.cqt := (congrArg State.cqt h.fixed :)
theorem Quiet.fqb (h : Quiet s t) : t.fqb = s.fqb := (congrArg State.fqb h.fixed :)
theorem Quiet.fqh (h : Quiet s t) : t.fqh = s.fqh := (congrArg State.fqh h.fixed :)
theorem Quiet.pqb (h : Quiet s t) : t.pqb = s.pqb := (congrArg State.pqb h.fixed :)
theorem Quiet.pqh (h : Quiet s t) : t.pqh = s.pqh := (congrArg State.pqh h.fixed :)
theorem Quiet.pqt (h : Quiet s t) : t.pqt = s.pqt := (congrArg State.pqt h.fixed :)
theorem Quiet.cqcsr (h : Quiet s t) : t.cqcsr = s.cqcsr := (congrArg State.cqcsr h.fixed :)
theorem Quiet.pqcsr (h : Quiet s t) : t.pqcsr = s.pqcsr := (congrArg State.pqcsr h.fixed :)
theorem Quiet.fqen (h : Quiet s t) : t.fqcsr.en = s.fqcsr.en := (congrArg (fun x : State => x.fqcsr.en) h.fixed :)
theorem Quiet.fie (h : Quiet s t) : t.fqcsr.ie = s.fqcsr.ie := (congrArg (fun x : State => x.fqcsr.ie) h.fixed :)
theorem Quiet.fqon (h : Quiet s t) : t.fqcsr.on = s.fqcsr.on := (congrArg (fun x : State => x.fqcsr.on) h.fixed :)
theorem Quiet.fqbusy (h : Quiet s t) : t.fqcsr.busy = s.fqcsr.busy := (congrArg (fun x : State => x.fqcsr.busy) h.fixed :)
theorem Quiet.iocountinh (h : Quiet s t) : t.iocountinh = s.iocountinh := (congrArg State.iocountinh h.fixed :)
theorem Quiet.iohpmcycles (h : Quiet s t) : t.iohpmcycles = s.iohpmcycles := (congrArg State.iohpmcycles h.fixed :)
theorem Quiet.trReqCtl (h : Quiet s t) : t.trReqCtl = s.trReqCtl := (congrArg State.trReqCtl h.fixed :)
theorem Quiet.qosid (h : Quiet s t) : t.qosid = s.qosid := (congrArg State.qosid h.fixed :)
theorem Quiet.icvec (h : Quiet s t) : t.icvec = s.icvec := (congrArg State.icvec h.fixed :)
theorem Quiet.msiCfg (h : Quiet s t) : t.msiCfg = s.msiCfg := (congrArg State.msiCfg h.fixed :)
theorem Quiet.outstanding (h : Quiet s t) : t.outstanding = s.outstanding := (congrArg State.outstanding h.fixed :)
theorem Quiet.inbox (h : Quiet s t) : t.inbox = s.inbox := (congrArg State.inbox h.fixed :)
end Fixed

/-! ### Updates that touch only what `Quiet` leaves free -/

theorem Quiet.logBus (s : State) (k : AccessKind) (a n : Nat) (q : Qos) : Quiet s (s.logBus k a n q) :=
  ⟨rfl, List.prefix_rfl, List.prefix_append _ _, fun _ h => h, id, id, id, id, List.suffix_rfl, .of_eq rfl rfl⟩

theorem Work.logBus (s : State) (k : AccessKind) (a n : Nat) (q : Qos) : Work s (s.logBus k a n q) :=
  ⟨Quiet.logBus s k a n q, id⟩

theorem Work.emit (s : State) (o : Output) : Work s (s.emit o) :=
  ⟨⟨rfl, List.prefix_append _ _, List.prefix_rfl, fun _ h => h, id, id, id, id, List.suffix_rfl, .of_eq rfl rfl⟩, id⟩

theorem Work.walked (s : State) (w : Bool) : Work s { s with walked := w } :=
  ⟨⟨rfl, List.prefix_rfl, List.prefix_rfl, fun _ h => h, id, id, id, id, List.suffix_rfl, .of_eq rfl rfl⟩, id⟩

theorem Work.freshValue (s : State) : Work s s.freshValue.2 := ⟨⟨rfl, List.prefix_rfl, List.prefix_rfl, fun _ h => h, id, id, id, id, List.suffix_rfl, .of_eq rfl rfl⟩, id⟩

theorem Work.draw (s : State) (n : Nat) : Work s (s.draw n).2 := by
  unfold State.draw; split <;> exact ⟨⟨rfl, List.prefix_rfl, List.prefix_rfl, fun _ h => h, id, id, id, id, List.suffix_rfl, .of_eq rfl rfl⟩, id⟩

theorem Work.choose {α : Type} (s : State) (cands : List α) : Work s (s.choose cands).2 := by
  unfold State.choose
  split
  · exact Work.refl s
  · exact Work.draw s _

@[simp] theorem State.draw_mem (s : State) (n : Nat) : (s.draw n).2.mem = s.mem := by
  unfold State.draw; split <;> rfl

@[simp] theorem State.draw_fqcsr (s : State) (n : Nat) : (s.draw n).2.fqcsr = s.fqcsr := by
  unfold State.draw; split <;> rfl

@[simp] theorem State.draw_ipsr (s : State) (n : Nat) : (s.draw n).2.ipsr = s.ipsr := by
  unfold State.draw; split <;> rfl

/-- Storing in memory. -/
theorem Work.setMem (s : State) (m : Memory) (h : s.mem.wf = true → m.wf = true) : Work s { s with mem := m } :=
  ⟨⟨rfl, List.prefix_rfl, List.prefix_rfl, fun _ h => h, id, h, id, id, List.suffix_rfl, .of_eq rfl rfl⟩, id⟩

theorem State.wf_of_store {s : State} {a : Nat} {bs : List Byte} {m : Memory} (h : s.store a bs = some m) :
    s.mem.wf = true → m.wf = true := by
  unfold State.store at h
  split at h
  · cases h
  · cases h; exact fun hm => Memory.wf_writeBytes hm a bs

/-! ### Implicit accesses (R208, R221) -/

theorem Work.deviceWrite (s : State) (a : Nat) (bs : List Byte) : Work s (s.deviceWrite a bs) := by
  unfold State.deviceWrite
  split
  · exact Work.refl s
  · rename_i h
    exact Work.setMem s _ (State.wf_of_store h)

theorem Work.commitRead (s : State) (p : PendingRead) : Work s (s.commitRead p) := by
  unfold State.commitRead; split <;> exact Work.emit _ _

theorem Work.commitWrite (s : State) (p : PendingWrite) : Work s (s.commitWrite p) := by
  unfold State.commitWrite
  split
  · exact Work.refl s
  · exact Work.setMem _ _ (State.wf_of_store (by assumption))

theorem Work.setUncommitted {s : State} (ho : s.others ≠ []) (rs : List PendingRead) (ws : List PendingWrite)
    (hr : rs.Sublist s.uncommittedReads) (hw : ws.Sublist s.uncommittedWrites) :
    Work s { s with uncommittedReads := rs, uncommittedWrites := ws } :=
  ⟨⟨rfl, List.prefix_rfl, List.prefix_rfl, fun _ h => h, id, id, id, id, List.suffix_rfl, .of_sublist ho hr hw⟩, id⟩

/-- A device's access becoming visible while the IOMMU works: memory, what the device reads, and the access gone. -/
theorem Work.commitAccess {s : State} (ho : s.others ≠ []) (tag : Nat) : Work s (s.commitAccess tag) := by
  unfold State.commitAccess
  split
  · exact (Work.setUncommitted ho _ _ List.erase_sublist (List.Sublist.refl _)).trans (Work.commitRead _ _)
  · split
    · exact (Work.setUncommitted ho _ _ (List.Sublist.refl _) List.erase_sublist).trans (Work.commitWrite _ _)
    · exact Work.refl s

/-- What memory accesses cannot touch: everything but memory, the accesses of other agents still to come, those of devices
that are not committed, the outputs and the bus. -/
def State.unaccessed (s : State) : State :=
  { s with mem := [], others := [], uncommittedReads := [], uncommittedWrites := [], out := [], bus := [] }

/-- Accesses of other agents touch memory, the device accesses not committed, and the outputs, nothing else. -/
theorem State.otherAccess_frame (s : State) (a : MemAccess) :
    (s.otherAccess a).unaccessed = s.unaccessed ∧ (s.otherAccess a).others = s.others := by
  cases a <;> simp only [State.otherAccess, State.deviceWrite, State.commitAccess]
  · split <;> exact ⟨rfl, rfl⟩
  · split <;> exact ⟨rfl, rfl⟩
  · split <;> exact ⟨rfl, rfl⟩
  · split
    · unfold State.commitRead; split <;> exact ⟨rfl, rfl⟩
    · split
      · unfold State.commitWrite; split <;> exact ⟨rfl, rfl⟩
      · exact ⟨rfl, rfl⟩

/-- One access of another agent, made while the IOMMU works. -/
theorem Work.otherAccess {s : State} (ho : s.others ≠ []) (a : MemAccess) : Work s (s.otherAccess a) := by
  unfold State.otherAccess
  split
  · split
    · exact Work.emit _ _
    · exact Work.refl s
  · split
    · exact Work.setMem s _ fun hm => Memory.wf_writeBytes hm _ _
    · exact Work.refl s
  · exact Work.deviceWrite s _ _
  · exact Work.commitAccess ho _

/-- A group of accesses of other agents. -/
theorem State.otherAccesses_frame (g : List MemAccess) (s : State) :
    (g.foldl State.otherAccess s).unaccessed = s.unaccessed ∧ (g.foldl State.otherAccess s).others = s.others ∧
      (s.others ≠ [] → Work s (g.foldl State.otherAccess s)) := by
  induction g generalizing s with
  | nil => exact ⟨rfl, rfl, fun _ => Work.refl s⟩
  | cons a g ih =>
    have h := State.otherAccess_frame s a
    have k := ih (s.otherAccess a)
    exact ⟨k.1.trans h.1, k.2.1.trans h.2, fun ho => (Work.otherAccess ho a).trans (k.2.2 (h.2 ▸ ho))⟩

/-- Work composed along a list. -/
theorem Work.foldl {α : Type} (f : State → α → State) (hf : ∀ s a, Work s (f s a)) (l : List α) (s : State) :
    Work s (l.foldl f s) := by
  induction l generalizing s with
  | nil => exact Work.refl s
  | cons a l ih => exact (hf s a).trans (ih (f s a))

theorem Work.othersAct (s : State) : Work s s.othersAct := by
  unfold State.othersAct
  split
  · exact Work.refl s
  · rename_i g gs h
    have hg := State.otherAccesses_frame g s
    exact (hg.2.2 (by simp [h])).trans
      ⟨⟨rfl, List.prefix_rfl, List.prefix_rfl, fun _ h => h, id, id, id, id, ⟨[g], by rw [hg.2.1, h]; rfl⟩,
        .of_eq rfl rfl⟩, id⟩

theorem Work.readUnits (ks : List Nat) (a : Nat) (s : State) : Work s (State.readUnits ks a s).2 := by
  induction ks generalizing a s with
  | nil => exact Work.refl s
  | cons k ks ih => exact (Work.othersAct s).trans (ih _ _)

theorem Work.writeUnits (ks : List Nat) (a : Nat) (bs : List Byte) (s : State) :
    Work s (State.writeUnits ks a bs s) := by
  induction ks generalizing a bs s with
  | nil => exact Work.refl s
  | cons k ks ih =>
    exact ((Work.othersAct s).trans (Work.setMem _ _ fun hm => Memory.wf_writeBytes hm _ _)).trans (ih _ _ _)

/-- Storing some of the doublewords of a record. -/
theorem Work.storeSome (keep : Nat → Bool) (a k : Nat) (ds : List DWord) (s : State) :
    Work s (State.storeSome keep a k ds s) := by
  induction ds generalizing a k s with
  | nil => exact Work.refl s
  | cons d ds ih =>
    refine Work.trans ?_ (ih (a + 8) (k + 1) _)
    split
    · exact Work.writeUnits _ _ _ s
    · exact Work.refl s

theorem Work.readMem (s : State) (a n : Nat) (q : Qos) : Work s (s.readMem a n q).2 := by
  unfold State.readMem
  dsimp only
  split
  · exact (Work.logBus s _ _ _ _).trans (Work.readUnits _ _ _)
  · exact Work.logBus s _ _ _ _
  · exact Work.logBus s _ _ _ _

theorem Work.writeMem (s : State) (a : Nat) (bs : List Byte) (q : Qos) : Work s (s.writeMem a bs q).2 := by
  unfold State.writeMem
  dsimp only
  split
  · exact Work.logBus s _ _ _ _
  · exact (Work.logBus s _ _ _ _).trans (Work.writeUnits _ _ _ _)

theorem Work.updateMem (s : State) (a n : Nat) (f : List Byte → List Byte) (q : Qos) :
    Work s (s.updateMem a n f q).2 := by
  have h := (Work.logBus s .atomic a n q).trans (Work.othersAct _)
  unfold State.updateMem
  dsimp only
  split
  · exact h
  · split
    · split
      · exact h
      · exact h.trans (Work.setMem _ _ fun hm => Memory.wf_writeBytes hm _ _)
    · exact h
    · exact h

@[simp] theorem State.unaccessed_othersAct (s : State) : s.othersAct.unaccessed = s.unaccessed := by
  unfold State.othersAct
  split
  · rfl
  · exact (State.otherAccesses_frame _ s).1

@[simp] theorem State.unaccessed_readUnits (ks : List Nat) (a : Nat) (s : State) :
    (State.readUnits ks a s).2.unaccessed = s.unaccessed := by
  induction ks generalizing a s with
  | nil => rfl
  | cons k ks ih => exact (ih (a + k) s.othersAct).trans (State.unaccessed_othersAct s)

@[simp] theorem State.unaccessed_writeUnits (ks : List Nat) (a : Nat) (bs : List Byte) (s : State) :
    (State.writeUnits ks a bs s).unaccessed = s.unaccessed := by
  induction ks generalizing a bs s with
  | nil => rfl
  | cons k ks ih => exact (ih (a + k) _ _).trans (State.unaccessed_othersAct s)

@[simp] theorem State.unaccessed_storeSome (keep : Nat → Bool) (a k : Nat) (ds : List DWord) (s : State) :
    (State.storeSome keep a k ds s).unaccessed = s.unaccessed := by
  induction ds generalizing a k s with
  | nil => rfl
  | cons d ds ih =>
    refine (ih (a + 8) (k + 1) _).trans ?_
    split
    · exact State.unaccessed_writeUnits _ _ _ s
    · rfl

@[simp] theorem State.unaccessed_readMem (s : State) (a n : Nat) (q : Qos) :
    (s.readMem a n q).2.unaccessed = s.unaccessed := by
  unfold State.readMem
  dsimp only
  split
  · exact State.unaccessed_readUnits _ _ (s.logBus .read a n q)
  · rfl
  · rfl

@[simp] theorem State.unaccessed_writeMem (s : State) (a : Nat) (bs : List Byte) (q : Qos) :
    (s.writeMem a bs q).2.unaccessed = s.unaccessed := by
  unfold State.writeMem
  dsimp only
  split
  · rfl
  · exact State.unaccessed_writeUnits _ _ _ (s.logBus .write a bs.length q)

@[simp] theorem State.unaccessed_updateMem (s : State) (a n : Nat) (f : List Byte → List Byte) (q : Qos) :
    (s.updateMem a n f q).2.unaccessed = s.unaccessed := by
  have h := State.unaccessed_othersAct (s.logBus .atomic a n q)
  unfold State.updateMem
  dsimp only
  split
  · exact h
  · split
    · split <;> exact h
    · exact h
    · exact h

/-! ### Accesses when no other agent acts between them -/

@[simp] theorem State.othersAct_quiet {s : State} (h : s.others = []) : s.othersAct = s := by
  unfold State.othersAct; rw [h]

theorem Memory.readBytes_add (m : Memory) (a k n : Nat) :
    Memory.readBytes m a (k + n) = Memory.readBytes m a k ++ Memory.readBytes m (a + k) n := by
  induction k generalizing a with
  | zero => simp [Memory.readBytes]
  | succ k ih => rw [Nat.succ_add, Memory.readBytes, Memory.readBytes, ih]; simp [Nat.add_comm, Nat.add_left_comm]

theorem Memory.writeBytes_append (m : Memory) (a : Nat) (bs cs : List Byte) :
    Memory.writeBytes m a (bs ++ cs) = Memory.writeBytes (Memory.writeBytes m a bs) (a + bs.length) cs := by
  induction bs generalizing m a with
  | nil => rfl
  | cons b bs ih => simp only [List.cons_append, Memory.writeBytes, ih, List.length_cons]; congr 1; omega

theorem atomicUnits_sum (u n : Nat) : (atomicUnits u n).sum = n := by
  unfold atomicUnits
  have := Nat.div_add_mod n u
  split
  · simp [Nat.mul_comm (n / u)]; omega
  · simp [Nat.mul_comm (n / u)]; omega

theorem State.readUnits_quiet {s : State} (h : s.others = []) (ks : List Nat) (a : Nat) :
    State.readUnits ks a s = (Memory.readBytes s.mem a ks.sum, s) := by
  induction ks generalizing a with
  | nil => rfl
  | cons k ks ih => simp only [State.readUnits, State.othersAct_quiet h, ih, List.sum_cons, Memory.readBytes_add]

theorem State.writeUnits_quiet {s : State} (h : s.others = []) (ks : List Nat) (a : Nat) (bs : List Byte)
    (hn : bs.length = ks.sum) : State.writeUnits ks a bs s = { s with mem := Memory.writeBytes s.mem a bs } := by
  induction ks generalizing s a bs with
  | nil =>
    obtain rfl : bs = [] := List.length_eq_zero_iff.mp (by simpa using hn)
    rfl
  | cons k ks ih =>
    simp only [List.sum_cons] at hn
    simp only [State.writeUnits, State.othersAct_quiet h]
    refine (ih (s := { s with mem := Memory.writeBytes s.mem a (bs.take k) }) h _ _ (by simp [hn])).trans ?_
    have hk : (bs.take k).length = k := by simp; omega
    have h2 := Memory.writeBytes_append s.mem a (bs.take k) (bs.drop k)
    rw [List.take_append_drop, hk] at h2
    rw [h2]

/-- A read with no other agent acting is that of memory as it stands (R208). -/
theorem State.readMem_quiet {s : State} (h : s.others = []) (a n : Nat) (q : Qos) :
    s.readMem a n q = (s.load a n, s.logBus .read a n q) := by
  unfold State.readMem
  have hl : (s.logBus .read a n q).load a n = s.load a n := rfl
  have hr := State.readUnits_quiet (s := s.logBus .read a n q) h (atomicUnits s.cfg.atomicSize n) a
  rw [atomicUnits_sum] at hr
  dsimp only
  rw [hl, hr]
  cases hs : s.load a n with
  | ok bs =>
    have : bs = Memory.readBytes s.mem a n := by
      unfold State.load at hs
      split at hs
      · cases hs
      · split at hs
        · split at hs <;> cases hs
        · cases hs; rfl
    subst this; rfl
  | accessFault => rfl
  | corrupt => rfl

/-- A write with no other agent acting (R208). -/
theorem State.writeMem_quiet {s : State} (h : s.others = []) (a : Nat) (bs : List Byte) (q : Qos) :
    s.writeMem a bs q =
      if s.accessFaults .write a bs.length then (false, s.logBus .write a bs.length q)
      else (true, { s.logBus .write a bs.length q with mem := Memory.writeBytes s.mem a bs }) := by
  unfold State.writeMem
  have hw := State.writeUnits_quiet (s := s.logBus .write a bs.length q) h (atomicUnits s.cfg.atomicSize bs.length) a bs
    (atomicUnits_sum _ _).symm
  dsimp only
  rw [hw]
  rfl

/-- Storing some of the doublewords of a record with no other agent acting changes memory alone. -/
theorem State.storeSome_quiet (keep : Nat → Bool) (a k : Nat) (ds : List DWord) {s : State} (h : s.others = []) :
    ∃ m, State.storeSome keep a k ds s = { s with mem := m } := by
  induction ds generalizing a k s with
  | nil => exact ⟨s.mem, rfl⟩
  | cons d ds ih =>
    unfold State.storeSome
    split
    · rw [State.writeUnits_quiet h _ _ _ (by rw [atomicUnits_sum]; cases hb : s.fctl.be <;> simp [toBytes, toBytesLE])]
      exact ih (s := { s with mem := Memory.writeBytes s.mem a (toBytes s.fctl.be 8 d.toNat) }) _ _ h
    · exact ih _ _ h

/-! ### Updates that touch only what `Quiet` leaves free, continued -/

/-- Filling the caches with a valid entry. -/
theorem Work.fill (s : State) (e : IoatcEntry) (he : e.valid = true) : Work s (s.fill e) := by
  unfold State.fill
  split
  · exact Work.refl s
  · exact ⟨⟨rfl, List.prefix_rfl, List.prefix_rfl, fun _ h => h, id, id, fun h => by simpa [State.cacheOk, he] using h, id,
      List.suffix_rfl, .of_eq rfl rfl⟩, id⟩

/-! ### The fault queue and the interrupts -/

theorem QBase.inRange_next (q : QBase) (i : BitVec 32) : q.inRange (q.next i) = true := by
  have hp : 0 < 2 ^ q.log2sz := Nat.pow_pos (by omega)
  have hl : q.log2sz ≤ 32 := by unfold QBase.log2sz; have := q.log2szm1.isLt; omega
  have h32 : 2 ^ q.log2sz ≤ 2 ^ 32 := Nat.pow_le_pow_right (by omega) hl
  have hlt : (i.toNat + 1) % 2 ^ q.log2sz < 2 ^ q.log2sz := Nat.mod_lt _ hp
  simp only [QBase.inRange, QBase.next, QBase.entries, BitVec.toNat_ofNat, decide_eq_true_eq]
  rw [Nat.mod_eq_of_lt (by omega)]; exact hlt

theorem QBase.inRange_mask (q : QBase) (i : BitVec 32) : q.inRange (q.mask i) = true := by
  have hp : 0 < 2 ^ q.log2sz := Nat.pow_pos (by omega)
  have hl : q.log2sz ≤ 32 := by unfold QBase.log2sz; have := q.log2szm1.isLt; omega
  have h32 : 2 ^ q.log2sz ≤ 2 ^ 32 := Nat.pow_le_pow_right (by omega) hl
  have hlt : i.toNat % 2 ^ q.log2sz < 2 ^ q.log2sz := Nat.mod_lt _ hp
  simp only [QBase.inRange, QBase.mask, QBase.entries, BitVec.toNat_ofNat, decide_eq_true_eq]
  rw [Nat.mod_eq_of_lt (by omega)]; exact hlt

/-- What storing a record can do: memory (kept canonical), the bus, the choices and the accesses of other agents; it changes no register. -/
theorem Work.storeRecord (s : State) (a : Nat) (ds : List DWord) : Work s (s.storeRecord a ds).2 := by
  unfold State.storeRecord
  dsimp only
  split
  · exact ((Work.logBus s .write a (8 * ds.length) s.iommuQos).trans (Work.draw _ 16)).trans (Work.storeSome _ _ _ _ _)
  · exact (Work.logBus s _ _ _ _).trans (Work.writeUnits _ _ _ _)

/-- Storing a record leaves the CSR and the pending bits alone. -/
theorem State.storeRecord_csr (s : State) (a : Nat) (ds : List DWord) :
    (s.storeRecord a ds).2.fqcsr = s.fqcsr ∧ (s.storeRecord a ds).2.ipsr = s.ipsr := by
  unfold State.storeRecord
  dsimp only
  split
  · have h := fun keep => State.unaccessed_storeSome keep a 0 ds ((s.logBus .write a (8 * ds.length) s.iommuQos).draw 16).2
    exact ⟨(congrArg State.fqcsr (h _)).trans (State.draw_fqcsr _ 16), (congrArg State.ipsr (h _)).trans (State.draw_ipsr _ 16)⟩
  · have h := State.unaccessed_writeUnits (atomicUnits (min s.cfg.atomicSize 8) (8 * ds.length)) a
      (dwordsBytes s.fctl.be ds) (s.logBus .write a (8 * ds.length) s.iommuQos)
    exact ⟨(congrArg State.fqcsr h :), (congrArg State.ipsr h :)⟩

/-- Queueing a record (R570): internal work; it leaves the pending bits alone, and changes the CSR only when it says that
a condition for `fip` arose. -/
theorem Quiet.pushRecord (s : State) (r : FaultRecord) :
    Quiet s (s.pushRecord r).2 ∧ (s.pushRecord r).2.ipsr = s.ipsr ∧
      ((s.pushRecord r).1 = false → (s.pushRecord r).2.fqcsr = s.fqcsr) := by
  unfold State.pushRecord
  split
  · exact ⟨Quiet.refl s, rfl, fun _ => rfl⟩
  · split
    · exact ⟨⟨rfl, List.prefix_rfl, List.prefix_rfl, fun _ h => h, id, id, id, id, List.suffix_rfl, .of_eq rfl rfl⟩, rfl, fun h => by cases h⟩
    · have hw := Work.storeRecord s (s.fqb.entryAddr 5 s.fqt) r.dwords
      have hc := State.storeRecord_csr s (s.fqb.entryAddr 5 s.fqt) r.dwords
      revert hw hc
      rcases s.storeRecord (s.fqb.entryAddr 5 s.fqt) r.dwords with ⟨ok, t⟩
      intro hw hc
      cases ok
      · exact ⟨hw.toQuiet.trans ⟨rfl, List.prefix_rfl, List.prefix_rfl, fun _ h => h, id, id, id, id, List.suffix_rfl, .of_eq rfl rfl⟩, hc.2, fun h => by cases h⟩
      · refine ⟨hw.toQuiet.trans ⟨rfl, List.prefix_rfl, List.prefix_rfl, fun _ h => h, fun _ => QBase.inRange_next _ _, id, id, id, List.suffix_rfl, .of_eq rfl rfl⟩, hc.2, fun h => by cases h⟩

/-- Sending a message, up to the report of a failure: internal work that leaves the CSR and the pending bits alone. -/
theorem Quiet.trySendMsi (s : State) (v : BitVec 4) :
    Quiet s (s.trySendMsi v).2 ∧ (s.trySendMsi v).2.ipsr = s.ipsr ∧ (s.trySendMsi v).2.fqcsr = s.fqcsr := by
  unfold State.trySendMsi
  dsimp only
  split
  · exact ⟨⟨rfl, List.prefix_rfl, List.prefix_rfl, fun _ h => h, id, id, id, id, List.suffix_rfl, .of_eq rfl rfl⟩, rfl, rfl⟩
  · have hw := Work.writeMem s (s.msiEntry v).address.toNat (toBytes s.fctl.be 4 (s.msiEntry v).data.toNat) s.iommuQos
    have hu := State.unaccessed_writeMem s (s.msiEntry v).address.toNat (toBytes s.fctl.be 4 (s.msiEntry v).data.toNat)
      s.iommuQos
    revert hw hu
    rcases s.writeMem (s.msiEntry v).address.toNat (toBytes s.fctl.be 4 (s.msiEntry v).data.toNat) s.iommuQos
      with ⟨_ | _, t⟩ <;> intro hw hu
    · exact ⟨hw.toQuiet, (congrArg State.ipsr hu :), (congrArg State.fqcsr hu :)⟩
    · exact ⟨(hw.trans (Work.emit t _)).toQuiet, (congrArg State.ipsr hu :), (congrArg State.fqcsr hu :)⟩

theorem Ipsr.get_pend (r : Ipsr) (b : IntSource) : (r.pend b).get b = true := by cases b <;> rfl

theorem Ipsr.get_pend_of (r : Ipsr) (b c : IntSource) (h : r.get c = true) : (r.pend b).get c = true := by
  cases b <;> cases c <;> first | rfl | exact h

theorem Quiet.pend (s : State) (b : IntSource) : Quiet s (s.pend b) :=
  ⟨rfl, List.prefix_rfl, List.prefix_rfl, fun c h => Ipsr.get_pend_of s.ipsr b c h, id, id, id, id, List.suffix_rfl, .of_eq rfl rfl⟩

/-- Raising `fip`: it is 1 afterwards. -/
theorem Quiet.raiseFip (s : State) : Quiet s s.raiseFip ∧ s.raiseFip.ipsr.fip = true := by
  unfold State.raiseFip
  split
  · exact ⟨Quiet.refl s, by assumption⟩
  · split
    · exact ⟨Quiet.pend s .fq, rfl⟩
    · have h := Quiet.trySendMsi (s.pend .fq) s.icvec.fiv
      revert h
      rcases (s.pend .fq).trySendMsi s.icvec.fiv with ⟨_ | a, t⟩ <;> intro h
      · exact ⟨(Quiet.pend s .fq).trans h.1, by rw [h.2.1]; rfl⟩
      · have k := Quiet.pushRecord t (.msiWrite a)
        exact ⟨((Quiet.pend s .fq).trans h.1).trans k.1, by rw [k.2.1, h.2.1]; rfl⟩

/-- Internal work that ends with `fip` set owes nothing. -/
theorem Quiet.work {s t : State} (h : Quiet s t) (hf : t.ipsr.fip = true) : Work s t := ⟨h, fun _ _ => hf⟩

theorem OutCsr.ie_of_ipLevel {q : OutCsr} (h : q.ipLevel = true) : q.ie = true := by
  unfold OutCsr.ipLevel at h; simp_all

/-- Reporting a fault record (R570). -/
theorem Work.report (s : State) (r : FaultRecord) : Work s (s.report r) := by
  unfold State.report
  have h := Quiet.pushRecord s r
  revert h
  rcases s.pushRecord r with ⟨raised, t⟩
  intro h
  cases raised
  · exact ⟨h.1, fun hi hl => by
      have hc : t.fqcsr = s.fqcsr := h.2.2 rfl
      have hp : t.ipsr = s.ipsr := h.2.1
      change t.fqcsr.ipLevel = true at hl
      rw [hc] at hl
      change t.ipsr.fip = true
      rw [hp]; exact hi hl⟩
  · dsimp only
    split
    · have k := Quiet.raiseFip t
      exact (h.1.trans k.1).work k.2
    · exact ⟨h.1, fun _ hl => absurd (OutCsr.ie_of_ipLevel hl) (by assumption)⟩

/-- Sending an interrupt message (R593, R594). -/
theorem Work.sendMsi (s : State) (v : BitVec 4) : Work s (s.sendMsi v) := by
  unfold State.sendMsi
  have h := Quiet.trySendMsi s v
  revert h
  rcases s.trySendMsi v with ⟨_ | a, t⟩ <;> intro h <;> dsimp only
  · exact ⟨h.1, fun hi hl => by rw [h.2.1]; rw [h.2.2] at hl; exact hi hl⟩
  · refine Work.trans (t := t) ⟨h.1, fun hi hl => ?_⟩ (Work.report t _)
    rw [h.2.1]; rw [h.2.2] at hl; exact hi hl

theorem Work.pend (s : State) (b : IntSource) : Work s (s.pend b) :=
  ⟨Quiet.pend s b, fun hi hl => Ipsr.get_pend_of s.ipsr b .fq (hi hl)⟩

/-- Setting a pending bit, with its delivery (R591, R592): it is 1 afterwards. -/
theorem Work.raiseIp (s : State) (b : IntSource) : Work s (s.raiseIp b) ∧ (s.raiseIp b).ipsr.get b = true := by
  unfold State.raiseIp
  split
  · exact ⟨Work.refl s, by assumption⟩
  · split
    · exact ⟨Work.pend s b, Ipsr.get_pend s.ipsr b⟩
    · have h := Work.sendMsi (s.pend b) (s.icvec.vector b)
      exact ⟨(Work.pend s b).trans h, h.ipsr b (Ipsr.get_pend s.ipsr b)⟩

theorem Work.updateCip (s : State) :
    Work s s.updateCip ∧ (s.updateCip.cipLevel = true → s.updateCip.ipsr.cip = true) := by
  unfold State.updateCip
  split
  · have h := Work.raiseIp s .cq
    exact ⟨h.1, fun _ => h.2⟩
  · exact ⟨Work.refl s, fun h => absurd h (by assumption)⟩

theorem Work.updateFip (s : State) : Work s s.updateFip := by
  unfold State.updateFip
  split
  · exact (Work.raiseIp s .fq).1
  · exact Work.refl s

/-- After `update_fip` the level condition has its pending bit, whatever held before. -/
theorem State.updateFip_pends (s : State) :
    s.updateFip.fqcsr.ipLevel = true → s.updateFip.ipsr.fip = true := by
  unfold State.updateFip
  split
  · exact fun _ => (Work.raiseIp s .fq).2
  · exact fun h => absurd h (by assumption)

theorem Work.updatePip (s : State) :
    Work s s.updatePip ∧ (s.updatePip.pqcsr.ipLevel = true → s.updatePip.ipsr.pip = true) := by
  unfold State.updatePip
  split
  · have h := Work.raiseIp s .pq
    exact ⟨h.1, fun _ => h.2⟩
  · exact ⟨Work.refl s, fun h => absurd h (by assumption)⟩

/-- Taking a fault (R565): the record, if it is reported, and the answer, if there is one. -/
theorem Work.takeFault (s : State) (r : FaultRecord) (suppressed dtf : Bool) (answer : Option Output) :
    Work s (s.takeFault r suppressed dtf answer) := by
  unfold State.takeFault
  dsimp only
  have h : Work s (if suppressed || (dtf && !r.cause.reportedUnderDtf) then s else s.report r) := by
    split
    · exact Work.refl s
    · exact Work.report s r
  split
  · exact h
  · exact h.trans (Work.emit _ _)

/-! ### Counting -/

theorem State.hpmLegal_iff (s : State) : s.hpmLegal = true ↔
    (∀ n : Fin 31, s.iohpmctr[n].toNat < 2 ^ s.cfg.hpmWidth) ∧ (∀ n : Fin 31, s.iohpmevt[n].legal s.cfg = true) ∧
      ∀ n : Fin 31, (Reg.iohpmctr n).present s.cfg = false → s.iohpmctr[n] = 0#64 ∧ s.iohpmevt[n] = HpmEvt.zero := by
  unfold State.hpmLegal
  simp only [Bool.and_eq_true, Vector.all_eq_true, decide_eq_true_eq, List.all_eq_true, Bool.or_eq_true, beq_iff_eq,
    List.mem_finRange, true_imp_iff, and_assoc]
  refine and_congr ⟨fun h n => h n.val n.isLt, fun h i hi => h ⟨i, hi⟩⟩
    (and_congr ⟨fun h n => h n.val n.isLt, fun h i hi => h ⟨i, hi⟩⟩ (forall_congr' fun n => ?_))
  cases (Reg.iohpmctr n).present s.cfg <;> simp

/-- Setting a counter that the implementation has. -/
theorem State.hpmLegal_counter {s : State} (n : Fin 31) (h : s.hpmLegal = true) (c : DWord)
    (hc : c.toNat < 2 ^ s.cfg.hpmWidth) (hp : (Reg.iohpmctr n).present s.cfg = true) :
    ({ s with iohpmctr := s.iohpmctr.set n c } : State).hpmLegal = true := by
  rw [State.hpmLegal_iff] at *
  refine ⟨fun i => ?_, h.2.1, fun i hi => ⟨?_, (h.2.2 i hi).2⟩⟩
  · by_cases hni : n = i
    · subst hni; simpa using hc
    · have : n.val ≠ i.val := fun e => hni (Fin.ext e)
      simpa [Vector.getElem_set, this] using h.1 i
  · have hne : n ≠ i := fun e => by subst e; simp [hp] at hi
    have : n.val ≠ i.val := fun e => hne (Fin.ext e)
    simpa [Vector.getElem_set, this] using (h.2.2 i hi).1

/-- Setting a selector of a counter that the implementation has. -/
theorem State.hpmLegal_selector {s : State} (n : Fin 31) (h : s.hpmLegal = true) (e : HpmEvt)
    (he : e.legal s.cfg = true) (hp : (Reg.iohpmctr n).present s.cfg = true) :
    ({ s with iohpmevt := s.iohpmevt.set n e } : State).hpmLegal = true := by
  rw [State.hpmLegal_iff] at *
  refine ⟨h.1, fun i => ?_, fun i hi => ⟨(h.2.2 i hi).1, ?_⟩⟩
  · by_cases hni : n = i
    · subst hni; simpa using he
    · have : n.val ≠ i.val := fun e => hni (Fin.ext e)
      simpa [Vector.getElem_set, this] using h.2.1 i
  · have hne : n ≠ i := fun e => by subst e; simp [hp] at hi
    have : n.val ≠ i.val := fun e => hne (Fin.ext e)
    simpa [Vector.getElem_set, this] using (h.2.2 i hi).2

theorem bump_lt (w : Nat) (c : DWord) : (bump w c).1.toNat < 2 ^ w := by
  have : (c.toNat + 1) % 2 ^ w < 2 ^ w := Nat.mod_lt _ (Nat.pow_pos (by omega))
  simp only [bump, BitVec.toNat_ofNat]
  exact Nat.lt_of_le_of_lt (Nat.mod_le _ _) this

/-- Counting in one counter that the implementation has (R634, R637). -/
theorem Work.countIn (s : State) (n : Fin 31) (hp : (Reg.iohpmctr n).present s.cfg = true) : Work s (s.countIn n) := by
  unfold State.countIn
  have hb := bump_lt s.cfg.hpmWidth s.iohpmctr[n]
  revert hb
  rcases bump s.cfg.hpmWidth s.iohpmctr[n] with ⟨c, wrapped⟩
  intro hb
  have h1 : Work s { s with iohpmctr := s.iohpmctr.set n c } :=
    ⟨⟨rfl, List.prefix_rfl, List.prefix_rfl, fun _ h => h, id, id, id, fun h => State.hpmLegal_counter n h c hb hp,
      List.suffix_rfl, .of_eq rfl rfl⟩, id⟩
  dsimp only
  split
  · refine (h1.trans ?_).trans (Work.raiseIp _ .pm).1
    exact ⟨⟨rfl, List.prefix_rfl, List.prefix_rfl, fun _ h => h, id, id, id, fun h => State.hpmLegal_selector n h _
      (by simpa [HpmEvt.legal] using ((State.hpmLegal_iff _).mp h).2.1 n) hp, List.suffix_rfl, .of_eq rfl rfl⟩, id⟩
  · exact h1

/-- Counting an event (R634). -/
theorem Work.countEvent (s : State) (e : HpmEvent) (t : EventIds) : Work s (s.countEvent e t) := by
  unfold State.countEvent
  refine Work.foldl _ (fun s n => ?_) _ s
  split
  · rename_i h
    refine Work.countIn s n ?_
    simp only [State.counts, Bool.and_eq_true] at h
    simp [Reg.present, h.1.1.1.1.1, h.1.1.1.1.2]
  · exact Work.refl s

/-! ### What reports and interrupts keep -/

@[simp] theorem State.unreported_draw (s : State) (n : Nat) : (s.draw n).2.unreported = s.unreported := by
  unfold State.draw; split <;> rfl

theorem State.unreported_storeRecord (s : State) (a : Nat) (ds : List DWord) :
    (s.storeRecord a ds).2.unreported = s.unreported := by
  unfold State.storeRecord
  dsimp only
  split
  · exact (congrArg State.unreported (State.unaccessed_storeSome _ a 0 ds
      ((s.logBus .write a (8 * ds.length) s.iommuQos).draw 16).2)).trans
      (State.unreported_draw (s.logBus .write a (8 * ds.length) s.iommuQos) 16)
  · exact (congrArg State.unreported (State.unaccessed_writeUnits _ a (dwordsBytes s.fctl.be ds)
      (s.logBus .write a (8 * ds.length) s.iommuQos)) :)

theorem State.unreported_pushRecord (s : State) (r : FaultRecord) :
    (s.pushRecord r).2.unreported = s.unreported := by
  unfold State.pushRecord
  split
  · rfl
  · split
    · rfl
    · have h := State.unreported_storeRecord s (s.fqb.entryAddr 5 s.fqt) r.dwords
      revert h
      rcases s.storeRecord (s.fqb.entryAddr 5 s.fqt) r.dwords with ⟨_ | _, t⟩ <;> exact fun h => h

theorem State.unreported_trySendMsi (s : State) (v : BitVec 4) :
    (s.trySendMsi v).2.unreported = s.unreported := by
  unfold State.trySendMsi
  dsimp only
  split
  · rfl
  · have hu := State.unaccessed_writeMem s (s.msiEntry v).address.toNat (toBytes s.fctl.be 4 (s.msiEntry v).data.toNat)
      s.iommuQos
    revert hu
    rcases s.writeMem (s.msiEntry v).address.toNat (toBytes s.fctl.be 4 (s.msiEntry v).data.toNat) s.iommuQos
      with ⟨_ | _, t⟩ <;> exact fun hu => (congrArg State.unreported hu :)

theorem State.unreported_raiseFip (s : State) : s.raiseFip.unreported = s.unreported := by
  unfold State.raiseFip
  split
  · rfl
  · split
    · rfl
    · have h : ((s.pend .fq).trySendMsi s.icvec.fiv).2.unreported = s.unreported :=
        State.unreported_trySendMsi (s.pend .fq) s.icvec.fiv
      revert h
      rcases (s.pend .fq).trySendMsi s.icvec.fiv with ⟨_ | a, t⟩ <;> intro h
      · exact h
      · exact (State.unreported_pushRecord t _).trans h

/-- Reporting a fault record changes only what `unreported` leaves out. -/
theorem State.unreported_report (s : State) (r : FaultRecord) : (s.report r).unreported = s.unreported := by
  unfold State.report
  have h := State.unreported_pushRecord s r
  revert h
  rcases s.pushRecord r with ⟨_ | _, t⟩ <;> intro h
  · exact h
  · dsimp only
    split
    · exact (State.unreported_raiseFip t).trans h
    · exact h

theorem State.unreported_sendMsi (s : State) (v : BitVec 4) : (s.sendMsi v).unreported = s.unreported := by
  unfold State.sendMsi
  have h := State.unreported_trySendMsi s v
  revert h
  rcases s.trySendMsi v with ⟨_ | a, t⟩ <;> intro h
  · exact h
  · exact (State.unreported_report t _).trans h

/-- Setting a pending bit changes only what `unreported` leaves out. -/
theorem State.unreported_raiseIp (s : State) (b : IntSource) : (s.raiseIp b).unreported = s.unreported := by
  unfold State.raiseIp
  split
  · rfl
  · split
    · rfl
    · exact State.unreported_sendMsi (s.pend b) _

theorem State.unreported_updateCip (s : State) : s.updateCip.unreported = s.unreported := by
  unfold State.updateCip; split
  · exact State.unreported_raiseIp s .cq
  · rfl

theorem State.unreported_updateFip (s : State) : s.updateFip.unreported = s.unreported := by
  unfold State.updateFip; split
  · exact State.unreported_raiseIp s .fq
  · rfl

theorem State.unreported_updatePip (s : State) : s.updatePip.unreported = s.unreported := by
  unfold State.updatePip; split
  · exact State.unreported_raiseIp s .pq
  · rfl

/-- With the command queue's interrupt disabled or pending already, its update does nothing. -/
theorem State.updateCip_of_quiet (s : State) (h : s.cipQuiet = true) : s.updateCip = s := by
  unfold State.updateCip State.raiseIp State.cipLevel
  unfold State.cipQuiet at h
  cases hc : s.cqcsr.cie
  · simp
  · have hp : s.ipsr.get .cq = true := by simpa [hc, Ipsr.get] using h
    simp [hp]

/-! ### Commitment of device accesses -/

/-- Committing every read: work from the state whose list of reads is empty. -/
theorem Work.commitReads (s : State) : Work { s with uncommittedReads := [] } s.commitReads :=
  Work.foldl _ Work.commitRead _ _

/-- Committing every write: work from the state whose list of writes is empty. -/
theorem Work.commitWrites (s : State) : Work { s with uncommittedWrites := [] } s.commitWrites :=
  Work.foldl _ Work.commitWrite _ _

end Sys2Proof.Machine
end

