-- ==== Sys2Proof/Laws/Walks.lean ====
section
/-! SUPPORT. The translation process is internal work: one lemma per part of the process, each saying that whatever it
answers, the state it leaves is related to the state it met by `Work`. -/

namespace Sys2Proof.Machine

/-- The state a part of the process leaves, whatever it answers. -/
def Res.state {α : Type} : Res α → State
  | .ok _ t => t
  | .stop _ t => t

/-- Whatever the part of the process answers, it did internal work only. -/
def Res.Works {α : Type} (s : State) (r : Res α) : Prop := Work s r.state

theorem Res.Works.trans {α : Type} {s t : State} {r : Res α} (h : Work s t) (k : r.Works t) : r.Works s := by
  cases r with
  | ok a u => exact h.trans k
  | stop f u => exact h.trans k

theorem Res.Works.bind {α β : Type} {s : State} {r : Res α} {k : α → State → Res β} (h : r.Works s)
    (hk : ∀ a t, (k a t).Works t) : (r.bind k).Works s := by
  cases r with
  | ok a t => exact Res.Works.trans h (hk a t)
  | stop f t => exact h

/-- As `bind`, where the continuation may use what the first part answered. -/
theorem Res.Works.bind_ok {α β : Type} {s : State} {r : Res α} {k : α → State → Res β} (h : r.Works s)
    (hk : ∀ a t, r = .ok a t → (k a t).Works t) : (r.bind k).Works s := by
  cases r with
  | ok a t => exact Res.Works.trans h (hk a t rfl)
  | stop f t => exact h

theorem Res.Works.finding {α : Type} {s : State} {r : Res α} (h : r.Works s) (p : PageFound) :
    (r.finding p).Works s := by
  cases r <;> exact h

/-! ### Device contexts -/

theorem readDdt_works (ids : EventIds) (a n : Nat) (s : State) : (readDdt ids a n s).Works s := by
  have h := (Work.countEvent s .ddtWalk ids).trans (Work.readMem _ a n s.iommuQos)
  unfold readDdt
  revert h
  rcases (s.countEvent .ddtWalk ids).readMem a n s.iommuQos with ⟨_ | _ | _, t⟩ <;> exact id

theorem checkDC_works (ids : EventIds) (dc : DC) (s : State) : (checkDC ids dc s).Works s := by
  unfold checkDC
  split
  · exact Work.refl s
  · rename_i h
    split
    · exact Work.refl s
    · exact Work.fill s _ (by simpa [IoatcEntry.valid, DC.v] using h)

theorem checkDdte_works (ids : EventIds) (i : Nat) (e : DWord) (s : State) : (checkDdte ids i e s).Works s := by
  unfold checkDdte
  split
  · exact Work.refl s
  · rename_i h
    have hv : e.getLsbD 0 = true := by revert h; cases e.getLsbD 0 <;> simp
    split
    · exact Work.refl s
    · exact (Work.fill s (.ddtNL i (ddiShift s.cfg.msiFlat i) ids.did e) hv :)

theorem ddtWalk_works (ids : EventIds) (i a : Nat) (s : State) : (ddtWalk ids i a s).Works s := by
  induction i generalizing a s with
  | zero => exact Res.Works.bind (readDdt_works _ _ _ _) fun _ _ => checkDC_works _ _ _
  | succ i ih =>
    unfold ddtWalk
    have hc := Work.choose s (s.ddtCandidates (i + 1) ids.did)
    split
    · rename_i e s1 heq
      rw [heq] at hc
      exact Res.Works.trans hc (Res.Works.bind (checkDdte_works _ _ _ _) fun _ _ => ih _ _)
    · rename_i s1 heq
      rw [heq] at hc
      have h1 := fun bs s2 => checkDdte_works ids (i + 1) (dwordAt s2.fctl.be bs 0) s2
      have h2 := Res.Works.bind (readDdt_works ids (a + ddi s.cfg.msiFlat ids.did (i + 1) * 8) 8 s1) h1
      exact Res.Works.trans hc (Res.Works.bind h2 fun _ _ => ih _ _)

theorem locateDC_works (ids : EventIds) (s : State) : (locateDC ids s).Works s := by
  unfold locateDC
  have hc := Work.choose s (s.dcCandidates ids.did)
  split
  · rename_i dc s1 heq
    rw [heq] at hc
    exact Res.Works.trans hc (checkDC_works _ _ _)
  · rename_i s1 heq
    rw [heq] at hc
    exact Res.Works.trans hc (ddtWalk_works _ _ _ _)

/-! ### Page walks -/

theorem pteV_of_classify {c : Cfg} {x : Scheme} {level : Nat} {pte : DWord} (h : classify c x level pte ≠ .bad) :
    pteV pte = true := by
  cases hv : pteV pte with
  | true => rfl
  | false => exact absurd (by simp [classify, hv]) h

theorem pteV_pteTouch {pte : DWord} (h : pteV pte = true) (d : Bool) : pteV (pteTouch pte d) = true := by
  unfold pteV pteTouch at *; cases d <;> simp [h]

theorem s2Fetch_works (x : WalkCtx) (p : Purpose) (cached : Bool) (gpa : DWord) (level a : Nat) (s : State) :
    (s2Fetch x p cached gpa level a s).Works s := by
  unfold s2Fetch
  dsimp only
  have hc := Work.choose s (if cached then s.s2Candidates x.gscid level (pageOf gpa)
    (x.s2Writes p || (p == .final && x.ats && !x.nw)) else [])
  split
  · rename_i e s1 heq
    rw [heq] at hc
    exact hc
  · rename_i s1 heq
    rw [heq] at hc
    have h := ((hc.trans (Work.walked s1 true)).trans (Work.countEvent _ .s2Walk x.ids)).trans
      (Work.readMem _ (a + vpnAt x.gScheme true level (pageOf gpa) * x.gScheme.pteSize) x.gScheme.pteSize x.qos)
    revert h
    rcases (State.countEvent _ .s2Walk x.ids).readMem _ _ _ with ⟨_ | _ | _, t⟩ <;> exact id

theorem updatePte_works (q : Qos) (be : Bool) (size pa : Nat) (old new : DWord) (f c : Stop) (s : State) :
    (updatePte q be size pa old new f c s).Works s := by
  have h := Work.updateMem s pa size
    (fun bs => if BitVec.ofNat 64 (ofBytes be bs) = old then toBytes be size new.toNat else bs) q
  unfold updatePte
  revert h
  rcases s.updateMem pa size _ q with ⟨_ | _ | _, t⟩ <;> exact id

theorem fillS2_work (x : WalkCtx) (gpa : DWord) (level span : Nat) (pte : DWord) (s : State) (h : pteV pte = true) :
    Work s (fillS2 x gpa level span pte s) := Work.fill s _ h

theorem s2Leaf_works (x : WalkCtx) (p : Purpose) (gpa : DWord) (level span : Nat) (pte : DWord) (loc : Option Nat)
    (s : State) (hv : pteV pte = true) : (s2Leaf x p gpa level span pte loc s).Works s := by
  unfold s2Leaf
  dsimp only
  split
  · exact Work.refl s
  · split
    · exact fillS2_work x gpa level span pte s hv
    · split
      · exact Work.refl s
      · split
        · exact Work.refl s
        · refine Res.Works.bind (updatePte_works _ _ _ _ _ _ _ _ _) fun done t => ?_
          split
          · exact fillS2_work _ _ _ _ _ _ (pteV_pteTouch hv _)
          · exact Work.refl t

theorem s2Walk_works (x : WalkCtx) (p : Purpose) (gpa : DWord) (fuel : Nat) (cached : Bool) (level a : Nat) (s : State) :
    (s2Walk x p gpa fuel cached level a s).Works s := by
  induction fuel generalizing cached level a s with
  | zero => exact Work.refl s
  | succ fuel ih =>
    refine Res.Works.bind (s2Fetch_works _ _ _ _ _ _ _) fun e t => ?_
    split
    · exact Work.refl t
    · rename_i hk
      exact Res.Works.trans (fillS2_work _ _ _ _ _ _ (pteV_of_classify (by rw [hk]; simp))) (ih _ _ _ _)
    · rename_i hk
      refine Res.Works.bind (s2Leaf_works _ _ _ _ _ _ _ _ (pteV_of_classify (by rw [hk]; simp))) fun l u => ?_
      split
      · exact Work.refl u
      · exact ih _ _ _ _

theorem secondStage_works (x : WalkCtx) (p : Purpose) (cached : Bool) (gpa : DWord) (s : State) :
    (secondStage x p cached gpa s).Works s := by
  unfold secondStage
  split
  · exact Work.refl s
  · split
    · exact Work.refl s
    · exact s2Walk_works _ _ _ _ _ _ _ _

theorem s1Fetch_works (x : WalkCtx) (cached gpath : Bool) (va : DWord) (level a : Nat) (s : State) :
    (s1Fetch x cached gpath va level a s).Works s := by
  unfold s1Fetch
  dsimp only
  have hc := Work.choose s (if cached then s.s1Candidates x.space x.pscid level (pageOf va)
    (x.s1Writes || (x.ats && !x.nw)) else [])
  split
  · rename_i e s1 heq
    rw [heq] at hc
    exact hc
  · rename_i s1 heq
    rw [heq] at hc
    refine Res.Works.trans hc (Res.Works.bind (secondStage_works _ _ _ _ _) fun l s2 => ?_)
    have h := ((Work.walked s2 true).trans (Work.countEvent _ .s1Walk x.ids)).trans
      (Work.readMem _ l.addr.toNat x.fScheme.pteSize x.qos)
    revert h
    rcases (State.countEvent _ .s1Walk x.ids).readMem _ _ _ with ⟨_ | _ | _, t⟩ <;> exact id

theorem s1Update_works (x : WalkCtx) (cached : Bool) (gpa old new : DWord) (s : State) :
    (s1Update x cached gpa old new s).Works s :=
  Res.Works.bind (secondStage_works _ _ _ _ _) fun _ _ => updatePte_works _ _ _ _ _ _ _ _ _

theorem fillS1_work (x : WalkCtx) (va : DWord) (e : S1Step) (span : Nat) (pte : DWord) (s : State)
    (h : pteV pte = true) : Work s (fillS1 x va e span pte s) := Work.fill s _ h

theorem s1Walk_works (x : WalkCtx) (va : DWord) (fuel : Nat) (cached gpath : Bool) (level a : Nat) (s : State) :
    (s1Walk x va fuel cached gpath level a s).Works s := by
  induction fuel generalizing cached gpath level a s with
  | zero => exact Work.refl s
  | succ fuel ih =>
    refine Res.Works.bind (s1Fetch_works _ _ _ _ _ _ _) fun e t => ?_
    split
    · exact Work.refl t
    · rename_i hk
      exact Res.Works.trans (fillS1_work _ _ _ _ _ _ (pteV_of_classify (by rw [hk]; simp))) (ih _ _ _ _ _)
    · rename_i span hk
      have hv : pteV e.pte = true := pteV_of_classify (by rw [hk]; simp)
      split
      · exact Work.refl t
      · split
        · exact fillS1_work _ _ _ _ _ _ hv
        · split
          · exact Work.refl t
          · split
            · exact Work.refl t
            · refine Res.Works.bind (s1Update_works _ _ _ _ _ _) fun d u => ?_
              split
              · exact fillS1_work _ _ _ _ _ _ (pteV_pteTouch hv _)
              · exact ih _ _ _ _ _

theorem firstStage_works (x : WalkCtx) (cached : Bool) (va : DWord) (s : State) :
    (firstStage x cached va s).Works s := by
  unfold firstStage
  split
  · exact Work.refl s
  · split
    · exact Work.refl s
    · exact s1Walk_works _ _ _ _ _ _ _ _

/-! ### Process contexts -/

theorem readPdt_works (x : WalkCtx) (a n : Nat) (s : State) : (readPdt x a n s).Works s := by
  refine Res.Works.bind (secondStage_works _ _ _ _ _) fun l s1 => ?_
  have h := (Work.countEvent s1 .pdtWalk x.ids).trans (Work.readMem _ l.addr.toNat n x.qos)
  revert h
  rcases (s1.countEvent .pdtWalk x.ids).readMem l.addr.toNat n x.qos with ⟨_ | _ | _, t⟩ <;> exact id

theorem checkPC_works (x : WalkCtx) (dc : DC) (pid : BitVec 20) (pc : PC) (s : State) :
    (checkPC x dc pid pc s).Works s := by
  unfold checkPC
  split
  · exact Work.refl s
  · rename_i h
    split
    · exact Work.refl s
    · exact Work.fill s _ (by simpa [IoatcEntry.valid, PC.v] using h)

theorem checkPdte_works (x : WalkCtx) (pid : BitVec 20) (i : Nat) (e : DWord) (s : State) :
    (checkPdte x pid i e s).Works s := by
  unfold checkPdte
  split
  · exact Work.refl s
  · rename_i h
    have hv : e.getLsbD 0 = true := by revert h; cases e.getLsbD 0 <;> simp
    split
    · exact Work.refl s
    · exact (Work.fill s (.pdtNL x.ids.did i (pdiShift i) pid e) hv :)

theorem pdtWalk_works (x : WalkCtx) (dc : DC) (pid : BitVec 20) (i a : Nat) (s : State) :
    (pdtWalk x dc pid i a s).Works s := by
  induction i generalizing a s with
  | zero => exact Res.Works.bind (readPdt_works _ _ _ _) fun _ _ => checkPC_works _ _ _ _ _
  | succ i ih =>
    unfold pdtWalk
    have hc := Work.choose s (s.pdtCandidates x.ids.did (i + 1) pid)
    split
    · rename_i e s1 heq
      rw [heq] at hc
      exact Res.Works.trans hc (Res.Works.bind (checkPdte_works _ _ _ _ _) fun _ _ => ih _ _)
    · rename_i s1 heq
      rw [heq] at hc
      have h1 := fun bs s2 => checkPdte_works x pid (i + 1) (dwordAt x.sbe bs 0) s2
      have h2 := Res.Works.bind (readPdt_works x (a + pdi pid (i + 1) * 8) 8 s1) h1
      exact Res.Works.trans hc (Res.Works.bind h2 fun _ _ => ih _ _)

theorem locatePC_works (x : WalkCtx) (dc : DC) (pid : BitVec 20) (s : State) : (locatePC x dc pid s).Works s := by
  unfold locatePC
  have hc := Work.choose s (s.pcCandidates x.ids.did pid)
  split
  · rename_i pc s1 heq
    rw [heq] at hc
    exact Res.Works.trans hc (checkPC_works _ _ _ _ _)
  · rename_i s1 heq
    rw [heq] at hc
    exact Res.Works.trans hc (pdtWalk_works _ _ _ _ _ _)

/-! ### MSI translation and MRIFs -/

theorem dw0_of_msiDecode {c : Cfg} {dw0 dw1 a : DWord} {r : MsiResult} (h : msiDecode c dw0 dw1 a = .ok r) :
    dw0.getLsbD 0 = true := by
  cases hv : dw0.getLsbD 0 with
  | true => rfl
  | false => rw [msiDecode, hv] at h; cases h

theorem msiFetch_works (x : WalkCtx) (a : DWord) (s : State) : (msiFetch x a s).Works s := by
  unfold msiFetch
  have hc := Work.choose s (s.msiCandidates x.gscid (pageOf a))
  split
  · rename_i e s1 heq
    rw [heq] at hc
    exact hc
  · rename_i s1 heq
    rw [heq] at hc
    have h := hc.trans (Work.readMem s1 (msiPteAddr x.dc a) 16 x.qos)
    revert h
    rcases s1.readMem (msiPteAddr x.dc a) 16 x.qos with ⟨_ | _ | _, t⟩ <;> exact id

theorem msiTranslate_works (x : WalkCtx) (debug : Bool) (a : DWord) (s : State) :
    (msiTranslate x debug a s).Works s := by
  refine Res.Works.bind (msiFetch_works _ _ _) fun e t => ?_
  rcases hd : msiDecode t.cfg e.1 e.2 a with c | r
  · exact Work.refl t
  · have hf := Work.fill t (.msi x.gscid (pageOf a) e.1 e.2) (dw0_of_msiDecode hd)
    dsimp only
    generalize (debug && _) = g
    split
    · exact Work.refl t
    · split
      · exact Work.refl t
      · exact hf

theorem mrifPend_works (x : WalkCtx) (mrif d : Nat) (s : State) : (mrifPend x mrif d s).Works s := by
  unfold mrifPend
  dsimp only
  split
  · have h := Work.updateMem s (mrif + 16 * (d / 64)) 8 (mrifSet (d % 64)) x.qos
    revert h
    rcases s.updateMem (mrif + 16 * (d / 64)) 8 (mrifSet (d % 64)) x.qos with ⟨_ | _ | _, t⟩ <;> exact id
  · have h := Work.readMem s (mrif + 16 * (d / 64)) 8 x.qos
    revert h
    rcases s.readMem (mrif + 16 * (d / 64)) 8 x.qos with ⟨bs | _ | _, t⟩ <;> intro h
    · have k := Work.writeMem t (mrif + 16 * (d / 64)) (mrifSet (d % 64) bs) x.qos
      dsimp only
      revert k
      rcases t.writeMem (mrif + 16 * (d / 64)) (mrifSet (d % 64) bs) x.qos with ⟨_ | _, u⟩ <;> exact fun k => Work.trans h k
    · exact h
    · exact h

theorem noticeMsi_works (x : WalkCtx) (info : MrifInfo) (s : State) : (noticeMsi x info s).Works s := by
  have h := Work.writeMem s info.noticeAddr.toNat (toBytes s.fctl.be 4 info.noticeData.toNat) s.iommuQos
  unfold noticeMsi
  revert h
  rcases s.writeMem info.noticeAddr.toNat (toBytes s.fctl.be 4 info.noticeData.toNat) s.iommuQos with ⟨_ | _, t⟩ <;>
    intro h
  · exact h
  · exact Work.trans h (Work.emit _ _)

theorem mrifStore_works (x : WalkCtx) (info : MrifInfo) (d : Nat) (s : State) : (mrifStore x info d s).Works s := by
  unfold mrifStore
  split
  · exact Work.refl s
  · refine Res.Works.bind (mrifPend_works _ _ _ _) fun _ t => ?_
    have h := Work.readMem t (info.mrifAddr.toNat + 16 * (d / 64) + 8) 8 x.qos
    dsimp only
    revert h
    rcases t.readMem (info.mrifAddr.toNat + 16 * (d / 64) + 8) 8 x.qos with ⟨bs | _ | _, u⟩ <;> intro h
    · dsimp only
      split
      · exact Res.Works.trans h (noticeMsi_works _ _ _)
      · exact h
    · exact h
    · exact h

theorem mrifAccess_works (x : WalkCtx) (info : MrifInfo) (a : DWord) (data : List Byte) (s : State) :
    (mrifAccess x info a data s).Works s := by
  unfold mrifAccess
  split
  · exact mrifStore_works _ _ _ _
  · exact Work.refl s

/-! ### The process as a whole -/

theorem planWithDC_works (r : Request) (dc : DC) (s : State) : (planWithDC r dc s).Works s := by
  unfold planWithDC
  dsimp only
  split
  · exact Work.refl s
  split
  · exact Work.refl s
  split
  · exact Work.refl s
  split
  · split <;> exact Work.refl s
  split
  · exact Work.refl s
  split
  · exact Work.refl s
  split
  · exact Work.refl s
  · refine Res.Works.bind (locatePC_works _ _ _ _) fun pc t => ?_
    split <;> exact Work.refl t

theorem plan_works (r : Request) (s : State) : (plan r s).Works s := by
  unfold plan
  split
  · exact Work.refl s
  · split
    · exact Work.refl s
    · split <;> exact Work.refl s
    · split
      · exact Work.refl s
      · exact Res.Works.bind (locateDC_works _ _) fun _ _ => planWithDC_works _ _ _

theorem walkStages_works (x : WalkCtx) (r : Request) (debug : Bool) (s : State) :
    (walkStages x r debug s).Works s := by
  refine Res.Works.bind (firstStage_works _ _ _ _) fun l1 s1 => ?_
  split
  · refine Res.Works.bind (msiTranslate_works _ _ _ _) fun m s2 => ?_
    split
    · exact Work.refl s2
    · exact Res.Works.bind (mrifAccess_works _ _ _ _ _) fun _ s3 => Work.freshValue s3
  · refine Res.Works.bind (secondStage_works _ _ _ _ _) fun l2 s2 => ?_
    change Work s2 _
    split
    · exact Work.fill s2 _ rfl
    · exact Work.refl s2

theorem runWalk_works (x : WalkCtx) (r : Request) (debug : Bool) (s : State) : (runWalk x r debug s).Works s := by
  unfold runWalk
  dsimp only
  have hc := Work.choose s (if x.twoStage then s.s12Candidates x.gscid x.pscid (pageOf r.iova) (s12Permits s.cfg x r.iova) else [])
  split
  · rename_i e s1 heq
    rw [heq] at hc
    exact hc
  · rename_i s1 heq
    rw [heq] at hc
    exact Res.Works.trans hc (walkStages_works _ _ _ _)

/-- The process to translate an IOVA is internal work. -/
theorem translate_works (r : Request) (debug : Bool) (s : State) : (translate r debug s).Works s := by
  refine Res.Works.bind (plan_works _ _) fun p t => ?_
  split
  · exact Work.refl t
  · exact Res.Works.bind (runWalk_works _ _ _ _) fun _ u => Work.refl u

theorem State.enter_work (s : State) (r : Request) : Work s (s.enter r) :=
  (Work.walked s false).trans (Work.countEvent _ _ _)

theorem State.leave_work (s : State) (ids : EventIds) : Work s (s.leave ids) := by
  unfold State.leave
  split
  · exact Work.countEvent _ _ _
  · exact Work.refl s

/-! ### ATS Translation Requests -/

theorem s2SetD_works (x : WalkCtx) (loc : Option (DWord × DWord)) (s : State) : (s2SetD x loc s).Works s := by
  unfold s2SetD
  split
  · exact Work.refl s
  · exact updatePte_works _ _ _ _ _ _ _ _ _

theorem s1SetD_works (x : WalkCtx) (cached : Bool) (loc : Option (DWord × DWord)) (s : State) :
    (s1SetD x cached loc s).Works s := by
  unfold s1SetD
  split
  · exact Work.refl s
  · exact s1Update_works _ _ _ _ _ _

theorem atsDirty_works (x : WalkCtx) (cached : Bool) (l1 : Leaf) (w2 d2 : Bool) (clean2 : Option (DWord × DWord))
    (s : State) : (atsDirty x cached l1 w2 d2 clean2 s).Works s := by
  unfold atsDirty
  split
  · exact Work.refl s
  · split
    · refine Res.Works.bind (s1SetD_works _ _ _ _) fun ok1 s1 => ?_
      split
      · exact Res.Works.bind (s2SetD_works _ _ _) fun _ u => Work.refl u
      · exact Work.refl s1
    · exact Work.refl s

theorem atsWalk_works (x : WalkCtx) (iova : DWord) (t2gpa : Bool) (fuel : Nat) (cached : Bool) (s : State) :
    (atsWalk x iova t2gpa fuel cached s).Works s := by
  induction fuel generalizing cached s with
  | zero => exact Work.refl s
  | succ fuel ih =>
    refine Res.Works.bind (firstStage_works _ _ _ _) fun l1 s1 => ?_
    split
    · refine Res.Works.bind (Res.Works.finding (msiTranslate_works _ _ _ _) _) fun m s2 => ?_
      refine Res.Works.bind (Res.Works.finding (atsDirty_works _ _ _ _ _ _ _) _) fun w s3 => ?_
      split
      · exact ih _ _
      · split
        · exact Work.refl s3
        · exact Work.freshValue s3
    · refine Res.Works.bind (Res.Works.finding (secondStage_works _ _ _ _ _) _) fun l2 s2 => ?_
      refine Res.Works.bind (Res.Works.finding (atsDirty_works _ _ _ _ _ _ _) _) fun w s3 => ?_
      split
      · exact ih _ _
      · exact Work.refl s3

theorem cxlIoBit_work (r : Request) (i : CxlInfo) (s : State) : Work s (cxlIoBit r i s).2 := by
  unfold cxlIoBit
  split
  · exact Work.refl s
  · split
    · exact Work.refl s
    · exact Work.draw s 2

theorem freePage_work (s : State) : Work s (freePage s).2 := Work.freshValue s

theorem atsPerms_work (x : WalkCtx) (q : Request) (d : AtsDone) (s : State) : Work s (atsPerms x q d s).2 := by
  unfold atsPerms
  split
  · exact Work.refl s
  · dsimp only
    split
    · exact Work.draw s 2
    · exact Work.refl s

theorem atsSuccess_work (x : WalkCtx) (q : Request) (d : AtsDone) (s : State) : Work s (atsSuccess x q d s).2 := by
  have h := (atsPerms_work x q d s).trans (cxlIoBit_work q ⟨d.msi, x.dc.t2gpa, d.pbmt⟩ _)
  unfold atsSuccess
  dsimp only
  split
  · exact h
  · exact h.trans (freePage_work _)

theorem atsNoAccess_work (q : Request) (f : Stop) (s : State) : Work s (atsNoAccess q f s).2 :=
  (cxlIoBit_work _ _ _).trans (freePage_work _)

theorem atsFault_work (q : Request) (f : Stop) (s : State) : Work s (atsFault q f s) := by
  unfold atsFault
  split
  · exact (atsNoAccess_work q f s).trans (Work.takeFault _ _ _ _ _)
  · exact Work.takeFault _ _ _ _ _
  · exact Work.takeFault _ _ _ _ _

theorem atsTranslate_works (q : Request) (s : State) : (atsTranslate q s).Works s := by
  refine Res.Works.bind (plan_works _ _) fun p s1 => ?_
  split
  · exact Work.refl s1
  · exact Res.Works.bind (atsWalk_works _ _ _ _ _ _) fun d s2 => atsSuccess_work _ _ _ _

/-- An ATS Translation Request, from entry to response, is internal work. -/
theorem serveAts_work (q : Request) (s : State) : Work s (serveAts q s) := by
  have h := Res.Works.trans (State.enter_work s q) (atsTranslate_works q (s.enter q))
  unfold serveAts
  revert h
  rcases atsTranslate q (s.enter q) with ⟨d, t⟩ | ⟨f, t⟩ <;> intro h
  · exact (Work.trans h (State.leave_work _ _)).trans (Work.emit _ _)
  · exact (Work.trans h (State.leave_work _ _)).trans (atsFault_work _ _ _)

theorem messageDC_works (ids : EventIds) (s : State) : (messageDC ids s).Works s := by
  unfold messageDC
  split
  · exact Work.refl s
  · exact Work.refl s
  · split
    · exact Work.refl s
    · exact locateDC_works _ _

theorem State.respondPrg_work (s : State) (m : PageRequest) (prpr : Bool) (status : PrgStatus) :
    Work s (s.respondPrg m prpr status) := by
  unfold State.respondPrg
  split
  · exact Work.refl s
  · exact Work.emit _ _

end Sys2Proof.Machine
end

