-- ==== Sys2Proof/Laws/Steps.lean ====
section
/-! SUPPORT. What a step can do, said once: `Did s t` lists the changes from which every step is made. Each command, each
request, each register write and the step itself have one lemma that gives the changes it makes. -/

namespace Sys2Proof.Machine

/-- A change of the state that a step can make, or several of them. The changes with `true` are made by register writes
alone; those with any `sw` by the IOMMU as well. A change that can make a level condition of an interrupt hold is one with
the update of its pending bit (R591). -/
inductive Did : Bool → State → State → Prop where
  | work {sw : Bool} {s t : State} (h : Work s t) : Did sw s t
  | trans {sw : Bool} {s t u : State} (h : Did sw s t) (k : Did sw t u) : Did sw s u
  /-- the caches lose entries -/
  | drop {sw : Bool} (s : State) (l : List IoatcEntry) (h : ∀ e, e ∈ l → e ∈ s.ioatc) : Did sw s { s with ioatc := l }
  | advance {sw : Bool} (s : State) : Did sw s s.advanceCq
  /-- error bits of `cqcsr` -/
  | status {sw : Bool} (s : State) (q : Cqcsr) (hen : q.cqen = s.cqcsr.cqen) (hie : q.cie = s.cqcsr.cie)
      (hon : q.cqon = s.cqcsr.cqon) (hb : q.busy = s.cqcsr.busy) : Did sw s ({ s with cqcsr := q } : State).updateCip
  /-- the commands that are not complete -/
  | commands {sw : Bool} (s : State) (o : List OutstandingInval) (b : Bool) (f : Option Instr) (n : Nat) :
      Did sw s { s with outstanding := o, timedOut := b, fetched := f, itag := n }
  | accesses {sw : Bool} (s : State) (r : List PendingRead) (w : List PendingWrite) :
      Did sw s { s with uncommittedReads := r, uncommittedWrites := w }
  | pqStatus {sw : Bool} (s : State) (mf ovf : Bool)
      (hon : s.pqcsr.on = true) : Did sw s ({ s with pqcsr := { s.pqcsr with mf := mf, ovf := ovf } } : State).updatePip
  | pqNext {sw : Bool} (s : State) (hon : s.pqcsr.on = true) : Did sw s { s with pqt := s.pqb.next s.pqt }
  /-- half of a register read -/
  | halfReads {sw : Bool} (s : State) (l : List HalfRead) : Did sw s { s with halfReads := l }
  | cycles {sw : Bool} (s : State) (c : HpmCycles) (h : c.counter.toNat < 2 ^ cyclesWidth s.cfg) (hp : s.cfg.hpm = true) :
      Did sw s { s with iohpmcycles := c }
  | fctl (s : State) (f : Fctl) (hbe : s.cfg.endBoth = false → f.be = s.fctl.be)
      (hwsi : s.cfg.igs ≠ .both → f.wsi = s.fctl.wsi) (hgxl : s.cfg.gxlWritable = false → f.gxl = s.fctl.gxl) :
      Did true s { s with fctl := f, cqcsr := { s.cqcsr with fenceWIp := s.fenceIp && f.wsi } }
  | ddtp (s : State) (m : IommuMode) (p : BitVec 44) (hm : modeSupported s.cfg m = true ∨ m = s.ddtp.mode)
      (hp : legalPpn s.cfg p = true ∨ p = s.ddtp.ppn) : Did true s { s with ddtp := ⟨m, false, p⟩ }
  /-- a queue base while the queue is off; the index that software owns is in range after it, or neither it nor the size
  changes -/
  | cqb (s : State) (b : QBase) (i : BitVec 32) (hon : s.cqcsr.cqon = false)
      (hsz : b.log2sz ≤ s.cfg.cqLog2szMax ∨ b.log2szm1 = s.cqb.log2szm1)
      (hp : legalPpn s.cfg b.ppn = true ∨ b.ppn = s.cqb.ppn)
      (hi : b.inRange i = true ∨ (b.log2szm1 = s.cqb.log2szm1 ∧ i = s.cqt)) : Did true s { s with cqb := b, cqt := i }
  | fqb (s : State) (b : QBase) (i : BitVec 32) (hon : s.fqcsr.on = false)
      (hsz : b.log2sz ≤ s.cfg.fqLog2szMax ∨ b.log2szm1 = s.fqb.log2szm1)
      (hp : legalPpn s.cfg b.ppn = true ∨ b.ppn = s.fqb.ppn)
      (hi : b.inRange i = true ∨ (b.log2szm1 = s.fqb.log2szm1 ∧ i = s.fqh)) : Did true s { s with fqb := b, fqh := i }
  | pqb (s : State) (b : QBase) (i : BitVec 32) (hon : s.pqcsr.on = false)
      (hsz : b.log2sz ≤ s.cfg.pqLog2szMax ∨ b.log2szm1 = s.pqb.log2szm1)
      (hp : legalPpn s.cfg b.ppn = true ∨ b.ppn = s.pqb.ppn)
      (hi : b.inRange i = true ∨ (b.log2szm1 = s.pqb.log2szm1 ∧ i = s.pqh)) (ha : s.cfg.ats = true) : Did true s { s with pqb := b, pqh := i }
  | cqt (s : State) (i : BitVec 32) (hi : s.cqb.inRange i = true) : Did true s { s with cqt := i }
  | fqh (s : State) (i : BitVec 32) (hi : s.fqb.inRange i = true) : Did true s { s with fqh := i }
  | pqh (s : State) (i : BitVec 32) (hi : s.pqb.inRange i = true) (ha : s.cfg.ats = true) : Did true s { s with pqh := i }
  | cqOn (s : State) (ie : Bool) :
      Did true s ({ s with cqh := 0#32, cqcsr := ⟨true, ie, false, false, false, false, true, false⟩ } : State).updateCip
  /-- any other write of `cqcsr`: it can turn the queue off -/
  | cqSet (s : State) (q : Cqcsr) (hon : q.cqon = false ∧ q.cqen = false ∨ q.cqon = s.cqcsr.cqon ∧ q.cqen = s.cqcsr.cqen)
      (hb : q.busy = s.cqcsr.busy) : Did true s ({ s with cqcsr := q } : State).updateCip
  | fqOn (s : State) (ie : Bool) :
      Did true s ({ s with fqt := 0#32, fqcsr := ⟨true, ie, false, false, true, false⟩ } : State).updateFip
  | fqSet (s : State) (q : OutCsr) (hon : q.on = (s.fqcsr.on && q.en)) (hen : q.en = true → s.fqcsr.en = true)
      (hb : q.busy = s.fqcsr.busy) : Did true s ({ s with fqcsr := q } : State).updateFip
  | pqOn (s : State) (ie : Bool) (ha : s.cfg.ats = true) :
      Did true s ({ s with pqt := 0#32, pqcsr := ⟨true, ie, false, false, true, false⟩ } : State).updatePip
  | pqSet (s : State) (q : OutCsr) (hon : q.on = (s.pqcsr.on && q.en)) (hen : q.en = true → s.pqcsr.en = true)
      (hb : q.busy = s.pqcsr.busy) (ha : s.cfg.ats = true) : Did true s ({ s with pqcsr := q } : State).updatePip
  | ipsr (s : State) (r : Ipsr) : Did true s ({ s with ipsr := r } : State).updateCip.updateFip.updatePip
  | countinh (s : State) (v : BitVec 32) (h : v.toNat < 2 ^ (s.cfg.hpmCounters + 1)) (hp : s.cfg.hpm = true) :
      Did true s { s with iocountinh := v }
  | counter (s : State) (n : Fin 31) (c : DWord) (h : c.toNat < 2 ^ s.cfg.hpmWidth)
      (hp : (Reg.iohpmctr n).present s.cfg = true) :
      Did true s { s with iohpmctr := s.iohpmctr.set n c }
  | selector (s : State) (n : Fin 31) (e : HpmEvt) (h : e.legal s.cfg = true ∨ e.eventId = s.iohpmevt[n].eventId)
      (hp : (Reg.iohpmctr n).present s.cfg = true) :
      Did true s { s with iohpmevt := s.iohpmevt.set n e }
  | debug (s : State) (v : BitVec 52) (c : TrReqCtl) (r : DWord) (h : c.goBusy = false ∨ c = s.trReqCtl)
      (hd : s.cfg.dbg = true) :
      Did true s { s with trReqIova := v, trReqCtl := c, trResponse := r }
  | qosid (s : State) (q : Qos) (hr : q.rcid.toNat < 2 ^ s.cfg.rcidWidth) (hm : q.mcid.toNat < 2 ^ s.cfg.mcidWidth)
      (hq : s.cfg.qosid = true) :
      Did true s { s with qosid := q }
  | icvec (s : State) (r : Icvec)
      (h : ∀ b, (r.vector b).toNat < s.cfg.nVectors ∨ r.vector b = s.icvec.vector b) :
      Did true s { s with icvec := r }
  | msiEntry (s : State) (x : Fin 16) (e : MsiEntry)
      (h : e.addr.toNat * 4 < 2 ^ s.cfg.pas ∨ e.addr = s.msiCfg[x].addr)
      (hp : (Reg.msiAddr x).present s.cfg = true) : Did true s { s with msiCfg := s.msiCfg.set x e }
  | msiPending (s : State) (x : Fin 16) (b : Bool) : Did true s { s with msiPending := s.msiPending.set x b }

theorem Did.refl (sw : Bool) (s : State) : Did sw s s := .work (Work.refl s)

section Internal
variable {sw : Bool}

/-! ### The queue engine and the commands -/

theorem State.commandIllegal_did (s : State) : Did sw s s.commandIllegal :=
  .status s { s.cqcsr with cmdIll := true } rfl rfl rfl rfl

theorem State.commandMemoryFault_did (s : State) : Did sw s s.commandMemoryFault :=
  .status s { s.cqcsr with cqmf := true } rfl rfl rfl rfl

theorem State.commandTimeout_did (s : State) : Did sw s s.commandTimeout :=
  .trans (.commands s s.outstanding false s.fetched s.itag)
    (.status { s with timedOut := false } { s.cqcsr with cmdTo := true } rfl rfl rfl rfl)

theorem State.signalFence_did (s : State) : Did sw s s.signalFence :=
  .status s { s.cqcsr with fenceWIp := true } rfl rfl rfl rfl

theorem State.invalidate_did (s : State) (f : IoatcEntry → Bool) : Did sw s (s.invalidate f) :=
  .drop s _ fun _ he => (List.mem_filter.mp he).1

theorem State.commitReads_did (s : State) : Did sw s s.commitReads :=
  .trans (.accesses s [] s.uncommittedWrites) (.work (Work.commitReads s))

theorem State.commitWrites_did (s : State) : Did sw s s.commitWrites :=
  .trans (.accesses s s.uncommittedReads []) (.work (Work.commitWrites s))

theorem fenceCommit_did (pr pw : Bool) (s : State) : Did sw s (fenceCommit pr pw s) := by
  unfold fenceCommit
  cases pr <;> cases pw
  · exact .refl sw s
  · exact s.commitWrites_did
  · exact s.commitReads_did
  · exact .trans s.commitReads_did (State.commitWrites_did _)

theorem fenceDone_did (wsi : Bool) (s : State) : ∃ t, fenceDone wsi s = .next t ∧ Did sw s t := by
  refine ⟨_, rfl, ?_⟩
  cases wsi
  · exact .advance s
  · exact .trans s.signalFence_did (.advance _)

theorem fenceStore_did (wsi : Bool) (data : BitVec 32) (addr : BitVec 62) (s : State) :
    ∃ t, fenceStore wsi data addr s = .next t ∧ Did sw s t := by
  have h := Work.writeMem s (addr.toNat * 4) (toBytes s.fctl.be 4 data.toNat) s.iommuQos
  unfold fenceStore
  revert h
  rcases s.writeMem (addr.toNat * 4) (toBytes s.fctl.be 4 data.toNat) s.iommuQos with ⟨_ | _, u⟩ <;> intro h
  · exact ⟨_, rfl, .trans (.work h) (State.commandMemoryFault_did _)⟩
  · obtain ⟨t, ht, hd⟩ := fenceDone_did wsi u
    exact ⟨t, ht, .trans (.work h) hd⟩

/-- Every command answers a next state, made of the listed changes. -/
theorem exec_did (i : Instr) (s : State) : ∃ t, exec i s = .next t ∧ Did sw s t := by
  cases i with
  | iotinvalVma =>
    simp only [exec, execIotinvalVma]
    split
    · exact ⟨_, rfl, s.commandIllegal_did⟩
    · exact ⟨_, rfl, .trans (s.invalidate_did _) (.advance _)⟩
  | iotinvalGvma =>
    simp only [exec, execIotinvalGvma]
    split
    · exact ⟨_, rfl, s.commandIllegal_did⟩
    · exact ⟨_, rfl, .trans (s.invalidate_did _) (.advance _)⟩
  | iofenceC av wsi pr pw data addr =>
    simp only [exec, execIofenceC]
    split
    · exact ⟨_, rfl, s.commandIllegal_did⟩
    · split
      · exact ⟨_, rfl, .commands s s.outstanding s.timedOut _ s.itag⟩
      · split
        · exact ⟨_, rfl, s.commandTimeout_did⟩
        · split
          · obtain ⟨t, ht, hd⟩ := fenceStore_did wsi data addr (fenceCommit pr pw s)
            exact ⟨t, ht, .trans (fenceCommit_did pr pw s) hd⟩
          · obtain ⟨t, ht, hd⟩ := fenceDone_did wsi (fenceCommit pr pw s)
            exact ⟨t, ht, .trans (fenceCommit_did pr pw s) hd⟩
  | iodirInvalDdt =>
    simp only [exec, execIodirInvalDdt]
    split
    · exact ⟨_, rfl, s.commandIllegal_did⟩
    · exact ⟨_, rfl, .trans (s.invalidate_did _) (.advance _)⟩
  | iodirInvalPdt =>
    simp only [exec, execIodirInvalPdt]
    split
    · exact ⟨_, rfl, s.commandIllegal_did⟩
    · exact ⟨_, rfl, .trans (s.invalidate_did _) (.advance _)⟩
  | atsInval pv dsv pid rid dseg payload =>
    simp only [exec, execAtsInval]
    split
    · exact ⟨_, rfl, s.commandIllegal_did⟩
    · exact ⟨_, rfl, .trans (.trans (.work (Work.emit s _)) (.commands _ _ s.timedOut s.fetched _)) (.advance _)⟩
  | atsPrgr =>
    simp only [exec, execAtsPrgr]
    split
    · exact ⟨_, rfl, s.commandIllegal_did⟩
    · exact ⟨_, rfl, .trans (.work (Work.emit s _)) (.advance _)⟩

/-- A turn of the engine answers a next state, made of the listed changes. -/
theorem cqStep_did (s : State) : ∃ t, cqStep s = .next t ∧ Did sw s t := by
  have h := Work.readMem s s.fetchAddr 16 s.iommuQos
  unfold cqStep
  split
  · split
    · rename_i i _ _
      obtain ⟨t, ht, hd⟩ := exec_did i { s with fetched := none }
      exact ⟨t, ht, .trans (.commands s s.outstanding s.timedOut none s.itag) hd⟩
    · exact ⟨s, rfl, .refl sw s⟩
  · split
    · exact ⟨s, rfl, .refl sw s⟩
    · revert h
      rcases s.readMem s.fetchAddr 16 s.iommuQos with ⟨bs | _ | _, u⟩ <;> intro h
      · dsimp only
        split
        · exact ⟨_, rfl, .trans (.work h) (State.commandIllegal_did _)⟩
        · rename_i i _
          obtain ⟨t, ht, hd⟩ := exec_did i u
          exact ⟨t, ht, .trans (.work h) hd⟩
      · exact ⟨_, rfl, .trans (.work h) (State.commandMemoryFault_did _)⟩
      · exact ⟨_, rfl, .trans (.work h) (State.commandMemoryFault_did _)⟩

/-! ### Requests and messages -/

/-- A request is internal work, and then a change of the pending accesses. -/
theorem serveRequest_did (r : Request) (s : State) : Did sw s (serveRequest r s) := by
  have h := Res.Works.trans (State.enter_work s r) (translate_works r false (s.enter r))
  unfold serveRequest
  revert h
  rcases translate r false (s.enter r) with ⟨d, t⟩ | ⟨f, t⟩ <;> intro h
  · refine .trans (.work (Work.trans h (State.leave_work _ d.ids))) (.trans ?_ (.work (Work.emit _ _)))
    unfold State.startAccess
    split
    · exact .refl sw _
    · split
      · exact .accesses _ _ _
      · exact .accesses _ _ _
  · exact .work ((Work.trans h (State.leave_work _ _)).trans (Work.takeFault _ _ _ _ _))

theorem serve_did (r : Request) (s : State) : Did sw s (serve r s) := by
  unfold serve
  split
  · exact .work (serveAts_work r s)
  · exact serveRequest_did r s

theorem State.pqEnqueue_did (s : State) (m : PageRequest) : Did sw s (s.pqEnqueue m).2 := by
  unfold State.pqEnqueue
  split
  · exact .refl sw s
  rename_i hq
  have hon : s.pqcsr.on = true := by
    cases h : s.pqcsr.on
    · simp [h] at hq
    · rfl
  split
  · exact .refl sw s
  split
  · exact .refl sw s
  split
  · exact .pqStatus s s.pqcsr.mf true hon
  · have hw := Work.storeRecord s (s.pqb.entryAddr 4 s.pqt) m.dwords
    revert hw
    rcases s.storeRecord (s.pqb.entryAddr 4 s.pqt) m.dwords with ⟨_ | _, t⟩ <;> intro hw
    · exact .trans (.work hw) (.pqStatus t true t.pqcsr.ovf (hw.pqcsr ▸ hon))
    · refine .trans (.work hw) (.trans (.pqNext t (hw.pqcsr ▸ hon)) ?_)
      change Did sw _ (if _ then _ else _)
      split
      · exact .work (Work.raiseIp _ _).1
      · exact .refl sw _

theorem servePageRequest_did (m : PageRequest) (s : State) : Did sw s (servePageRequest m s) := by
  have h := messageDC_works ⟨m.did, if m.pasidValid then some m.pasid else none, none, none⟩ s
  unfold servePageRequest
  revert h
  rcases messageDC ⟨m.did, if m.pasidValid then some m.pasid else none, none, none⟩ s with ⟨dc, t⟩ | ⟨f, t⟩ <;> intro h
  · dsimp only
    split
    · exact .work ((Work.trans h (Work.takeFault _ _ _ _ _)).trans (State.respondPrg_work _ _ _ _))
    · have hq : Did sw t (t.pqEnqueue m).2 := State.pqEnqueue_did t m
      revert hq
      rcases t.pqEnqueue m with ⟨_ | st, u⟩ <;> intro hq
      · exact .trans (.work h) hq
      · exact .trans (.work h) (.trans hq (.work (State.respondPrg_work _ _ _ _)))
  · exact .work ((Work.trans h (Work.takeFault _ _ _ _ _)).trans (State.respondPrg_work _ _ _ _))

theorem serveInvalCompletion_did (did : BitVec 24) (itag : Nat) (s : State) :
    Did sw s (serveInvalCompletion did itag s) := by
  have h := messageDC_works ⟨did, none, none, none⟩ s
  unfold serveInvalCompletion
  revert h
  rcases messageDC ⟨did, none, none, none⟩ s with ⟨dc, t⟩ | ⟨f, t⟩ <;> intro h
  · dsimp only
    split
    · exact .work (Work.trans h (Work.takeFault _ _ _ _ _))
    · exact .trans (.work h) (.commands t _ t.timedOut t.fetched t.itag)
  · exact .work (Work.trans h (Work.takeFault _ _ _ _ _))

theorem serveInvalTimeout_did (itag : Nat) (s : State) : Did sw s (serveInvalTimeout itag s) := by
  unfold serveInvalTimeout
  split
  · exact .commands s _ true s.fetched s.itag
  · exact .refl sw s

end Internal

/-! ### Register writes -/

theorem legalMode_supported {c : Cfg} {v : BitVec 4} {m : IommuMode} (h : legalMode c v = some m) :
    modeSupported c m = true := by
  unfold legalMode at h
  split at h
  · cases h; rfl
  split at h
  · cases h; rfl
  split at h
  · split at h <;> cases h; assumption
  split at h
  · split at h <;> cases h; assumption
  split at h
  · split at h <;> cases h; assumption
  · cases h

theorem writeFctl_did (s : State) (v : DWord) : Did true s (writeFctl s v) := by
  unfold writeFctl
  dsimp only
  split
  · refine .fctl s _ (fun h => by simp [h]) (fun h => by simp [h]) (fun h => by simp [h])
  · exact .refl _ s

/-- Internal work does not look at `ddtp` or `tr_req_ctl` when it only moves data: setting them before or after is the
same. -/
theorem Work.withDdtp {s t : State} (h : Work s t) (d : Ddtp) : Work { s with ddtp := d } { t with ddtp := d } :=
  ⟨⟨(congrArg (fun x : State => { x with ddtp := d }) h.fixed :), h.out, h.bus, h.ipsr, h.fqt, h.mem, h.cache, h.hpm,
    h.others, h.accesses⟩,
    h.fip⟩

theorem Work.withTrReqCtl {s t : State} (h : Work s t) (c : TrReqCtl) :
    Work { s with trReqCtl := c } { t with trReqCtl := c } :=
  ⟨⟨(congrArg (fun x : State => { x with trReqCtl := c }) h.fixed :), h.out, h.bus, h.ipsr, h.fqt, h.mem, h.cache, h.hpm,
    h.others, h.accesses⟩,
    h.fip⟩

theorem writeDdtp_did (s : State) (v : DWord) (low : Bool) : Did true s (writeDdtp s v low) := by
  unfold writeDdtp
  dsimp only
  generalize hm : (legalMode s.cfg (v.extractLsb' 0 4)).getD s.ddtp.mode = m
  have hm' : modeSupported s.cfg m = true ∨ m = s.ddtp.mode := by
    cases hl : legalMode s.cfg (v.extractLsb' 0 4) with
    | none => rw [hl] at hm; exact .inr hm.symm
    | some x => rw [hl] at hm; cases hm; exact .inl (legalMode_supported hl)
  generalize hp : (if legalPpn s.cfg (ppnEntry v) then ppnEntry v else s.ddtp.ppn) = p
  have hp' : legalPpn s.cfg p = true ∨ p = s.ddtp.ppn := by
    split at hp
    · subst hp; left; assumption
    · exact .inr hp.symm
  split
  · exact .refl _ s
  · refine .trans (.ddtp s m p hm' hp') ?_
    split
    · exact .trans (.accesses _ [] s.uncommittedWrites) (.trans (.work ((Work.commitReads s).withDdtp ⟨m, false, p⟩))
        (.trans (.accesses _ s.commitReads.uncommittedReads []) (.work ((Work.commitWrites s.commitReads).withDdtp ⟨m, false, p⟩))))
    · exact .refl _ _

theorem newBase_size (c : Cfg) (max : Nat) (old : QBase) (v : DWord) :
    (newBase c max old v).log2sz ≤ max ∨ (newBase c max old v).log2szm1 = old.log2szm1 := by
  unfold newBase QBase.log2sz
  dsimp only
  split
  · left; assumption
  · right; rfl

theorem newBase_ppn (c : Cfg) (max : Nat) (old : QBase) (v : DWord) :
    legalPpn c (newBase c max old v).ppn = true ∨ (newBase c max old v).ppn = old.ppn := by
  unfold newBase
  dsimp only
  split
  · left; assumption
  · right; rfl

/-- A write of the high half keeps the size. -/
theorem newBase_high (c : Cfg) (max : Nat) (old : QBase) (w : BitVec 32) :
    (newBase c max old (w ++ old.image.extractLsb' 0 32)).log2szm1 = old.log2szm1 := by
  have h : (w ++ old.image.extractLsb' 0 32 : BitVec (32 + 32)).extractLsb' 0 5 = old.log2szm1 := by
    apply BitVec.eq_of_getLsbD_eq
    intro i hi
    have h32 : i < 32 := by omega
    rw [BitVec.getLsbD_extractLsb', BitVec.getLsbD_append]
    have hq : old.image.getLsbD i = old.log2szm1.getLsbD i := by
      change (((0#10 ++ old.ppn ++ 0#5 : BitVec (10 + 44 + 5)) ++ old.log2szm1 : BitVec (10 + 44 + 5 + 5))).getLsbD i = _
      rw [BitVec.getLsbD_append]
      simp [hi]
    simp [h32, hi, hq]
  have h' : (w ++ old.image.extractLsb' 0 32 : DWord).extractLsb' 0 5 = old.log2szm1 := h
  unfold newBase
  dsimp only
  rw [h']
  split <;> rfl

theorem writeCqb_did (s : State) (v : DWord) (low : Bool)
    (h : low = false → ∃ w : BitVec 32, v = w ++ s.cqb.image.extractLsb' 0 32) : Did true s (writeCqb s v low) := by
  unfold writeCqb
  dsimp only
  split
  · exact .refl _ s
  · rename_i hb
    have hon : s.cqcsr.cqon = false := by simp at hb; exact hb.2
    split
    · exact .trans (.work (Work.freshValue s)) (.cqb s.freshValue.2 _ _ hon (newBase_size _ _ _ _) (newBase_ppn _ _ _ _)
        (.inl (QBase.inRange_mask _ _)))
    · rename_i hl
      obtain ⟨w, hw⟩ := h (by simpa using hl)
      exact .cqb s _ s.cqt hon (newBase_size _ _ _ _) (newBase_ppn _ _ _ _)
        (.inr ⟨by rw [hw]; exact newBase_high _ _ _ _, rfl⟩)

theorem writeFqb_did (s : State) (v : DWord) (low : Bool)
    (h : low = false → ∃ w : BitVec 32, v = w ++ s.fqb.image.extractLsb' 0 32) : Did true s (writeFqb s v low) := by
  unfold writeFqb
  dsimp only
  split
  · exact .refl _ s
  · rename_i hb
    have hon : s.fqcsr.on = false := by simp at hb; exact hb.2
    split
    · exact .trans (.work (Work.freshValue s)) (.fqb s.freshValue.2 _ _ hon (newBase_size _ _ _ _) (newBase_ppn _ _ _ _)
        (.inl (QBase.inRange_mask _ _)))
    · rename_i hl
      obtain ⟨w, hw⟩ := h (by simpa using hl)
      exact .fqb s _ s.fqh hon (newBase_size _ _ _ _) (newBase_ppn _ _ _ _)
        (.inr ⟨by rw [hw]; exact newBase_high _ _ _ _, rfl⟩)

theorem writePqb_did (s : State) (v : DWord) (low : Bool)
    (h : low = false → ∃ w : BitVec 32, v = w ++ s.pqb.image.extractLsb' 0 32) (ha : s.cfg.ats = true) : Did true s (writePqb s v low) := by
  unfold writePqb
  dsimp only
  split
  · exact .refl _ s
  · rename_i hb
    have hon : s.pqcsr.on = false := by simp at hb; exact hb.2
    split
    · exact .trans (.work (Work.freshValue s)) (.pqb s.freshValue.2 _ _ hon (newBase_size _ _ _ _) (newBase_ppn _ _ _ _)
        (.inl (QBase.inRange_mask _ _)) ha)
    · rename_i hl
      obtain ⟨w, hw⟩ := h (by simpa using hl)
      exact .pqb s _ s.pqh hon (newBase_size _ _ _ _) (newBase_ppn _ _ _ _)
        (.inr ⟨by rw [hw]; exact newBase_high _ _ _ _, rfl⟩) ha

theorem writeCqcsr_did (s : State) (v : DWord) : Did true s (writeCqcsr s v) := by
  unfold writeCqcsr
  split
  · exact .refl _ s
  dsimp only
  split
  · exact .cqOn s _
  split
  · exact .trans (.commands s [] false none s.itag)
      (.cqSet { s with outstanding := [], timedOut := false, fetched := none } _ (.inl ⟨rfl, rfl⟩) rfl)
  · exact .cqSet s _ (.inr ⟨rfl, rfl⟩) rfl

theorem writeFqcsr_did (s : State) (v : DWord) : Did true s (writeFqcsr s v) := by
  unfold writeFqcsr newOutCsr
  split
  · exact .refl _ s
  · by_cases h : (!s.fqcsr.en && v.getLsbD 0) = true
    · simp only [h, if_true]
      exact .fqOn s _
    · simp only [h]
      refine .fqSet s _ rfl (fun h1 => ?_) rfl
      have h1 : v.getLsbD 0 = true := h1
      simpa [h1] using h

theorem writePqcsr_did (s : State) (v : DWord) (ha : s.cfg.ats = true) : Did true s (writePqcsr s v) := by
  unfold writePqcsr newOutCsr
  split
  · exact .refl _ s
  · by_cases h : (!s.pqcsr.en && v.getLsbD 0) = true
    · simp only [h, if_true]
      exact .pqOn s _ ha
    · simp only [h]
      refine .pqSet s _ rfl (fun h1 => ?_) rfl ha
      have h1 : v.getLsbD 0 = true := h1
      simpa [h1] using h

theorem mod_pow_lt (n k w : Nat) : (BitVec.ofNat w (n % 2 ^ k)).toNat < 2 ^ k :=
  Nat.lt_of_le_of_lt (by rw [BitVec.toNat_ofNat]; exact Nat.mod_le _ _) (Nat.mod_lt _ (Nat.pow_pos (by omega)))

theorem debugTranslate_did (s : State) (c : TrReqCtl) (hd : s.cfg.dbg = true) :
    Did true s ({ s with trReqCtl := c } : State).debugTranslate := by
  unfold State.debugTranslate
  generalize hq : ({ s with trReqCtl := c } : State).debugRequest = q
  generalize hu : ({ s with trReqCtl := c } : State) = u
  have h := Res.Works.trans (State.enter_work u q) (translate_works q true (u.enter q))
  have key : ∀ t : State, Work u t → ∀ r : DWord,
      Did true s { t with trResponse := r, trReqCtl := { t.trReqCtl with goBusy := false } } := by
    intro t ht r
    have e1 := ht.withTrReqCtl s.trReqCtl
    subst hu
    exact .trans (.work e1) (.debug { t with trReqCtl := s.trReqCtl } t.trReqIova _ r (.inl rfl) (e1.cfg ▸ hd))
  dsimp only
  revert h
  rcases translate q true (u.enter q) with ⟨d, t⟩ | ⟨f, t⟩ <;> intro h
  · exact key _ (Work.trans h (State.leave_work _ _)) _
  · exact key _ (((Work.trans h (State.leave_work _ _)).trans (Work.takeFault _ _ _ _ _)).trans (Work.freshValue _)) _

theorem writeTrReqCtl_did (s : State) (v : DWord) (low : Bool) (hd : s.cfg.dbg = true) : Did true s (writeTrReqCtl s v low) := by
  unfold writeTrReqCtl
  dsimp only
  split
  · exact .refl _ s
  generalize hg : (low && v.getLsbD 0) = go
  generalize hc : TrReqCtl.mk go (v.getLsbD 1) (v.getLsbD 2) (v.getLsbD 3) (v.extractLsb' 12 20) (v.getLsbD 32)
    (v.extractLsb' 40 24) = c
  split
  · exact debugTranslate_did s c hd
  · rename_i hgo
    subst hc
    exact .debug s s.trReqIova _ s.trResponse (.inl (by simpa using hgo)) hd

theorem writeMsiVecCtl_did (s : State) (x : Fin 16) (v : DWord) (hp : (Reg.msiAddr x).present s.cfg = true) :
    Did true s (writeMsiVecCtl s x v) := by
  unfold writeMsiVecCtl
  dsimp only
  have h1 : Did true s { s with msiCfg := s.msiCfg.set x { s.msiCfg[x] with m := v.getLsbD 0 } } :=
    .msiEntry s x _ (.inr rfl) hp
  split
  · exact .trans h1 (.trans (.msiPending _ x false) (.work (Work.sendMsi _ _)))
  · exact h1

/-- A vector field names a vector of the implementation, or what it named before. -/
theorem legalVector_lt (c : Cfg) (old v : BitVec 4) : (legalVector c old v).toNat < c.nVectors ∨ legalVector c old v = old := by
  unfold legalVector
  dsimp only
  split
  · left
    rename_i h
    exact Nat.lt_of_le_of_lt (by rw [BitVec.toNat_ofNat]; exact Nat.mod_le _ _) h
  · exact .inr rfl

/-- A write to a register makes the listed changes. -/
theorem State.writeImage_did (s : State) (r : Reg) (v : DWord) (low : Bool)
    (h : low = false → ∃ w : BitVec 32, v = w ++ (s.image r).extractLsb' 0 32) (hp : r.present s.cfg = true) :
    Did true s (s.writeImage r v low) := by
  cases r
  case fctl => exact writeFctl_did s v
  case ddtp => exact writeDdtp_did s v low
  case cqb => exact writeCqb_did s v low h
  case fqb => exact writeFqb_did s v low h
  case pqb => exact writePqb_did s v low h hp
  case cqt => exact .cqt s _ (QBase.inRange_mask _ _)
  case fqh => exact .fqh s _ (QBase.inRange_mask _ _)
  case pqh => exact .pqh s _ (QBase.inRange_mask _ _) hp
  case cqcsr => exact writeCqcsr_did s v
  case fqcsr => exact writeFqcsr_did s v
  case pqcsr => exact writePqcsr_did s v hp
  case ipsr => exact .ipsr s _
  case iocountinh => exact .countinh s _ (mod_pow_lt _ _ _) hp
  case iohpmcycles => exact .cycles s _ (mod_pow_lt _ _ _) hp
  case iohpmctr n => exact .counter s n _ (mod_pow_lt _ _ _) hp
  case iohpmevt n =>
    refine .selector s n _ ?_ hp
    dsimp only
    split
    · rename_i he; left; simpa [HpmEvt.legal] using he
    · right; rfl
  case trReqIova =>
    change Did true s (writeTrReqIova s v)
    unfold writeTrReqIova
    split
    · exact .refl _ s
    · exact .debug s _ s.trReqCtl s.trResponse (.inr rfl) hp
  case trReqCtl => exact writeTrReqCtl_did s v low hp
  case iommuQosid => exact .qosid s _ (mod_pow_lt _ _ _) (mod_pow_lt _ _ _) hp
  case icvec => exact .icvec s _ (fun b => by cases b <;> exact legalVector_lt _ _ _)
  case msiAddr x =>
    change Did true s (writeMsiAddr s x v)
    unfold writeMsiAddr
    dsimp only
    split
    · rename_i ha; exact .msiEntry s x _ (.inl ha) hp
    · exact .refl _ s
  case msiData x => exact .msiEntry s x _ (.inr rfl) hp
  case msiVecCtl x => exact writeMsiVecCtl_did s x v hp
  all_goals exact .refl _ s

theorem State.writeHalf_did (s : State) (r : Reg) (low : Bool) (v : BitVec 32) : Did true s (s.writeHalf r low v) := by
  unfold State.writeHalf
  split
  · exact State.writeImage_did s r _ low (fun h => ⟨v, by simp [h]⟩) (by assumption)
  · exact .refl _ s

theorem State.regWrite4_did (s : State) (off : Nat) (v : BitVec 32) : Did true s (s.regWrite4 off v) := by
  unfold State.regWrite4
  split
  · exact State.writeHalf_did s _ _ _
  · split
    · split
      · exact State.writeHalf_did s _ _ _
      · exact .refl _ s
    · exact .refl _ s

/-- A write to the register page makes the listed changes. -/
theorem State.regWrite_did (s : State) (off size : Nat) (v : DWord) (lowFirst : Bool) :
    Did true s (s.regWrite off size v lowFirst) := by
  unfold State.regWrite
  split
  · exact s.regWrite4_did _ _
  split
  · split
    · split
      · exact .refl _ s
      split
      · exact .trans (s.regWrite4_did _ _) (State.regWrite4_did _ _ _)
      · exact .trans (s.regWrite4_did _ _) (State.regWrite4_did _ _ _)
    · exact .refl _ s
  · exact .refl _ s

/-! ### Inputs and the step -/

theorem State.tick_did {sw : Bool} (s : State) (n : Nat) : Did sw s (s.tick n) := by
  unfold State.tick
  dsimp only
  split
  · rename_i hp
    simp only [Bool.and_eq_true] at hp
    have h1 := Did.cycles (sw := sw) s ⟨BitVec.ofNat 63 ((s.iohpmcycles.counter.toNat + n) % 2 ^ cyclesWidth s.cfg),
      s.iohpmcycles.ovf || decide (2 ^ cyclesWidth s.cfg ≤ s.iohpmcycles.counter.toNat + n)⟩ (mod_pow_lt _ _ _) hp.1
    split
    · exact .trans h1 (.work (Work.raiseIp _ _).1)
    · exact h1
  · exact .refl _ s

theorem busCommit_did {sw : Bool} (tag : Nat) (s : State) : Did sw s (busCommit tag s) := by
  unfold busCommit State.commitAccess
  split
  · exact .trans (.accesses s _ s.uncommittedWrites) (.work (Work.commitRead _ _))
  · split
    · exact .trans (.accesses s s.uncommittedReads _) (.work (Work.commitWrite _ _))
    · exact .refl _ s

theorem hartRead_did {sw : Bool} {a n : Nat} {s t : State} (h : hartRead a n s = .next t) : Did sw s t := by
  unfold hartRead at h
  split at h
  · cases h; exact .work (Work.emit s _)
  · split at h
    · cases h; exact .work (Work.emit s _)
    · cases h

theorem hartReadSecond_did {sw : Bool} (hart : Nat) (s : State) : Did sw s (hartReadSecond hart s) := by
  unfold hartReadSecond
  split
  · exact .refl _ s
  · exact .trans (.halfReads s _) (.work (Work.emit _ _))

theorem dmaWrite_did {sw : Bool} (a : Nat) (bytes : List Byte) (s : State) : Did sw s (dmaWrite a bytes s) := by
  exact .work (Work.deviceWrite s a bytes)

/-- What an input other than a reset does, if it answers a next state: the listed changes, those of software for a hart's
access alone. -/
theorem handle_did {e : Event} {s t : State} (he : e ≠ .reset) (h : handle e s = .next t) : Did true s t := by
  cases e with
  | hartRead a n =>
    exact hartRead_did h
  | hartReadFirst hart a l =>
    simp only [handle, hartReadFirst] at h
    split at h
    · cases h; exact .halfReads s _
    · exact hartRead_did h
  | hartReadSecond hart => cases h; exact hartReadSecond_did hart s
  | hartWrite a n v l =>
    simp only [handle, hartWrite] at h
    split at h
    · cases h
      split
      · exact s.regWrite_did _ _ _ _
      · exact .refl _ s
    · split at h
      · cases h; exact .work (Work.setMem s _ fun hm => Memory.wf_writeBytes hm _ _)
      · cases h
  | dmaWrite a bytes => cases h; exact dmaWrite_did a.toNat bytes s
  | request r => cases h; exact serve_did r s
  | pageRequest m => cases h; exact servePageRequest_did m s
  | invalCompletion d i => cases h; exact serveInvalCompletion_did d i s
  | invalTimeout i => cases h; exact serveInvalTimeout_did i s
  | cycles n =>
    cases h
    exact .trans (.commands s _ s.timedOut s.fetched s.itag) (State.tick_did _ n)
  | evict n => cases h; exact .drop s _ (fun _ hx => List.mem_of_mem_eraseIdx hx)
  | busCommit tag => cases h; exact busCommit_did tag s
  | cqTurn =>
    obtain ⟨u, hu, hd⟩ := cqStep_did (sw := true) s
    have : cqStep s = .next t := h
    rw [hu] at this; cases this; exact hd
  | reset => exact absurd rfl he

/-- What a step does, if it answers a next state: it takes the next input, and then it is a reset or makes the listed
changes. -/
theorem step_did {s t : State} (h : step s = .next t) :
    Did true { s with inbox := s.inbox.tail } t ∨ t = resetEvent { s with inbox := s.inbox.tail } := by
  unfold step at h
  split at h
  · rename_i hi
    obtain ⟨u, hu, hd⟩ := cqStep_did (sw := true) s
    rw [hu] at h; cases h
    left
    have : ({ s with inbox := s.inbox.tail } : State) = s := by rw [hi]; cases s; cases hi; rfl
    rw [this]; exact hd
  · rename_i e es hi
    have ht : s.inbox.tail = es := by rw [hi]; rfl
    rw [ht]
    by_cases he : e = .reset
    · subst he; cases h; exact .inr rfl
    · exact .inl (handle_did he h)

end Sys2Proof.Machine
end

