-- ==== Sys2Proof/Laws/Registers.lean ====
section
/-! SUPPORT. Register accesses: a 4-byte write at the offset of a register is the register's own write of the merged
image, and what the merged image holds; what the updates of `ipsr` do with wired interrupts. -/

namespace Sys2Proof.Machine

/-- The 64-bit image of a write of the low half: the other half, then the 32 bits written. -/
def mergeLow (old v : DWord) : DWord := old.extractLsb' 32 32 ++ v.extractLsb' 0 32

/-- The image of a write of the high half. -/
def mergeHigh (old : DWord) (v : BitVec 32) : DWord := v ++ old.extractLsb' 0 32

theorem getLsbD_mergeLow (old v : DWord) {i : Nat} (h : i < 32) : (mergeLow old v).getLsbD i = v.getLsbD i := by
  change ((old.extractLsb' 32 32 ++ v.extractLsb' 0 32 : BitVec (32 + 32))).getLsbD i = _
  rw [BitVec.getLsbD_append]
  simp [h]

theorem getLsbD_mergeLow_high (old v : DWord) {i : Nat} (h : 32 ≤ i) : (mergeLow old v).getLsbD i = old.getLsbD i := by
  change ((old.extractLsb' 32 32 ++ v.extractLsb' 0 32 : BitVec (32 + 32))).getLsbD i = _
  rw [BitVec.getLsbD_append]
  by_cases h6 : i < 64
  · have h1 : ¬ i < 32 := by omega
    have h2 : i - 32 < 32 := by omega
    have h3 : 32 + (i - 32) = i := by omega
    simp [h1, h2, h3]
  · have h1 : ¬ i < 32 := by omega
    have h2 : ¬ i - 32 < 32 := by omega
    have h3 : old.getLsbD i = false := BitVec.getLsbD_of_ge old i (by omega)
    simp [h1, h2, h3]

/-- A field within the low half of the merged image is the field of the value written. -/
theorem extractLsb'_mergeLow (old v : DWord) {a n : Nat} (h : a + n ≤ 32) :
    (mergeLow old v).extractLsb' a n = v.extractLsb' a n := by
  apply BitVec.eq_of_getLsbD_eq
  intro i hi
  rw [BitVec.getLsbD_extractLsb', BitVec.getLsbD_extractLsb', getLsbD_mergeLow old v (by omega)]

theorem setWidth_mergeLow (old v : DWord) : (mergeLow old v).setWidth 32 = v.setWidth 32 := by
  apply BitVec.eq_of_getLsbD_eq
  intro i hi
  rw [BitVec.getLsbD_setWidth, BitVec.getLsbD_setWidth, getLsbD_mergeLow old v hi]

/-- A 4-byte write at the offset of a register that is present (R510). -/
theorem State.regWrite_four {s : State} {off : Nat} {r : Reg} (ha : off % 4 = 0) (hr : regAt off = some r)
    (hp : r.present s.cfg = true) (v : DWord) (lowFirst : Bool) :
    s.regWrite off 4 v lowFirst = s.writeImage r (mergeLow (s.image r) v) true := by
  simp only [State.regWrite, State.regWrite4, ha, hr, State.writeHalf, hp, and_self, if_true]
  rfl

/-- A 4-byte write of the high half of an 8-byte register that is present (R521). -/
theorem State.regWrite_high {s : State} {off : Nat} {r : Reg} (ha : off % 4 = 0) (hn : regAt (off + 4) = none)
    (hr : regAt off = some r) (hw : r.wide = true) (hp : r.present s.cfg = true) (v : DWord) (lowFirst : Bool) :
    s.regWrite (off + 4) 4 v lowFirst = s.writeImage r (mergeHigh (s.image r) (v.extractLsb' 0 32)) false := by
  have h4 : (off + 4) % 4 = 0 := by omega
  have h5 : 4 ≤ off + 4 := by omega
  simp only [State.regWrite, State.regWrite4, h4, hn, Nat.add_sub_cancel, hr, hw, State.writeHalf, hp, h5, decide_true,
    Bool.and_self, and_self, if_true]
  rfl

/-- A 4-byte read of the high half of an 8-byte register. -/
theorem State.regRead_high {s : State} {off : Nat} {r : Reg} (ha : off % 4 = 0) (hn : regAt (off + 4) = none)
    (hr : regAt off = some r) (hw : r.wide = true) : s.regRead (off + 4) 4 = s.readReg r >>> 32 := by
  have h4 : (off + 4) % 4 = 0 := by omega
  simp [State.regRead, h4, hn, hr, hw]

/-- A 4-byte write at the offset of a register that is absent is ignored. -/
theorem State.regWrite_absent {s : State} {off : Nat} {r : Reg} (ha : off % 4 = 0) (hr : regAt off = some r)
    (hp : r.present s.cfg = false) (v : DWord) (lowFirst : Bool) : s.regWrite off 4 v lowFirst = s := by
  simp [State.regWrite, State.regWrite4, ha, hr, State.writeHalf, hp]

/-- A 4-byte read at the offset of a register: its low 32 bits. -/
theorem State.regRead_four {s : State} {off : Nat} {r : Reg} (ha : off % 4 = 0) (hr : regAt off = some r) :
    s.regRead off 4 = s.readReg r &&& 0xFFFFFFFF#64 := by
  simp [State.regRead, ha, hr]

/-- An 8-byte read at the offset of an 8-byte register. -/
theorem State.regRead_eight {s : State} {off : Nat} {r : Reg} (ha : off % 8 = 0) (hr : regAt off = some r)
    (hw : r.wide = true) : s.regRead off 8 = s.readReg r := by
  simp [State.regRead, ha, hr, hw]

/-- What software reads from a register that is present. -/
theorem State.readReg_present {s : State} {r : Reg} (hp : r.present s.cfg = true) : s.readReg r = s.image r := by
  simp [State.readReg, hp]

/-- A read of any size reads 0 where neither the register at the offset nor the one 4 bytes below is present. -/
theorem State.regRead_absent {s : State} {off size : Nat} (h : ∀ r, regAt off = some r → r.present s.cfg = false)
    (hl : ∀ r, regAt off = none → regAt (off - 4) = some r → r.present s.cfg = false ∨ off < 4) :
    s.regRead off size = 0#64 := by
  unfold State.regRead
  split
  · split
    · rename_i r hr
      simp [State.readReg, h r hr]
    · rename_i hn
      split
      · rename_i r hr
        rcases hl r hn hr with h | h
        · simp [State.readReg, h]
        · simp [show ¬ 4 ≤ off by omega]
      · rfl
  · split
    · split
      · rename_i r hr
        simp [State.readReg, h r hr]
      · rfl
    · rfl

/-! ### The pending bits with wired interrupts (R591, R592) -/

theorem State.updateCip_wired {s : State} (h : s.fctl.wsi = true) :
    s.updateCip = { s with ipsr := { s.ipsr with cip := s.ipsr.cip || s.cipLevel } } := by
  unfold State.updateCip
  cases hl : s.cipLevel
  · simp
  · unfold State.raiseIp
    cases hp : s.ipsr.get .cq
    · simp [h, State.pend, Ipsr.pend]
    · have hp : s.ipsr.cip = true := hp
      obtain ⟨⟨a, b, c, d⟩, hi⟩ : ∃ r, s.ipsr = r := ⟨s.ipsr, rfl⟩
      cases s
      simp_all

theorem State.updateFip_wired {s : State} (h : s.fctl.wsi = true) :
    s.updateFip = { s with ipsr := { s.ipsr with fip := s.ipsr.fip || s.fqcsr.ipLevel } } := by
  unfold State.updateFip
  cases hl : s.fqcsr.ipLevel
  · simp
  · unfold State.raiseIp
    cases hp : s.ipsr.get .fq
    · simp [h, State.pend, Ipsr.pend]
    · have hp : s.ipsr.fip = true := hp
      obtain ⟨⟨a, b, c, d⟩, hi⟩ : ∃ r, s.ipsr = r := ⟨s.ipsr, rfl⟩
      cases s
      simp_all

theorem State.updatePip_wired {s : State} (h : s.fctl.wsi = true) :
    s.updatePip = { s with ipsr := { s.ipsr with pip := s.ipsr.pip || s.pqcsr.ipLevel } } := by
  unfold State.updatePip
  cases hl : s.pqcsr.ipLevel
  · simp
  · unfold State.raiseIp
    cases hp : s.ipsr.get .pq
    · simp [h, State.pend, Ipsr.pend]
    · have hp : s.ipsr.pip = true := hp
      obtain ⟨⟨a, b, c, d⟩, hi⟩ : ∃ r, s.ipsr = r := ⟨s.ipsr, rfl⟩
      cases s
      simp_all

end Sys2Proof.Machine
end

