-- ==== Sys2Proof/Tests/Slice0.lean ====
section
/-! SUPPORT. Tests of the model, each on one word or one step, with the expected result taken from the spec: the worked
vectors V<n> of 95_test_vectors.md, or the rule a comment names. The second half gives, for every statement that has
hypotheses, a state and operands that meet them. -/

namespace Sys2Proof.Tests

open Sys2Proof Sys2Proof.Machine

-- one test after the other: checked all at once they would ask for more threads than the memory limit allows
set_option Elab.async false

/-! ### Decoding (R398, V1, V2) -/

/-- The two doublewords of a command as one word. -/
def word (dw0 dw1 : DWord) : CommandWord := dw1 ++ dw0

theorem test_decode_iotinval_vma : decode (word 0x0000500300012401#64 0x00000000048D1400#64)
    = some (.iotinvalVma true true true false false 0x12#20 5#16 0x12345#52) := by decide
theorem test_decode_iotinval_vma_range : decode (word 0x0000000000000401#64 0x00000000048D1E00#64)
    = some (.iotinvalVma true false false false true 0#20 0#16 0x12347#52) := by decide
theorem test_decode_iotinval_gvma : decode (word 0x0000500200000081#64 0#64)
    = some (.iotinvalGvma false false true false false 0#20 5#16 0#52) := by decide
theorem test_decode_iofence : decode (word 0xCAFEF00D00003402#64 0x0000000020000400#64)
    = some (.iofenceC true false true true 0xCAFEF00D#32 0x20000400#62) := by decide
theorem test_decode_inval_ddt : decode (word 0x0000420200000003#64 0#64)
    = some (.iodirInvalDdt true 0#20 0x42#24) := by decide
theorem test_decode_inval_pdt : decode (word 0x0000420200007083#64 0#64)
    = some (.iodirInvalPdt true 7#20 0x42#24) := by decide
theorem test_decode_ats_inval : decode (word 0xFFFF000000000004#64 0xFFFFFFFFFFFFFFFF#64)
    = some (.atsInval false false 0#20 0xFF00#16 0xFF#8 0xFFFFFFFFFFFFFFFF#64) := by decide
theorem test_decode_ats_prgr : decode (word 0x0001000100003084#64 0x0100000500000000#64)
    = some (.atsPrgr true false 3#20 0x0100#16 0#8 0x0100000500000000#64) := by decide
/-- V2 rows 1 to 3: reserved and custom opcodes, undefined func3. -/
theorem test_decode_reserved_opcodes : ([0x0#64, 0x5#64, 0x3F#64, 0x40#64, 0x7F#64, 0x101#64, 0x082#64, 0x103#64,
    0x104#64, 0x381#64].all fun d => decode (word d 0#64) == none) = true := by decide
/-- V2 row 4: reserved bits. -/
theorem test_decode_reserved_bits : ([(0x801#64, 0#64), (0x1#64, 0x4000000000000000#64), (0x1#64, 0x1#64),
    (0x4002#64, 0#64), (0x3#64, 0x1#64), (0x404#64, 0#64)].all fun p => decode (word p.1 p.2) == none) = true := by
  decide
/-- The table's numbering: the word of IOTINVAL.GVMA with nothing set. -/
theorem test_decodeTableWord : decodeTableWord 128 0x81
    = some (.iotinvalGvma false false false false false 0#20 0#16 0#52) := by decide
/-- Big-endian doublewords (R203): `dw0` is still at the lower address. -/
theorem test_decode_big_endian : decodeBytes true ([0, 0, 0x42, 2, 0, 0, 0x70, 0x83, 0, 0, 0, 0, 0, 0, 0, 0].map
    (BitVec.ofNat 8)) = some (.iodirInvalPdt true 7#20 0x42#24) := by decide

/-! ### Well-formedness (R387 items 5, 9, 10; R8, R35) -/

theorem test_ill_formed_gvma : (Instr.iotinvalGvma false true false false false 0#20 0#16 0#52).wellFormed = false := by
  decide
theorem test_ill_formed_inval_ddt : (Instr.iodirInvalDdt true 1#20 5#24).wellFormed = false := by decide
theorem test_ill_formed_inval_pdt : (Instr.iodirInvalPdt false 0#20 0#24).wellFormed = false := by decide
theorem test_ill_formed_config_sv48 : ({ Cfg.reference with sv39 := false } : Cfg).wellFormed = false := by decide
theorem test_ill_formed_config_sv57 :
    ({ Cfg.reference with sv57 := true, sv48 := false } : Cfg).wellFormed = false := by decide
theorem test_ill_formed_config_pas :
    (({ Cfg.reference with pas := 31 } : Cfg).wellFormed || ({ Cfg.reference with pas := 57 } : Cfg).wellFormed) = false := by
  decide
theorem test_ill_formed_config_device_id :
    (({ Cfg.reference with didWidth := 0 } : Cfg).wellFormed || ({ Cfg.reference with didWidth := 25 } : Cfg).wellFormed)
      = false := by decide
theorem test_ill_formed_config_ddt_modes :
    ({ Cfg.reference with ddt1 := false, ddt2 := false, ddt3 := false } : Cfg).wellFormed = false := by decide
theorem test_ill_formed_config_queue_sizes :
    ([({ Cfg.reference with cqLog2szMax := 0 } : Cfg), { Cfg.reference with cqLog2szMax := 33 },
      { Cfg.reference with fqLog2szMax := 0 }, { Cfg.reference with fqLog2szMax := 33 },
      { Cfg.reference with pqLog2szMax := 0 }, { Cfg.reference with pqLog2szMax := 33 }].any Cfg.wellFormed) = false := by
  decide
theorem test_ill_formed_config_counters :
    ([({ Cfg.reference with hpmCounters := 32 } : Cfg), { Cfg.reference with hpmCounters := 0 },
      { Cfg.reference with hpmWidth := 31 }, { Cfg.reference with hpmWidth := 65 }].any Cfg.wellFormed) = false := by decide
theorem test_ill_formed_config_widths :
    ([({ Cfg.reference with gscidWidth := 17 } : Cfg), { Cfg.reference with pscidWidth := 21 },
      { Cfg.reference with rcidWidth := 13 }, { Cfg.reference with mcidWidth := 13 }, { Cfg.reference with nVectors := 0 },
      { Cfg.reference with nVectors := 17 }, { Cfg.reference with atomicSize := 3 }].any Cfg.wellFormed) = false := by
  decide
theorem test_ill_formed_config_reg_base :
    ({ Cfg.reference with regBase := 0x10000800#64 } : Cfg).wellFormed = false := by decide
theorem test_reference_config_well_formed : Cfg.reference.wellFormed = true := by decide

/-! ### States -/

/-- The common start of the vectors of section 4: a command queue of 4 entries at 0x80001000, on and empty. -/
def cqReady : State := { State.reset with
  cqb := ⟨1#5, 0x80001#44⟩
  cqcsr := ⟨true, false, false, false, false, false, true, false⟩ }

/-- `s` with the command at the index `cqh` of its queue. -/
def holding (dw0 dw1 : Nat) (s : State) : State := s.withFetchWord 128 (dw0 + dw1 * 2 ^ 64)

/-- What a step's next state satisfies; false if the step stops. -/
def after (o : Host.Outcome State Fault Refusal) (p : State → Bool) : Bool :=
  match o with
  | .next t => p t
  | _ => false

/-- The set-up T of section 5 without its page table: a fault queue of 4 entries at 0x80002000, a one-level directory at
0x80010000, MSI vector 0. -/
def faultReady : State := { State.reset with
  ddtp := ⟨.lvl1, false, 0x80010#44⟩
  fqb := ⟨1#5, 0x80002#44⟩
  fqcsr := ⟨true, true, false, false, true, false⟩
  msiCfg := State.reset.msiCfg.set 0 ⟨0xA000000#54, 0x11#32, false⟩ }

/-- `s` on a platform with one region. -/
def withRegion (r : PlatRegion) (s : State) : State := { s with plat := ⟨[r], 0#64⟩ }

/-- An Untranslated read of device 5. -/
def readReq (iova : DWord) : Request := ⟨1, 5#24, false, 0#20, false, iova, .untransRead, 8, [], false, false, false, false⟩

/-- An ATS Translation Request of device 5. -/
def atsReq (iova : DWord) : Request := { readReq iova with ttyp := .atsRequest }

/-- `s` with one input to take. -/
def given (e : Event) (s : State) : State := { s with inbox := [e] }

/-- The caches of section 4a, entries a to e, f, h, i, k. -/
def caches : List IoatcEntry := [
  .s1 ⟨none, 0x12#20, 0, 0x40201#52, 0, 0xD7#64, false⟩,
  .s1 ⟨none, 0x12#20, 0, 0x40202#52, 0, 0xD7#64, true⟩,
  .s1 ⟨none, 0x13#20, 0, 0x40201#52, 0, 0xD7#64, false⟩,
  .s1 ⟨none, 0x12#20, 1, 0x40200#52, 9, 0x01#64, false⟩,
  .s1 ⟨some 5#16, 0x12#20, 0, 0x40201#52, 0, 0xD7#64, false⟩,
  .s2 ⟨5#16, 0, 0x90000#52, 0, 0xD7#64⟩,
  .msi 5#16 0xFEE02#52 0x7#64 0#64,
  .dc 5#24 ⟨1#64, 0#64, 0#64, 0#64, 0#64, 0#64, 0#64, 0#64⟩,
  .pc 5#24 7#20 ⟨0x1#64, 0#64⟩]

/-- A state whose ATS walk of 0x40201000 finds a first-stage leaf with the memory type IO, and stops in the second stage. -/
def ioPage : State := { faultReady with
  choices := List.replicate 8 0
  mem := [(0x80010140, 0x3#64), (0x80010148, 0x8000000000080030#64), (0x80010150, 0x12000#64),
    (0x80010158, 0x8000000000080020#64), (0x80020008, 0x20008401#64), (0x80021008, 0x20008801#64),
    (0x80022008, 0x40000000100000D7#64), (0x80030010, 0x200000DF#64)].foldl
      (fun m p => Memory.writeBytes m p.1 (toBytes false 8 p.2.toNat)) [] }

/-- Which of `caches` are left, by position. -/
def left (t : State) : List Bool := caches.map fun e => t.ioatc.contains e

/-! ### One step of each command -/

/-- V91: PSCV = 1 spares the global entry b, the entry c of another PSCID and the guest entry e. -/
theorem test_iotinval_vma_pscid : after (step (holding 0x0000000100012001 0 { cqReady with ioatc := caches }))
    (fun t => t.cqh == 1#32 && left t == [false, true, true, false, true, true, true, true, true]) = true := by
  decide +kernel
/-- V92: with an address and NL = 0 the non-leaf entry d stays. -/
theorem test_iotinval_vma_address : after (step (holding 0x401 0x0000000010080400 { cqReady with ioatc := caches }))
    (fun t => left t == [false, true, false, true, true, true, true, true, true]) = true := by decide +kernel
/-- V97: one guest page of one GSCID. -/
theorem test_iotinval_gvma_address :
    after (step (holding 0x0000500200000481 0x0000000024000000 { cqReady with ioatc := caches }))
      (fun t => left t == [true, true, true, true, true, false, true, true, true]) = true := by decide +kernel
/-- V98: an MSI PTE. -/
theorem test_iotinval_gvma_msi :
    after (step (holding 0x0000500200000481 0x000000003FB80800 { cqReady with ioatc := caches }))
      (fun t => left t == [true, true, true, true, true, true, false, true, true]) = true := by decide +kernel
/-- V44: the store of IOFENCE.C. -/
theorem test_iofence_store : after (step (holding 0xCAFEF00D00003402 0x0000000020000C00 cqReady))
    (fun t => Memory.readBytes t.mem 0x80003000 4 == [0x0D#8, 0xF0#8, 0xFE#8, 0xCA#8] && t.cqh == 1#32
      && t.cqcsr == cqReady.cqcsr) = true := by decide +kernel
/-- V46: the wired interrupt of IOFENCE.C. -/
theorem test_iofence_wire : after (step (holding 0x802 0 { cqReady with
      fctl := ⟨false, true, false⟩
      icvec := ⟨2#4, 0#4, 0#4, 0#4⟩
      cqcsr := { cqReady.cqcsr with cie := true } }))
    (fun t => t.cqcsr.image == 0x00010803#32 && t.cqh == 1#32 && t.ipsr.cip && t.wire 2#4 && !t.wire 0#4) = true := by
  decide +kernel
/-- V99a: the device's context and process contexts. -/
theorem test_iodir_inval_ddt : after (step (holding 0x0000050200000003 0 { cqReady with ioatc := caches }))
    (fun t => left t == [true, true, true, true, true, true, true, false, false]) = true := by decide +kernel
/-- V2 row 11: device 0x40 is too wide for a one-level directory. -/
theorem test_iodir_inval_ddt_wide :
    after (step (holding 0x0000400200000003 0 { cqReady with ddtp := ⟨.lvl1, false, 0x80010#44⟩ }))
      (fun t => t.cqcsr.cmdIll && t.cqh == 0#32) = true := by decide +kernel
/-- V99b: one process context. -/
theorem test_iodir_inval_pdt : after (step (holding 0x0000050200007083 0 { cqReady with ioatc := caches }))
    (fun t => left t == [true, true, true, true, true, true, true, true, false]) = true := by decide +kernel
/-- V99c: the Invalidation Request. -/
theorem test_ats_inval : after (step (holding 0x0001000000000004 0x1000 cqReady))
    (fun t => t.out == [.invalidationRequest 0 ⟨none, 0x0100#16, none, 0x1000#64⟩] && t.outstanding.length == 1
      && t.cqh == 1#32) = true := by decide +kernel
/-- V99d: the Page Request Group Response. -/
theorem test_ats_prgr : after (step (holding 0x0001000100003084 0x0100000500000000 cqReady))
    (fun t => t.out == [.prgResponse ⟨none, 0x0100#16, some 3#20, 0x0100000500000000#64⟩] && t.outstanding == []
      && t.cqh == 1#32) = true := by decide +kernel

/-! ### Registers, requests, counters -/

/-- V10. -/
theorem test_capabilities : State.reset.regRead 0 8 = 0x00000FF8E7E68610#64 := by decide +kernel
/-- V14 and V17: Off to 1LVL is done, 1LVL to 2LVL refused. -/
theorem test_ddtp_write : (State.reset.regWrite 16 8 0x20004002#64 false).regRead 16 8 = 0x20004002#64
    ∧ ((State.reset.regWrite 16 8 0x20004002#64 false).regWrite 16 8 0x20004003#64 false).regRead 16 8
      = 0x20004002#64 := by decide +kernel
/-- V23: an error bit written as 1 is cleared, the enables are kept. -/
theorem test_cqcsr_rw1c :
    (({ cqReady with cqcsr := ⟨true, true, false, false, true, false, true, false⟩ } : State).regWrite
      72 4 0x403#64 false).cqcsr.image = 0x00010003#32 := by decide +kernel
/-- V50: in Off a request is refused, and the record is in the fault queue. -/
theorem test_request_off :
    after (step (given (.request (readReq 0x1234#64)) { faultReady with ddtp := ⟨.off, false, 0#44⟩ }))
      (fun t => Memory.readBytes t.mem 0x80002000 32 == dwordsBytes false [0x0000050800000100#64, 0#64, 0x1234#64, 0#64]
        && t.fqt == 1#32 && t.ipsr.fip && Memory.readBytes t.mem 0x28000000 4 == [0x11#8, 0#8, 0#8, 0#8]
        && t.out == [.msi 0x28000000#64 0x11#32, .abort 1 0#64]) = true := by decide +kernel
/-- V58: three levels of Sv39. -/
theorem test_request_sv39 :
    after (step (given (.request (readReq 0x40201ABC#64)) { faultReady with
        mem := [(0x80010140, 0x1#64), (0x80010150, 0x12000#64), (0x80010158, 0x8000000000080020#64),
          (0x80020008, 0x20008401#64), (0x80021008, 0x20008801#64), (0x80022008, 0x240000D7#64)].foldl
            (fun m p => Memory.writeBytes m p.1 (toBytes false 8 p.2.toNat)) [] }))
      (fun t => t.out == [.completion 1 ⟨0x90000ABC#64, 0, true, true, false, 0#2, ⟨0#12, 0#12⟩, none⟩]
        && t.bus.map BusAccess.addr == [0x80010140, 0x80020008, 0x80021008, 0x80022008]) = true := by decide +kernel
/-- R351: a page found to be IO asks for CXL.io, whatever the second stage then answers. -/
theorem test_ats_cxl_io :
    after (step (given (.request { atsReq 0x40201000#64 with isCxl := true }) ioPage))
      (fun t => (t.out.map fun o => match o with
        | .ats _ (.success c) => (c.r || c.w, c.cxlIo)
        | _ => (true, false)) == [(false, true)]) = true := by decide +kernel
/-- E1: the worked example of `extract`. -/
theorem test_extract : extractBits 52 0xB5 0xA6 = 0xE ∧ extractBits 52 0xFEE02 0x3 = 0x2 := by decide
/-- E2: DMASK with DID_GSCID = 0x000123. -/
theorem test_dmask : ([0x11F#24, 0x120#24, 0x127#24, 0x128#24].map
    (didMatch { HpmEvt.zero with dmask := true, didGscid := 0x123#24 })) = [false, true, true, false] := by decide
/-- V134: the cycle counter wraps and sets OF. -/
theorem test_cycles_wrap :
    after (step (given (.cycles 1) { State.reset with iocountinh := 0#32, iohpmcycles := ⟨BitVec.allOnes 63, false⟩ }))
      (fun t => t.iohpmcycles == ⟨0#63, true⟩ && t.countovf == 1#32 && t.ipsr.pmip) = true := by decide +kernel
/-- R71: after reset no counter runs, so that none can overflow (log 46). -/
theorem test_counters_stand_after_reset :
    after (step (given (.cycles 1) { State.reset with iohpmcycles := ⟨BitVec.allOnes 63, false⟩ }))
      (fun t => t.iohpmcycles == ⟨BitVec.allOnes 63, false⟩ && !t.ipsr.pmip) = true := by decide +kernel
/-- P4: the timeout reaches the fence, which reports it. -/
theorem test_timeout_reported : after (step (holding 0x0000000100000402 0x0000000020000C00
      { cqReady with timedOut := true }))
    (fun t => t.cqcsr.image == 0x00010201#32 && t.cqh == 0#32 && !t.timedOut
      && Memory.readBytes t.mem 0x80003000 1 == [0#8]) = true := by decide +kernel

/-- R242, R221: a write of the second doubleword that falls between the two units of a command's fetch is seen with the
old first one. -/
theorem test_racing_fetch : after (step { holding 0x401 0 { cqReady with ioatc := caches } with
      others := [[], [.write 0x80001008#64 (toBytes false 8 0x10080400)]] })
    (fun t => left t == [false, true, false, true, true, true, true, true, true] && t.others == []) = true := by
  decide +kernel
/-- R221, R433: a device's read commits between the two doublewords of a record whose fourth faults: it sees the second,
stored before, and not the third. -/
theorem test_device_read_inside_record :
    let s : State := { withRegion ⟨0x80002018, 0x80002020, false, true, false, [], false⟩ faultReady with
      uncommittedReads := [⟨7, 0x80002010, 1⟩], choices := [15]
      others := [[], [], [.commit 7], []] }
    let t := (s.storeRecord 0x80002000 [1#64, 2#64, 3#64, 4#64]).2
    t.out = [.deviceRead 7 [0#8]] ∧ t.uncommittedReads = [] ∧ t.others = [[]] ∧
      Memory.readBytes t.mem 0x80002010 1 = [3#8] ∧ Memory.readBytes t.mem 0x80002018 1 = [0#8] := by decide +kernel
/-- R632: an 8-byte counter read made as two reads, with a carry between them. -/
theorem test_torn_counter_read :
    after (step { given (.hartReadSecond 0) { State.reset with iohpmcycles := ⟨0x100000000#63, false⟩ } with
        halfReads := [⟨0, 96, true, 0xFFFFFFFF#32⟩] })
      (fun t => t.out == [.readData 0x1FFFFFFFF#64] && t.halfReads == []) = true := by decide +kernel
/-- R207: a region that refuses atomic accesses alone. -/
theorem test_atomic_refused :
    let s : State := { State.reset with plat := ⟨[⟨0x1000, 0x2000, false, false, true, [], false⟩], 0#64⟩ }
    s.accessFaults .atomic 0x1FF8 8 = true ∧ s.accessFaults .read 0x1FF8 8 = false ∧
      s.accessFaults .write 0x1FF8 8 = false ∧ s.accessFaults .atomic 0x2000 8 = false := by decide +kernel
/-- R208: read first, then write: a poisoned region that refuses writes gives Corrupt. -/
theorem test_update_reads_first :
    (({ State.reset with plat := ⟨[⟨0x1000, 0x2000, false, true, false, [], true⟩], 0#64⟩ } : State).updateMem
      0x1000 8 id ⟨0#12, 0#12⟩).1 = .corrupt := by decide +kernel
/-- R50: with fctl.WSI = 0 fence_w_ip reads 0 and raises nothing. -/
theorem test_fence_w_ip_reserved :
    let s : State := { cqReady with cqcsr := { cqReady.cqcsr with cie := true, fenceWIp := true } }
    s.regRead 72 4 = 0x00010003#64 ∧ s.cipLevel = false := by decide +kernel
/-- R64: with three vectors, vector 3 is not selected. -/
theorem test_absent_vector :
    ((State.resetWith { Cfg.reference with nVectors := 3 }).regWrite 760 4 0x0213#64 false).icvec
      = ⟨0#4, 1#4, 2#4, 0#4⟩ := by decide +kernel
/-- R31, R532: a smaller base does not affect `cqh`, whose bits from LOG2SZ up read 0. -/
theorem test_smaller_base_keeps_cqh :
    let t := ({ State.reset with cqb := ⟨3#5, 0x80001#44⟩, cqh := 0xD#32 } : State).regWrite 24 4 0x20000401#64 false
    t.cqb.log2sz = 2 ∧ t.cqh = 0xD#32 ∧ t.regRead 32 4 = 1#64 := by decide +kernel
/-- R414: an ADDR above the 2^29 guest pages of Sv39x4 removes no combined entry, the last of them does. -/
theorem test_guest_address_too_wide :
    let e : IoatcEntry := .s12 ⟨5#16, 0#20, 0#52, 0#52, 0#52, 0, 0, 29, true, true, false, true, true, false, 0#2⟩
    gvmaHits Cfg.reference true true false false 5#16 0x20000000#52 e = false ∧
    gvmaHits Cfg.reference true true false false 5#16 0x1FFFFFFF#52 e = true := by decide +kernel
/-- R566: a device's write inside a step that the platform refuses is discarded, and so is one between two steps. -/
theorem test_device_write_refused_inside :
    (({ State.reset with plat := ⟨[⟨0x1000, 0x2000, false, true, false, [], false⟩], 0#64⟩ } : State).otherAccess
      (.deviceWrite 0x1000#64 [1#8])).mem = [] := by decide +kernel
theorem test_device_write_refused :
    after (step (given (.dmaWrite 0x1000#64 [1#8]) { State.reset with
        plat := ⟨[⟨0x1000, 0x2000, false, true, false, [], false⟩], 0#64⟩ }))
      (fun t => t.mem == []) = true := by decide +kernel

/-! ### Witnesses: for each statement with hypotheses, a state and operands that meet them all. The name is that of the
statement; where it has several clauses, each has its own. -/

/-- A command queue that is on and holds one IOTINVAL.VMA. -/
def oneCommand : State := holding 1 0 cqReady

/-- The result of a part of the translation process that is completed, and the fault of one that stops. -/
def found {α : Type} : Res α → Option α
  | .ok a _ => some a
  | .stop _ _ => none

def stopped {α : Type} : Res α → Option Stop
  | .ok _ _ => none
  | .stop f _ => some f

/-- With wired interrupts. -/
def wired (s : State) : State := { s with fctl := ⟨false, true, false⟩ }

theorem witness_DecodeEncodeAgree :
    decode (word 0x0000420200007083#64 0#64) = some (.iodirInvalPdt true 7#20 0x42#24) := by decide

/-- Every bit at an end of a reserved range of R388 to R391 is refused. -/
theorem witness_ReservedEncodingsRefused_ends :
    ([(0x001, [11, 35, 43, 60, 72, 126, 127]), (0x081, [11, 35, 43, 60, 72, 126, 127]), (0x002, [14, 31, 126, 127]),
      (0x003, [10, 11, 32, 34, 39, 64, 127]), (0x083, [10, 11, 32, 34, 39, 64, 127]), (0x004, [10, 11, 34, 39]),
      (0x084, [10, 11, 34, 39])].all fun p => p.2.all fun b => decode (BitVec.ofNat 128 (p.1 + 2 ^ b)) == none)
      = true := by decide +kernel

/-- Every bit beside one is an operand bit. -/
theorem witness_ReservedEncodingsRefused_beside :
    ([(0x001, [10, 12, 34, 44, 59, 73, 125]), (0x081, [10, 12, 34, 44, 59, 73, 125]), (0x002, [10, 13, 32, 125]),
      (0x003, [12, 31, 33, 40, 63]), (0x083, [12, 31, 33, 40, 63]), (0x004, [12, 33, 40, 127]),
      (0x084, [12, 33, 40, 127])].all fun p => p.2.all fun b => (decode (BitVec.ofNat 128 (p.1 + 2 ^ b))).isSome)
      = true := by decide +kernel

/-- The three clauses; the first with another agent's write during the fetch. -/
theorem witness_StepRunsDecodedCommand :
    (let s : State := { oneCommand with others := [[], [.write 0x80001008#64 [0#8]]] }
     s.inbox = [] ∧ s.fetched = none ∧ s.canFetch = true ∧
     (s.readMem (s.cqb.entryAddr 4 s.cqh) 16 s.iommuQos).1
       = .ok (commandBytes false (encode (.iotinvalVma false false false false false 0#20 0#16 0#52))) ∧
     decodeBytes s.fctl.be (commandBytes false (encode (.iotinvalVma false false false false false 0#20 0#16 0#52)))
       = some (.iotinvalVma false false false false false 0#20 0#16 0#52)) ∧
    (let s := oneCommand
     s.inbox = [] ∧ s.fetched = none ∧ s.canFetch = true ∧ s.others = [] ∧
     s.accessFaults .read (s.cqb.entryAddr 4 s.cqh) 16 = false ∧ s.poisoned (s.cqb.entryAddr 4 s.cqh) 16 = false ∧
     decodeBytes s.fctl.be (Memory.readBytes s.mem (s.cqb.entryAddr 4 s.cqh) 16)
       = some (.iotinvalVma false false false false false 0#20 0#16 0#52)) ∧
    (let s : State := { cqReady with fetched := some (.iofenceC false false false false 0#32 0#62) }
     s.inbox = [] ∧ s.fetched = some (.iofenceC false false false false 0#32 0#62) ∧ s.cqcsr.cqon = true ∧
      s.cqError = false) := by decide +kernel

/-- Off, each error bit, and an empty queue. -/
theorem witness_EngineFetchesOnlyWhenItMay_idle :
    (State.reset.inbox = [] ∧ State.reset.fetched = none ∧ State.reset.cqcsr.cqon = false) ∧
    ({ oneCommand with cqcsr := { oneCommand.cqcsr with cqmf := true } } : State).cqcsr.cqmf = true ∧
    ({ oneCommand with cqcsr := { oneCommand.cqcsr with cmdTo := true } } : State).cqcsr.cmdTo = true ∧
    ({ oneCommand with cqcsr := { oneCommand.cqcsr with cmdIll := true } } : State).cqcsr.cmdIll = true ∧
    (oneCommand.inbox = [] ∧ oneCommand.fetched = none) ∧
    (cqReady.inbox = [] ∧ cqReady.fetched = none ∧ cqReady.cqcsr.cqon = true ∧ cqReady.cqh = cqReady.cqt) := by
  decide +kernel

theorem witness_EngineFetchesOnlyWhenItMay_fetch : let s := oneCommand
    s.inbox = [] ∧ s.fetched = none ∧ s.cqcsr.cqon = true ∧ s.cqcsr.cqmf = false ∧ s.cqcsr.cmdTo = false ∧
      s.cqcsr.cmdIll = false ∧ s.cqh ≠ s.cqt := by decide +kernel

theorem witness_FetchErrorsStopQueue_access : let s := withRegion ⟨0x8000100F, 0x80001010, true, false, false, [], false⟩ oneCommand
    s.inbox = [] ∧ s.fetched = none ∧ s.canFetch = true ∧
      s.accessFaults .read (s.cqb.entryAddr 4 s.cqh) 16 = true := by decide +kernel

theorem witness_FetchErrorsStopQueue_corrupt :
    let s := withRegion ⟨0x80001000, 0x80001001, false, false, false, [], true⟩ oneCommand
    s.inbox = [] ∧ s.fetched = none ∧ s.canFetch = true ∧ s.poisoned (s.cqb.entryAddr 4 s.cqh) 16 = true := by
  decide +kernel

theorem witness_FetchErrorsStopQueue_reserved : let s := holding 0x801 0 cqReady
    s.inbox = [] ∧ s.fetched = none ∧ s.canFetch = true ∧ s.others = [] ∧
    (s.readMem (s.cqb.entryAddr 4 s.cqh) 16 s.iommuQos).1
      = .ok (Memory.readBytes s.mem (s.cqb.entryAddr 4 s.cqh) 16) ∧
    decodeBytes s.fctl.be (Memory.readBytes s.mem (s.cqb.entryAddr 4 s.cqh) 16) = none := by decide +kernel

/-- An illegal form of each kind: V2 rows 5, 8, 9, 10, 11, and rows 6, 7, 12, 13 in configurations without the option. -/
theorem witness_IllegalCommandSetsOnlyCmdIll :
    isIllegal (.iotinvalGvma false true false false false 0#20 0#16 0#52) cqReady = true ∧
    isIllegal (.iofenceC false true false false 0#32 0#62) cqReady = true ∧
    isIllegal (.iodirInvalPdt false 0#20 0#24) cqReady = true ∧
    isIllegal (.iodirInvalDdt true 1#20 0#24) cqReady = true ∧
    isIllegal (.iodirInvalDdt true 0#20 0x40#24) faultReady = true ∧
    isIllegal (.iotinvalVma false false false true false 0#20 0#16 0#52)
      { cqReady with cfg := { Cfg.reference with nl := false } } = true ∧
    isIllegal (.iotinvalVma false false false false true 0#20 0#16 0#52)
      { cqReady with cfg := { Cfg.reference with rangeInval := false } } = true ∧
    isIllegal (.atsInval false false 0#20 0#16 0#8 0#64) { cqReady with cfg := { Cfg.reference with ats := false } } = true ∧
    isIllegal (.atsPrgr false false 0#20 0#16 0#8 0#64) { cqReady with cfg := { Cfg.reference with ats := false } } = true := by
  decide +kernel

/-- Both sides of each width of R142 and R387 items 11 and 12. -/
theorem witness_CommandLegality :
    let s (m : IommuMode) (flat : Bool) : State :=
      { cqReady with ddtp := ⟨m, false, 0#44⟩, cfg := { Cfg.reference with msiFlat := flat } }
    ([63#24, 64#24].map fun d => isIllegal (.iodirInvalDdt true 0#20 d) (s .lvl1 true)) = [false, true] ∧
    ([127#24, 128#24].map fun d => isIllegal (.iodirInvalDdt true 0#20 d) (s .lvl1 false)) = [false, true] ∧
    ([0x7FFF#24, 0x8000#24].map fun d => isIllegal (.iodirInvalDdt true 0#20 d) (s .lvl2 true)) = [false, true] ∧
    ([0xFFFF#24, 0x10000#24].map fun d => isIllegal (.iodirInvalPdt true 0#20 d) (s .lvl2 false)) = [false, true] ∧
    ([0xFF#20, 0x100#20].map fun p => isIllegal (.iodirInvalPdt true p 0#24)
      { cqReady with cfg := { Cfg.reference with pd20 := false, pd17 := false } }) = [false, true] ∧
    ([0x1FFFF#20, 0x20000#20].map fun p => isIllegal (.iodirInvalPdt true p 0#24)
      { cqReady with cfg := { Cfg.reference with pd20 := false } }) = [false, true] ∧
    isIllegal (.iofenceC false true false false 0#32 0#62) (wired cqReady) = false := by decide +kernel

/-- With NL and S set, and the widest range of R417 that is not UNSPECIFIED. -/
theorem witness_IotinvalVmaRemovesItsEntries :
    (true = true → cqReady.cfg.nl = true) ∧ (true = true → cqReady.cfg.rangeInval = true) ∧
    ¬(true = true ∧ true = true ∧ 0x7FFFFFFFFFFFF#52 = BitVec.allOnes 52) := by decide

theorem witness_IotinvalGvmaRemovesItsEntries :
    (true = true → cqReady.cfg.nl = true) ∧ (true = true → cqReady.cfg.rangeInval = true) ∧
    ¬(true = true ∧ true = true ∧ true = true ∧ 0x7FFFFFFFFFFFF#52 = BitVec.allOnes 52) := by decide

theorem witness_IodirRemovesItsEntries :
    isIllegal (.iodirInvalDdt true 0#20 63#24) faultReady = false ∧
    isIllegal (.iodirInvalDdt false 0#20 0xFFFFFF#24) faultReady = false ∧
    isIllegal (.iodirInvalPdt true 0xFFFFF#20 63#24) faultReady = false := by decide +kernel

theorem witness_AtsCommandsSendTheirMessages : cqReady.cfg.ats = true := by decide

/-- With the wire, a store, and an access of each kind still to be committed. -/
theorem witness_IofenceCompletes :
    let s : State := { wired cqReady with uncommittedReads := [⟨1, 0x100, 4⟩], uncommittedWrites := [⟨2, 0x100, [1#8]⟩] }
    (true = true → s.cfg.igs ≠ .msi ∧ s.fctl.wsi = true) ∧ s.outstanding = [] ∧ s.timedOut = false ∧
    (true = true → s.accessFaults .write ((0x20000C00#62).toNat * 4) 4 = false ∧ s.others = []) ∧ s.mem.wf = true := by decide +kernel

/-- With a read and a write that are committed and a write that faults at its last byte. -/
theorem witness_IofenceCommitsDeviceAccesses :
    let s : State := { withRegion ⟨0x80003000, 0x80004000, false, true, false, [], false⟩ cqReady with
      uncommittedReads := [⟨1, 0x100, 4⟩], uncommittedWrites := [⟨2, 0x100, [1#8]⟩, ⟨3, 0x80002FFF, [1#8, 2#8]⟩] }
    s.outstanding = [] ∧ s.timedOut = false ∧ s.accessFaults .read 0x100 4 = false ∧
    s.accessFaults .write 0x100 1 = false ∧ s.accessFaults .write 0x80002FFF 2 = true := by decide +kernel

/-- An outstanding ATS.INVAL; an earlier timeout; V47, and the first address outside the physical address space. -/
theorem witness_IofenceWaitsOrStops :
    (let s : State := { wired cqReady with outstanding := [⟨0#32, none, 0x100#16, 0, 0⟩] }
     (true = true → s.cfg.igs ≠ .msi ∧ s.fctl.wsi = true) ∧ s.outstanding ≠ []) ∧
    (let s : State := { wired cqReady with timedOut := true }
     (true = true → s.cfg.igs ≠ .msi ∧ s.fctl.wsi = true) ∧ s.outstanding = [] ∧ s.timedOut = true) ∧
    (let s := withRegion ⟨0x80003000, 0x80003004, false, true, false, [], false⟩ (wired cqReady)
     (true = true → s.cfg.igs ≠ .msi ∧ s.fctl.wsi = true) ∧ s.outstanding = [] ∧ s.timedOut = false ∧
     s.accessFaults .write ((0x20000C00#62).toNat * 4) 4 = true ∧
     s.others = [] ∧
     cqReady.accessFaults .write ((0x40000000000000#62).toNat * 4) 4 = true) := by decide +kernel

/-! The invariants hold of a state with a command to run, and its step answers a next state. -/

theorem witness_StepKeepsMemoryForm : oneCommand.mem.wf = true ∧ oneCommand.mem ≠ [] ∧ ∃ t, step oneCommand = .next t :=
  ⟨by decide +kernel, by decide +kernel, _, rfl⟩

theorem witness_StepCachesOnlyValidEntries :
    let s : State := { oneCommand with ioatc := caches }
    s.cacheOk = true ∧ ∃ t, step s = .next t := ⟨by decide +kernel, _, rfl⟩

theorem witness_StepKeepsQueuesSettled : oneCommand.settled = true ∧ ∃ t, step oneCommand = .next t :=
  ⟨by decide +kernel, _, rfl⟩

theorem witness_StepKeepsInterruptsPending :
    let s : State := { oneCommand with
      cqcsr := { oneCommand.cqcsr with cie := true, cqmf := true }
      ipsr := ⟨true, false, false, false⟩ }
    s.interruptsPend = true ∧ s.cipLevel = true ∧ ∃ t, step s = .next t := ⟨by decide +kernel, by decide +kernel, _, rfl⟩

theorem witness_StepKeepsIndicesInRange : (oneCommand.indicesOk = true ∧ ∃ t, step oneCommand = .next t) ∧
    oneCommand.cqb.inRange oneCommand.cqh = true :=
  ⟨⟨by decide +kernel, _, rfl⟩, by decide +kernel⟩

theorem witness_StepKeepsRegistersLegal : let s := oneCommand
    (s.controlLegal = true ∧ s.auxiliaryLegal = true ∧ s.absentZero = true ∧ s.cqb.inRange s.cqt = true ∧
    s.fqb.inRange s.fqh = true ∧ s.pqb.inRange s.pqh = true) ∧ ∃ t, step oneCommand = .next t := ⟨by decide +kernel, _, rfl⟩

theorem witness_StepKeepsConfiguration : ∃ t, step (given (.cycles 1) State.reset) = .next t := ⟨_, rfl⟩

/-- The first read outside a physical address space of 56 bits, and the last one in it. -/
theorem witness_OnlyForeignAccessesStop :
    (match step (given (.hartRead 0xFFFFFFFFFFFFFD#64 4) State.reset) with
     | .fault f => some f
     | _ => none) = some (.outsideMemory 0xFFFFFFFFFFFFFD) ∧
    after (step (given (.hartRead 0xFFFFFFFFFFFFFC#64 4) State.reset)) (fun _ => true) = true := by decide +kernel

/-- A hart's write to `ddtp`, and a reset in the mode Bare. -/
theorem witness_OnlySoftwareChangesDdtp :
    (let s := given (.hartWrite 0x10000010#64 4 1#64 false) State.reset
     after (step s) (fun t => t.ddtp != s.ddtp) = true) ∧
    (let s := given .reset { State.reset with ddtp := ⟨.bare, false, 0#44⟩ }
     after (step s) (fun t => t.ddtp != s.ddtp) = true) := by decide +kernel

theorem witness_DevicesCannotReconfigure :
    (given (.request (readReq 0#64)) faultReady).inbox = [.request (readReq 0#64)] ∧
    (given (.invalCompletion 5#24 0) faultReady).inbox = [.invalCompletion 5#24 0] ∧
    (given (.pageRequest ⟨5#24, false, 0#20, false, false, true, false, true, 0#9, 0#52⟩) faultReady).inbox
      = [.pageRequest ⟨5#24, false, 0#20, false, false, true, false, true, 0#9, 0#52⟩] ∧
    (given (.dmaWrite 0xFFFFFFFFFFFFFF#64 [1#8, 2#8]) faultReady).inbox
      = [.dmaWrite 0xFFFFFFFFFFFFFF#64 [1#8, 2#8]] ∧
    (given (.busCommit 1) faultReady).inbox = [.busCommit 1] := by decide +kernel

theorem witness_ResetStateIsSound : Cfg.reference.wellFormed = true := by decide

theorem witness_ResetClearsIommuKeepsMemory : (given .reset oneCommand).inbox = .reset :: [] := by decide +kernel

/-- At the last index, where `fqt` wraps; with the interrupt enabled, and with it pending already. -/
theorem witness_ReportWritesRecord : let s : State := { faultReady with fqt := 3#32, fqh := 1#32 }
    s.mem.wf = true ∧ s.fqcsr.on = true ∧ s.fqcsr.ovf = false ∧ s.fqcsr.mf = false ∧ s.fqb.next s.fqt ≠ s.fqh ∧
    s.others = [] ∧ (∀ k, k < 4 → s.accessFaults .write (s.fqb.entryAddr 5 s.fqt + 8 * k) 8 = false) ∧ s.fqcsr.ie = true ∧
    ({ s with ipsr := ⟨false, true, false, false⟩ } : State).ipsr.fip = true := by decide +kernel

theorem witness_DiscardedRecordsLeaveNoTrace :
    State.reset.fqcsr.on = false ∧ ({ faultReady with fqcsr := ⟨true, true, false, true, true, false⟩ } : State).fqcsr.ovf = true ∧
    ({ faultReady with fqcsr := ⟨true, true, true, false, true, false⟩ } : State).fqcsr.mf = true := by decide +kernel

/-- V71; and the last doubleword of a record faults. -/
theorem witness_FaultQueueErrors :
    (let s : State := { faultReady with fqt := 3#32 }
     s.fqcsr.on = true ∧ s.fqcsr.ovf = false ∧ s.fqcsr.mf = false ∧ s.fqb.next s.fqt = s.fqh ∧ s.fqcsr.ie = true) ∧
    (let s := withRegion ⟨0x80002018, 0x80002020, false, true, false, [], false⟩ faultReady
     s.fqcsr.on = true ∧ s.fqcsr.ovf = false ∧ s.fqcsr.mf = false ∧ s.mem.wf = true ∧ s.fqb.next s.fqt ≠ s.fqh ∧
     s.others = [] ∧ 3 < 4 ∧ s.accessFaults .write (s.fqb.entryAddr 5 s.fqt + 8 * 3) 8 = true ∧ s.fqcsr.ie = true) := by
  decide +kernel

/-- Off; Bare; an internal error; and the narrowest `device_id` that is too wide, for one and two levels. -/
theorem witness_RequestsRefusedBeforeContext :
    (({ atsReq 0#64 with internalError := true } : Request).internalError = true) ∧
    (faultReady.ddtp.mode = .lvl1 ∧ faultReady.cfg.msiFlat = true ∧
      2 ^ (if faultReady.cfg.msiFlat then 6 else 7) ≤ ({ readReq 0#64 with did := 64#24 } : Request).did.toNat) ∧
    (({ faultReady with ddtp := ⟨.lvl2, false, 0x80010#44⟩ } : State).ddtp.mode = .lvl2 ∧
      2 ^ (if faultReady.cfg.msiFlat then 15 else 16) ≤ ({ readReq 0#64 with did := 0x8000#24 } : Request).did.toNat) ∧
    (let s := given (.request (readReq 0x1234#64)) State.reset
     s.inbox = .request (readReq 0x1234#64) :: [] ∧ (readReq 0x1234#64).internalError = false ∧ s.ddtp.mode = .off) ∧
    (let r : Request := { readReq 0x1234#64 with ttyp := .atsRequest }
     let s := given (.request r) { State.reset with ddtp := ⟨.bare, false, 0#44⟩ }
     s.inbox = .request r :: [] ∧ r.internalError = false ∧ s.ddtp.mode = .bare ∧ r.ttyp = .atsRequest) := by
  decide +kernel

theorem witness_BareModePassesThrough :
    let s := given (.request (readReq 0x1234#64)) { State.reset with ddtp := ⟨.bare, false, 0#44⟩ }
    s.inbox = .request (readReq 0x1234#64) :: [] ∧ s.ddtp.mode = .bare ∧ (readReq 0x1234#64).internalError = false ∧
    (readReq 0x1234#64).ttyp = .untransRead := by decide +kernel

/-- Each number of levels; both non-leaf levels, with nothing cached; and, for R160, the bits beside and at the ends of each
reserved range of a valid context. -/
theorem witness_DeviceContextLookup :
    let root (m : IommuMode) : State := { faultReady with ddtp := ⟨m, false, 0x80010#44⟩ }
    let bad (c : Cfg) (d : DC) : Bool := dcMisconfigured c faultReady.fctl d
    let tc (b : Nat) : DC := ⟨1#64 ||| BitVec.ofNat 64 (2 ^ b), 0#64, 0#64, 0#64, 0#64, 0#64, 0#64, 0#64⟩
    let ta (b : Nat) : DC := ⟨1#64, 0#64, BitVec.ofNat 64 (2 ^ b), 0#64, 0#64, 0#64, 0#64, 0#64⟩
    let fsc (b : Nat) : DC := ⟨1#64, 0#64, 0#64, BitVec.ofNat 64 (2 ^ b), 0#64, 0#64, 0#64, 0#64⟩
    (faultReady.ddtp.mode = .lvl1 ∧ faultReady.ioatc = [] ∧ faultReady.others = []) ∧
    ((root .lvl2).ddtp.mode = .lvl2 ∧ (root .lvl3).ddtp.mode = .lvl3 ∧ (root .lvl3).ioatc = []) ∧
    ((root .lvl3).ddtCandidates 2 5#24 = [] ∧ (root .lvl3).ddtCandidates 1 5#24 = [] ∧ (root .lvl3).others = []) ∧
    ([12, 23, 32, 63].all fun b => bad Cfg.reference (tc b)) = true ∧
    ([1, 4, 24, 31].all fun b => !bad Cfg.reference (tc b)) = true ∧
    ([0, 11, 32, 39].all fun b => bad Cfg.reference (ta b)) = true ∧
    ([12, 31, 40].all fun b => !bad Cfg.reference (ta b)) = true ∧
    bad { Cfg.reference with qosid := false } (ta 40) = true ∧
    ([44, 59].all fun b => bad Cfg.reference (fsc b)) = true ∧ bad Cfg.reference (fsc 43) = false := by decide +kernel

/-- The walk of V58's set-up with a leaf at the root. -/
def gigapageCtx : WalkCtx where
  acc := .read
  ats := false
  nw := false
  ids := ⟨5#24, none, none, none⟩
  dc := ⟨1#64, 0#64, 0#64, 0x8000000000080020#64, 0#64, 0#64, 0#64, 0#64⟩
  qos := ⟨0#12, 0#12⟩
  gScheme := .bare
  gRoot := 0#44
  gscid := 0#16
  gade := false
  fScheme := .sv39
  fRoot := 0x80020#44
  pscid := 0#20
  sade := false
  sbe := false
  supervisor := false
  sum := false

/-- R412, R414: the combined entry of a 34-bit first stage over Sv48x4 spans the 2^38 guest pages of Sv48x4 (log 19). -/
theorem test_combined_entry_spans_the_scheme :
    let x : WalkCtx := { gigapageCtx with
      dc := { gigapageCtx.dc with tc := 0x801#64 }, gScheme := .sv48, gscid := 5#16, fScheme := .sv32 }
    let l := Leaf.identity Cfg.reference 0#64
    let e : IoatcEntry := .s12 (s12Of x 0#64 l l)
    x.gpaBits = 34 ∧ gvmaHits Cfg.reference true true false false 5#16 0x400000#52 e = true ∧
    gvmaHits Cfg.reference true true false false 5#16 0x3FFFFFFFFF#52 e = true ∧
    gvmaHits Cfg.reference true true false false 5#16 0x4000000000#52 e = false := by decide +kernel

/-- The first stage Bare, and for each scheme the least address that is not canonical. -/
theorem witness_FirstStageTranslates_addresses :
    ({ gigapageCtx with fScheme := .bare } : WalkCtx).fScheme = .bare ∧
    (0x100000000#64 : DWord).getLsbD 32 = true ∧
    (0x4000000000#64 : DWord).getLsbD 39 ≠ (0x4000000000#64 : DWord).getLsbD 38 ∧
    (0x800000000000#64 : DWord).getLsbD 48 ≠ (0x800000000000#64 : DWord).getLsbD 47 ∧
    (0x100000000000000#64 : DWord).getLsbD 57 ≠ (0x100000000000000#64 : DWord).getLsbD 56 := by decide

/-- The root entry refused and poisoned; bad; and leaves: not permitted, to be updated with SADE 0 and 1, current. -/
theorem witness_FirstStageTranslates_root :
    let x := gigapageCtx
    let va : DWord := 0xFFFFFFFFFFFFFABC#64
    let leaf (v : Nat) : State := { faultReady with mem := Memory.writeBytes [] 0x80020FF8 (toBytes false 8 v) }
    let a := x.fRoot.toNat * 4096 + va.toNat / 2 ^ 30 % 512 * 8
    let pte (v : Nat) : DWord := BitVec.ofNat 64 (ofBytes x.sbe (Memory.readBytes
      ((({ leaf v with walked := true } : State).countEvent .s1Walk x.ids).logBus .read a 8 x.qos).mem a 8))
    x.fScheme = .sv39 ∧ x.gScheme = .bare ∧ canonical .sv39 va = true ∧ x.sade = false ∧ x.supervisor = false ∧
    (withRegion ⟨0x80020FFF, 0x80021000, true, false, false, [], false⟩ faultReady).accessFaults .read a 8 = true ∧
    (let s := withRegion ⟨0x80020FFF, 0x80021000, false, false, false, [], true⟩ faultReady
     s.accessFaults .read a 8 = false ∧ s.poisoned a 8 = true) ∧
    classify faultReady.cfg .sv39 2 (pte 0) = .bad ∧
    ([0x200000C7, 0x20000017, 0x200000D7].all fun v =>
      classify (leaf v).cfg .sv39 2 (pte v) == .leaf 18 && !(leaf v).accessFaults .read a 8 && !(leaf v).poisoned a 8 &&
      !(leaf v).accessFaults .atomic a 8 && !(leaf v).accessFaults .write a 8 && (leaf v).others == []) = true ∧
    (pte 0x200000C7).getLsbD 4 = false ∧ ((pte 0x20000017).getLsbD 4 = true ∧ (pte 0x20000017).getLsbD 6 = false) ∧
    ((pte 0x200000D7).getLsbD 4 = true ∧ (pte 0x200000D7).getLsbD 6 = true) := by decide +kernel

/-- The three levels of V58. -/
theorem witness_FirstStageTranslates_path :
    let x := gigapageCtx
    let va : DWord := 0x40201ABC#64
    let s : State := { faultReady with mem := [(0x80020008, 0x20008401#64), (0x80021008, 0x20008801#64),
      (0x80022008, 0x240000D7#64)].foldl (fun m p => Memory.writeBytes m p.1 (toBytes false 8 p.2.toNat)) [] }
    let word (a : Nat) : DWord := BitVec.ofNat 64 (ofBytes x.sbe (Memory.readBytes s.mem a 8))
    let a2 := x.fRoot.toNat * 4096 + va.toNat / 2 ^ 30 % 512 * 8
    let a1 := ((word a2).extractLsb' 10 44).toNat * 4096 + va.toNat / 2 ^ 21 % 512 * 8
    let a0 := ((word a1).extractLsb' 10 44).toNat * 4096 + va.toNat / 2 ^ 12 % 512 * 8
    canonical .sv39 va = true ∧ s.others = [] ∧
    ((List.finRange 31).all fun n => !s.counts .s1Walk x.ids n) = true ∧
    ([a2, a1, a0].all fun a => !s.accessFaults .read a 8 && !s.poisoned a 8) = true ∧
    classify s.cfg .sv39 2 (word a2) = .pointer ∧ classify s.cfg .sv39 1 (word a1) = .pointer ∧
    classify s.cfg .sv39 0 (word a0) = .leaf 0 ∧ x.s1Permits (word a0) = true ∧ (word a0).getLsbD 6 = true ∧
    x.s1Writes = false := by decide +kernel

/-- A device context with EN_ATS, EN_PRI and PDTV over a one-level process directory. -/
def pdtDC : DC := ⟨0x27#64, 0#64, 0#64, 0x1000000000080030#64, 0#64, 0#64, 0#64, 0#64⟩

/-- Each number of levels; both non-leaf levels, with nothing cached, and the last page a table can be in; and, for R168,
each second-stage mode and the bits beside and at the ends of each reserved range of a valid context. -/
theorem witness_ProcessContextLookup :
    let s := faultReady
    let bad (p : PC) : Bool := pcMisconfigured Cfg.reference false pdtDC p
    let ta (b : Nat) : PC := ⟨1#64 ||| BitVec.ofNat 64 (2 ^ b), 0#64⟩
    let fsc (b : Nat) : PC := ⟨1#64, BitVec.ofNat 64 (2 ^ b)⟩
    let hmode (m : DWord) : BitVec 4 := ({ pdtDC with iohgatp := m <<< 60 } : DC).iohgatp.extractLsb' 60 4
    (gigapageCtx.gScheme = .bare ∧ s.ioatc = [] ∧ s.others = [] ∧ pdtDC.fsc.extractLsb' 60 4 = 1#4 ∧
      (0xFF#20 : BitVec 20).toNat < 256) ∧
    ((0x2000000000080030#64 : DWord).extractLsb' 60 4 = 2#4 ∧ (0x3000000000080030#64 : DWord).extractLsb' 60 4 = 3#4) ∧
    (s.pdtCandidates 5#24 2 0xFFFFF#20 = [] ∧ s.pdtCandidates 5#24 1 0xFFFFF#20 = [] ∧
      0xFFFFFFFFFFFFF000 + 4096 ≤ 2 ^ 64) ∧
    ([0#64, 8#64, 9#64, 10#64].map hmode = [0#4, 8#4, 9#4, 10#4]) ∧
    ([3, 11, 32, 63].all fun b => bad (ta b)) = true ∧ ([1, 2, 12, 31].all fun b => !bad (ta b)) = true ∧
    ([44, 59, 60].all fun b => bad (fsc b)) = true ∧ ([43, 63].all fun b => !bad (fsc b)) = true := by decide +kernel

/-- The first address too wide, with SXL 0 and 1; and, below the width, a leaf at the root that does not permit, one to be
updated with GADE 0 and with GADE 1, and one that is current. -/
theorem witness_SecondStageTranslates :
    let x : WalkCtx := { gigapageCtx with gScheme := .sv39, gRoot := 0x80040#44, fScheme := .bare }
    let x1 : WalkCtx := { x with dc := { x.dc with tc := 0x801#64 } }
    let leaf (v : Nat) : State := { faultReady with mem := Memory.writeBytes [] 0x80043FF8 (toBytes false 8 v) }
    let gpa : DWord := 0x1FFFFFFFFFF#64
    let a := x.gRoot.toNat * 4096 + gpa.toNat / 2 ^ 30 * 8
    let pte (s : State) : DWord := BitVec.ofNat 64 (ofBytes s.fctl.be (Memory.readBytes
      ((({ s with walked := true } : State).countEvent .s2Walk x.ids).logBus .read a 8 x.qos).mem a 8))
    (2 ^ (if x.dc.tc.getLsbD 11 then 34 else 41) ≤ (0x20000000000#64 : DWord).toNat ∧
      2 ^ (if x1.dc.tc.getLsbD 11 then 34 else 41) ≤ (0x400000000#64 : DWord).toNat) ∧
    (gpa.toNat < 2 ^ (if x.dc.tc.getLsbD 11 then 34 else 41) ∧
      ([0x200000C7, 0x20000017, 0x200000D7].all fun v =>
        classify (leaf v).cfg .sv39 2 (pte (leaf v)) == .leaf 18 && !(leaf v).accessFaults .read a 8 &&
        !(leaf v).poisoned a 8 && (leaf v).others == [] && !(leaf v).accessFaults .atomic a 8 &&
        !(leaf v).accessFaults .write a 8) = true ∧
      (pte (leaf 0x200000C7)).getLsbD 4 = false ∧
      ((pte (leaf 0x20000017)).getLsbD 4 = true ∧ (pte (leaf 0x20000017)).getLsbD 6 = false) ∧
      ((pte (leaf 0x200000D7)).getLsbD 4 = true ∧ (pte (leaf 0x200000D7)).getLsbD 6 = true)) ∧
    x.gScheme = .sv39 ∧ x.gade = false ∧ ({ x with gade := true } : WalkCtx).gade = true := by decide +kernel

/-- `faultReady` with the device context of device 5 in memory. -/
def withDC (tc fsc : Nat) : State := { faultReady with
  mem := Memory.writeBytes (Memory.writeBytes [] 0x80010140 (toBytes false 8 tc)) 0x80010158 (toBytes false 8 fsc) }

/-- The context of a device whose MSI page table, at 0x80050, has one interrupt file, for the page 0xFEE02. -/
def msiCtx : WalkCtx := { gigapageCtx with
  fScheme := .bare
  dc := ⟨3#64, 0#64, 0#64, 0#64, 0x1000000000080050#64, 0#64, 0xFEE02#64, 0#64⟩ }

/-- The PTE of `msiCtx`: a basic one that gives the page 0x24000. -/
def msiReady : State := { faultReady with
  mem := Memory.writeBytes [] 0x80050000 (toBytes false 8 0x9000007) }

/-- R219: the response to a completed ATS Translation Request brings the RCID 5 and MCID 7 of `DC.ta`. -/
theorem test_ats_qos :
    let s := withDC 3 0
    let t : State := { s with mem := Memory.writeBytes s.mem 0x80010150 (toBytes false 8 0x0070050000000000) }
    (found (atsTranslate (atsReq 0x1234#64) t)).map (fun d => d.1.qos) = some (some ⟨5#12, 7#12⟩) := by decide +kernel
/-- R412, R414: an MSI PTE of a guest page above the width of Sv39x4 goes by its guest page (log 19). -/
theorem test_gvma_wide_msi_page :
    gvmaHits Cfg.reference true true false false 5#16 0x20000000#52 (.msi 5#16 0x20000000#52 7#64 0#64) = true := by
  decide +kernel

/-- A translation that is completed: the contexts, the walk, and the answer. -/
theorem witness_AtsResponses_completed :
    let q := atsReq 0x1234#64
    let s := withDC 3 0
    (match plan q s with
      | .ok (.walk x) u => (found (atsWalk x q.iova (x.dc.tc.getLsbD 3) (8 + u.others.length) true u)).isSome
      | _ => false) = true ∧
    ((found (atsTranslate q (s.enter q))).map fun d => (d.1.addr, d.1.r, d.1.w)) = some (0x1000#64, true, true) ∧
    (stopped (plan q (State.reset))).map Stop.cause = some .allDisallowed := by decide +kernel

/-- The walk for an MSI address. -/
theorem witness_AtsResponses_msi :
    (found (atsWalk { msiCtx with ats := true } 0xFEE02000#64 false 9 false msiReady)).map AtsDone.msi = some true := by
  decide +kernel

/-- A fault of each of the three kinds: 260, 1 to 274, and one of R346. -/
theorem witness_AtsResponses :
    ((stopped (atsTranslate (atsReq 0#64) ((withDC 1 0).enter (atsReq 0#64)))).map Stop.cause = some .typeDisallowed ∧
      Cause.typeDisallowed.code.toNat ∈ [256, 257, 258, 259, 260]) ∧
    ((stopped (atsTranslate (atsReq 0#64) ((withRegion ⟨0x80020000, 0x80021000, true, false, false, [], false⟩
        (withDC 3 0x8000000000080020)).enter (atsReq 0#64)))).map Stop.cause = some .readAccess ∧
      Cause.readAccess.code.toNat ∈ [1, 5, 7, 261, 263, 265, 267, 268, 269, 270, 272, 274]) ∧
    ((stopped (atsTranslate (atsReq 0#64) ((withDC 3 0x8000000000080020).enter (atsReq 0#64)))).map Stop.cause
        = some .readPage ∧
      Cause.readPage.code.toNat ∈ [12, 13, 15, 20, 21, 23, 262, 266]) ∧
    (let q : Request := { atsReq 0x40201000#64 with isCxl := true }
     (stopped (atsTranslate q (ioPage.enter q))).map (fun f => (f.cause, f.page))
        = some (.readGuestPage, some ⟨false, 2#2⟩) ∧ q.isCxl = true ∧ ({ q with isCxl := false } : Request).isCxl = false ∧
      Cause.readGuestPage.code.toNat ∈ [12, 13, 15, 20, 21, 23, 262, 266]) := by decide +kernel

/-- Each of the five clauses. -/
theorem witness_InterruptDelivery :
    ({ State.reset with ipsr := ⟨true, false, false, false⟩ } : State).ipsr.get .cq = true ∧
    (State.reset.ipsr.get .cq = false ∧ (wired State.reset).fctl.wsi = true) ∧
    (State.reset.fctl.wsi = false ∧
      (({ State.reset with msiCfg := State.reset.msiCfg.set 0 ⟨0#54, 0#32, true⟩ } : State).msiEntry 0#4).m = true) ∧
    ((faultReady.msiEntry 0#4).m = false ∧ faultReady.accessFaults .write (faultReady.msiEntry 0#4).address.toNat 4 = false ∧
      faultReady.others = []) ∧
    (let s := withRegion ⟨0x28000003, 0x28000004, false, true, false, [], false⟩ faultReady
     s.ipsr.get .pm = false ∧ s.accessFaults .write (s.msiEntry 0#4).address.toNat 4 = true) := by decide +kernel

/-- V122, for the last entry of the table; the last legal address and the first that is not; and the first entry that is
not there. -/
theorem witness_MsiTableWrites :
    let s : State := { State.reset with
      msiCfg := State.reset.msiCfg.set 15 ⟨0xA000001#54, 0x22#32, true⟩
      msiPending := State.reset.msiPending.set 15 true }
    s.cfg.igs ≠ .wsi ∧ (15 : Fin 16).val < s.cfg.nVectors ∧ s.msiCfg[(15 : Fin 16)].m = true ∧
    s.msiPending[(15 : Fin 16)] = true ∧ (0#64 : DWord).getLsbD 0 = false ∧
    s.accessFaults .write s.msiCfg[(15 : Fin 16)].address.toNat 4 = false ∧ s.others = [] ∧
    (0x3FFFFFFFFFFFFF#54 : BitVec 54).toNat * 4 < 2 ^ s.cfg.pas ∧
    (let u : State := { s with cfg := { Cfg.reference with pas := 46, nVectors := 15 } }
     ¬(0x100000000000#54 : BitVec 54).toNat * 4 < 2 ^ u.cfg.pas ∧ u.cfg.nVectors ≤ (15 : Fin 16).val) ∧
    (State.resetWith { Cfg.reference with igs := .wsi }).cfg.igs = .wsi := by decide +kernel

/-- Wired; with message interrupts and no condition; with one condition that still holds, cleared so that a second message
is sent. -/
theorem witness_IpsrWriteClearsAndReevaluates :
    (wired State.reset).fctl.wsi = true ∧
    (faultReady.cipLevel = false ∧ faultReady.fqcsr.ipLevel = false ∧ faultReady.pqcsr.ipLevel = false) ∧
    (let s : State := { faultReady with fqcsr := ⟨true, true, false, true, true, false⟩, ipsr := ⟨false, true, false, false⟩ }
     s.fqcsr.ipLevel = true ∧ s.cipLevel = false ∧ s.pqcsr.ipLevel = false ∧ s.fctl.wsi = false ∧
     (s.ipsr.fip && !(2#64 : DWord).getLsbD 1) = false ∧ (s.msiEntry (s.icvec.vector .fq)).m = false ∧
     s.accessFaults .write (s.msiEntry (s.icvec.vector .fq)).address.toNat 4 = false ∧ s.others = []) := by
  decide +kernel

/-- A page-request queue of 4 entries at 0x80004000, V106. -/
def pqReady : State := { State.reset with pqb := ⟨1#5, 0x80004#44⟩, pqcsr := ⟨true, true, false, false, true, false⟩ }

/-- Each queue off and enabled, and each on and disabled. -/
theorem witness_EnablingAndDisablingQueues :
    ((1#64 : DWord).getLsbD 0 = true ∧ State.reset.cqcsr.busy = false ∧
      State.reset.cqcsr.cqen = false ∧ State.reset.fqcsr.busy = false ∧ State.reset.fqcsr.en = false ∧
      State.reset.cfg.ats = true ∧ State.reset.pqcsr.busy = false ∧ State.reset.pqcsr.en = false) ∧
    ((0x700#64 : DWord).getLsbD 0 = false ∧ cqReady.cqcsr.busy = false ∧ cqReady.cqcsr.cqen = true ∧
      faultReady.fqcsr.busy = false ∧ faultReady.fqcsr.en = true) ∧
    ((0x300#64 : DWord).getLsbD 0 = false ∧ pqReady.cfg.ats = true ∧ pqReady.pqcsr.busy = false ∧
      pqReady.pqcsr.en = true) := by decide +kernel

/-- Each of the three queues, and an engine that goes on: V23. -/
theorem witness_ClearingErrorBits :
    (let s : State := { oneCommand with cqcsr := ⟨true, true, false, false, true, false, true, false⟩ }
     s.cqcsr.busy = false ∧ (0x403#64 : DWord).getLsbD 0 = s.cqcsr.cqen ∧ s.cqcsr.cqon = true ∧ s.cqcsr.cqmf = false ∧
     s.cqcsr.cmdTo = false ∧ (0x403#64 : DWord).getLsbD 10 = true ∧ s.inbox = [] ∧ s.fetched = none ∧ s.cqh ≠ s.cqt) ∧
    (let s : State := { faultReady with fqcsr := ⟨true, true, true, true, true, false⟩ }
     s.fqcsr.busy = false ∧ (0x103#64 : DWord).getLsbD 0 = s.fqcsr.en ∧
     ({ s.fqcsr with mf := false } : OutCsr).ipLevel = true) ∧
    (let s : State := { State.reset with pqcsr := ⟨true, true, true, true, true, false⟩ }
     s.cfg.ats = true ∧ s.pqcsr.busy = false ∧ (0x303#64 : DWord).getLsbD 0 = s.pqcsr.en) := by decide +kernel

/-- Off with the queues disabled, not Off, and a queue that is off and one that is on. -/
theorem witness_WritesOfFctlAndQueueBases :
    (let s := State.reset
     s.ddtp.mode = .off ∧ s.cqcsr.cqen = false ∧ s.cqcsr.cqon = false ∧ s.fqcsr.en = false ∧ s.fqcsr.on = false ∧
     s.pqcsr.en = false ∧ s.pqcsr.on = false ∧ s.cqcsr.busy = false ∧ s.fqcsr.busy = false ∧ s.pqcsr.busy = false ∧
     s.cfg.ats = true) ∧
    faultReady.ddtp.mode ≠ .off ∧ cqReady.cqcsr.cqon = true ∧ faultReady.fqcsr.on = true := by decide +kernel

/-- An allowed write, V14; to Off; a refused one, V17; a mode that is not legal; and a write of the high half. -/
theorem witness_DdtpTransitions :
    (State.reset.ddtp.busy = false ∧ (0x20004002#64 : DWord).extractLsb' 0 4 = IommuMode.lvl1.code ∧
      modeSupported State.reset.cfg .lvl1 = true ∧ State.reset.ddtp.mode = .off) ∧
    (faultReady.ddtp.busy = false ∧ (0x20004000#64 : DWord).extractLsb' 0 4 = IommuMode.off.code ∧
      faultReady.ddtp.ppn.extractLsb' 22 22 ++ (0x20004000#64 : DWord).extractLsb' 10 22 = faultReady.ddtp.ppn) ∧
    ((0x20004003#64 : DWord).extractLsb' 0 4 = IommuMode.lvl2.code ∧ modeSupported faultReady.cfg .lvl2 = true ∧
      faultReady.ddtp.mode = .lvl1) ∧
    legalMode faultReady.cfg ((0x20004005#64 : DWord).extractLsb' 0 4) = none := by decide +kernel

/-- The widest value of an index; the numbers of vectors at the ends, and one that is no power of two; the debug interface at
rest and at work; the last counter; an event there is and one there is not; and both ends of the widths of the counters. -/
theorem witness_RegisterWritesReadBack :
    (cqReady.cfg.ats = true ∧ (0xFFFFFFFF#64 : DWord).toNat < 2 ^ 32 ∧ (0#64 : DWord).toNat < 2 ^ 32) ∧
    ([(1, 0), (3, 2), (16, 4)].all fun p =>
      let c : Cfg := { Cfg.reference with nVectors := p.1 }
      decide (1 ≤ c.nVectors ∧ c.nVectors ≤ 16 ∧ c.nVectors ≤ 2 ^ p.2 ∧ ∀ j, j < p.2 → 2 ^ j < c.nVectors)) = true ∧
    State.reset.cfg.qosid = true ∧
    (State.reset.cfg.dbg = true ∧ State.reset.trReqCtl.goBusy = false ∧ (2#64 : DWord).getLsbD 0 = false ∧
      ({ State.reset with trReqCtl := { State.reset.trReqCtl with goBusy := true } } : State).trReqCtl.goBusy = true) ∧
    (State.reset.cfg.hpm = true ∧ (30 : Fin 31).val < State.reset.cfg.hpmCounters) ∧
    ((5#64 : DWord).extractLsb' 0 15).toNat ∈ State.reset.cfg.hpmEvents ∧
    ¬((0x7FFF#64 : DWord).extractLsb' 0 15).toNat ∈ State.reset.cfg.hpmEvents ∧
    ([32, 64].all fun w => let c : Cfg := { Cfg.reference with hpmWidth := w }
      decide (32 ≤ c.hpmWidth ∧ c.hpmWidth ≤ 64)) = true := by decide +kernel

theorem witness_DebugInOffAndBare :
    State.reset.cfg.dbg = true ∧ State.reset.trReqCtl.goBusy = false ∧ (9#64 : DWord).getLsbD 0 = true ∧
    State.reset.ddtp.mode = .off ∧
    ({ State.reset with ddtp := ⟨.bare, false, 0#44⟩ } : State).ddtp.mode = .bare := by decide +kernel

/-- An event that one counter counts below its top, while others wrap: with OF 0, and all with OF already 1; cycles
inhibited, counted, and past the top of 63 bits; one below the top of a counter, and the top. -/
theorem witness_CountersAndFilters :
    (let s (o : Bool) : State := { State.reset with
       iocountinh := 0#32
       iohpmevt := ((State.reset.iohpmevt.set 0 { HpmEvt.zero with eventId := 5#15 }).set 1
         { HpmEvt.zero with eventId := 5#15, ovf := true }).set 30 { HpmEvt.zero with eventId := 5#15, ovf := o }
       iohpmctr := (State.reset.iohpmctr.set 1 (BitVec.allOnes 64)).set 30 (BitVec.allOnes 64) }
     let ids : EventIds := ⟨5#24, none, none, none⟩
     let wraps (s : State) (n : Fin 31) : Bool := s.counts .ddtWalk ids n && decide (2 ^ s.cfg.hpmWidth ≤ (s.iohpmctr[n]).toNat + 1)
     (s false).cfg.hpmWidth ≤ 64 ∧ ((s false).counts .ddtWalk ids 0 = true ∧ wraps (s false) 0 = false) ∧
     (wraps (s false) 1 = true ∧ (s false).iohpmevt[(1 : Fin 31)].ovf = true) ∧
     (wraps (s false) 30 = true ∧ (s false).iohpmevt[(30 : Fin 31)].ovf = false) ∧
     (wraps (s true) 30 = true ∧
       ((List.finRange 31).all fun n => !wraps (s true) n || (s true).iohpmevt[n].ovf) = true)) ∧
    (let c (x : BitVec 63) : State := given (.cycles 2) { State.reset with iocountinh := 0#32, iohpmcycles := ⟨x, false⟩ }
     (c 0#63).inbox = .cycles 2 :: [] ∧ (c 0#63).cfg.hpm = true ∧ (c 0#63).iocountinh.getLsbD 0 = false ∧
     (0x7FFFFFFFFFFFFFFD#63 : BitVec 63).toNat + 2 < 2 ^ min (c 0#63).cfg.hpmWidth 63 ∧
     2 ^ min (c 0#63).cfg.hpmWidth 63 ≤ (0x7FFFFFFFFFFFFFFE#63 : BitVec 63).toNat + 2) ∧
    ({ State.reset with iocountinh := 1#32 } : State).iocountinh.getLsbD 0 = true ∧
    let s : State := { State.reset with iohpmctr := State.reset.iohpmctr.set 30 0xFFFFFFFFFFFFFFFE#64 }
    let t : State := { State.reset with iohpmctr := State.reset.iohpmctr.set 30 0xFFFFFFFFFFFFFFFF#64 }
    s.cfg.hpmWidth ≤ 64 ∧ (s.iohpmctr[(30 : Fin 31)]).toNat < 2 ^ s.cfg.hpmWidth ∧
    (s.iohpmctr[(30 : Fin 31)]).toNat + 1 < 2 ^ s.cfg.hpmWidth ∧
    (t.iohpmctr[(30 : Fin 31)]).toNat < 2 ^ t.cfg.hpmWidth ∧
    (t.iohpmctr[(30 : Fin 31)]).toNat + 1 = 2 ^ t.cfg.hpmWidth := by decide +kernel

/-- Off; each error bit; full, V107; a write that faults at its last byte; with room, at the index before the wrap, with
the interrupt enabled and pending. -/
theorem witness_PageRequestQueueing :
    (State.reset.mem.wf = true ∧ State.reset.pqcsr.on = false) ∧
    (let s : State := { pqReady with pqcsr := { pqReady.pqcsr with mf := true } }
     s.mem.wf = true ∧ s.pqcsr.en = true ∧ s.pqcsr.on = true ∧ s.pqcsr.mf = true) ∧
    (let s : State := { pqReady with pqcsr := { pqReady.pqcsr with ovf := true } }
     s.mem.wf = true ∧ s.pqcsr.en = true ∧ s.pqcsr.on = true ∧ s.pqcsr.mf = false ∧ s.pqcsr.ovf = true) ∧
    (let s : State := { pqReady with pqt := 3#32 }
     s.mem.wf = true ∧ s.pqcsr.en = true ∧ s.pqcsr.on = true ∧ s.pqcsr.mf = false ∧ s.pqcsr.ovf = false ∧
     s.pqb.next s.pqt = s.pqh ∧ s.pqcsr.ie = true) ∧
    (let s := withRegion ⟨0x8000400F, 0x80004010, false, true, false, [], false⟩ pqReady
     s.mem.wf = true ∧ s.pqcsr.en = true ∧ s.pqcsr.on = true ∧ s.pqcsr.mf = false ∧ s.pqcsr.ovf = false ∧
     s.pqb.next s.pqt ≠ s.pqh ∧ s.others = [] ∧ s.accessFaults .write (s.pqb.entryAddr 4 s.pqt + 8 * 1) 8 = true) ∧
    (let s : State := { pqReady with pqt := 3#32, pqh := 1#32, ipsr := ⟨false, false, false, true⟩ }
     s.mem.wf = true ∧ s.pqcsr.en = true ∧ s.pqcsr.on = true ∧ s.pqcsr.mf = false ∧ s.pqcsr.ovf = false ∧
     s.pqb.next s.pqt ≠ s.pqh ∧ s.others = [] ∧ (∀ k, k < 2 → s.accessFaults .write (s.pqb.entryAddr 4 s.pqt + 8 * k) 8 = false) ∧
     s.pqcsr.ie = true ∧
     s.ipsr.pip = true) := by decide +kernel

/-- A device that may send Page Requests; one without EN_PRI; a directory entry that is not valid; Off and Bare. -/
theorem witness_PageRequestResponses :
    let ids : EventIds := ⟨5#24, none, none, none⟩
    ((found (messageDC ids (withDC 7 0))).map (fun dc => (dc.tc.getLsbD 1, dc.tc.getLsbD 2)) = some (true, true)) ∧
    ((found (messageDC ids (withDC 3 0))).map (fun dc => (dc.tc.getLsbD 1, dc.tc.getLsbD 2)) = some (true, false)) ∧
    ((stopped (messageDC ids faultReady)).map Stop.cause = some .ddtNotValid) ∧
    State.reset.ddtp.mode = .off ∧ ({ State.reset with ddtp := ⟨.bare, false, 0#44⟩ } : State).ddtp.mode = .bare := by
  decide +kernel

/-- A device with and without EN_ATS, one without a context, and a request that is old enough and one that is not. -/
theorem witness_InvalidationOutcomes :
    let ids : EventIds := ⟨5#24, none, none, none⟩
    let s : State := given (.invalTimeout 0) { State.reset with
      cfg := { Cfg.reference with atsInvalTimeout := 10 }, outstanding := [⟨0#32, none, 5#16, 0, 10⟩] }
    ((found (messageDC ids (withDC 3 0))).map (fun dc => dc.tc.getLsbD 1) = some true) ∧
    ((found (messageDC ids (withDC 1 0))).map (fun dc => dc.tc.getLsbD 1) = some false) ∧
    ((stopped (messageDC ids faultReady)).map Stop.cause = some .ddtNotValid) ∧
    s.inbox = .invalTimeout 0 :: [] ∧ (∃ o ∈ s.outstanding, o.itag = 0 ∧ s.cfg.atsInvalTimeout ≤ o.age) ∧
    ¬(∃ o ∈ s.outstanding, o.itag = 0 ∧ s.cfg.atsInvalTimeout + 1 ≤ o.age) := by decide +kernel

/-- The last counter. -/
theorem witness_CountovfIsView :
    State.reset.cfg.hpm = true ∧ (30 : Fin 31).val < State.reset.cfg.hpmCounters := by decide

/-- Each ground for a refusal, with the narrowest `process_id` that is too wide; and a Translated request that passes. -/
theorem witness_ContextSelection_types :
    let dc (tc fsc : DWord) : DC := ⟨tc, 0#64, 0#64, fsc, 0#64, 0#64, 0#64, 0#64⟩
    let r : Request := { readReq 0x1234#64 with ttyp := .transRead }
    (r.internalError = false ∧ faultReady.ddtp.mode = .lvl1 ∧ didTooWide faultReady.cfg.msiFlat .lvl1 r.did = false ∧
      (found (locateDC r.ids (withDC 3 0))).map DC.tc = some 3#64) ∧
    (r.ttyp.translated = true ∧ (dc 1#64 0#64).tc.getLsbD 1 = false) ∧
    (({ Cfg.reference with ats := false } : Cfg).ats = false) ∧
    (({ r with pidValid := true } : Request).pidValid = true ∧ (dc 3#64 0#64).tc.getLsbD 5 = false) ∧
    ((dc 0x21#64 0x1000000000000000#64).fsc.extractLsb' 60 4 = 1#4 ∧ 2 ^ 8 ≤ (0x100#20).toNat) ∧
    ((dc 0x21#64 0x2000000000000000#64).fsc.extractLsb' 60 4 = 2#4 ∧ 2 ^ 17 ≤ (0x20000#20).toNat) ∧
    (r.pidValid = false ∧ (dc 3#64 0#64).tc.getLsbD 1 = true ∧ State.reset.cfg.ats = true ∧
      (dc 3#64 0#64).tc.getLsbD 3 = false) := by decide +kernel

/-- `withDC` with a one-level process directory at 0x80030, whose process 0 has the first word `ta` and the first stage Bare. -/
def withPC (tc ta : Nat) : State :=
  let s := withDC tc 0x1000000000080030
  { s with mem := Memory.writeBytes s.mem 0x80030000 (toBytes false 8 ta) }

/-- A Translated request with T2GPA; without PDTV; with PDTV and no `process_id`, without and with DPE, the latter with a
process context that is valid and with none; a Bare directory; a Supervisor request with ENS 0 and with ENS 1; the
outcomes of the walk; and a combined entry that is taken or not. -/
theorem witness_ContextSelection_contexts :
    let r : Request := readReq 0x1234#64
    let sup : Request := { r with pidValid := true, supervisor := true }
    let planned (q : Request) (s : State) : Option Bool := (found (plan q s)).map fun p =>
      match p with
      | .walk _ => true
      | .pass _ => false
    let t2gpa : State :=
      let s := withDC 0xB 0
      { s with mem := Memory.writeBytes s.mem 0x80010148 (toBytes false 8 0x8000000000080040) }
    planned { r with ttyp := .transRead } t2gpa = some true ∧
    planned r (withDC 1 0) = some true ∧ planned r (withPC 0x21 1) = some true ∧ planned r (withPC 0x221 1) = some true ∧
    (stopped (plan r (withPC 0x221 0))).map Stop.cause = some .pdtNotValid ∧
    planned sup (withDC 0x21 0) = some true ∧
    (stopped (plan sup (withPC 0x21 1))).map Stop.cause = some .typeDisallowed ∧
    planned sup (withPC 0x21 3) = some true ∧
    (found (translate r false ((withDC 1 0).enter r))).isSome = true ∧
    ((stopped (translate r false ((withDC 1 0x8000000000080020).enter r))).map Stop.cause = some .readPage) ∧
    (let x : WalkCtx := { gigapageCtx with gScheme := .sv39 }
     let e : S12Entry := ⟨0#16, 0#20, 1#52, 1#52, 0x24#52, 0, 0, 29, true, true, false, true, true, false, 0#2⟩
     ([0, 1].map fun c => (found (runWalk x r false { faultReady with ioatc := [.s12 e], choices := [c] })).map Success.spa)
       = [some 0x24234#64, none]) := by decide +kernel

/-- The ends of each range of reserved offsets, the offsets beside them that hold a register, and the read-only registers;
the first and last offset of each kind that an 8-byte access may have; and the two halves of a split read. -/
theorem witness_RegisterPageAccesses :
    ([12, 15, 628, 759, 1024, 4095].all fun off => decide ((12 ≤ off ∧ off ≤ 15) ∨ (628 ≤ off ∧ off ≤ 759) ∨
      (1024 ≤ off ∧ off ≤ 4095))) = true ∧ regAt 8 = some .fctl ∧ regAt 16 = some .ddtp ∧ regAt 624 = some .iommuQosid ∧
    regAt 760 = some .icvec ∧ regAt 1020 = some (.msiVecCtl 15) ∧
    (0 ∈ [0, 616] ∧ (8 = 4 ∨ 8 = 8)) ∧ (616 ∈ [0, 616] ∧ (4 = 4 ∨ 4 = 8)) ∧ (620 ∈ [4, 32, 52, 68, 88, 620] ∧ 4 = 4) ∧
    (let wide (off : Nat) : Bool := decide (off ∈ [0, 16, 24, 40, 56, 96, 600, 608, 616, 760]) ||
       decide (104 ≤ off ∧ off < 600 ∧ off % 8 = 0) || decide (768 ≤ off ∧ off < 1024 ∧ off % 16 = 0)
     ([0, 760, 104, 592, 768, 1008].all wide && [8, 100, 624, 776, 1020, 1024].all fun off => !wide off) = true) ∧
    (given (.hartWrite 0x10000FFF#64 1 0#64 false) State.reset).inbox = .hartWrite 0x10000FFF#64 1 0#64 false :: [] ∧
    (given (.hartRead 0x10000000#64 8) State.reset).inbox = .hartRead 0x10000000#64 8 :: [] ∧
    ((0x10000FFF#64 : DWord).toNat = State.reset.cfg.regBase.toNat + 4095 ∧ 4095 < 4096 ∧ 1 ≤ 1) ∧
    (given (.hartReadFirst 0 0x10000060#64 true) State.reset).inbox = .hartReadFirst 0 0x10000060#64 true :: [] ∧
    (0x10000060#64 : DWord).toNat = State.reset.cfg.regBase.toNat + 96 ∧
    (let s : State := { given (.hartReadSecond 0) State.reset with halfReads := [⟨0, 96, true, 0#32⟩] }
     s.inbox = .hartReadSecond 0 :: [] ∧ s.halfReads.find? (fun x => x.hart == 0) = some ⟨0, 96, true, 0#32⟩) := by
  decide +kernel

/-- E1: the last bit under the mask, and the first position above the result. -/
theorem witness_ExtractGathersMaskedBits :
    7 < 8 ∧ (0xA6 : Nat).testBit 7 = true ∧ ((List.range 8).filter (fun i => (0xA6 : Nat).testBit i)).length ≤ 4 := by
  decide

/-- An address of a virtual interrupt file, with a PTE and with none; and, beside it, one that is not. -/
theorem witness_MsiAddressRecognition :
    (isMsiAddress Cfg.reference msiCtx.dc 0xFEE02FFF#64 = true ∧ isMsiAddress Cfg.reference msiCtx.dc 0xFEE03000#64 = false ∧
      isMsiAddress { Cfg.reference with msiFlat := false } msiCtx.dc 0xFEE02000#64 = false) ∧
    ((found (firstStage msiCtx true 0xFEE02000#64 msiReady)).map Leaf.addr = some 0xFEE02000#64) ∧
    ((found (msiTranslate msiCtx false 0xFEE02000#64 msiReady)) = some (.basic 0x24000000#64)) ∧
    ((stopped (msiTranslate msiCtx false 0xFEE02000#64 faultReady)).map Stop.cause = some .msiPteNotValid) ∧
    ((found (secondStage msiCtx .final true 0xFEE03000#64 msiReady)).map Leaf.addr = some 0xFEE03000#64) ∧
    (let info : MrifInfo := ⟨0x80050000#64, 0x28000000#64, 0x11#32⟩
     let x : WalkCtx := { msiCtx with acc := .write }
     (found (mrifAccess x info 0xFEE02000#64 [0#8, 0#8, 0#8, 0#8] faultReady)).isSome = true ∧
     (stopped (mrifAccess x info 0xFEE02002#64 [0#8, 0#8, 0#8, 0#8] faultReady)).map Stop.cause = some .writeAccess) := by
  decide +kernel

/-- The same with a PTE in MRIF mode, for the MRIF of the page 0x80060. -/
def mrifReady : State := { faultReady with mem := Memory.writeBytes [] 0x80050000 (toBytes false 8 0x20018003) }

/-- The walk of an ATS Translation Request at an MSI page in either mode, at one without a PTE, and at any other address. -/
theorem witness_MsiAddressRecognition_ats :
    let x : WalkCtx := { msiCtx with ats := true }
    let walk (a : DWord) (s : State) : Res AtsDone := atsWalk x a false 1 true s
    ((found (walk 0xFEE02000#64 msiReady)).map fun d => (d.addr, d.r, d.w, d.uOnly)) = some (0x24000000#64, true, true, false) ∧
    ((found (walk 0xFEE02000#64 mrifReady)).map fun d => (d.r, d.w, d.uOnly)) = some (true, true, true) ∧
    ((stopped (walk 0xFEE02000#64 faultReady)).map fun f => (f.cause, f.page))
      = some (.msiPteNotValid, some ⟨true, 0#2⟩) ∧
    ((found (walk 0xFEE03000#64 msiReady)).map fun d => (d.addr, d.uOnly)) = some (0xFEE03000#64, false) := by
  decide +kernel

/-- The D bits: No-Write; a stage that may not set its bit; no bit to set; and an entry of either stage that still holds
what the walk read, and one that does not. -/
theorem witness_MsiAddressRecognition_dirty :
    let x : WalkCtx := { gigapageCtx with ats := true, sade := true, gade := true }
    let pte : DWord := 0x20000057#64
    let a : DWord := 0x80020008#64
    let leaf : Leaf := { Leaf.identity Cfg.reference 0#64 with d := false, u := true, clean := some (a, pte) }
    let s : State := { faultReady with mem := Memory.writeBytes [] 0x80020008 (toBytes false 8 pte.toNat) }
    let held (s : State) : DWord := BitVec.ofNat 64 (ofBytes false (Memory.readBytes s.mem a.toNat 8))
    (x.nw = false ∧ leaf.w = true ∧ (x.fScheme == .bare || (if x.supervisor then !leaf.u || x.sum else leaf.u)) = true) ∧
    ({ x with nw := true } : WalkCtx).nw = true ∧ ({ x with sade := false } : WalkCtx).sade = false ∧
    (Leaf.identity Cfg.reference 0#64).clean = none ∧ x.gScheme = .bare ∧ s.others = [] ∧
    ([AccessKind.read, .write, .atomic].all fun k => !s.accessFaults k a.toNat 8) = true ∧ s.poisoned a.toNat 8 = false ∧
    held s = pte ∧ held faultReady ≠ pte := by decide +kernel

/-- Nothing cached; and at an MRIF of the page 0x80050: the greatest identity stored and the least that is not, with the
enable bit clear and set, and each ground for a stop. -/
theorem witness_MsiPageAccesses :
    let x : WalkCtx := { gigapageCtx with acc := .write }
    let info : MrifInfo := ⟨0x80050000#64, 0x28000000#64, 0x11#32⟩
    let s : State := faultReady
    let e : State := { s with mem := Memory.writeBytes [] 0x800501F8 (toBytes false 8 (2 ^ 63)) }
    let d : List Byte := [0xFF#8, 7#8, 0#8, 0#8]
    let pa := info.mrifAddr.toNat + 16 * (ofBytesLE d / 64)
    (s.ioatc = [] ∧ s.others = [] ∧ x.acc = .write ∧ d.length = 4 ∧ (0xFEE02000#64 : DWord).toNat % 4 = 0) ∧
    (ofBytesLE d = 2047 ∧ ofBytesLE [0#8, 8#8, 0#8, 0#8] = 2048) ∧
    (s.poisoned pa 16 = false ∧ ([AccessKind.read, .write, .atomic].all fun k => !s.accessFaults k pa 8) = true ∧
      s.accessFaults .read (pa + 8) 8 = false ∧ s.accessFaults .write info.noticeAddr.toNat 4 = false) ∧
    ((ofBytesLE (Memory.readBytes s.mem (pa + 8) 8)).testBit 63 = false ∧
      (ofBytesLE (Memory.readBytes e.mem (pa + 8) 8)).testBit 63 = true) ∧
    (gigapageCtx.acc ≠ .write ∧ [0#8].length ≠ 4 ∧ (0xFEE02002#64 : DWord).toNat % 4 ≠ 0) := by decide +kernel

/-- The faults of an MRIF store: of the pending bit, for each reason; of the enable bit, refused and poisoned; and of the
notice. -/
theorem witness_MsiPageAccesses_faults :
    let info : MrifInfo := ⟨0x80050000#64, 0x28000000#64, 0x11#32⟩
    let pa := 0x800501F0
    let at' (lo : Nat) (r w a p : Bool) : State := withRegion ⟨lo, lo + 1, r, w, a, [], p⟩ faultReady
    ((at' (pa + 7) false false true false).cfg.amoMrif = true ∧
      (at' (pa + 7) false false true false).accessFaults .atomic pa 8 = true) ∧
    (at' (pa + 7) true false false false).accessFaults .read pa 8 = true ∧
    (at' (pa + 7) false true false false).accessFaults .write pa 8 = true ∧
    (at' (pa + 7) false false false true).poisoned pa 8 = true ∧
    ((at' (pa + 8) true false false false).accessFaults .read (pa + 8) 8 = true ∧
      (at' (pa + 8) true false false false).accessFaults .read pa 8 = false) ∧
    ((at' (pa + 15) false false false true).poisoned (pa + 8) 8 = true ∧
      (at' (pa + 15) false false false true).poisoned pa 8 = false) ∧
    (at' 0x28000003 false true false false).accessFaults .write info.noticeAddr.toNat 4 = true := by decide +kernel

/-- Cached entries that a lookup takes or leaves, by the next choice: a context, one that is misconfigured, and one of another
device; and a non-leaf entry, one of another index, and one of another level. -/
theorem witness_DeviceContextLookup_cached :
    let ids : EventIds := ⟨5#24, none, none, none⟩
    let dc : DC := ⟨3#64, 0#64, 0#64, 0#64, 0#64, 0#64, 0#64, 0#64⟩
    let hit (e : IoatcEntry) (c : Nat) (s : State) : State := { s with ioatc := [e], choices := [c] }
    let two : State := { withDC 1 0 with ddtp := ⟨.lvl2, false, 0x80011#44⟩ }
    let nl (level : Nat) (did : BitVec 24) : IoatcEntry := .ddtNL level 6 did 0x20004001#64
    ((found (locateDC ids (hit (.dc 5#24 dc) 0 faultReady))).map DC.tc = some 3#64 ∧
      ((stopped (locateDC ids (hit (.dc 5#24 dc) 1 faultReady))).map Stop.cause = some .ddtNotValid) ∧
      ((stopped (locateDC ids (hit (.dc 5#24 { dc with tc := 0x1001#64 }) 0 faultReady))).map Stop.cause
        = some .ddtMisconfigured) ∧
      ((stopped (locateDC ids (hit (.dc 6#24 dc) 0 faultReady))).map Stop.cause = some .ddtNotValid)) ∧
    ((found (locateDC ids (hit (nl 1 7#24) 0 two))).map DC.tc = some 1#64 ∧
      ([hit (nl 1 7#24) 1 two, hit (nl 1 0x45#24) 0 two, hit (nl 2 7#24) 0 two].all fun s =>
        (stopped (locateDC ids s)).map Stop.cause == some .ddtNotValid) = true) ∧
    two.others = [] := by decide +kernel

/-- The process directory of `pdtDC` as guest memory, over Sv39x4 with the root at 0x80040, which maps the gigabyte at
0x80000000 to itself with `v`; the context of process 0 is valid, its first stage Bare. -/
def guestPdt (v : Nat) : State := { faultReady with
  choices := List.replicate 8 1
  mem := Memory.writeBytes (Memory.writeBytes [] 0x80030000 (toBytes false 8 1)) 0x80040010 (toBytes false 8 v) }

/-- The context of `guestPdt`. -/
def guestCtx : WalkCtx := { gigapageCtx with gScheme := .sv39, gRoot := 0x80040#44, gscid := 5#16, fScheme := .bare }

/-- Over a second stage that translates: found; a guest-page fault, an access fault and corruption of the second stage, and
the last two of the entry itself (R285 steps 3, 5, 6, 10). A non-leaf entry; and cached entries of either kind, taken, left,
and of another process or level. -/
theorem witness_ProcessContextLookup_guest :
    let pid : BitVec 20 := 0#20
    let hit (e : IoatcEntry) (c : Nat) (s : State) : State := { s with ioatc := [e], choices := c :: List.replicate 8 1 }
    let why (dc : DC) (s : State) : Option Cause := (stopped (locatePC guestCtx dc pid s)).map Stop.cause
    let bad (lo : Nat) (p : Bool) : State := withRegion ⟨lo, lo + 1, !p, false, false, [], p⟩ (guestPdt 0x200000DF)
    let two : DC := { pdtDC with fsc := 0x2000000000080031#64 }
    let s : State := { guestPdt 0x200000DF with
      mem := Memory.writeBytes (guestPdt 0x200000DF).mem 0x80031000 (toBytes false 8 0x2000C001) }
    let nl (level : Nat) (p : BitVec 20) : IoatcEntry := .pdtNL 5#24 level 8 p 0x2000C001#64
    ((found (locatePC guestCtx pdtDC pid (guestPdt 0x200000DF))).map PC.ta = some 1#64 ∧
      (stopped (locatePC guestCtx pdtDC pid (guestPdt 0))).map (fun f => (f.cause, f.iotval2))
        = some (.readGuestPage, 0x80030001#64) ∧
      [why pdtDC (bad 0x80040017 false), why pdtDC (bad 0x80040017 true), why pdtDC (bad 0x8003000F false),
        why pdtDC (bad 0x8003000F true)] = [some .pdtLoadAccess, some .pdtCorruption, some .pdtLoadAccess, some .pdtCorruption]) ∧
    ((found (locatePC guestCtx two pid s)).map PC.ta = some 1#64 ∧ why two (guestPdt 0x200000DF) = some .pdtNotValid) ∧
    ((found (locatePC guestCtx pdtDC pid (hit (.pc 5#24 pid ⟨1#64, 0#64⟩) 0 faultReady))).map PC.ta = some 1#64 ∧
      ([hit (.pc 5#24 pid ⟨1#64, 0#64⟩) 1 faultReady, hit (.pc 5#24 1#20 ⟨1#64, 0#64⟩) 0 faultReady].all fun s =>
        why pdtDC s == some .readGuestPage) = true) ∧
    ((found (locatePC guestCtx two pid (hit (nl 1 0xFF#20) 0 (guestPdt 0x200000DF)))).map PC.ta = some 1#64 ∧
      ([hit (nl 1 0xFF#20) 1 (guestPdt 0x200000DF), hit (nl 1 0x100#20) 0 (guestPdt 0x200000DF),
        hit (nl 2 0xFF#20) 0 (guestPdt 0x200000DF)].all fun s => why two s == some .pdtNotValid) = true) := by decide +kernel

/-- The top of the address range and the last root entry of each scheme (R305 steps 0 to 2): Sv32x4, Sv39x4, Sv48x4, Sv57x4. -/
theorem witness_SecondStageTranslates_schemes :
    ([(Scheme.sv32, 34, 22, 4), (.sv39, 41, 30, 8), (.sv48, 50, 39, 8), (.sv57, 59, 48, 8)].all fun p =>
      let x : WalkCtx := { guestCtx with gScheme := p.1 }
      let gpa : DWord := BitVec.ofNat 64 (2 ^ p.2.1 - 2)
      let a := 0x80040000 + (2 ^ p.2.1 - 2) / 2 ^ p.2.2.1 * p.2.2.2
      let s : State := { faultReady with mem := Memory.writeBytes [] a (toBytes false p.2.2.2 0xDF) }
      (found (secondStage x .final false gpa s)).map (fun l => l.addr.toNat) == some (2 ^ p.2.2.1 - 2) &&
      ((stopped (secondStage x .final false (gpa + 2#64) s)).map Stop.cause == some .readGuestPage) &&
      x.gScheme != .bare) = true ∧
    (found (secondStage { guestCtx with gScheme := .bare } .pdt true 0x123456789ABC#64 faultReady)).map Leaf.addr
      = some 0x123456789ABC#64 := by decide +kernel

/-- One level: the read refused, poisoned and answered; a bad entry, a pointer, and leaves: not permitted, current, to be
updated with GADE 0 and 1, refused as an atomic access, and changed by another agent before the update; and cached
entries, taken, left, of another GSCID, and with D clear under a write. -/
theorem witness_SecondStageTranslates_levels :
    let x : WalkCtx := { guestCtx with gade := true }
    let gpa : DWord := 0x80030ABC#64
    let walk (x : WalkCtx) (s : State) : Res Leaf := secondStage x .final true gpa s
    let addr (r : Res Leaf) : Option DWord := (found r).map Leaf.addr
    let why (r : Res Leaf) : Option Cause := (stopped r).map Stop.cause
    let bad (p : Bool) : State := withRegion ⟨0x80040017, 0x80040018, !p, false, false, [], p⟩ (guestPdt 0x200000DF)
    let path : State := { guestPdt 0x20010401 with
      mem := (Memory.writeBytes (Memory.writeBytes (guestPdt 0x20010401).mem 0x80041000 (toBytes false 8 0x20010801))
        0x80042180 (toBytes false 8 0x90000DF)) }
    let e (gscid : BitVec 16) (pte : DWord) : IoatcEntry := .s2 ⟨gscid, 0, 0x80030#52, 0, pte⟩
    let hit (e : IoatcEntry) (c : Nat) : State := { guestPdt 0x200000DF with ioatc := [e], choices := [c] }
    [why (walk x (bad false)), why (walk x (bad true)), why (walk x (guestPdt 0)), why (walk x (guestPdt 0x200000CF)),
      why (walk guestCtx (guestPdt 0x2000001F)),
      why (walk x (withRegion ⟨0x80040017, 0x80040018, false, false, true, [], false⟩ (guestPdt 0x2000001F)))]
      = [some .readAccess, some .ptCorruption, some .readGuestPage, some .readGuestPage, some .readGuestPage, some .readAccess] ∧
    [addr (walk x (guestPdt 0x200000DF)), addr (walk x (guestPdt 0x2000001F)), addr (walk x path),
      addr (walk x { guestPdt 0x2000001F with others := [[], [.write 0x80040010#64 (toBytes false 8 0x300000DF)]] })]
      = [some gpa, some gpa, some 0x24000ABC#64, some 0xC0030ABC#64] ∧
    [addr (walk x (hit (e 5#16 0x9000053#64) 0)), addr (walk x (hit (e 5#16 0x9000053#64) 1)),
      addr (walk x (hit (e 6#16 0x9000053#64) 0)), addr (walk { x with acc := .write } (hit (e 5#16 0x9000057#64) 0))]
      = [some 0x24000ABC#64, some gpa, some gpa, some gpa] := by decide +kernel

/-- The first stage of Sv39 over Sv39x4: its root at the guest address 0x80020000, where it maps its second gigabyte with
`v1`, and the second stage maps the gigabyte at 0x80000000 to itself with `v2`. -/
def twoStages (v1 v2 : Nat) : State := { faultReady with
  choices := List.replicate 8 1
  mem := Memory.writeBytes (Memory.writeBytes [] 0x80020008 (toBytes false 8 v1)) 0x80040010 (toBytes false 8 v2) }

/-- The top of the address range and the last root entry of each scheme (R300 steps 1, 2): Sv32, Sv39, Sv48, Sv57. -/
theorem witness_FirstStageTranslates_schemes :
    ([(Scheme.sv32, 32, 22, 4), (.sv39, 38, 30, 8), (.sv48, 47, 39, 8), (.sv57, 56, 48, 8)].all fun p =>
      let x : WalkCtx := { gigapageCtx with fScheme := p.1 }
      let va : DWord := BitVec.ofNat 64 (2 ^ p.2.1 - 2)
      let a := 0x80020000 + (2 ^ p.2.1 - 2) / 2 ^ p.2.2.1 * p.2.2.2
      let s : State := { faultReady with mem := Memory.writeBytes [] a (toBytes false p.2.2.2 0xDF) }
      (found (firstStage x false va s)).map (fun l => l.addr.toNat) == some (2 ^ p.2.2.1 - 2) &&
      ((stopped (firstStage x false (va + 2#64) s)).map Stop.cause == some .readPage)) = true := by decide +kernel

/-- One level over a second stage: its stop, and the read refused, poisoned and answered; a bad entry, a pointer, and leaves:
not permitted, current, to be updated with SADE 0 and 1, where the second stage permits no write, refused, poisoned behind a
cached translation, and changed by another agent before the update; and cached entries, taken, left, and of another PSCID,
another GSCID, and with D clear under a write. -/
theorem witness_FirstStageTranslates_levels :
    let x : WalkCtx := { guestCtx with fScheme := .sv39, fRoot := 0x80020#44, pscid := 7#20, sade := true }
    let va : DWord := 0x40201ABC#64
    let walk (x : WalkCtx) (s : State) : Res Leaf := firstStage x true va s
    let addr (r : Res Leaf) : Option DWord := (found r).map Leaf.addr
    let why (r : Res Leaf) : Option (Cause × DWord) := (stopped r).map fun f => (f.cause, f.iotval2)
    let at' (lo : Nat) (r a p : Bool) (s : State) : State := withRegion ⟨lo, lo + 1, r, false, a, [], p⟩ s
    let s := twoStages 0x200000D7 0x200000DF
    let e (space : Option (BitVec 16)) (pscid : BitVec 20) (pte : DWord) : IoatcEntry := .s1 ⟨space, pscid, 0, 0x40201#52, 0, pte, false⟩
    let hit (e : IoatcEntry) (c : Nat) : State := { s with ioatc := [e], choices := c :: List.replicate 8 1 }
    let stale : State := { twoStages 0x20000017 0x200000DF with
      mem := Memory.writeBytes (twoStages 0x20000017 0x200000DF).mem 0x24000008 (toBytes false 8 0x20000017)
      ioatc := [.s2 ⟨5#16, 0, 0x80020#52, 0, 0x9000057#64⟩]
      choices := 0 :: List.replicate 8 1 }
    [why (walk x (twoStages 0x200000D7 0)), why (walk x (at' 0x8002000F true false false s)),
      why (walk x (at' 0x8002000F false false true s)), why (walk x (twoStages 0 0x200000DF)),
      why (walk x (twoStages 0x20008401 0x200000DF)), why (walk x (twoStages 0x200000C7 0x200000DF)),
      why (walk { x with sade := false } (twoStages 0x20000017 0x200000DF)),
      why (walk x (twoStages 0x20000017 0x200000DB)),
      why (walk x (at' 0x8002000F false true false (twoStages 0x20000017 0x200000DF))),
      why (walk x (at' 0x8002000F false false true stale))]
      = [some (.readGuestPage, 0x80020009#64), some (.readAccess, 0#64), some (.ptCorruption, 0#64), some (.readPage, 0#64),
        some (.readPage, 0#64), some (.readPage, 0#64), some (.readPage, 0#64), some (.readGuestPage, 0x8002000B#64),
        some (.readAccess, 0#64), some (.ptCorruption, 0#64)] ∧
    [addr (walk x s), addr (walk x (twoStages 0x20000017 0x200000DF)),
      addr (walk x { twoStages 0x20000017 0x200000DF with
        others := [[], [], [], [.write 0x80020008#64 (toBytes false 8 0x300000D7)]] })]
      = [some 0x80201ABC#64, some 0x80201ABC#64, some 0xC0201ABC#64] ∧
    [addr (walk x (hit (e (some 5#16) 7#20 0x9000053#64) 0)), addr (walk x (hit (e (some 5#16) 7#20 0x9000053#64) 1)),
      addr (walk x (hit (e (some 5#16) 8#20 0x9000053#64) 0)), addr (walk x (hit (e none 7#20 0x9000053#64) 0)),
      addr (walk { x with acc := .write } (hit (e (some 5#16) 7#20 0x9000057#64) 0))]
      = [some 0x24000ABC#64, some 0x80201ABC#64, some 0x80201ABC#64, some 0x80201ABC#64, some 0x80201ABC#64] := by decide +kernel

/-- A cached MSI PTE, taken and left, and one of another GSCID and of another page. -/
theorem witness_MsiPageAccesses_cached :
    let e (g : BitVec 16) (page : BitVec 52) : IoatcEntry := .msi g page 0x9000007#64 0#64
    let go (e : IoatcEntry) (c : Nat) : Res MsiResult :=
      msiTranslate msiCtx false 0xFEE02ABC#64 { faultReady with ioatc := [e], choices := [c] }
    found (go (e 0#16 0xFEE02#52) 0) = some (.basic 0x24000ABC#64) ∧
    ([go (e 0#16 0xFEE02#52) 1, go (e 1#16 0xFEE02#52) 0, go (e 0#16 0xFEE03#52) 0].all fun r =>
      (stopped r).map Stop.cause == some .msiPteNotValid) = true ∧ faultReady.others = [] := by decide +kernel

/-- The ends of each absent range, and a debug translation that is answered with a superpage of 2 MiB, and one that faults. -/
theorem witness_RegisterWritesReadBack_reads :
    (let c : Cfg := { Cfg.reference with ats := false, hpm := false, dbg := false, qosid := false, hpmCounters := 30 }
     c.ats = false ∧ c.hpm = false ∧ c.dbg = false ∧ c.qosid = false ∧ c.hpmCounters ≤ 30) ∧
    (let c : TrReqCtl := { State.reset.trReqCtl with goBusy := true, nw := true, did := 5#24 }
     let q : Request := { readReq 0#64 with tag := 0, len := 0 }
     let s (span : Nat) : State := { withDC 1 0 with cfg := { Cfg.reference with bareSpan := span, debugSpanMax := span } }
     let w (t : State) : State := { t with trReqCtl := c }
     (found (translate q true ((w (s 9)).enter q))).map (fun d => (d.c.spa, d.c.span)) = some (0#64, 9) ∧
     (stopped (translate q true ((w faultReady).enter q))).map Stop.cause = some .ddtNotValid ∧
     (9#64 : DWord).getLsbD 0 = true ∧ (s 9).cfg.dbg = true ∧ (s 9).trReqCtl.goBusy = false ∧
     ((({ s 9 with trReqCtl := { c with goBusy := false } } : State).regWrite 608 4 9#64 false).regRead 616 8)
       = 0x3FE00#64) := by
  decide +kernel

end Sys2Proof.Tests
end

/-! PROOF. Every WARL field always holds a legal value, and what the implementation does not have holds 0 (O22). The three
predicates and the three indices of the statement become one invariant with a named field for each register. Internal work
keeps it, since it leaves all those registers alone but the event counters; each other change that a step can make (`Did`)
writes a legal value or the old one; and a reset writes a legal value everywhere. -/

namespace Sys2Proof.Machine

/-! ### A queue's base with the index that software owns (R40, R43, R46, R532, R533) -/

/-- The fields of a queue base are legal, for a queue of at most `2 ^ max` entries, and the index is one of an entry. -/
structure QBase.Legal (c : Cfg) (max : Nat) (b : QBase) (i : BitVec 32) : Prop where
  size : b.log2sz ≤ max
  ppn : legalPpn c b.ppn = true
  index : b.inRange i = true

/-- The range of an index depends on the queue's size alone. -/
theorem QBase.inRange_congr {b b' : QBase} (e : b'.log2szm1 = b.log2szm1) (i : BitVec 32) :
    b'.inRange i = b.inRange i := by
  cases b; cases b'; cases e; rfl

/-- A write of a base that gives each field a legal value or leaves it, and an index in range or the old one. -/
theorem QBase.Legal.write {c : Cfg} {max : Nat} {b b' : QBase} {i i' : BitVec 32} (h : b.Legal c max i)
    (hsz : b'.log2sz ≤ max ∨ b'.log2szm1 = b.log2szm1) (hp : legalPpn c b'.ppn = true ∨ b'.ppn = b.ppn)
    (hi : b'.inRange i' = true ∨ (b'.log2szm1 = b.log2szm1 ∧ i' = i)) : b'.Legal c max i' where
  size := hsz.elim id fun e => by simpa only [QBase.log2sz, e] using h.size
  ppn := hp.elim id fun e => e ▸ h.ppn
  index := hi.elim id fun ⟨e, ei⟩ => by rw [ei, QBase.inRange_congr e]; exact h.index

/-- The page at the address 0 exists in every physical address space. -/
theorem legalPpn_zero (c : Cfg) : legalPpn c 0#44 = true :=
  decide_eq_true (Nat.two_pow_pos c.pas)

/-- A legal base leaves room for the smallest queue at the address 0, which a reset sets. -/
theorem QBase.Legal.zero {c : Cfg} {max : Nat} {b : QBase} {i : BitVec 32} (h : b.Legal c max i) :
    (⟨0#5, 0#44⟩ : QBase).Legal c max 0#32 where
  size := Nat.le_trans (Nat.le_add_left 1 _) h.size
  ppn := legalPpn_zero c
  index := by decide

/-! ### The invariant -/

/-- The registers that internal work leaves alone hold legal values, and 0 where the implementation does not have them. -/
structure State.FixedLegal (s : State) : Prop where
  be : s.cfg.endBoth = false → s.fctl.be = s.cfg.beFixed
  wsi : s.cfg.igs ≠ .both → s.fctl.wsi = (s.cfg.igs == .wsi)
  gxl : s.cfg.gxlWritable = false → s.fctl.gxl = s.cfg.gxlFixed
  mode : modeSupported s.cfg s.ddtp.mode = true
  ppn : legalPpn s.cfg s.ddtp.ppn = true
  cq : s.cqb.Legal s.cfg s.cfg.cqLog2szMax s.cqt
  fq : s.fqb.Legal s.cfg s.cfg.fqLog2szMax s.fqh
  pq : s.pqb.Legal s.cfg s.cfg.pqLog2szMax s.pqh
  countinh : s.iocountinh.toNat < 2 ^ (s.cfg.hpmCounters + 1)
  cycles : s.iohpmcycles.counter.toNat < 2 ^ cyclesWidth s.cfg
  rcid : s.qosid.rcid.toNat < 2 ^ s.cfg.rcidWidth
  mcid : s.qosid.mcid.toNat < 2 ^ s.cfg.mcidWidth
  vector : ∀ b, (s.icvec.vector b).toNat < s.cfg.nVectors
  msi : ∀ x : Fin 16, s.msiCfg[x].addr.toNat * 4 < 2 ^ s.cfg.pas
  absentMsi : ∀ x : Fin 16, (Reg.msiAddr x).present s.cfg = false → s.msiCfg[x] = ⟨0#54, 0#32, false⟩
  absentHpm : s.cfg.hpm = false → s.iocountinh = 0#32 ∧ s.iohpmcycles = ⟨0#63, false⟩
  absentAts : s.cfg.ats = false → s.pqb = ⟨0#5, 0#44⟩ ∧ s.pqh = 0#32 ∧ s.pqt = 0#32 ∧
    s.pqcsr = ⟨false, false, false, false, false, false⟩
  absentDbg : s.cfg.dbg = false → s.trReqIova = 0#52 ∧
    s.trReqCtl = ⟨false, false, false, false, 0#20, false, 0#24⟩ ∧ s.trResponse = 0#64
  absentQosid : s.cfg.qosid = false → s.qosid = ⟨0#12, 0#12⟩

/-- Every WARL field holds a legal value, and what the implementation does not have holds 0. -/
structure State.RegistersLegal (s : State) : Prop extends s.FixedLegal where
  hpm : s.hpmLegal = true

theorem or_eq_true_iff_imp (a b : Bool) : (a || b) = true ↔ (a = false → b = true) := by
  cases a <;> simp

theorem State.controlLegal_iff (s : State) : s.controlLegal = true ↔
    (s.cfg.endBoth = false → s.fctl.be = s.cfg.beFixed) ∧ (s.cfg.igs ≠ .both → s.fctl.wsi = (s.cfg.igs == .wsi)) ∧
    (s.cfg.gxlWritable = false → s.fctl.gxl = s.cfg.gxlFixed) ∧
    modeSupported s.cfg s.ddtp.mode = true ∧ legalPpn s.cfg s.ddtp.ppn = true ∧
    (s.cqb.log2sz ≤ s.cfg.cqLog2szMax ∧ legalPpn s.cfg s.cqb.ppn = true) ∧
    (s.fqb.log2sz ≤ s.cfg.fqLog2szMax ∧ legalPpn s.cfg s.fqb.ppn = true) ∧
    (s.pqb.log2sz ≤ s.cfg.pqLog2szMax ∧ legalPpn s.cfg s.pqb.ppn = true) := by
  simp only [State.controlLegal, Bool.and_eq_true, or_eq_true_iff_imp, beq_iff_eq, beq_eq_false_iff_ne,
    decide_eq_true_eq, and_assoc]

theorem State.auxiliaryLegal_iff (s : State) : s.auxiliaryLegal = true ↔
    s.iocountinh.toNat < 2 ^ (s.cfg.hpmCounters + 1) ∧ s.iohpmcycles.counter.toNat < 2 ^ cyclesWidth s.cfg ∧
    (∀ n : Fin 31, s.iohpmctr[n].toNat < 2 ^ s.cfg.hpmWidth) ∧ (∀ n : Fin 31, s.iohpmevt[n].legal s.cfg = true) ∧
    s.qosid.rcid.toNat < 2 ^ s.cfg.rcidWidth ∧ s.qosid.mcid.toNat < 2 ^ s.cfg.mcidWidth ∧
    (∀ b, (s.icvec.vector b).toNat < s.cfg.nVectors) ∧
    ∀ x : Fin 16, s.msiCfg[x].addr.toNat * 4 < 2 ^ s.cfg.pas := by
  have hv : (∀ b, (s.icvec.vector b).toNat < s.cfg.nVectors) ↔
      s.icvec.civ.toNat < s.cfg.nVectors ∧ s.icvec.fiv.toNat < s.cfg.nVectors ∧
        s.icvec.pmiv.toNat < s.cfg.nVectors ∧ s.icvec.piv.toNat < s.cfg.nVectors :=
    ⟨fun h => ⟨h .cq, h .fq, h .pm, h .pq⟩, fun ⟨hc, hf, hm, hp⟩ b => by cases b <;> assumption⟩
  simp only [State.auxiliaryLegal, Bool.and_eq_true, Vector.all_eq_true, decide_eq_true_eq, hv, and_assoc,
    Fin.forall_iff, Fin.getElem_fin]

theorem State.absentZero_iff (s : State) : s.absentZero = true ↔
    (∀ n : Fin 31, (Reg.iohpmctr n).present s.cfg = false → s.iohpmctr[n] = 0#64 ∧ s.iohpmevt[n] = HpmEvt.zero) ∧
    (∀ x : Fin 16, (Reg.msiAddr x).present s.cfg = false → s.msiCfg[x] = ⟨0#54, 0#32, false⟩) ∧
    (s.cfg.hpm = false → s.iocountinh = 0#32 ∧ s.iohpmcycles = ⟨0#63, false⟩) ∧
    (s.cfg.ats = false → s.pqb = ⟨0#5, 0#44⟩ ∧ s.pqh = 0#32 ∧ s.pqt = 0#32 ∧
      s.pqcsr = ⟨false, false, false, false, false, false⟩) ∧
    (s.cfg.dbg = false → s.trReqIova = 0#52 ∧ s.trReqCtl = ⟨false, false, false, false, 0#20, false, 0#24⟩ ∧
      s.trResponse = 0#64) ∧
    (s.cfg.qosid = false → s.qosid = ⟨0#12, 0#12⟩) := by
  simp only [State.absentZero, Bool.and_eq_true, List.all_eq_true, List.mem_finRange, true_imp_iff,
    or_eq_true_iff_imp, beq_iff_eq, and_assoc]

/-- The invariant is what the statement names. -/
theorem State.registersLegal_iff (s : State) : s.RegistersLegal ↔
    s.controlLegal = true ∧ s.auxiliaryLegal = true ∧ s.absentZero = true ∧
    s.cqb.inRange s.cqt = true ∧ s.fqb.inRange s.fqh = true ∧ s.pqb.inRange s.pqh = true := by
  rw [State.controlLegal_iff, State.auxiliaryLegal_iff, State.absentZero_iff]
  constructor
  · intro h
    obtain ⟨hctr, hevt, habsent⟩ := (State.hpmLegal_iff s).mp h.hpm
    exact ⟨⟨h.be, h.wsi, h.gxl, h.mode, h.ppn, ⟨h.cq.size, h.cq.ppn⟩, ⟨h.fq.size, h.fq.ppn⟩, h.pq.size, h.pq.ppn⟩,
      ⟨h.countinh, h.cycles, hctr, hevt, h.rcid, h.mcid, h.vector, h.msi⟩,
      ⟨habsent, h.absentMsi, h.absentHpm, h.absentAts, h.absentDbg, h.absentQosid⟩,
      h.cq.index, h.fq.index, h.pq.index⟩
  · rintro ⟨⟨be, wsi, gxl, mode, ppn, ⟨cqSize, cqPpn⟩, ⟨fqSize, fqPpn⟩, pqSize, pqPpn⟩,
      ⟨countinh, cycles, hctr, hevt, rcid, mcid, vector, msi⟩,
      ⟨habsent, absentMsi, absentHpm, absentAts, absentDbg, absentQosid⟩, cqt, fqh, pqh⟩
    exact { be, wsi, gxl, mode, ppn, countinh, cycles, rcid, mcid, vector, msi, absentMsi, absentHpm, absentAts,
            absentDbg, absentQosid,
            cq := ⟨cqSize, cqPpn, cqt⟩, fq := ⟨fqSize, fqPpn, fqh⟩, pq := ⟨pqSize, pqPpn, pqh⟩,
            hpm := (State.hpmLegal_iff s).mpr ⟨hctr, hevt, habsent⟩ }

/-! ### What keeps it -/

/-- The predicate is one of the fixed part of the state. -/
theorem State.FixedLegal.of_fixed_eq {s t : State} (hs : s.FixedLegal) (h : t.fixed = s.fixed) : t.FixedLegal :=
  have hs' : s.fixed.FixedLegal := { hs with }
  have ht : t.fixed.FixedLegal := h ▸ hs'
  { ht with }

/-- Internal work leaves the fixed part alone and counts within the counters' widths. -/
theorem State.RegistersLegal.work {s t : State} (hs : s.RegistersLegal) (h : Work s t) : t.RegistersLegal :=
  { hs.toFixedLegal.of_fixed_eq h.fixed with hpm := h.hpm hs.hpm }

theorem State.RegistersLegal.updateCip {s : State} (hs : s.RegistersLegal) : s.updateCip.RegistersLegal :=
  hs.work (Work.updateCip s).1

theorem State.RegistersLegal.updateFip {s : State} (hs : s.RegistersLegal) : s.updateFip.RegistersLegal :=
  hs.work (Work.updateFip s)

theorem State.RegistersLegal.updatePip {s : State} (hs : s.RegistersLegal) : s.updatePip.RegistersLegal :=
  hs.work (Work.updatePip s).1

/-- A register that the implementation has need not hold 0. -/
theorem absent_imp_of_present {b : Bool} {p : Prop} (h : b = true) : b = false → p :=
  fun h' => absurd h (by simp [h'])

/-- The page-request queue of an implementation without ATS is off, so one that is on is one of an implementation with it. -/
theorem State.FixedLegal.ats_of_pqOn {s : State} (hs : s.FixedLegal) (hon : s.pqcsr.on = true) : s.cfg.ats = true := by
  cases ha : s.cfg.ats with
  | true => rfl
  | false =>
    obtain ⟨-, -, -, hq⟩ := hs.absentAts ha
    rw [hq] at hon
    cases hon

/-- An entry of the MSI table that the implementation has is written with an address that exists, or with the old one. -/
theorem State.RegistersLegal.setMsiEntry {s : State} (hs : s.RegistersLegal) (x : Fin 16) (e : MsiEntry)
    (he : e.addr.toNat * 4 < 2 ^ s.cfg.pas ∨ e.addr = s.msiCfg[x].addr) (hp : (Reg.msiAddr x).present s.cfg = true) :
    ({ s with msiCfg := s.msiCfg.set x e } : State).RegistersLegal := by
  have hget (y : Fin 16) (hy : x ≠ y) : (s.msiCfg.set x e)[y] = s.msiCfg[y] :=
    Vector.getElem_set_ne x.isLt y.isLt fun h => hy (Fin.ext h)
  have hgetx : (s.msiCfg.set x e)[x] = e := Vector.getElem_set_self x.isLt
  refine { hs with msi := fun y => ?_, absentMsi := fun y hy => ?_ }
  · change (s.msiCfg.set x e)[y].addr.toNat * 4 < 2 ^ s.cfg.pas
    by_cases hxy : x = y
    · subst hxy
      rw [hgetx]
      exact he.elim id fun h => h ▸ hs.msi x
    · rw [hget y hxy]
      exact hs.msi y
  · change (s.msiCfg.set x e)[y] = _
    have hxy : x ≠ y := by
      rintro rfl
      exact absurd hp (by simpa using hy)
    rw [hget y hxy]
    exact hs.absentMsi y hy

/-- A selector's event is legal when it is the event of a legal selector. -/
theorem HpmEvt.legal_of_eventId_eq {c : Cfg} {e e' : HpmEvt} (he : e.legal c = true) (h : e'.eventId = e.eventId) :
    e'.legal c = true := by
  simpa only [HpmEvt.legal, h] using he

/-- Each change that a step can make keeps the registers legal. -/
theorem Did.keeps_registersLegal {sw : Bool} {s t : State} (h : Did sw s t) (hs : s.RegistersLegal) :
    t.RegistersLegal := by
  induction h with
  | work h => exact hs.work h
  | trans _ _ ihs iht => exact iht (ihs hs)
  | drop | advance | commands | accesses | halfReads | msiPending => exact { hs with }
  | status | cqSet | cqOn => exact State.RegistersLegal.updateCip { hs with }
  | fqOn | fqSet => exact State.RegistersLegal.updateFip { hs with }
  | ipsr s r =>
    have hr : ({ s with ipsr := r } : State).RegistersLegal := { hs with }
    exact hr.updateCip.updateFip.updatePip
  | pqStatus s mf ovf hon =>
    exact State.RegistersLegal.updatePip { hs with absentAts := absent_imp_of_present (hs.ats_of_pqOn hon) }
  | pqOn s ie ha | pqSet s q _ _ _ ha =>
    exact State.RegistersLegal.updatePip { hs with absentAts := absent_imp_of_present ha }
  | pqNext s hon => exact { hs with absentAts := absent_imp_of_present (hs.ats_of_pqOn hon) }
  | cycles s c hc hp => exact { hs with cycles := hc, absentHpm := absent_imp_of_present hp }
  | countinh s v hv hp => exact { hs with countinh := hv, absentHpm := absent_imp_of_present hp }
  | fctl s f hbe hwsi hgxl =>
    exact { hs with
      be := fun h => (hbe h).trans (hs.be h)
      wsi := fun h => (hwsi h).trans (hs.wsi h)
      gxl := fun h => (hgxl h).trans (hs.gxl h) }
  | ddtp s m p hm hp =>
    exact { hs with
      mode := hm.elim id fun e => e ▸ hs.mode
      ppn := hp.elim id fun e => e ▸ hs.ppn }
  | cqb s b i _ hsz hp hi => exact { hs with cq := hs.cq.write hsz hp hi }
  | fqb s b i _ hsz hp hi => exact { hs with fq := hs.fq.write hsz hp hi }
  | pqb s b i _ hsz hp hi ha =>
    exact { hs with pq := hs.pq.write hsz hp hi, absentAts := absent_imp_of_present ha }
  | cqt s i hi => exact { hs with cq := { hs.cq with index := hi } }
  | fqh s i hi => exact { hs with fq := { hs.fq with index := hi } }
  | pqh s i hi ha =>
    exact { hs with pq := { hs.pq with index := hi }, absentAts := absent_imp_of_present ha }
  | counter s n c hc hp => exact { hs with hpm := State.hpmLegal_counter n hs.hpm c hc hp }
  | selector s n e he hp =>
    obtain ⟨-, hevt, -⟩ := (State.hpmLegal_iff s).mp hs.hpm
    have hl : e.legal s.cfg = true := he.elim id (HpmEvt.legal_of_eventId_eq (hevt n))
    exact { hs with hpm := State.hpmLegal_selector n hs.hpm e hl hp }
  | debug s v c r _ hd => exact { hs with absentDbg := absent_imp_of_present hd }
  | qosid s q hr hm hq => exact { hs with rcid := hr, mcid := hm, absentQosid := absent_imp_of_present hq }
  | icvec s r hr => exact { hs with vector := fun b => (hr b).elim id fun e => e ▸ hs.vector b }
  | msiEntry s x e he hp => exact hs.setMsiEntry x e he hp

/-- A reset writes legal values: the implementation is the same, and the values of before show that it has vector 0 and
queues of two entries. -/
theorem resetEvent_registersLegal {s : State} (hs : s.RegistersLegal) : (resetEvent s).RegistersLegal where
  be h := by
    change s.cfg.endBoth = false at h
    change (!s.cfg.endBoth && s.cfg.beFixed) = s.cfg.beFixed
    simp [h]
  wsi _ := rfl
  gxl h := by
    change s.cfg.gxlWritable = false at h
    change (!s.cfg.gxlWritable && s.cfg.gxlFixed) = s.cfg.gxlFixed
    simp [h]
  mode := by
    change modeSupported s.cfg (if s.cfg.resetBare then .bare else .off) = true
    split <;> rfl
  ppn := legalPpn_zero s.cfg
  cq := hs.cq.zero
  fq := hs.fq.zero
  pq := hs.pq.zero
  countinh := by
    change (if s.cfg.hpm then 1#32 else 0#32).toNat < 2 ^ (s.cfg.hpmCounters + 1)
    split
    · exact Nat.one_lt_two_pow (by omega)
    · exact Nat.two_pow_pos _
  cycles := Nat.pow_pos (by omega)
  rcid := Nat.pow_pos (by omega)
  mcid := Nat.pow_pos (by omega)
  vector b := by
    have hn : 0 < s.cfg.nVectors := Nat.zero_lt_of_lt (hs.vector .cq)
    cases b <;> exact hn
  msi x := by
    have hx : (resetEvent s).msiCfg[x] = ⟨0#54, 0#32, false⟩ := Vector.getElem_replicate x.isLt
    rw [hx]
    exact Nat.two_pow_pos s.cfg.pas
  absentMsi x _ := Vector.getElem_replicate x.isLt
  absentHpm h := by
    change s.cfg.hpm = false at h
    exact ⟨if_neg (by simp [h]), rfl⟩
  absentAts _ := ⟨rfl, rfl, rfl, rfl⟩
  absentDbg _ := ⟨rfl, rfl, rfl⟩
  absentQosid _ := rfl
  hpm := by
    have hctr (n : Fin 31) : (resetEvent s).iohpmctr[n] = 0#64 := Vector.getElem_replicate n.isLt
    have hevt (n : Fin 31) : (resetEvent s).iohpmevt[n] = HpmEvt.zero := Vector.getElem_replicate n.isLt
    refine (State.hpmLegal_iff _).mpr ⟨fun n => ?_, fun n => ?_, fun n _ => ⟨hctr n, hevt n⟩⟩
    · rw [hctr n]
      exact Nat.two_pow_pos s.cfg.hpmWidth
    · rw [hevt n]
      rfl

/-- Every step keeps the registers legal. -/
theorem step_keeps_registersLegal {s t : State} (hs : s.RegistersLegal) (h : step s = .next t) : t.RegistersLegal := by
  have hs' : ({ s with inbox := s.inbox.tail } : State).RegistersLegal := { hs with }
  obtain hd | rfl := step_did h
  · exact hd.keeps_registersLegal hs'
  · exact resetEvent_registersLegal hs'

/-- Settles O22: the invariant `RegistersLegal`, kept by each change of `Did` and by a reset. -/
theorem stepKeepsRegistersLegal : Obligations.StepKeepsRegistersLegal := by
  unfold Obligations.StepKeepsRegistersLegal
  intro s t hcontrol haux habsent hcqt hfqh hpqh hstep
  have hs : s.RegistersLegal := s.registersLegal_iff.mpr ⟨hcontrol, haux, habsent, hcqt, hfqh, hpqh⟩
  exact t.registersLegal_iff.mp (step_keeps_registersLegal hs hstep)

end Sys2Proof.Machine

/-! PROOF. The indices of software stay below the number of entries, those of the IOMMU while their queue is on (O21).
The conjunction `indicesOk` becomes an invariant with a named field for each index: internal work moves `fqt` alone, and
each other change that a step can make (`Did`) leaves an index alone, gives it a value in range, or turns its queue off. -/

namespace Sys2Proof.Machine

/-! ### The index modulo the number of entries (R480, R533) -/

/-- A queue has at most `2 ^ 32` entries. -/
theorem QBase.entries_le (q : QBase) : q.entries ≤ 2 ^ 32 :=
  Nat.pow_le_pow_right (by omega) (Nat.succ_le_of_lt q.log2szm1.isLt)

theorem QBase.toNat_mask (q : QBase) (i : BitVec 32) : (q.mask i).toNat = i.toNat % q.entries := by
  have hlt : i.toNat % q.entries < q.entries := Nat.mod_lt _ (Nat.two_pow_pos _)
  have hle : q.entries ≤ 2 ^ 32 := q.entries_le
  rw [QBase.mask, BitVec.toNat_ofNat, Nat.mod_eq_of_lt (by omega)]

theorem QBase.mask_of_inRange {q : QBase} {i : BitVec 32} (h : q.inRange i = true) : q.mask i = i :=
  BitVec.eq_of_toNat_eq ((q.toNat_mask i).trans (Nat.mod_eq_of_lt (of_decide_eq_true h)))

/-! ### The invariant -/

/-- Each queue index is one of an entry; those that the IOMMU owns while their queue is on. -/
structure State.IndicesInRange (s : State) : Prop where
  cqt : s.cqb.inRange s.cqt = true
  fqh : s.fqb.inRange s.fqh = true
  pqh : s.pqb.inRange s.pqh = true
  cqh : s.cqcsr.cqon = true → s.cqb.inRange s.cqh = true
  fqt : s.fqcsr.on = true → s.fqb.inRange s.fqt = true
  pqt : s.pqcsr.on = true → s.pqb.inRange s.pqt = true

/-- The invariant is the predicate of the statement. -/
theorem State.indicesOk_iff (s : State) : s.indicesOk = true ↔ s.IndicesInRange := by
  simp only [State.indicesOk, Bool.and_eq_true, or_eq_true_iff_imp, Bool.not_eq_false']
  constructor
  · rintro ⟨⟨⟨⟨⟨cqt, fqh⟩, pqh⟩, cqh⟩, fqt⟩, pqt⟩
    exact { cqt, fqh, pqh, cqh, fqt, pqt }
  · rintro ⟨cqt, fqh, pqh, cqh, fqt, pqt⟩
    exact ⟨⟨⟨⟨⟨cqt, fqh⟩, pqh⟩, cqh⟩, fqt⟩, pqt⟩

/-! ### What keeps it -/

/-- Of the indices and the queue bases internal work moves `fqt` alone, which it keeps in range. -/
theorem State.IndicesInRange.work {s t : State} (hs : s.IndicesInRange) (h : Work s t) : t.IndicesInRange where
  cqt := by rw [h.cqb, h.cqt]; exact hs.cqt
  fqh := by rw [h.fqb, h.fqh]; exact hs.fqh
  pqh := by rw [h.pqb, h.pqh]; exact hs.pqh
  cqh := by rw [h.cqcsr, h.cqb, h.cqh]; exact hs.cqh
  fqt hon := h.fqt (hs.fqt (h.fqon ▸ hon))
  pqt := by rw [h.pqcsr, h.pqb, h.pqt]; exact hs.pqt

theorem State.IndicesInRange.updateCip {s : State} (hs : s.IndicesInRange) : s.updateCip.IndicesInRange :=
  hs.work (Work.updateCip s).1

theorem State.IndicesInRange.updateFip {s : State} (hs : s.IndicesInRange) : s.updateFip.IndicesInRange :=
  hs.work (Work.updateFip s)

theorem State.IndicesInRange.updatePip {s : State} (hs : s.IndicesInRange) : s.updatePip.IndicesInRange :=
  hs.work (Work.updatePip s).1

/-- The first entry is one of every queue. -/
theorem QBase.inRange_zero (q : QBase) : q.inRange 0#32 = true :=
  decide_eq_true (Nat.two_pow_pos _)

/-- A write of a queue base leaves the index that software owns in range. -/
theorem QBase.inRange_write {b b' : QBase} {i i' : BitVec 32} (h : b.inRange i = true)
    (hi : b'.inRange i' = true ∨ (b'.log2szm1 = b.log2szm1 ∧ i' = i)) : b'.inRange i' = true := by
  obtain hr | ⟨hsize, rfl⟩ := hi
  · exact hr
  · rw [QBase.inRange_congr hsize]
    exact h

/-- Nothing is claimed of the index of a queue that is off. -/
theorem imp_of_off {b : Bool} {p : Prop} (hoff : b = false) : b = true → p :=
  fun hon => Bool.noConfusion (hoff.symm.trans hon)

/-- Each change that a step can make keeps the indices in range. -/
theorem Did.keeps_indicesInRange {sw : Bool} {s t : State} (h : Did sw s t) (hs : s.IndicesInRange) :
    t.IndicesInRange := by
  induction h with
  | work h => exact hs.work h
  | trans _ _ ihs iht => exact iht (ihs hs)
  | drop | commands | accesses | halfReads | cycles | fctl | ddtp | countinh | counter | selector | debug | qosid
  | icvec | msiEntry | msiPending => exact { hs with }
  | advance s => exact { hs with cqh := fun _ => QBase.inRange_next _ _ }
  | pqNext s => exact { hs with pqt := fun _ => QBase.inRange_next _ _ }
  | cqt s i hi => exact { hs with cqt := hi }
  | fqh s i hi => exact { hs with fqh := hi }
  | pqh s i hi => exact { hs with pqh := hi }
  | cqb s b i hoff _ _ hi => exact { hs with cqt := QBase.inRange_write hs.cqt hi, cqh := imp_of_off hoff }
  | fqb s b i hoff _ _ hi => exact { hs with fqh := QBase.inRange_write hs.fqh hi, fqt := imp_of_off hoff }
  | pqb s b i hoff _ _ hi => exact { hs with pqh := QBase.inRange_write hs.pqh hi, pqt := imp_of_off hoff }
  | status s q _ _ hon =>
    exact State.IndicesInRange.updateCip { hs with cqh := fun h => hs.cqh (hon ▸ h) }
  | cqOn s => exact State.IndicesInRange.updateCip { hs with cqh := fun _ => QBase.inRange_zero _ }
  | cqSet s q hon =>
    refine State.IndicesInRange.updateCip { hs with cqh := ?_ }
    obtain ⟨hoff, -⟩ | ⟨hsame, -⟩ := hon
    · exact imp_of_off hoff
    · exact fun h => hs.cqh (hsame ▸ h)
  | fqOn s => exact State.IndicesInRange.updateFip { hs with fqt := fun _ => QBase.inRange_zero _ }
  | fqSet s q hon =>
    exact State.IndicesInRange.updateFip { hs with fqt := fun h => hs.fqt (Bool.and_eq_true_iff.mp (hon ▸ h)).1 }
  | pqOn s => exact State.IndicesInRange.updatePip { hs with pqt := fun _ => QBase.inRange_zero _ }
  | pqStatus s _ _ hon => exact State.IndicesInRange.updatePip { hs with }
  | pqSet s q hon =>
    exact State.IndicesInRange.updatePip { hs with pqt := fun h => hs.pqt (Bool.and_eq_true_iff.mp (hon ▸ h)).1 }
  | ipsr s r =>
    have hr : ({ s with ipsr := r } : State).IndicesInRange := { hs with }
    exact hr.updateCip.updateFip.updatePip

/-- A reset sets every index to 0. -/
theorem resetEvent_indicesInRange (s : State) : (resetEvent s).IndicesInRange where
  cqt := QBase.inRange_zero _
  fqh := QBase.inRange_zero _
  pqh := QBase.inRange_zero _
  cqh := nofun
  fqt := nofun
  pqt := nofun

/-- Every step keeps the indices in range. -/
theorem step_keeps_indicesInRange {s t : State} (hs : s.IndicesInRange) (h : step s = .next t) : t.IndicesInRange := by
  have hs' : ({ s with inbox := s.inbox.tail } : State).IndicesInRange := { hs with }
  obtain hd | rfl := step_did h
  · exact hd.keeps_indicesInRange hs'
  · exact resetEvent_indicesInRange _

/-! ### What `cqh` reads as (R31; log 43) -/

/-- A 4-byte read keeps the low 32 bits. -/
theorem toNat_and_low (x : DWord) : (x &&& 0xFFFFFFFF#64).toNat = x.toNat % 2 ^ 32 :=
  (BitVec.toNat_and x _).trans (Nat.and_two_pow_sub_one_eq_mod x.toNat 32)

theorem setWidth_and_low (x : BitVec 32) : x.setWidth 64 &&& 0xFFFFFFFF#64 = x.setWidth 64 := by
  have hx := x.isLt
  apply BitVec.eq_of_toNat_eq
  rw [toNat_and_low, BitVec.toNat_setWidth, Nat.mod_eq_of_lt (by omega)]

/-- A read of `cqh` gives the bits of the index below LOG2SZ. -/
theorem State.regRead_cqh (s : State) : s.regRead 32 4 = (s.cqb.mask s.cqh).setWidth 64 := by
  have hread : s.readReg .cqh = (s.cqb.mask s.cqh).setWidth 64 := State.readReg_present rfl
  rw [State.regRead_four (r := .cqh) rfl rfl, hread, setWidth_and_low]

/-- Settles O21: the invariant `IndicesInRange`, kept by each change of `Did` and by a reset, and the read of `cqh`. -/
theorem stepKeepsIndicesInRange : Obligations.StepKeepsIndicesInRange := by
  unfold Obligations.StepKeepsIndicesInRange
  refine ⟨fun s t hs hstep => ?_, fun s => ⟨?_, fun hin => ?_⟩⟩
  · exact t.indicesOk_iff.mpr (step_keeps_indicesInRange (s.indicesOk_iff.mp hs) hstep)
  · rw [State.regRead_cqh, BitVec.toNat_setWidth_of_le (by omega), QBase.toNat_mask]
  · rw [State.regRead_cqh, QBase.mask_of_inRange hin]

end Sys2Proof.Machine

/-! PROOF. No step changes the implementation or the platform, and each takes one input (O23). -/

namespace Sys2Proof.Machine

/-- The two states have the same implementation, the same platform and the same inputs to come. -/
structure State.SameSetting (s t : State) : Prop where
  cfg : t.cfg = s.cfg
  plat : t.plat = s.plat
  inbox : t.inbox = s.inbox

theorem State.SameSetting.trans {s t u : State} (h : s.SameSetting t) (k : t.SameSetting u) : s.SameSetting u :=
  ⟨k.cfg.trans h.cfg, k.plat.trans h.plat, k.inbox.trans h.inbox⟩

theorem Work.sameSetting {s t : State} (h : Work s t) : s.SameSetting t := ⟨h.cfg, h.plat, h.inbox⟩

/-- No change that a step can make touches the setting: of the registers none is part of it, and internal work keeps it. -/
theorem Did.sameSetting {sw : Bool} {s t : State} (h : Did sw s t) : s.SameSetting t := by
  induction h with
  | work h => exact h.sameSetting
  | trans _ _ ihs iht => exact ihs.trans iht
  | status | cqOn | cqSet => exact { (Work.updateCip _).1.sameSetting with }
  | fqOn | fqSet => exact { (Work.updateFip _).sameSetting with }
  | pqStatus | pqOn | pqSet => exact { (Work.updatePip _).1.sameSetting with }
  | ipsr => exact { (((Work.updateCip _).1.trans (Work.updateFip _)).trans (Work.updatePip _).1).sameSetting with }
  | _ => exact ⟨rfl, rfl, rfl⟩

/-- Settles O23: the input is taken first, and neither the listed changes nor a reset touch the setting after that. -/
theorem stepKeepsConfiguration : Obligations.StepKeepsConfiguration := by
  unfold Obligations.StepKeepsConfiguration
  intro s t hstep
  obtain hd | rfl := step_did hstep
  · obtain ⟨hcfg, hplat, hinbox⟩ := hd.sameSetting
    exact ⟨hcfg, hplat, hinbox⟩
  · exact ⟨rfl, rfl, rfl⟩

end Sys2Proof.Machine

/-! PROOF. The state after reset meets every invariant, for every implementation that the spec allows (O28). -/

namespace Sys2Proof.Machine

/-- What R8 and R35 ask of an implementation that the reset values rest on: each queue has room for two entries, and there
is a vector 0. -/
theorem Cfg.wellFormed_sizes {c : Cfg} (h : c.wellFormed = true) :
    1 ≤ c.cqLog2szMax ∧ 1 ≤ c.fqLog2szMax ∧ 1 ≤ c.pqLog2szMax ∧ 1 ≤ c.nVectors := by
  simp only [Cfg.wellFormed, Bool.and_eq_true, decide_eq_true_eq] at h
  omega

/-- The mode after reset, Off or Bare, is one of every implementation. -/
theorem modeSupported_resetWith (c : Cfg) : modeSupported c (State.resetWith c).ddtp.mode = true := by
  change modeSupported c (if c.resetBare then .bare else .off) = true
  split <;> rfl

theorem resetWith_controlLegal {c : Cfg} (hcq : 1 ≤ c.cqLog2szMax) (hfq : 1 ≤ c.fqLog2szMax)
    (hpq : 1 ≤ c.pqLog2szMax) : (State.resetWith c).controlLegal = true := by
  refine (State.controlLegal_iff _).mpr ⟨fun h => ?_, fun _ => rfl, fun h => ?_, modeSupported_resetWith c,
    legalPpn_zero c, ⟨hcq, legalPpn_zero c⟩, ⟨hfq, legalPpn_zero c⟩, hpq, legalPpn_zero c⟩
  · change c.endBoth = false at h
    change (!c.endBoth && c.beFixed) = c.beFixed
    rw [h, Bool.not_false, Bool.true_and]
  · change c.gxlWritable = false at h
    change (!c.gxlWritable && c.gxlFixed) = c.gxlFixed
    rw [h, Bool.not_false, Bool.true_and]

/-! Every counter, every selector and every entry of the MSI table is 0 after reset. -/

theorem resetWith_iohpmctr (c : Cfg) (n : Fin 31) : (State.resetWith c).iohpmctr[n] = 0#64 :=
  Vector.getElem_replicate n.isLt

theorem resetWith_iohpmevt (c : Cfg) (n : Fin 31) : (State.resetWith c).iohpmevt[n] = HpmEvt.zero :=
  Vector.getElem_replicate n.isLt

theorem resetWith_msiCfg (c : Cfg) (x : Fin 16) : (State.resetWith c).msiCfg[x] = ⟨0#54, 0#32, false⟩ :=
  Vector.getElem_replicate x.isLt

/-- `iocountinh` after reset has at most its bit CY. -/
theorem resetWith_iocountinh_lt (c : Cfg) : (State.resetWith c).iocountinh.toNat < 2 ^ (c.hpmCounters + 1) := by
  change (if c.hpm then 1#32 else 0#32).toNat < 2 ^ (c.hpmCounters + 1)
  split
  · exact Nat.one_lt_two_pow (by omega)
  · exact Nat.two_pow_pos _

theorem resetWith_auxiliaryLegal {c : Cfg} (hv : 1 ≤ c.nVectors) : (State.resetWith c).auxiliaryLegal = true := by
  refine (State.auxiliaryLegal_iff _).mpr ⟨resetWith_iocountinh_lt c, Nat.two_pow_pos _, fun n => ?_, fun n => ?_,
    Nat.two_pow_pos _, Nat.two_pow_pos _, fun b => ?_, fun x => ?_⟩
  · rw [resetWith_iohpmctr]
    exact Nat.two_pow_pos c.hpmWidth
  · rw [resetWith_iohpmevt]
    rfl
  · cases b <;> exact hv
  · rw [resetWith_msiCfg]
    exact Nat.two_pow_pos c.pas

theorem resetWith_absentZero (c : Cfg) : (State.resetWith c).absentZero = true := by
  refine (State.absentZero_iff _).mpr ⟨fun n _ => ⟨resetWith_iohpmctr c n, resetWith_iohpmevt c n⟩,
    fun x _ => resetWith_msiCfg c x, fun h => ⟨?_, rfl⟩, fun _ => ⟨rfl, rfl, rfl, rfl⟩, fun _ => ⟨rfl, rfl, rfl⟩,
    fun _ => rfl⟩
  change c.hpm = false at h
  change (if c.hpm then 1#32 else 0#32) = 0#32
  rw [h]
  rfl

/-- The reset state of an allowed implementation meets every invariant. -/
theorem resetWith_sound {c : Cfg} (h : c.wellFormed = true) : (State.resetWith c).sound = true := by
  obtain ⟨hcq, hfq, hpq, hv⟩ := Cfg.wellFormed_sizes h
  have hcontrol := resetWith_controlLegal hcq hfq hpq
  have haux := resetWith_auxiliaryLegal hv
  have habsent := resetWith_absentZero c
  have hindices : (State.resetWith c).indicesOk = true := rfl
  have hpend : (State.resetWith c).interruptsPend = true := rfl
  have hsettled : (State.resetWith c).settled = true := rfl
  have hcache : (State.resetWith c).cacheOk = true := rfl
  have hmem : (State.resetWith c).mem.wf = true := rfl
  have hcfg : (State.resetWith c).cfg.wellFormed = true := h
  simp only [State.sound, hcfg, hmem, hcache, hsettled, hpend, hindices, hcontrol, haux, habsent, Bool.and_self]

/-- The reference configuration is one that the spec allows. -/
theorem Cfg.reference_wellFormed : Cfg.reference.wellFormed = true := by decide

/-- Settles O28: each invariant by the reset values it speaks of. -/
theorem resetStateIsSound : Obligations.ResetStateIsSound :=
  ⟨fun _ => resetWith_sound, resetWith_sound Cfg.reference_wellFormed⟩

end Sys2Proof.Machine

/-! PROOF. What reset leaves, and what `capabilities` reads as in every state (O27). -/

namespace Sys2Proof.Machine

/-! ### The fields of `capabilities` (R34) -/

theorem State.regRead_capabilities (s : State) : s.regRead 0 8 = capabilitiesImage s.cfg :=
  (State.regRead_eight (r := .capabilities) rfl rfl rfl).trans (State.readReg_present rfl)

theorem getLsbD_bit_zero (b : Bool) : (bit b).getLsbD 0 = b := by
  cases b <;> rfl

/-- Each feature of one bit is at its bit. -/
theorem capabilitiesImage_features (c : Cfg) : ∀ p ∈ [(8, c.sv32), (9, c.sv39), (10, c.sv48), (11, c.sv57),
    (14, c.svrsw60t59b), (15, c.svpbmt), (16, c.sv32x4), (17, c.sv39x4), (18, c.sv48x4), (19, c.sv57x4),
    (21, c.amoMrif), (22, c.msiFlat), (23, c.msiMrif), (24, c.amoHwad), (25, c.ats), (26, c.t2gpa), (27, c.endBoth),
    (30, c.hpm), (31, c.dbg), (38, c.pd8), (39, c.pd17), (40, c.pd20), (41, c.qosid), (42, c.nl), (43, c.rangeInval)],
    (capabilitiesImage c).getLsbD p.1 = p.2 := by
  simp only [List.forall_mem_cons, capabilitiesImage, BitVec.getLsbD_append, Nat.reduceLT, Nat.reduceSub, if_true,
    if_false, getLsbD_bit_zero, List.not_mem_nil, false_imp_iff, implies_true, and_self]

/-- The code of `capabilities.IGS` by cases. -/
theorem igsCode_eq (g : Igs) : igsCode g = if g = .msi then 0#2 else if g = .wsi then 1#2 else 2#2 := by
  cases g <;> rfl

/-- Each field of more than one bit is at its bits, and the reserved bits are 0. -/
theorem capabilitiesImage_fields (c : Cfg) :
    (capabilitiesImage c).extractLsb' 0 8 = c.version ∧ (capabilitiesImage c).extractLsb' 28 2 = igsCode c.igs ∧
    (capabilitiesImage c).extractLsb' 32 6 = BitVec.ofNat 6 c.pas ∧
    (capabilitiesImage c).extractLsb' 56 8 = c.capCustom ∧ (capabilitiesImage c).extractLsb' 12 2 = 0#2 ∧
    (capabilitiesImage c).getLsbD 20 = false ∧ (capabilitiesImage c).extractLsb' 44 12 = 0#12 := by
  simp only [capabilitiesImage, BitVec.extractLsb'_append_eq_of_le, BitVec.extractLsb'_append_eq_right,
    BitVec.extractLsb'_eq_self, Nat.reduceLeDiff, Nat.reduceSub, BitVec.getLsbD_append, Nat.reduceLT, if_true, if_false,
    BitVec.getLsbD_zero, and_self]

/-! ### Reset -/

theorem resetWith_mode (c : Cfg) : (State.resetWith c).ddtp.mode = .off ∨ (State.resetWith c).ddtp.mode = .bare := by
  change (if c.resetBare then IommuMode.bare else .off) = .off ∨ (if c.resetBare then IommuMode.bare else .off) = .bare
  cases c.resetBare with
  | false => exact .inl rfl
  | true => exact .inr rfl

/-- Settles O27: the reset values by the definition of the reset state, `capabilities` by the layout of its image. -/
theorem resetValues : Obligations.ResetValues := by
  unfold Obligations.ResetValues
  intro c
  refine ⟨rfl, rfl, rfl, rfl, rfl, rfl, rfl, rfl, rfl, rfl, rfl, rfl, rfl, rfl, rfl, resetWith_mode c, rfl, fun _ => rfl,
    rfl, fun t ht => ?_⟩
  have hcap : t.regRead 0 8 = capabilitiesImage c := ht ▸ t.regRead_capabilities
  simp only [hcap, ← igsCode_eq]
  exact ⟨fun j b hjb => capabilitiesImage_features c (j, b) hjb, capabilitiesImage_fields c⟩

end Sys2Proof.Machine

/-! PROOF. How accesses reach the register page (O46). Which offsets are those of an 8-byte register is said once
(`regAt_any_wide_iff`), and which 4-byte and 8-byte accesses meet a register follows from it. -/

namespace Sys2Proof.Machine

/-! ### Which offsets are those of a register (R33, R64) -/

/-- The offset of an 8-byte register. -/
def WideOffset (off : Nat) : Prop :=
  off ∈ [0, 16, 24, 40, 56, 96, 600, 608, 616, 760] ∨ (104 ≤ off ∧ off < 600 ∧ off % 8 = 0) ∨
    (768 ≤ off ∧ off < 1024 ∧ off % 16 = 0)

/-- A reserved or custom offset (R65). -/
def ReservedOffset (off : Nat) : Prop :=
  (12 ≤ off ∧ off ≤ 15) ∨ (628 ≤ off ∧ off ≤ 759) ∨ (1024 ≤ off ∧ off ≤ 4095)

/-- The conditions on an offset as arithmetic. -/
theorem wideOffset_iff (off : Nat) : WideOffset off ↔
    (off = 0 ∨ off = 16 ∨ off = 24 ∨ off = 40 ∨ off = 56 ∨ off = 96 ∨ off = 600 ∨ off = 608 ∨ off = 616 ∨ off = 760) ∨
      (104 ≤ off ∧ off < 600 ∧ off % 8 = 0) ∨ (768 ≤ off ∧ off < 1024 ∧ off % 16 = 0) := by
  simp only [WideOffset, List.mem_cons, List.not_mem_nil, or_false]

theorem fixedReg_any_wide_iff (off : Nat) :
    (fixedReg off).any Reg.wide = true ↔ off = 0 ∨ off = 16 ∨ off = 24 ∨ off = 40 ∨ off = 56 ∨ off = 96 ∨ off = 600 ∨
      off = 608 ∨ off = 616 ∨ off = 760 := by
  unfold fixedReg
  split <;> simp_all [Reg.wide]

theorem regAt_any_wide_iff (off : Nat) : (regAt off).any Reg.wide = true ↔ WideOffset off := by
  rw [wideOffset_iff]
  unfold regAt
  repeat' split
  all_goals
    simp only [fixedReg_any_wide_iff, Option.any_some, Option.any_none, Reg.wide, Bool.false_eq_true, true_iff, false_iff]
    omega

theorem WideOffset.exists_reg {off : Nat} (h : WideOffset off) : ∃ r, regAt off = some r ∧ r.wide = true :=
  (Option.any_eq_true _ _).mp ((regAt_any_wide_iff off).mpr h)

theorem wide_eq_false {off : Nat} {r : Reg} (h : ¬WideOffset off) (hr : regAt off = some r) : r.wide = false := by
  rw [← regAt_any_wide_iff, hr] at h
  exact Bool.eq_false_iff.mpr h

theorem WideOffset.mod_eight {off : Nat} (h : WideOffset off) : off % 8 = 0 := by
  rw [wideOffset_iff] at h
  omega

theorem WideOffset.lt {off : Nat} (h : WideOffset off) : off < 1024 := by
  rw [wideOffset_iff] at h
  omega

/-- No register begins in the high half of an 8-byte register. -/
theorem WideOffset.regAt_high {off : Nat} (h : WideOffset off) : regAt (off + 4) = none := by
  obtain h | ⟨hlo, hhi, h8⟩ | ⟨hlo, hhi, h16⟩ := h
  · exact (by decide : ∀ off ∈ [0, 16, 24, 40, 56, 96, 600, 608, 616, 760], regAt (off + 4) = none) off h
  · have h104 : ¬off + 4 < 104 := by omega
    have h600 : off + 4 < 600 := by omega
    have h4 : ¬(off + 4) % 8 = 0 := by omega
    simp only [regAt, h104, h600, h4, if_true, if_false, ite_self]
  · have h104 : ¬off + 4 < 104 := by omega
    have h352 : ¬off + 4 < 352 := by omega
    have h600 : ¬off + 4 < 600 := by omega
    have h768 : ¬off + 4 < 768 := by omega
    have h4 : (off + 4) % 16 = 4 := by omega
    simp only [regAt, h104, h352, h600, h768, h4, if_false, Nat.reduceEqDiff, ite_self]

/-- The registers of `fixedReg` leave out the reserved and custom offsets. -/
theorem fixedReg_offset {off : Nat} {r : Reg} (h : fixedReg off = some r) :
    (off ≤ 8 ∨ 16 ≤ off) ∧ (off ≤ 624 ∨ 760 ≤ off) := by
  unfold fixedReg at h
  split at h <;> simp at h ⊢

theorem ReservedOffset.fixedReg_eq_none {off : Nat} (h : ReservedOffset off) (hlt : off < 1024) :
    fixedReg off = none := by
  cases hr : fixedReg off with
  | none => rfl
  | some r =>
    have hoff := fixedReg_offset hr
    unfold ReservedOffset at h
    omega

theorem ReservedOffset.regAt_eq_none {off : Nat} (h : ReservedOffset off) : regAt off = none := by
  have hfixed := h.fixedReg_eq_none
  obtain h | h | h := h
  · have h104 : off < 104 := by omega
    simp only [regAt, h104, if_true, hfixed (by omega)]
  · have h104 : ¬off < 104 := by omega
    have h352 : ¬off < 352 := by omega
    have h600 : ¬off < 600 := by omega
    have h768 : off < 768 := by omega
    simp only [regAt, h104, h352, h600, h768, if_true, if_false, hfixed (by omega)]
  · have h104 : ¬off < 104 := by omega
    have h352 : ¬off < 352 := by omega
    have h600 : ¬off < 600 := by omega
    have h768 : ¬off < 768 := by omega
    have h1024 : ¬off < 1024 := by omega
    simp only [regAt, h104, h352, h600, h768, h1024, if_false]

/-- No reserved or custom offset is in the high half of an 8-byte register. -/
theorem ReservedOffset.not_wideOffset {off : Nat} (h : ReservedOffset off) : ¬WideOffset (off - 4) := by
  rw [wideOffset_iff]
  unfold ReservedOffset at h
  omega

/-! ### Accesses that meet no register (R65, U2) -/

theorem State.regWrite4_unmapped {off : Nat} (s : State) (hn : regAt off = none) (hw : ¬WideOffset (off - 4))
    (v : BitVec 32) : s.regWrite4 off v = s := by
  simp only [State.regWrite4, hn]
  cases hr : regAt (off - 4) with
  | none => rfl
  | some r => simp only [wide_eq_false hw hr, Bool.false_and, Bool.false_eq_true, if_false]

/-- Nothing is written where no register begins and none has its high half. -/
theorem State.regWrite_unmapped {off : Nat} (s : State) (hn : regAt off = none) (hw : ¬WideOffset (off - 4)) (size : Nat)
    (v : DWord) (lowFirst : Bool) : s.regWrite off size v lowFirst = s := by
  simp only [State.regWrite, s.regWrite4_unmapped hn hw, hn, ite_self]

/-- What is read there is 0. -/
theorem State.regRead_unmapped {off : Nat} (s : State) (hn : regAt off = none) (hw : ¬WideOffset (off - 4))
    (size : Nat) : s.regRead off size = 0#64 := by
  simp only [State.regRead, hn, ite_self]
  cases hr : regAt (off - 4) with
  | none => simp only [ite_self]
  | some r => simp only [wide_eq_false hw hr, Bool.false_and, Bool.false_eq_true, if_false, ite_self]

/-! ### Accesses of 8 bytes (R521, U31) -/

theorem State.regWrite_four_eq {off : Nat} (s : State) (ha : off % 4 = 0) (v : DWord) (lowFirst : Bool) :
    s.regWrite off 4 v lowFirst = s.regWrite4 off (v.extractLsb' 0 32) := by
  simp only [State.regWrite, ha, and_self, if_true]

/-- The 32 bits of a half, as a 4-byte write takes them from the value written. -/
theorem extractLsb'_setWidth_half (x : BitVec 32) : (x.setWidth 64).extractLsb' 0 32 = x := by
  rw [BitVec.extractLsb'_setWidth_of_le (by omega), BitVec.extractLsb'_eq_self]

/-- An 8-byte write of an 8-byte register is a 4-byte write of each half. -/
theorem State.regWrite_eight {off : Nat} (s : State) (hw : WideOffset off) (v : DWord) (lowFirst a b : Bool) :
    s.regWrite off 8 v lowFirst =
      if lowFirst then (s.regWrite off 4 ((v.extractLsb' 0 32).setWidth 64) a).regWrite (off + 4) 4
        ((v.extractLsb' 32 32).setWidth 64) b
      else (s.regWrite (off + 4) 4 ((v.extractLsb' 32 32).setWidth 64) a).regWrite off 4
        ((v.extractLsb' 0 32).setWidth 64) b := by
  obtain ⟨r, hr, hwide⟩ := hw.exists_reg
  have h8 := hw.mod_eight
  have hlow : off % 4 = 0 := by omega
  have hhigh : (off + 4) % 4 = 0 := by omega
  simp only [State.regWrite_four_eq _ hlow, State.regWrite_four_eq _ hhigh, extractLsb'_setWidth_half]
  simp only [State.regWrite, h8, hr, hwide, Nat.reduceEqDiff, false_and, and_self, if_true, if_false, Bool.not_true,
    Bool.false_eq_true]

theorem setWidth_and_low_eq_extractLsb' (x : DWord) : (x &&& 0xFFFFFFFF#64).setWidth 32 = x.extractLsb' 0 32 := by
  apply BitVec.eq_of_toNat_eq
  rw [BitVec.toNat_setWidth, toNat_and_low, BitVec.extractLsb'_toNat, Nat.shiftRight_zero, Nat.mod_mod]

/-- The halves of a doubleword, as two 4-byte reads give them, make it up. -/
theorem append_halves (x : DWord) : (x >>> 32).setWidth 32 ++ (x &&& 0xFFFFFFFF#64).setWidth 32 = x := by
  rw [BitVec.setWidth_ushiftRight_eq_extractLsb, setWidth_and_low_eq_extractLsb']
  exact (BitVec.extractLsb'_append_extractLsb'_eq_extractLsb' rfl).trans BitVec.extractLsb'_eq_self

/-- An 8-byte read of an 8-byte register is a read of each half. -/
theorem State.regRead_eight_halves {off : Nat} (s : State) (hw : WideOffset off) :
    s.regRead off 8 = (s.regRead (off + 4) 4).setWidth 32 ++ (s.regRead off 4).setWidth 32 := by
  obtain ⟨r, hr, hwide⟩ := hw.exists_reg
  have h8 := hw.mod_eight
  have h4 : off % 4 = 0 := by omega
  rw [State.regRead_eight h8 hr hwide, State.regRead_high h4 hw.regAt_high hr hwide, State.regRead_four h4 hr,
    append_halves]

/-- An 8-byte access to anything but an 8-byte register meets none. -/
theorem State.regWrite_eight_not_wide {off : Nat} (s : State) (hw : ¬WideOffset off) (v : DWord) (lowFirst : Bool) :
    s.regWrite off 8 v lowFirst = s := by
  cases hr : regAt off with
  | none => simp only [State.regWrite, hr, Nat.reduceEqDiff, false_and, if_false, ite_self]
  | some r =>
    simp only [State.regWrite, hr, wide_eq_false hw hr, Nat.reduceEqDiff, false_and, if_false, Bool.not_false, if_true,
      ite_self]

theorem State.regRead_eight_not_wide {off : Nat} (s : State) (hw : ¬WideOffset off) : s.regRead off 8 = 0#64 := by
  cases hr : regAt off with
  | none => simp only [State.regRead, hr, Nat.reduceEqDiff, false_and, if_false, ite_self]
  | some r =>
    simp only [State.regRead, hr, wide_eq_false hw hr, Nat.reduceEqDiff, false_and, Bool.false_eq_true, if_false,
      ite_self]

/-! ### The read-only registers (R510) -/

/-- The registers that software cannot write. -/
def Reg.readOnly : Reg → Bool
  | .capabilities | .cqh | .fqt | .pqt | .iocountovf | .trResponse => true
  | _ => false

theorem State.writeHalf_readOnly (s : State) {r : Reg} (h : r.readOnly = true) (low : Bool) (v : BitVec 32) :
    s.writeHalf r low v = s := by
  have himage (w : DWord) : s.writeImage r w low = s := by
    cases r with
    | capabilities | cqh | fqt | pqt | iocountovf | trResponse => rfl
    | _ => cases h
  simp only [State.writeHalf, himage, ite_self]

/-- A 4-byte write where a read-only register begins, or has its high half, is ignored. -/
theorem State.regWrite4_readOnly (s : State) {off : Nat}
    (h : ((regAt off).or (regAt (off - 4))).all Reg.readOnly = true) (v : BitVec 32) : s.regWrite4 off v = s := by
  unfold State.regWrite4
  cases hr : regAt off with
  | some r =>
    rw [hr] at h
    exact s.writeHalf_readOnly h true v
  | none =>
    cases hl : regAt (off - 4) with
    | none => rfl
    | some r =>
      rw [hr, hl] at h
      simp only [s.writeHalf_readOnly h, ite_self]

/-- Where software's writes are ignored: the offsets of the read-only registers and of their high halves. -/
def readOnlyOffsets : List Nat := [0, 4, 32, 52, 68, 88, 616, 620]

theorem State.regWrite_readOnly_four (s : State) {off : Nat} (h : off ∈ readOnlyOffsets) (v : DWord) (lowFirst : Bool) :
    s.regWrite off 4 v lowFirst = s := by
  obtain ⟨ha, hreg⟩ := (by decide : ∀ off ∈ readOnlyOffsets,
    off % 4 = 0 ∧ ((regAt off).or (regAt (off - 4))).all Reg.readOnly = true) off h
  rw [s.regWrite_four_eq ha, s.regWrite4_readOnly hreg]

/-- An 8-byte write is ignored where both halves are. -/
theorem State.regWrite_readOnly_eight (s : State) {off : Nat} (h : off ∈ readOnlyOffsets) (hh : off + 4 ∈ readOnlyOffsets)
    (v : DWord) (lowFirst : Bool) : s.regWrite off 8 v lowFirst = s := by
  by_cases hw : WideOffset off
  · simp only [s.regWrite_eight hw v lowFirst false false, s.regWrite_readOnly_four h, s.regWrite_readOnly_four hh,
      ite_self]
  · exact s.regWrite_eight_not_wide hw v lowFirst

/-! ### Inputs to the register page (R510, R32) -/

theorem step_input {s : State} {e : Event} {es : List Event} (hi : s.inbox = e :: es) :
    step s = handle e { s with inbox := es } := by
  unfold step
  rw [hi]

/-- Whatever input is being taken, a register reads the same. -/
theorem State.regRead_inbox (s : State) (es : List Event) (off size : Nat) :
    ({ s with inbox := es } : State).regRead off size = s.regRead off size := rfl

theorem State.inRegPage_of_offset {s : State} {a off : Nat} (ha : a = s.cfg.regBase.toNat + off) (hoff : off < 4096)
    {size : Nat} (hs : 1 ≤ size) : s.inRegPage a size = true := by
  simp only [State.inRegPage, Bool.and_eq_true, decide_eq_true_eq]
  omega

section Inputs
variable {s : State} {es : List Event} {a : DWord} {off : Nat}

theorem step_hartWrite_register {size : Nat} {v : DWord} {lowFirst : Bool} (hi : s.inbox = .hartWrite a size v lowFirst :: es)
    (ha : a.toNat = s.cfg.regBase.toNat + off) (hoff : off < 4096) (hs : 1 ≤ size) :
    step s = .next (({ s with inbox := es } : State).regWrite off size v lowFirst) := by
  have hpage : ({ s with inbox := es } : State).inRegPage a.toNat size = true := State.inRegPage_of_offset ha hoff hs
  have hbase : s.cfg.regBase.toNat ≤ a.toNat := by omega
  have hsub : a.toNat - s.cfg.regBase.toNat = off := by omega
  simp only [step_input hi, handle, hartWrite, hpage, hbase, hsub, if_true]

theorem step_hartRead_register {size : Nat} (hi : s.inbox = .hartRead a size :: es)
    (ha : a.toNat = s.cfg.regBase.toNat + off) (hoff : off < 4096) (hs : 1 ≤ size) :
    step s = .next { s with inbox := es, out := s.out ++ [.readData (s.regRead off size)] } := by
  have hpage : ({ s with inbox := es } : State).inRegPage a.toNat size = true := State.inRegPage_of_offset ha hoff hs
  have hbase : s.cfg.regBase.toNat ≤ a.toNat := by omega
  have hsub : a.toNat - s.cfg.regBase.toNat = off := by omega
  simp only [step_input hi, handle, hartRead, hpage, hbase, hsub, if_true, State.regRead_inbox]
  rfl

/-- The first half of an 8-byte read is kept, and nothing goes out (R632). -/
theorem step_hartReadFirst {hart : Nat} {lowFirst : Bool} (hi : s.inbox = .hartReadFirst hart a lowFirst :: es)
    (ha : a.toNat = s.cfg.regBase.toNat + off) (hw : WideOffset off) :
    step s = .next { s with
      inbox := es
      halfReads := ⟨hart, off, lowFirst, (s.regRead (if lowFirst then off else off + 4) 4).setWidth 32⟩
        :: s.halfReads.filter fun h => h.hart != hart } := by
  have hlt := hw.lt
  have hpage : ({ s with inbox := es } : State).inRegPage a.toNat 8 = true :=
    State.inRegPage_of_offset ha (by omega) (by omega)
  have hbase : s.cfg.regBase.toNat ≤ a.toNat := by omega
  have hsub : a.toNat - s.cfg.regBase.toNat = off := by omega
  have hany : (regAt off).any Reg.wide = true := (regAt_any_wide_iff off).mpr hw
  simp only [step_input hi, handle, hartReadFirst, hpage, hbase, hsub, hany, hw.mod_eight, State.regRead_inbox, decide_true,
    beq_self_eq_true, Bool.and_self, if_true]

/-- The second half is read in its own state, and the value of the two goes out. -/
theorem hartReadSecond_of_find {hart : Nat} {h : HalfRead}
    (hh : s.halfReads.find? (fun x => x.hart == hart) = some h) :
    let other := (s.regRead (if h.lowFirst then h.off + 4 else h.off) 4).setWidth 32
    hartReadSecond hart s = { s with
      halfReads := s.halfReads.filter fun x => x.hart != hart
      out := s.out ++ [.readData (if h.lowFirst then other ++ h.half else h.half ++ other)] } := by
  unfold hartReadSecond
  rw [hh]
  rfl

end Inputs

/-- Settles O46: each clause by the lemma about the access it names. -/
theorem registerPageAccesses : Obligations.RegisterPageAccesses := by
  unfold Obligations.RegisterPageAccesses
  refine ⟨fun s es a off size v lowFirst ha hoff hs => ⟨fun hi => ?_, fun hi => ?_⟩,
    fun s off size v lowFirst => ⟨fun hr => ?_, fun hr => ?_⟩, fun s off v a b => ⟨fun hw => ⟨?_, ?_, ?_⟩, fun hw => ?_⟩,
    fun s hart a lowFirst es off hi ha hw => step_hartReadFirst hi ha hw,
    fun s hart es h hi hh => (step_input hi).trans ?_⟩
  · exact step_hartWrite_register hi ha hoff hs
  · exact step_hartRead_register hi ha hoff hs
  · have hr : ReservedOffset off := hr
    exact ⟨s.regRead_unmapped hr.regAt_eq_none hr.not_wideOffset size,
      s.regWrite_unmapped hr.regAt_eq_none hr.not_wideOffset size v lowFirst⟩
  · obtain ⟨hoff, rfl | rfl⟩ | ⟨hoff, rfl⟩ := hr
    · exact s.regWrite_readOnly_four ((by decide : [0, 616] ⊆ readOnlyOffsets) hoff) v lowFirst
    · have hhigh := (by decide : ∀ off ∈ [0, 616], off + 4 ∈ readOnlyOffsets) off hoff
      exact s.regWrite_readOnly_eight ((by decide : [0, 616] ⊆ readOnlyOffsets) hoff) hhigh v lowFirst
    · exact s.regWrite_readOnly_four ((by decide : [4, 32, 52, 68, 88, 620] ⊆ readOnlyOffsets) hoff) v lowFirst
  · exact s.regWrite_eight hw v false a b
  · exact s.regWrite_eight hw v true a b
  · exact s.regRead_eight_halves hw
  · exact ⟨s.regRead_eight_not_wide hw, s.regWrite_eight_not_wide hw v a⟩
  · exact congrArg Host.Outcome.next (hartReadSecond_of_find (s := { s with inbox := es }) hh)

end Sys2Proof.Machine

/-! PROOF. The layout of a fault record (O30). The first doubleword is a concatenation: a field that starts at or above
the width of the lower part is a field of the upper part, and one that ends where the lower part begins is that part. -/

namespace Sys2Proof.Machine

/-- The first doubleword of a fault record, from bit 63 down (R180). -/
def FaultRecord.header (r : FaultRecord) : DWord :=
  r.did ++ r.ttyp ++ bit r.priv ++ bit r.pv ++ r.pid ++ r.cause.code

theorem FaultRecord.dwords_eq (r : FaultRecord) : r.dwords = [r.header, 0#64, r.iotval, r.iotval2] := rfl

theorem FaultRecord.header_cause (r : FaultRecord) : r.header.extractLsb' 0 12 = r.cause.code :=
  BitVec.extractLsb'_append_eq_right

theorem FaultRecord.header_pid (r : FaultRecord) : r.header.extractLsb' 12 20 = r.pid :=
  (BitVec.extractLsb'_append_eq_of_le (by decide)).trans BitVec.extractLsb'_append_eq_right

theorem FaultRecord.header_pv (r : FaultRecord) : r.header.getLsbD 32 = r.pv := by
  simp only [header, BitVec.getLsbD_append, Nat.reduceLT, Nat.reduceSub, if_true, if_false, getLsbD_bit_zero]

theorem FaultRecord.header_priv (r : FaultRecord) : r.header.getLsbD 33 = r.priv := by
  simp only [header, BitVec.getLsbD_append, Nat.reduceLT, Nat.reduceSub, if_true, if_false, getLsbD_bit_zero]

/-- From bit 34 up a field is one of `DID` and `TTYP`, below which stand `PRIV`, `PV`, `PID` and `CAUSE`. -/
theorem FaultRecord.header_above_flags (r : FaultRecord) {start : Nat} (len : Nat) (h : 34 ≤ start) :
    r.header.extractLsb' start len = (r.did ++ r.ttyp).extractLsb' (start - 34) len := by
  rw [header, BitVec.extractLsb'_append_eq_of_le (by omega), BitVec.extractLsb'_append_eq_of_le (by omega),
    BitVec.extractLsb'_append_eq_of_le (by omega), BitVec.extractLsb'_append_eq_of_le (by omega)]
  simp only [Nat.sub_sub, Nat.reduceAdd]

theorem FaultRecord.header_ttyp (r : FaultRecord) : r.header.extractLsb' 34 6 = r.ttyp :=
  (r.header_above_flags 6 (by decide)).trans BitVec.extractLsb'_append_eq_right

theorem FaultRecord.header_did (r : FaultRecord) : r.header.extractLsb' 40 24 = r.did :=
  calc r.header.extractLsb' 40 24
    _ = (r.did ++ r.ttyp).extractLsb' 6 24 := r.header_above_flags 24 (by decide)
    _ = r.did.extractLsb' 0 24 := BitVec.extractLsb'_append_eq_of_le (by decide)
    _ = r.did := BitVec.extractLsb'_eq_self

/-- Settles O30: each field of the first doubleword by the lemma about its position. -/
theorem faultRecordLayout : Obligations.FaultRecordLayout := by
  unfold Obligations.FaultRecordLayout
  exact fun r => ⟨r.header, r.dwords_eq, r.header_cause, r.header_pid, r.header_pv, r.header_priv, r.header_ttyp,
    r.header_did⟩

end Sys2Proof.Machine

/-! PROOF. Memory keeps its canonical form (O17), and the caches hold only valid entries (O18). Memory is written by byte
writes alone and the caches are filled behind the checks of V alone, and all of that is internal work (`Work`); of the
other changes that a step can make (`Did`) only the removal of cache entries touches either of the two. -/

namespace Sys2Proof.Machine

/-- From `s` to `t` memory stays in canonical form if it was, and the caches hold only valid entries if they did. -/
structure State.KeepsStores (s t : State) : Prop where
  mem : s.mem.wf = true → t.mem.wf = true
  cache : s.cacheOk = true → t.cacheOk = true

theorem State.KeepsStores.trans {s t u : State} (h : s.KeepsStores t) (k : t.KeepsStores u) : s.KeepsStores u :=
  ⟨k.mem ∘ h.mem, k.cache ∘ h.cache⟩

/-- A change of registers alone, and internal work after it. -/
theorem State.KeepsStores.of_work {s u t : State} (h : Work u t) (hmem : u.mem = s.mem) (hioatc : u.ioatc = s.ioatc) :
    s.KeepsStores t where
  mem := hmem ▸ h.mem
  cache hs := h.cache (by rw [State.cacheOk, hioatc]; exact hs)

/-- A change of registers alone. -/
theorem State.KeepsStores.of_eq {s t : State} (hmem : t.mem = s.mem) (hioatc : t.ioatc = s.ioatc) : s.KeepsStores t :=
  .of_work (Work.refl t) hmem hioatc

theorem State.cacheOk_iff (s : State) : s.cacheOk = true ↔ ∀ e ∈ s.ioatc, e.valid = true :=
  List.all_eq_true

/-- Caches that lose entries, by an eviction or an invalidation, still hold only valid ones. -/
theorem State.cacheOk_of_subset {s t : State} (hsub : ∀ e ∈ t.ioatc, e ∈ s.ioatc) (h : s.cacheOk = true) :
    t.cacheOk = true :=
  t.cacheOk_iff.mpr fun e he => s.cacheOk_iff.mp h e (hsub e he)

/-- Each change that a step can make keeps both: no register is part of memory or of the caches, and the interrupt that a
change of a status register raises is internal work. -/
theorem Did.keepsStores {sw : Bool} {s t : State} (h : Did sw s t) : s.KeepsStores t := by
  induction h with
  | work h => exact .of_work h rfl rfl
  | trans _ _ ihs iht => exact ihs.trans iht
  | drop s l hsub => exact ⟨id, State.cacheOk_of_subset hsub⟩
  | status | cqOn | cqSet => exact .of_work (Work.updateCip _).1 rfl rfl
  | fqOn | fqSet => exact .of_work (Work.updateFip _) rfl rfl
  | pqStatus | pqOn | pqSet => exact .of_work (Work.updatePip _).1 rfl rfl
  | ipsr => exact .of_work (((Work.updateCip _).1.trans (Work.updateFip _)).trans (Work.updatePip _).1) rfl rfl
  | _ => exact .of_eq rfl rfl

/-- A reset leaves memory alone and empties the caches. -/
theorem resetEvent_keepsStores (s : State) : s.KeepsStores (resetEvent s) := ⟨id, fun _ => rfl⟩

/-- Every step keeps the form of memory and the validity of the caches; taking an input touches neither. -/
theorem step_keepsStores {s t : State} (h : step s = .next t) : s.KeepsStores t := by
  have htake : s.KeepsStores { s with inbox := s.inbox.tail } := .of_eq rfl rfl
  obtain hd | rfl := step_did h
  · exact htake.trans hd.keepsStores
  · exact htake.trans (resetEvent_keepsStores _)

/-- Settles O17: every write to memory is a sequence of byte writes, and a byte write keeps the form. -/
theorem stepKeepsMemoryForm : Obligations.StepKeepsMemoryForm := by
  unfold Obligations.StepKeepsMemoryForm
  exact fun s t hwf hstep => (step_keepsStores hstep).mem hwf

/-- Settles O18: an entry is cached only once its V bit has been seen to be 1. -/
theorem stepCachesOnlyValidEntries : Obligations.StepCachesOnlyValidEntries := by
  unfold Obligations.StepCachesOnlyValidEntries
  exact fun s t hok hstep => (step_keepsStores hstep).cache hok

end Sys2Proof.Machine

/-! PROOF. `extract` gathers the bits under the mask (O58). The position of a bit is the number of 1s of the mask below it;
one turn of the recursion takes the lowest bit of the mask, and counts it. -/

namespace Sys2Proof.Machine

/-- The number of 1s of `y` among its low `n` bits. -/
def onesBelow (y n : Nat) : Nat := ((List.range n).filter (fun i => y.testBit i)).length

theorem onesBelow_zero (y : Nat) : onesBelow y 0 = 0 := rfl

theorem onesBelow_succ (y n : Nat) : onesBelow y (n + 1) = onesBelow (y / 2) n + y % 2 := by
  have htail : ((List.range n).map Nat.succ).filter (fun i => y.testBit i)
      = ((List.range n).filter (fun i => (y / 2).testBit i)).map Nat.succ := by
    simp only [List.filter_map, Function.comp_def, Nat.succ_eq_add_one, Nat.testBit_succ]
  rw [onesBelow, onesBelow, List.range_succ_eq_map, List.filter_cons, htail, Nat.testBit_zero]
  obtain h | h := Nat.mod_two_eq_zero_or_one y
  · simp [h]
  · simp [h]

theorem extractBits_succ_of_even {y : Nat} (h : y % 2 = 0) (n x : Nat) :
    extractBits (n + 1) x y = extractBits n (x / 2) (y / 2) := by
  rw [extractBits, h, if_neg (by decide)]

/-- Under a 1 the lowest bit of `x` is kept below the others. -/
theorem extractBits_succ_of_odd {y : Nat} (h : y % 2 = 1) (n x : Nat) :
    extractBits (n + 1) x y = x % 2 + 2 * extractBits n (x / 2) (y / 2) := by
  rw [extractBits, if_pos h]

theorem testBit_zero_extractBits_of_odd {y : Nat} (h : y % 2 = 1) (n x : Nat) :
    (extractBits (n + 1) x y).testBit 0 = x.testBit 0 := by
  rw [extractBits_succ_of_odd h, Nat.testBit_zero, Nat.testBit_zero, Nat.add_mul_mod_self_left, Nat.mod_mod]

theorem testBit_succ_extractBits_of_odd {y : Nat} (h : y % 2 = 1) (n x k : Nat) :
    (extractBits (n + 1) x y).testBit (k + 1) = (extractBits n (x / 2) (y / 2)).testBit k := by
  have hhalf : (x % 2 + 2 * extractBits n (x / 2) (y / 2)) / 2 = extractBits n (x / 2) (y / 2) := by omega
  rw [extractBits_succ_of_odd h, Nat.testBit_succ, hhalf]

/-- A bit under a 1 of the mask lands at the number of 1s below it. -/
theorem testBit_extractBits {n x y j : Nat} (hj : j < n) (hy : y.testBit j = true) :
    (extractBits n x y).testBit (onesBelow y j) = x.testBit j := by
  induction n generalizing x y j with
  | zero => omega
  | succ n ih =>
    cases j with
    | zero =>
      have hodd : y % 2 = 1 := by simpa [Nat.testBit_zero] using hy
      rw [onesBelow_zero, testBit_zero_extractBits_of_odd hodd]
    | succ j =>
      rw [Nat.testBit_succ] at hy
      have hrest := ih (x := x / 2) (Nat.lt_of_succ_lt_succ hj) hy
      rw [onesBelow_succ, Nat.testBit_succ x]
      obtain h | h := Nat.mod_two_eq_zero_or_one y
      · rw [extractBits_succ_of_even h, h, Nat.add_zero, hrest]
      · rw [h, testBit_succ_extractBits_of_odd h, hrest]

/-- The bits from the number of 1s of the mask up are 0. -/
theorem testBit_extractBits_of_onesBelow_le {n x y k : Nat} (hk : onesBelow y n ≤ k) :
    (extractBits n x y).testBit k = false := by
  induction n generalizing x y k with
  | zero => exact Nat.zero_testBit k
  | succ n ih =>
    rw [onesBelow_succ] at hk
    obtain h | h := Nat.mod_two_eq_zero_or_one y
    · rw [extractBits_succ_of_even h]
      exact ih (by omega)
    · obtain ⟨k, rfl⟩ : ∃ m, k = m + 1 := ⟨k - 1, by omega⟩
      rw [testBit_succ_extractBits_of_odd h]
      exact ih (by omega)

/-- Settles O58: the two halves by induction on the number of bits. -/
theorem extractGathersMaskedBits : Obligations.ExtractGathersMaskedBits := by
  unfold Obligations.ExtractGathersMaskedBits
  exact fun n x y => ⟨fun j hj hy => testBit_extractBits hj hy, fun k hk => testBit_extractBits_of_onesBelow_le hk⟩

end Sys2Proof.Machine

/-! PROOF. The requests that stop before any context is located, and those that Bare passes through (O35, O36). Neither reads
a page-table entry, so each is an entry of the request, an equation of `plan`, and the answer. The facts about a request's
entry, end and answer are those that every later outcome of the process needs too. -/

namespace Sys2Proof.Machine

/-! ### Results go on to the next part of the process, or end it (R565) -/

section Results
variable {α β : Type} (a : α) (f : Stop) (s : State) (p : PageFound) (k : α → State → Res β)

@[simp] theorem Res.ok_bind : (Res.ok a s).bind k = k a s := rfl

@[simp] theorem Res.stop_bind : (Res.stop f s).bind k = .stop f s := rfl

@[simp] theorem Res.finding_ok : (Res.ok a s).finding p = .ok a s := rfl

@[simp] theorem Res.finding_stop : (Res.stop f s : Res α).finding p = .stop { f with page := some p } s := rfl

end Results

/-! ### A request's entry and end (R633) -/

/-- Counting and its interrupt do not touch the mark of a request that has read a page-table entry. -/
theorem State.countIn_walked (s : State) (n : Fin 31) : (s.countIn n).walked = s.walked := by
  unfold State.countIn
  rcases bump s.cfg.hpmWidth s.iohpmctr[n] with ⟨c, wrapped⟩
  dsimp only
  split
  · exact (congrArg State.walked (State.unreported_raiseIp _ .pm) :)
  · rfl

theorem State.countEvent_walked (s : State) (e : HpmEvent) (t : EventIds) : (s.countEvent e t).walked = s.walked := by
  unfold State.countEvent
  induction List.finRange 31 generalizing s with
  | nil => rfl
  | cons n ns ih =>
    rw [List.foldl_cons, ih]
    split
    · exact s.countIn_walked n
    · rfl

@[simp] theorem State.enter_walked (s : State) (r : Request) : (s.enter r).walked = false :=
  State.countEvent_walked _ _ _

@[simp] theorem State.enter_cfg (s : State) (r : Request) : (s.enter r).cfg = s.cfg := (s.enter_work r).cfg

@[simp] theorem State.enter_plat (s : State) (r : Request) : (s.enter r).plat = s.plat := (s.enter_work r).plat

@[simp] theorem State.enter_ddtp (s : State) (r : Request) : (s.enter r).ddtp = s.ddtp := (s.enter_work r).ddtp

@[simp] theorem State.enter_iommuQos (s : State) (r : Request) : (s.enter r).iommuQos = s.iommuQos := by
  unfold State.iommuQos
  rw [s.enter_cfg, (s.enter_work r).qosid]

/-- A request that has read no page-table entry from memory ends without an event. -/
theorem State.leave_of_not_walked {s : State} (h : s.walked = false) (ids : EventIds) : s.leave ids = s := by
  unfold State.leave
  rw [h]
  rfl

/-! ### What a request comes to -/

/-- Without a device context no DTF bit is in force (R567). -/
@[simp] theorem stopEarly_dtf (ids : EventIds) (c : Cause) : (stopEarly ids c).dtf = false := rfl

theorem State.takeFault_reported (s : State) (r : FaultRecord) (o : Output) :
    s.takeFault r false false (some o) = (s.report r).emit o := rfl

theorem Ttyp.acc_eq_write_iff (t : Ttyp) : t.acc = .write ↔ t = .untransWrite ∨ t = .transWrite := by
  cases t <;> decide

theorem Ttyp.translated_iff (t : Ttyp) : t.translated = true ↔ t = .transRead ∨ t = .transWrite ∨ t = .transExec := by
  cases t <;> decide

/-- The completion goes out, and the device's own access is pending unless it was the store to an MRIF (R433). -/
theorem State.startAccess_emit (s : State) (r : Request) (c : Success) :
    (s.startAccess r c).emit (.completion r.tag c) = { s with
      uncommittedReads :=
        if c.mrif.isSome ∨ r.ttyp = .untransWrite ∨ r.ttyp = .transWrite then s.uncommittedReads
        else s.uncommittedReads ++ [⟨r.tag, c.spa.toNat, r.len⟩]
      uncommittedWrites :=
        if c.mrif.isSome = false ∧ (r.ttyp = .untransWrite ∨ r.ttyp = .transWrite) then
          s.uncommittedWrites ++ [⟨r.tag, c.spa.toNat, r.data⟩]
        else s.uncommittedWrites
      out := s.out ++ [.completion r.tag c] } := by
  unfold State.startAccess State.emit
  simp only [← Ttyp.acc_eq_write_iff]
  by_cases hm : c.mrif.isSome = true
  · simp only [hm, true_or, if_true, Bool.true_eq_false, false_and, if_false]
  · rw [Bool.not_eq_true] at hm
    by_cases hw : r.ttyp.acc = .write
    · simp only [hm, hw, Bool.false_eq_true, or_true, and_self, if_true, if_false]
    · simp only [hm, hw, Bool.false_eq_true, or_self, and_false, if_false]

section Answers
variable {r : Request} {s t : State} {d : Done} {f : Stop}

theorem serveRequest_of_ok (h : translate r false (s.enter r) = .ok d t) :
    serveRequest r s = ((t.leave d.ids).startAccess r d.c).emit (.completion r.tag d.c) := by
  rw [serveRequest, h]

theorem serveRequest_of_stop (h : translate r false (s.enter r) = .stop f t) :
    serveRequest r s = (t.leave f.ids).takeFault (r.record f) false f.dtf (some (.abort r.tag t.plat.abortData)) := by
  rw [serveRequest, h]

theorem serveAts_of_stop (h : atsTranslate r (s.enter r) = .stop f t) : serveAts r s = atsFault r f (t.leave f.ids) := by
  rw [serveAts, h]

/-- A stop of the first part of the process is the stop of the request, of either kind. -/
theorem translate_of_plan_stop (debug : Bool) (h : plan r s = .stop f t) : translate r debug s = .stop f t := by
  rw [translate, h, Res.stop_bind]

theorem atsTranslate_of_plan_stop (h : plan r s = .stop f t) : atsTranslate r s = .stop f t := by
  rw [atsTranslate, h, Res.stop_bind]

theorem translate_of_plan_pass {q : Qos} (debug : Bool) (h : plan r s = .ok (.pass q) t) :
    translate r debug s = .ok ⟨⟨r.iova, t.cfg.bareSpan, true, true, true, 0#2, q, none⟩, r.ids⟩ t := by
  rw [translate, h, Res.ok_bind]

theorem translate_of_plan_walk {x : WalkCtx} (debug : Bool) (h : plan r s = .ok (.walk x) t) :
    translate r debug s = (runWalk x r debug t).bind fun c u => .ok ⟨c, x.ids⟩ u := by
  rw [translate, h, Res.ok_bind]

end Answers

/-- The step that takes a request serves it, by its kind. -/
theorem step_request {s : State} {r : Request} {es : List Event} (hin : s.inbox = .request r :: es) :
    step s = .next (if r.ttyp = .atsRequest then serveAts r { s with inbox := es }
      else serveRequest r { s with inbox := es }) := by
  rw [step_input hin, handle, serve]

/-! ### Steps 1 to 5 (R270, R272, R568) -/

/-- A `device_id` is too wide for a directory of one or two levels when it has a bit above those the levels index (R142). -/
theorem didTooWide_lvl1_iff (flat : Bool) (did : BitVec 24) :
    didTooWide flat .lvl1 did = true ↔ 2 ^ (if flat then 6 else 7) ≤ did.toNat := by
  cases flat <;> simp [didTooWide, ddi1, ddi2, BitVec.extractLsb'_toNat, Nat.shiftRight_eq_div_pow] <;> omega

theorem didTooWide_lvl2_iff (flat : Bool) (did : BitVec 24) :
    didTooWide flat .lvl2 did = true ↔ 2 ^ (if flat then 15 else 16) ≤ did.toNat := by
  cases flat <;> simp [didTooWide, ddi2, BitVec.extractLsb'_toNat, Nat.shiftRight_eq_div_pow] <;> omega

section Plan
variable {r : Request} {s : State}

theorem plan_of_internalError (h : r.internalError = true) : plan r s = .stop (stopEarly r.ids .internalError) s := by
  rw [plan, if_pos h]

theorem plan_of_off (hi : r.internalError = false) (hm : s.ddtp.mode = .off) :
    plan r s = .stop (stopEarly r.ids .allDisallowed) s := by
  simp only [plan, hi, hm, Bool.false_eq_true, if_false]

/-- Bare takes Untranslated requests alone. -/
theorem plan_of_bare (hi : r.internalError = false) (hm : s.ddtp.mode = .bare) :
    plan r s = if r.ttyp.translated = true ∨ r.ttyp = .atsRequest then .stop (stopEarly r.ids .typeDisallowed) s
      else .ok (.pass s.iommuQos) s := by
  simp only [plan, hi, hm, Bool.false_eq_true, if_false, Bool.or_eq_true, beq_iff_eq]

/-- With a directory the device context is located, unless the `device_id` is too wide for it. -/
theorem plan_of_directory (hi : r.internalError = false)
    (hm : s.ddtp.mode = .lvl1 ∨ s.ddtp.mode = .lvl2 ∨ s.ddtp.mode = .lvl3) :
    plan r s = if didTooWide s.cfg.msiFlat s.ddtp.mode r.did then .stop (stopEarly r.ids .typeDisallowed) s
      else (locateDC r.ids s).bind fun dc t => planWithDC r dc t := by
  obtain hm | hm | hm := hm <;> simp only [plan, hi, hm, Bool.false_eq_true, if_false]

end Plan

/-- The causes with which a request stops before any context is located. -/
def Request.StopsEarly (r : Request) (s : State) (c : Cause) : Prop :=
  (r.internalError = true ∧ c = .internalError) ∨
  (r.internalError = false ∧
    ((s.ddtp.mode = .off ∧ c = .allDisallowed) ∨
      (c = .typeDisallowed ∧
        ((s.ddtp.mode = .bare ∧
            (r.ttyp = .transRead ∨ r.ttyp = .transWrite ∨ r.ttyp = .transExec ∨ r.ttyp = .atsRequest)) ∨
          (s.ddtp.mode = .lvl1 ∧ 2 ^ (if s.cfg.msiFlat then 6 else 7) ≤ r.did.toNat) ∨
          (s.ddtp.mode = .lvl2 ∧ 2 ^ (if s.cfg.msiFlat then 15 else 16) ≤ r.did.toNat)))))

/-- The first part of the process stops there, having done nothing. -/
theorem Request.StopsEarly.plan_eq {r : Request} {s : State} {c : Cause} (h : r.StopsEarly s c) :
    plan r s = .stop (stopEarly r.ids c) s := by
  obtain ⟨hi, rfl⟩ | ⟨hi, ⟨hm, rfl⟩ | ⟨rfl, ⟨hm, ht⟩ | ⟨hm, hd⟩ | ⟨hm, hd⟩⟩⟩ := h
  · exact plan_of_internalError hi
  · exact plan_of_off hi hm
  · have ht : r.ttyp.translated = true ∨ r.ttyp = .atsRequest := by
      rw [Ttyp.translated_iff]
      simpa only [or_assoc] using ht
    rw [plan_of_bare hi hm, if_pos ht]
  · rw [plan_of_directory hi (.inl hm), hm, if_pos ((didTooWide_lvl1_iff _ _).mpr hd)]
  · rw [plan_of_directory hi (.inr (.inl hm)), hm, if_pos ((didTooWide_lvl2_iff _ _).mpr hd)]

/-- The answer to an ATS Translation Request that stops there (R344, R345). -/
theorem Request.StopsEarly.atsFault_eq {r : Request} {s : State} {c : Cause} (h : r.StopsEarly s c) (t : State) :
    atsFault r (stopEarly r.ids c) t = (t.report (r.record (stopEarly r.ids c))).emit
      (.ats r.tag (if r.internalError then .completerAbort else .unsupportedRequest)) := by
  obtain ⟨hi, rfl⟩ | ⟨hi, ⟨-, rfl⟩ | ⟨rfl, -⟩⟩ := h <;> rw [hi] <;> rfl

/-- Settles O35: the stop is that of the first part, and the answer goes by the kind of the request. -/
theorem requestsRefusedBeforeContext : Obligations.RequestsRefusedBeforeContext := by
  unfold Obligations.RequestsRefusedBeforeContext
  intro s r es c hin hc
  have hstops : r.StopsEarly (({ s with inbox := es } : State).enter r) c := by
    simpa only [Request.StopsEarly, State.enter_ddtp, State.enter_cfg] using hc
  have hplan := hstops.plan_eq
  rw [step_request hin]
  by_cases hats : r.ttyp = .atsRequest
  · rw [if_pos hats, if_pos hats, serveAts_of_stop (atsTranslate_of_plan_stop hplan),
      State.leave_of_not_walked (State.enter_walked _ _), hstops.atsFault_eq]
    rfl
  · rw [if_neg hats, if_neg hats, serveRequest_of_stop (translate_of_plan_stop false hplan),
      State.leave_of_not_walked (State.enter_walked _ _), State.enter_plat, stopEarly_dtf, State.takeFault_reported]
    rfl

/-- Bare completes an Untranslated request with its own address (R271). -/
theorem serveRequest_of_bare {r : Request} {s : State} (hi : r.internalError = false) (hm : s.ddtp.mode = .bare)
    (ht : ¬(r.ttyp.translated = true ∨ r.ttyp = .atsRequest)) :
    let c : Success := ⟨r.iova, s.cfg.bareSpan, true, true, true, 0#2, s.iommuQos, none⟩
    serveRequest r s = ((s.enter r).startAccess r c).emit (.completion r.tag c) := by
  have hmode : (s.enter r).ddtp.mode = .bare := (congrArg Ddtp.mode (s.enter_ddtp r)).trans hm
  have hplan : plan r (s.enter r) = .ok (.pass s.iommuQos) (s.enter r) := by
    rw [plan_of_bare hi hmode, if_neg ht, State.enter_iommuQos]
  rw [serveRequest_of_ok (translate_of_plan_pass false hplan), State.leave_of_not_walked (s.enter_walked r),
    State.enter_cfg]

/-- Settles O36: Bare refuses no Untranslated request, and the completion is followed by the device's own access. -/
theorem bareModePassesThrough : Obligations.BareModePassesThrough := by
  unfold Obligations.BareModePassesThrough
  intro s r es hin hm hi ht
  have hserved : r.ttyp ≠ .atsRequest ∧ r.ttyp ≠ .transWrite ∧ ¬(r.ttyp.translated = true ∨ r.ttyp = .atsRequest) := by
    obtain ht | ht | ht := ht <;> rw [ht] <;> decide
  obtain ⟨hats, hwrite, huntranslated⟩ := hserved
  rw [step_request hin, if_neg hats, serveRequest_of_bare (s := { s with inbox := es }) hi hm huntranslated,
    State.startAccess_emit]
  simp only [hwrite, Option.isSome_none, Bool.false_eq_true, false_or, or_false, true_and]
  rfl

end Sys2Proof.Machine

/-! PROOF. From the device context to the outcome of a request (O38). Steps 7 to 9 refuse a request by three tests, which are
the grounds of `Request.RefusedBy`; a request that passes them has one equation of `planWithDC` per branch of steps 8 to 16.
The contexts of the model's walk are those of the bits of the device context and the process context. -/

namespace Sys2Proof.Machine

/-! ### The contexts (R146, R153 to R157) -/

theorem Ttyp.acc_eq (t : Ttyp) : t.acc = if t = .untransExec ∨ t = .transExec then .instruction
    else if t = .untransWrite ∨ t = .transWrite then .write else .read := by
  cases t <;> rfl

/-- The scheme of a MODE field, Bare for an encoding that is not valid (R153, R156). -/
def Scheme.ofMode (xl : Bool) (mode : BitVec 4) : Scheme :=
  if mode = 8#4 then (if xl then .sv32 else .sv39) else if xl = false ∧ mode = 9#4 then .sv48
  else if xl = false ∧ mode = 10#4 then .sv57 else .bare

theorem schemeOf_getD : ∀ (xl : Bool) (mode : BitVec 4), (schemeOf xl mode).getD .bare = Scheme.ofMode xl mode := by
  decide

/-! ### Steps 7 to 9 (R273, R274) -/

/-- A `process_id` is too wide for a directory of the mode when it has a bit above those the levels index. -/
theorem pidTooWide_iff (pid : BitVec 20) (mode : BitVec 4) :
    pidTooWide pid mode = true ↔ (mode = 1#4 ∧ 2 ^ 8 ≤ pid.toNat) ∨ (mode = 2#4 ∧ 2 ^ 17 ≤ pid.toNat) := by
  have h8 : pid.extractLsb' 8 12 ≠ 0#12 ↔ 2 ^ 8 ≤ pid.toNat := by
    rw [Ne, BitVec.toNat_eq, BitVec.extractLsb'_toNat, Nat.shiftRight_eq_div_pow, BitVec.toNat_ofNat]
    omega
  have h17 : pid.extractLsb' 17 3 ≠ 0#3 ↔ 2 ^ 17 ≤ pid.toNat := by
    rw [Ne, BitVec.toNat_eq, BitVec.extractLsb'_toNat, Nat.shiftRight_eq_div_pow, BitVec.toNat_ofNat]
    omega
  simp only [pidTooWide, Bool.or_eq_true, Bool.and_eq_true, beq_iff_eq, bne_iff_ne, h8, h17]

/-- The device context refuses the request: its type, or its `process_id`. -/
def Request.RefusedBy (r : Request) (c : Cfg) (dc : DC) : Prop :=
  ((r.ttyp.translated = true ∨ r.ttyp = .atsRequest) ∧ (dc.tc.getLsbD 1 = false ∨ c.ats = false)) ∨
  (r.pidValid = true ∧ (dc.tc.getLsbD 5 = false ∨
    (dc.fsc.extractLsb' 60 4 = 1#4 ∧ 2 ^ 8 ≤ r.pid.toNat) ∨ (dc.fsc.extractLsb' 60 4 = 2#4 ∧ 2 ^ 17 ≤ r.pid.toNat)))

/-- The tests of steps 7 and 9, one after the other. -/
theorem Request.refusedBy_iff (r : Request) (c : Cfg) (dc : DC) : r.RefusedBy c dc ↔
    ((r.ttyp.translated || r.ttyp == .atsRequest) && (!dc.enAts || !c.ats)) = true ∨
    (r.pidValid && !dc.pdtv) = true ∨ (r.pidValid && pidTooWide r.pid (modeHigh dc.fsc)) = true := by
  simp only [Request.RefusedBy, Bool.and_eq_true, Bool.or_eq_true, Bool.not_eq_true', beq_iff_eq, pidTooWide_iff, and_or_left]
  rfl

/-! ### Steps 8 to 16, branch by branch -/

section Steps
variable {r : Request} {dc : DC} {s : State}

theorem planWithDC_of_refused (h : r.RefusedBy s.cfg dc) :
    planWithDC r dc s = .stop ((ctxOf r s dc).stop .typeDisallowed) s := by
  unfold planWithDC
  obtain h | h | h := (r.refusedBy_iff _ _).mp h <;> simp only [h, if_true, ite_self]

/-- A request that is not refused fails the three tests, and goes on with step 8. -/
theorem tests_of_not_refused (h : ¬r.RefusedBy s.cfg dc) :
    ¬((r.ttyp.translated || r.ttyp == .atsRequest) && (!dc.enAts || !s.cfg.ats)) = true ∧
    ¬(r.pidValid && !dc.pdtv) = true ∧ ¬(r.pidValid && pidTooWide r.pid (modeHigh dc.fsc)) = true := by
  simpa only [Request.refusedBy_iff, not_or] using h

/-- A Translated request of a device without T2GPA completes at once. -/
theorem planWithDC_of_pass (h : ¬r.RefusedBy s.cfg dc) (ht : r.ttyp.translated = true) (hg : dc.t2gpa = false) :
    planWithDC r dc s = .ok (.pass (dc.qos s.cfg)) s := by
  obtain ⟨hty, hpdtv, hwide⟩ := tests_of_not_refused h
  unfold planWithDC
  dsimp only
  rw [if_neg hty, if_neg hpdtv, if_neg hwide]
  simp only [ht, hg, Bool.false_eq_true, if_true, if_false]

/-- With T2GPA its first stage is Bare. -/
theorem planWithDC_of_t2gpa (h : ¬r.RefusedBy s.cfg dc) (ht : r.ttyp.translated = true) (hg : dc.t2gpa = true) :
    planWithDC r dc s = .ok (.walk (ctxOf r s dc)) s := by
  obtain ⟨hty, hpdtv, hwide⟩ := tests_of_not_refused h
  unfold planWithDC
  dsimp only
  rw [if_neg hty, if_neg hpdtv, if_neg hwide, if_pos ht, if_pos hg]

section Untranslated
variable (h : ¬r.RefusedBy s.cfg dc) (ht : r.ttyp.translated = false)
include h ht

/-- Without PDTV the first stage is that of the device context. -/
theorem planWithDC_of_not_pdtv (hp : dc.pdtv = false) :
    planWithDC r dc s = .ok (.walk ((ctxOf r s dc).withFirst s.cfg dc.fsc dc.ta false)) s := by
  obtain ⟨hty, hpdtv, hwide⟩ := tests_of_not_refused h
  unfold planWithDC
  dsimp only
  rw [if_neg hty, if_neg hpdtv, if_neg hwide]
  simp only [ht, hp, Bool.not_false, Bool.false_eq_true, if_true, if_false]

/-- With PDTV it is Bare where nothing gives a `process_id`, and for a Bare directory. -/
theorem planWithDC_of_bare_first (hp : dc.pdtv = true)
    (hb : (r.pidValid = false ∧ dc.dpe = false) ∨ modeHigh dc.fsc = 0#4) :
    planWithDC r dc s = .ok (.walk (ctxOf r s dc)) s := by
  obtain ⟨hty, hpdtv, hwide⟩ := tests_of_not_refused h
  unfold planWithDC
  dsimp only
  rw [if_neg hty, if_neg hpdtv, if_neg hwide]
  simp only [ht, hp, Bool.not_true, Bool.false_eq_true, if_false]
  obtain ⟨hv, hd⟩ | hm := hb
  · simp only [hv, hd, Bool.not_false, Bool.and_self, if_true]
  · simp only [hm, if_true, ite_self]

/-- Else the process context gives it, of process 0 where DPE stands in, but for a Supervisor request without ENS. -/
theorem planWithDC_of_directory (hp : dc.pdtv = true) (hd : r.pidValid = true ∨ dc.dpe = true)
    (hm : modeHigh dc.fsc ≠ 0#4) :
    planWithDC r dc s =
      (locatePC (ctxOf r s dc) dc (if r.pidValid then r.pid else 0#20) s).bind fun pc t =>
        if r.isSupervisor && !pc.ens then .stop ((ctxOf r s dc).stop .typeDisallowed) t
        else .ok (.walk ((ctxOf r s dc).withFirst t.cfg pc.fsc pc.ta pc.sum)) t := by
  obtain ⟨hty, hpdtv, hwide⟩ := tests_of_not_refused h
  have hnone : ¬(!r.pidValid && !dc.dpe) = true := by
    simpa only [Bool.and_eq_true, Bool.not_eq_true', Classical.not_and_iff_not_or_not, Bool.not_eq_false] using hd
  unfold planWithDC
  dsimp only
  rw [if_neg hty, if_neg hpdtv, if_neg hwide]
  simp only [ht, hp, hnone, hm, Bool.not_true, Bool.false_eq_true, if_false]

end Untranslated

end Steps

/-- Step 15: only a Supervisor request, which has a `process_id`, needs ENS. -/
theorem ensRefuses_iff (r : Request) (pc : PC) : (r.isSupervisor && !pc.ens) = true ↔
    r.pidValid = true ∧ r.supervisor = true ∧ pc.ta.getLsbD 1 = false := by
  simp only [Request.isSupervisor, PC.ens, Bool.and_eq_true, Bool.not_eq_true', and_assoc]

/-! ### The combined entries (R234; log 6, log 36) -/

/-- The combined entries that a lookup may use (R233). -/
theorem mem_s12Candidates {s : State} {g : BitVec 16} {q : BitVec 20} {p : BitVec 52} {ok : S12Entry → Bool}
    {e : S12Entry} : e ∈ s.s12Candidates g q p ok ↔ IoatcEntry.s12 e ∈ s.ioatc ∧ e.gscid = g ∧ e.pscid = q ∧
      e.page.toNat / 2 ^ e.span = p.toNat / 2 ^ e.span ∧ ok e = true := by
  unfold State.s12Candidates samePage
  simp only [List.mem_filterMap]
  constructor
  · rintro ⟨a, ha, h⟩
    cases a <;> simp at h
    obtain ⟨⟨hg, hq, hp, hok⟩, rfl⟩ := h
    exact ⟨ha, hg, hq, hp, hok⟩
  · rintro ⟨he, hg, hq, hp, hok⟩
    exact ⟨_, he, by simp [hg, hq, hp, hok]⟩

section Walk
variable (x : WalkCtx) (r : Request) (debug : Bool) (s : State)

/-- The combined entries that a walk may use: none unless both stages translate. -/
def WalkCtx.combined (x : WalkCtx) (r : Request) (s : State) : List S12Entry :=
  if x.twoStage then s.s12Candidates x.gscid x.pscid (pageOf r.iova) (s12Permits s.cfg x r.iova) else []

theorem combined_eq_nil (h : x.fScheme = .bare ∨ x.gScheme = .bare ∨ s.ioatc = []) : x.combined r s = [] := by
  unfold WalkCtx.combined WalkCtx.twoStage State.s12Candidates
  obtain h | h | h := h <;> simp [h]

variable {x r debug s}

theorem runWalk_of_none {t : State} (h : s.choose (x.combined r s) = (none, t)) :
    runWalk x r debug s = walkStages x r debug t := by
  unfold WalkCtx.combined at h
  unfold runWalk
  dsimp only
  rw [h]

theorem runWalk_of_some {e : S12Entry} {t : State} (h : s.choose (x.combined r s) = (some e, t)) :
    runWalk x r debug s = .ok (s12Success x r.iova e) t := by
  unfold WalkCtx.combined at h
  unfold runWalk
  dsimp only
  rw [h]

theorem mem_combined {e : S12Entry} (h : e ∈ x.combined r s) : IoatcEntry.s12 e ∈ s.ioatc ∧ e.gscid = x.gscid ∧
    e.pscid = x.pscid ∧ e.page.toNat / 2 ^ e.span = (pageOf r.iova).toNat / 2 ^ e.span ∧
    s12Permits s.cfg x r.iova e = true := by
  unfold WalkCtx.combined at h
  split at h
  · exact mem_s12Candidates.mp h
  · cases h

variable (x r debug s)

/-- The walk, or one of the combined entries it may use, by a free choice (R232). -/
theorem runWalk_cases : ∃ l n, let t : State := { s with choices := l, freeCtr := n }
    runWalk x r debug s = walkStages x r debug t ∨
      ∃ e ∈ x.combined r s, runWalk x r debug s = .ok (s12Success x r.iova e) t := by
  obtain ⟨-, hc⟩ | ⟨-, l, n, hc | ⟨e, he, hc⟩⟩ := s.choose_cases (x.combined r s)
  · exact ⟨s.choices, s.freeCtr, .inl (runWalk_of_none hc)⟩
  · exact ⟨l, n, .inl (runWalk_of_none hc)⟩
  · exact ⟨l, n, .inr ⟨e, he, runWalk_of_some hc⟩⟩

end Walk

/-! ### The request as a whole -/

section Whole
variable {r : Request} {dc : DC} {s u : State}

theorem plan_of_located (hi : r.internalError = false)
    (hm : s.ddtp.mode = .lvl1 ∨ s.ddtp.mode = .lvl2 ∨ s.ddtp.mode = .lvl3)
    (hd : didTooWide s.cfg.msiFlat s.ddtp.mode r.did = false) (hdc : locateDC r.ids s = .ok dc u) :
    plan r s = planWithDC r dc u := by
  rw [plan_of_directory hi hm, if_neg (Bool.eq_false_iff.mp hd), hdc, Res.ok_bind]

/-- Locating a device context changes neither the implementation nor `fctl`. -/
theorem cfg_fctl_of_located {ids : EventIds} (hdc : locateDC ids s = .ok dc u) : u.cfg = s.cfg ∧ u.fctl = s.fctl := by
  have hw := locateDC_works ids s
  rw [hdc] at hw
  exact ⟨Quiet.cfg hw.toQuiet, Quiet.fctl hw.toQuiet⟩

theorem cfg_of_locatedPC {x : WalkCtx} {pid : BitVec 20} {pc : PC} (hpc : locatePC x dc pid s = .ok pc u) :
    u.cfg = s.cfg := by
  have hw := locatePC_works x dc pid s
  rw [hpc] at hw
  exact Quiet.cfg hw.toQuiet

end Whole

/-- Settles O38: up to the contexts by the equations of `planWithDC`, whose contexts are those of the statement (`hx`,
`hfirst`); the outcome by the equations of `translate`, `runWalk` and `serveRequest`. -/
theorem contextSelection : Obligations.ContextSelection := by
  unfold Obligations.ContextSelection
  refine ⟨fun r dc s u hi hm hd hdc => ?contexts,
    fun r debug s u => ⟨fun f h => translate_of_plan_stop debug h, fun x h => ?walked⟩,
    fun x r debug s => ⟨fun h => ?uncombined, ?combined⟩, fun r s es hin => ?served⟩
  case contexts =>
    intro refused c
    have hplan := plan_of_located hi hm hd hdc
    obtain ⟨hcfg, hfctl⟩ := cfg_fctl_of_located hdc
    refine ⟨fun h => ?_, fun h ht hg => ?_, ?_⟩
    · have h : r.RefusedBy u.cfg dc := hcfg ▸ h
      rw [planWithDC_of_refused h] at hplan
      exact ⟨_, rfl, rfl, rfl, fun debug => translate_of_plan_stop debug hplan, atsTranslate_of_plan_stop hplan⟩
    · have h : ¬r.RefusedBy u.cfg dc := hcfg ▸ h
      rw [planWithDC_of_pass h ht hg] at hplan
      have htr (debug : Bool) : translate r debug s = .ok ⟨c, r.ids⟩ u := by
        rw [translate_of_plan_pass debug hplan, hcfg]
      refine ⟨htr, ?_⟩
      rintro w rfl
      have huw : r.ttyp ≠ .untransWrite := fun hw => by
        rw [hw] at ht
        cases ht
      rw [serveRequest_of_ok (htr false), State.startAccess_emit]
      simp only [huw, c, Option.isSome_none, Bool.false_eq_true, false_or, true_and]
    · intro scheme hscheme gscid x first
      have hx : ctxOf r u dc = x := by
        simp only [ctxOf, idsWithDC, hcfg, hfctl, DC.gScheme, schemeOf_getD, Ttyp.acc_eq]
        rfl
      have hfirst (fsc ta : DWord) (sum : Bool) : x.withFirst s.cfg fsc ta sum = first fsc ta sum := by
        simp only [WalkCtx.withFirst, schemeOf_getD]
        rfl
      refine ⟨fun h ht hg => ?_, fun h ht => ⟨fun hp => ?_, fun hp => ⟨fun hb => ?_, fun hv hmode => ?_⟩⟩⟩
        <;> replace h : ¬r.RefusedBy u.cfg dc := hcfg ▸ h
      · rw [hplan, planWithDC_of_t2gpa h ht hg, hx]
      · rw [hplan, planWithDC_of_not_pdtv h ht hp, hx, hcfg, hfirst]
      · rw [hplan, planWithDC_of_bare_first h ht hp hb, hx]
      · rw [planWithDC_of_directory h ht hp hv hmode, hx] at hplan
        refine ⟨fun f w hl => ?_, fun pc w hl => ⟨fun hpid hsup hens => ?_, fun hok => ?_⟩⟩
        · rw [hplan, hl, Res.stop_bind]
        · rw [hplan, hl, Res.ok_bind, if_pos ((ensRefuses_iff r pc).mpr ⟨hpid, hsup, hens⟩)]
          rfl
        · have hens : ¬(r.isSupervisor && !pc.ens) = true := by
            simpa only [ensRefuses_iff, Classical.not_and_iff_not_or_not, Bool.not_eq_true, Bool.not_eq_false] using hok
          rw [hplan, hl, Res.ok_bind, if_neg hens, cfg_of_locatedPC hl, hcfg, hfirst]
          rfl
  case walked =>
    rw [translate_of_plan_walk debug h]
    exact ⟨fun f w hw => by rw [hw, Res.stop_bind], fun c w hw => by rw [hw, Res.ok_bind]⟩
  case uncombined => exact runWalk_of_none (by rw [combined_eq_nil x r s h]; rfl)
  case combined =>
    obtain ⟨l, n, h | ⟨e, he, h⟩⟩ := runWalk_cases x r debug s
    · exact ⟨l, n, .inl h⟩
    · obtain ⟨hmem, hg, hq, hp, hok⟩ := mem_combined he
      exact ⟨l, n, .inr ⟨e, hmem, hg, hq, hp, hok, h⟩⟩
  case served =>
    intro w
    refine ⟨step_request hin, fun f u h => serveRequest_of_stop h, fun d u h => ?_⟩
    exact (serveRequest_of_ok h).trans (State.startAccess_emit _ _ _)

end Sys2Proof.Machine

/-! PROOF. Which addresses are those of MSIs, and what the stages make of an access or of an ATS Translation Request (O59).
`walkStages` and `atsWalk` have one equation for each outcome of their parts. What `atsDirty` does is said by the stage whose
D bit is to be set: either way it is the one compare-and-swap of the PTE, and W goes by its outcome (`grantIf`). -/

namespace Sys2Proof.Machine

/-! ### The pattern (R320, R159) -/

/-- Outside the bits of a mask two words agree when they have the same bits there. -/
theorem and_not_eq_and_not_iff {w : Nat} (p q m : BitVec w) :
    p &&& ~~~m = q &&& ~~~m ↔ ∀ j, j < w → m.getLsbD j = false → p.getLsbD j = q.getLsbD j := by
  rw [BitVec.eq_of_getLsbD_eq_iff]
  refine forall₂_congr fun j hj => ?_
  rw [BitVec.getLsbD_and, BitVec.getLsbD_and, BitVec.getLsbD_not]
  cases m.getLsbD j <;> simp [hj]

theorem isMsiAddress_iff (c : Cfg) (d : DC) (a : DWord) :
    isMsiAddress c d a = true ↔ c.msiFlat = true ∧ d.msiptp.extractLsb' 60 4 ≠ 0#4 ∧
      ∀ j, j < 52 → d.msiAddrMask.getLsbD j = false → a.getLsbD (12 + j) = d.msiAddrPattern.getLsbD j := by
  simp only [isMsiAddress, Bool.and_eq_true, bne_iff_ne, beq_iff_eq, and_not_eq_and_not_iff, and_assoc]
  refine and_congr_right fun _ => and_congr_right fun _ => forall₂_congr fun j hj => ?_
  simp only [DC.msiMask, DC.msiPattern, pageOf, BitVec.getLsbD_extractLsb', hj, decide_true, Bool.true_and, Nat.zero_add]

/-! ### Steps 17 to 20 of an access (R276, R310, R312, R324) -/

section Stages
variable {x : WalkCtx} {r : Request} {debug : Bool} {s s1 u : State} {l1 l2 : Leaf} {f : Stop}

theorem walkStages_of_firstStage_stop (h : firstStage x true r.iova s = .stop f u) :
    walkStages x r debug s = .stop f u := by
  rw [walkStages, h, Res.stop_bind]

section Msi
variable (h1 : firstStage x true r.iova s = .ok l1 s1) (ha : isMsiAddress s1.cfg x.dc l1.addr = true)
include h1 ha

theorem walkStages_of_msi_stop (h : msiTranslate x debug l1.addr s1 = .stop f u) :
    walkStages x r debug s = .stop f u := by
  rw [walkStages, h1, Res.ok_bind, if_pos ha, h, Res.stop_bind]

theorem walkStages_of_basic {spa : DWord} (h : msiTranslate x debug l1.addr s1 = .ok (.basic spa) u) :
    walkStages x r debug s = .ok ⟨spa, 0, l1.r, l1.w, false, l1.pbmt, x.qos, none⟩ u := by
  rw [walkStages, h1, Res.ok_bind, if_pos ha, h, Res.ok_bind]

/-- At an MRIF page the access is made at once. -/
theorem walkStages_of_mrif {info : MrifInfo} (h : msiTranslate x debug l1.addr s1 = .ok (.mrif info) u) :
    walkStages x r debug s = (mrifAccess x info l1.addr r.data u).bind fun _ t =>
      .ok ⟨t.freshValue.1, 0, l1.r, l1.w, false, l1.pbmt, x.qos, some info⟩ t.freshValue.2 := by
  rw [walkStages, h1, Res.ok_bind, if_pos ha, h, Res.ok_bind]

end Msi

section Ordinary
variable (h1 : firstStage x true r.iova s = .ok l1 s1) (ha : isMsiAddress s1.cfg x.dc l1.addr = false)
include h1 ha

theorem walkStages_of_secondStage_stop (h : secondStage x .final true l1.addr s1 = .stop f u) :
    walkStages x r debug s = .stop f u := by
  rw [walkStages, h1, Res.ok_bind, if_neg (Bool.eq_false_iff.mp ha), h, Res.stop_bind]

theorem walkStages_of_secondStage (h : secondStage x .final true l1.addr s1 = .ok l2 u) :
    walkStages x r debug s = .ok ⟨l2.addr, min l1.span l2.span, l1.r && l2.r, l1.w && l2.w, l1.x && l2.x,
      resolvePbmt l1.pbmt l2.pbmt, x.qos, none⟩ (if x.twoStage then u.fill (.s12 (s12Of x r.iova l1 l2)) else u) := by
  rw [walkStages, h1, Res.ok_bind, if_neg (Bool.eq_false_iff.mp ha), h, Res.ok_bind]

end Ordinary
end Stages

/-- Caching an entry changes the IOATC alone. -/
theorem State.fill_eq (s : State) (e : IoatcEntry) : s.fill e = { s with ioatc := (s.fill e).ioatc } := by
  unfold State.fill
  split <;> rfl

/-! ### The walk of an ATS Translation Request (R342, R343, R349) -/

theorem atsPrivOk_eq (x : WalkCtx) (l1 : Leaf) :
    atsPrivOk x l1 = (x.fScheme == .bare || (if x.supervisor then !l1.u || x.sum else l1.u)) := by
  simp only [atsPrivOk, privPermits, Bool.not_false, Bool.and_true]

section Ats
variable {x : WalkCtx} {iova : DWord} {t2gpa : Bool} {fuel : Nat} {cached : Bool} {s s1 u v : State} {l1 l2 : Leaf}
  {f : Stop} {w : Bool}

theorem atsWalk_of_firstStage_stop (h : firstStage x cached iova s = .stop f u) :
    atsWalk x iova t2gpa (fuel + 1) cached s = .stop f u := by
  rw [atsWalk, h, Res.stop_bind]

section Msi
variable (h1 : firstStage x cached iova s = .ok l1 s1) (ha : isMsiAddress s1.cfg x.dc l1.addr = true)
include h1 ha

theorem atsWalk_of_msi_stop (h : msiTranslate x false l1.addr s1 = .stop f u) :
    atsWalk x iova t2gpa (fuel + 1) cached s = .stop { f with page := some ⟨true, l1.pbmt⟩ } u := by
  rw [atsWalk, h1, Res.ok_bind, if_pos ha, h, Res.finding_stop, Res.stop_bind]

variable {m : MsiResult} (h2 : msiTranslate x false l1.addr s1 = .ok m u)
include h2

theorem atsWalk_of_msi_dirty_stop (h : atsDirty x cached l1 true true none u = .stop f v) :
    atsWalk x iova t2gpa (fuel + 1) cached s = .stop { f with page := some ⟨true, l1.pbmt⟩ } v := by
  rw [atsWalk, h1, Res.ok_bind, if_pos ha, h2, Res.finding_ok, Res.ok_bind, h, Res.finding_stop, Res.stop_bind]

/-- An entry that has changed meanwhile makes the walk start again with memory alone. -/
theorem atsWalk_of_msi_changed (h : atsDirty x cached l1 true true none u = .ok none v) :
    atsWalk x iova t2gpa (fuel + 1) cached s = atsWalk x iova t2gpa fuel false v := by
  rw [atsWalk, h1, Res.ok_bind, if_pos ha, h2, Res.finding_ok, Res.ok_bind, h, Res.finding_ok, Res.ok_bind]

/-- A basic PTE gives the page, with T2GPA the guest address stands for it. -/
theorem atsWalk_of_basic (h : atsDirty x cached l1 true true none u = .ok (some w) v) {spa : DWord} (hm : m = .basic spa) :
    atsWalk x iova t2gpa (fuel + 1) cached s = .ok ⟨if t2gpa then l1.addr else spa, 0, l1.r, w, false, false, false, true,
      l1.pbmt, atsPrivOk x l1⟩ v := by
  rw [atsWalk, h1, Res.ok_bind, if_pos ha, h2, Res.finding_ok, Res.ok_bind, h, Res.finding_ok, Res.ok_bind, hm]

/-- At an MRIF page the page is a free value. -/
theorem atsWalk_of_mrif (h : atsDirty x cached l1 true true none u = .ok (some w) v) {info : MrifInfo}
    (hm : m = .mrif info) :
    atsWalk x iova t2gpa (fuel + 1) cached s = .ok ⟨if t2gpa then l1.addr else v.freshValue.1, 0, l1.r, w, false, true,
      false, true, l1.pbmt, atsPrivOk x l1⟩ v.freshValue.2 := by
  rw [atsWalk, h1, Res.ok_bind, if_pos ha, h2, Res.finding_ok, Res.ok_bind, h, Res.finding_ok, Res.ok_bind, hm]

end Msi

section Ordinary
variable (h1 : firstStage x cached iova s = .ok l1 s1) (ha : isMsiAddress s1.cfg x.dc l1.addr = false)
include h1 ha

theorem atsWalk_of_secondStage_stop (h : secondStage x .final cached l1.addr s1 = .stop f u) :
    atsWalk x iova t2gpa (fuel + 1) cached s = .stop { f with page := some ⟨false, l1.pbmt⟩ } u := by
  rw [atsWalk, h1, Res.ok_bind, if_neg (Bool.eq_false_iff.mp ha), h, Res.finding_stop, Res.stop_bind]

variable (h2 : secondStage x .final cached l1.addr s1 = .ok l2 u)
include h2

theorem atsWalk_of_dirty_stop (h : atsDirty x cached l1 l2.w l2.d l2.clean u = .stop f v) :
    atsWalk x iova t2gpa (fuel + 1) cached s =
      .stop { f with page := some ⟨false, resolvePbmt l1.pbmt l2.pbmt⟩ } v := by
  rw [atsWalk, h1, Res.ok_bind, if_neg (Bool.eq_false_iff.mp ha), h2, Res.finding_ok, Res.ok_bind, h, Res.finding_stop,
    Res.stop_bind]

theorem atsWalk_of_changed (h : atsDirty x cached l1 l2.w l2.d l2.clean u = .ok none v) :
    atsWalk x iova t2gpa (fuel + 1) cached s = atsWalk x iova t2gpa fuel false v := by
  rw [atsWalk, h1, Res.ok_bind, if_neg (Bool.eq_false_iff.mp ha), h2, Res.finding_ok, Res.ok_bind, h, Res.finding_ok,
    Res.ok_bind]

theorem atsWalk_of_granted (h : atsDirty x cached l1 l2.w l2.d l2.clean u = .ok (some w) v) :
    atsWalk x iova t2gpa (fuel + 1) cached s = .ok ⟨if t2gpa then l1.addr else l2.addr, min l1.span l2.span, l1.r && l2.r,
      w, l1.x && l2.x, false, l1.global, false, resolvePbmt l1.pbmt l2.pbmt, atsPrivOk x l1⟩ v := by
  rw [atsWalk, h1, Res.ok_bind, if_neg (Bool.eq_false_iff.mp ha), h2, Res.finding_ok, Res.ok_bind, h, Res.finding_ok,
    Res.ok_bind]

end Ordinary
end Ats

/-! ### The D bits (R343 item e, R216) -/

/-- An atomic update that meets no fault and no other agent (R208). -/
theorem State.updateMem_quiet {s : State} {a n : Nat} (ho : s.others = []) (hf : ∀ k, s.accessFaults k a n = false)
    (hp : s.poisoned a n = false) (g : List Byte → List Byte) (q : Qos) :
    s.updateMem a n g q = (.ok (Memory.readBytes s.mem a n), { s with
      mem := Memory.writeBytes s.mem a (g (Memory.readBytes s.mem a n))
      bus := s.bus ++ [⟨.atomic, a, n, q⟩] }) := by
  have hquiet : (s.logBus .atomic a n q).othersAct = s.logBus .atomic a n q := State.othersAct_quiet ho
  have hfaults (k : AccessKind) : (s.logBus .atomic a n q).accessFaults k a n = false := hf k
  have hload : (s.logBus .atomic a n q).load a n = .ok (Memory.readBytes s.mem a n) := by
    have hpoisoned : (s.logBus .atomic a n q).poisoned a n = false := hp
    simp only [State.load, hfaults, hpoisoned, State.logBus_mem, Bool.false_eq_true, if_false]
  simp only [State.updateMem, hquiet, hfaults, hload, Bool.false_eq_true, if_false]
  rfl

section Update
variable {s : State} {size pa : Nat} (ho : s.others = []) (hf : ∀ k, s.accessFaults k pa size = false)
  (hp : s.poisoned pa size = false) (q : Qos) {be : Bool} {old : DWord} (new : DWord) (fault corrupt : Stop)
include ho hf hp

/-- The compare-and-swap of a PTE that still is what the walk read writes the new one. -/
theorem updatePte_of_unchanged (h : BitVec.ofNat 64 (ofBytes be (Memory.readBytes s.mem pa size)) = old) :
    updatePte q be size pa old new fault corrupt s = .ok true { s with
      mem := Memory.writeBytes s.mem pa (toBytes be size new.toNat)
      bus := s.bus ++ [⟨.atomic, pa, size, q⟩] } := by
  simp only [updatePte, State.updateMem_quiet ho hf hp, h, decide_true, if_true]

/-- That of one that has changed says so. -/
theorem updatePte_of_changed (h : BitVec.ofNat 64 (ofBytes be (Memory.readBytes s.mem pa size)) ≠ old) :
    ∃ t, updatePte q be size pa old new fault corrupt s = .ok false t := by
  simp only [updatePte, State.updateMem_quiet ho hf hp, h, decide_false, if_false, Res.ok.injEq, true_and, exists_eq']

end Update

theorem atsWantsW_iff (x : WalkCtx) (l1 : Leaf) (w2 : Bool) :
    atsWantsW x l1 w2 = true ↔ x.nw = false ∧ l1.w = true ∧ w2 = true ∧ atsPrivOk x l1 = true := by
  simp only [atsWantsW, Bool.and_eq_true, Bool.not_eq_true', and_assoc]

section Dirty
variable {x : WalkCtx} {cached : Bool} {l1 : Leaf} {w2 d2 : Bool} {clean2 : Option (DWord × DWord)} {s : State}

theorem atsDirty_of_unwanted (h : ¬atsWantsW x l1 w2 = true) :
    atsDirty x cached l1 w2 d2 clean2 s = .ok (some (l1.w && w2)) s := by
  rw [Bool.not_eq_true] at h
  rw [atsDirty, h, Bool.not_false, if_pos rfl]

/-- Each stage has its D bit set or may set it. -/
def MayDirty (x : WalkCtx) (l1 : Leaf) (d2 : Bool) : Prop :=
  (l1.d = true ∨ x.sade = true) ∧ (d2 = true ∨ x.gade = true)

theorem mayDirty_iff : ((l1.d || x.sade) && (d2 || x.gade)) = true ↔ MayDirty x l1 d2 := by
  simp only [MayDirty, Bool.and_eq_true, Bool.or_eq_true]

theorem atsDirty_of_not_mayDirty (hw : atsWantsW x l1 w2 = true) (h : ¬MayDirty x l1 d2) :
    atsDirty x cached l1 w2 d2 clean2 s = .ok (some false) s := by
  rw [← mayDirty_iff] at h
  rw [atsDirty, hw, Bool.not_true, if_neg Bool.false_ne_true, if_neg h]

/-- The D bit of the first stage is set before that of the second. -/
theorem atsDirty_of_mayDirty (hw : atsWantsW x l1 w2 = true) (h : MayDirty x l1 d2) :
    atsDirty x cached l1 w2 d2 clean2 s = (s1SetD x cached l1.clean s).bind fun ok1 s1 =>
      if ok1 then (s2SetD x clean2 s1).bind fun ok2 s2 => .ok (if ok2 then some true else none) s2
      else .ok none s1 := by
  rw [← mayDirty_iff] at h
  rw [atsDirty, hw, Bool.not_true, if_neg Bool.false_ne_true, if_pos h]

/-- What the update of an entry means for W: it is granted if the entry was still what the walk read, else the walk is taken
again. -/
def grantIf (ok : Bool) (t : State) : Res (Option Bool) := .ok (if ok then some true else none) t

section Granting
variable (hw : atsWantsW x l1 w2 = true) (h : MayDirty x l1 d2)
include hw h

/-- With no bit to set in the second stage, W goes by the update of the first. -/
theorem atsDirty_of_first (h2 : clean2 = none) :
    atsDirty x cached l1 w2 d2 clean2 s = (s1SetD x cached l1.clean s).bind grantIf := by
  rw [atsDirty_of_mayDirty hw h, h2]
  congr 1
  funext ok t
  cases ok <;> rfl

/-- With none in the first stage it goes by that of the second. -/
theorem atsDirty_of_second (h1 : l1.clean = none) :
    atsDirty x cached l1 w2 d2 clean2 s = (s2SetD x clean2 s).bind grantIf := by
  rw [atsDirty_of_mayDirty hw h, h1]
  rfl

theorem atsDirty_of_clean_none (h1 : l1.clean = none) (h2 : clean2 = none) :
    atsDirty x cached l1 w2 d2 clean2 s = .ok (some true) s := by
  rw [atsDirty_of_second hw h h1, h2]
  rfl

end Granting

/-- The second stage being Bare, the guest address of a first-stage PTE is that of memory. -/
theorem s1SetD_of_bare (hg : x.gScheme = .bare) (a pte : DWord) :
    s1SetD x cached (some (a, pte)) s = updatePte x.qos x.sbe x.fScheme.pteSize a.toNat pte (pte ||| 0xC0#64)
      (x.stop x.acc.accessFault) (x.stop .ptCorruption) s := by
  simp only [s1SetD, s1Update, secondStage, if_pos hg, Res.ok_bind, Leaf.identity]
  rfl

theorem s2SetD_some (a pte : DWord) :
    s2SetD x (some (a, pte)) s = updatePte x.qos s.fctl.be x.gScheme.pteSize a.toNat pte (pte ||| 0xC0#64)
      (x.stop x.acc.accessFault) (x.stop .ptCorruption) s := rfl

end Dirty

/-- Settles O59: the pattern bit by bit; the stages, the walk of an ATS Translation Request and the D bits by the equation of
the outcome that each clause names. -/
theorem msiAddressRecognition : Obligations.MsiAddressRecognition := by
  unfold Obligations.MsiAddressRecognition
  refine ⟨isMsiAddress_iff, fun x r debug s => ⟨fun f u => walkStages_of_firstStage_stop, fun l1 s1 h1 =>
    ⟨fun ha => ⟨fun f u => walkStages_of_msi_stop h1 ha, fun spa u => walkStages_of_basic h1 ha,
      fun info u hm => ⟨fun f t h => ?mrifStop, fun t h => ?mrif⟩⟩,
    fun ha => ⟨fun f u => walkStages_of_secondStage_stop h1 ha, fun l2 u h => ?second⟩⟩⟩, ?ats⟩
  case mrifStop => rw [walkStages_of_mrif h1 ha hm, h, Res.stop_bind]
  case mrif =>
    refine ⟨t.freshValue.1, ?_⟩
    rw [walkStages_of_mrif h1 ha hm, h, Res.ok_bind]
    rfl
  case second =>
    refine ⟨_, walkStages_of_secondStage h1 ha h, ?_⟩
    split
    · exact State.fill_eq _ _
    · rfl
  case ats =>
    intro privOk
    have hpriv : privOk = atsPrivOk := funext fun x => funext fun l1 => (atsPrivOk_eq x l1).symm
    rw [hpriv]
    refine ⟨fun x iova t2gpa fuel cached s => ?walk, fun x cached l1 w2 d2 clean2 s => ?dirty⟩
    case walk =>
      intro walk again found
      refine ⟨fun f u => atsWalk_of_firstStage_stop, fun l1 s1 h1 => ⟨fun ha => ⟨fun f u => atsWalk_of_msi_stop h1 ha,
        fun m u h2 => ⟨fun f v => atsWalk_of_msi_dirty_stop h1 ha h2, fun v => atsWalk_of_msi_changed h1 ha h2,
          fun w v h => ⟨fun spa => atsWalk_of_basic h1 ha h2 h, fun info hm => ?_⟩⟩⟩,
        fun ha => ⟨fun f u => atsWalk_of_secondStage_stop h1 ha, fun l2 u h2 =>
          ⟨fun f v => atsWalk_of_dirty_stop h1 ha h2, fun v => atsWalk_of_changed h1 ha h2,
            fun w v => atsWalk_of_granted h1 ha h2⟩⟩⟩⟩
      exact ⟨_, fun ht => if_pos ht, atsWalk_of_mrif h1 ha h2 h hm⟩
    case dirty =>
      intro dirty wanted mayDirty update
      have hwanted : atsWantsW x l1 w2 = true ↔ wanted := atsWantsW_iff x l1 w2
      have hupdate {be : Bool} {n : Nat} {a pte : DWord} (hd : dirty =
          (updatePte x.qos be n a.toNat pte (pte ||| 0xC0#64) (x.stop x.acc.accessFault) (x.stop .ptCorruption) s).bind
            grantIf) : update be n a pte := by
        refine fun ho hf hp => ⟨fun hheld => ?_, fun hheld => ?_⟩
        · rw [hd, updatePte_of_unchanged ho hf hp _ _ _ _ hheld]
          rfl
        · obtain ⟨t, ht⟩ := updatePte_of_changed ho hf hp x.qos (pte ||| 0xC0#64) (x.stop x.acc.accessFault)
            (x.stop .ptCorruption) hheld
          exact ⟨t, by rw [hd, ht]; rfl⟩
      refine ⟨fun h => atsDirty_of_unwanted (mt hwanted.mp h), fun h => atsDirty_of_not_mayDirty (hwanted.mpr h),
        fun h hm => ?_⟩
      replace h := hwanted.mpr h
      refine ⟨atsDirty_of_clean_none h hm, fun a pte hg h1 h2 => hupdate ?_, fun a pte h1 h2 => hupdate ?_⟩
      · rw [← s1SetD_of_bare hg, ← h1]
        exact atsDirty_of_first h hm h2
      · rw [← s2SetD_some, ← h2]
        exact atsDirty_of_second h hm h1

end Sys2Proof.Machine

/-! PROOF. What ends an outstanding ATS.INVAL (O57). A message has its device context located, which is internal work, and is
then answered or refused; a refusal reports a record and is internal work too, so that it keeps the set. -/

namespace Sys2Proof.Machine

/-- A part of the process that gives a result has done internal work. -/
theorem Res.Works.of_ok {α : Type} {s t : State} {r : Res α} {a : α} (h : r.Works s) (hr : r = .ok a t) : Work s t := by
  rw [hr] at h
  exact h

theorem Res.Works.of_stop {α : Type} {s t : State} {r : Res α} {f : Stop} (h : r.Works s) (hr : r = .stop f t) :
    Work s t := by
  rw [hr] at h
  exact h

/-! ### Invalidation Completions (R353, R461) -/

theorem OutstandingInval.answeredBy_iff (o : OutstandingInval) (did : BitVec 24) (n : Nat) :
    o.answeredBy did n = true ↔ o.itag = n ∧ o.rid = did.extractLsb' 0 16 ∧
      (o.segment = none ∨ o.segment = some (did.extractLsb' 16 8)) := by
  cases hs : o.segment <;> simp [OutstandingInval.answeredBy, hs, and_assoc]

/-- The record of a completion that is refused. -/
def invalCompletionRecord (did : BitVec 24) (c : Cause) : FaultRecord :=
  ⟨c, 9#6, did, false, 0#20, false, invalCompletionCode, 0#64⟩

section Completion
variable {did : BitVec 24} {n : Nat} {s u : State} {dc : DC} {f : Stop}

theorem serveInvalCompletion_of_enAts (h : messageDC ⟨did, none, none, none⟩ s = .ok dc u) (he : dc.enAts = true) :
    serveInvalCompletion did n s = { u with outstanding := u.outstanding.filter fun o => !o.answeredBy did n } := by
  simp only [serveInvalCompletion, h, he, Bool.not_true, Bool.false_eq_true, if_false]

theorem serveInvalCompletion_of_not_enAts (h : messageDC ⟨did, none, none, none⟩ s = .ok dc u) (he : dc.enAts = false) :
    serveInvalCompletion did n s = u.takeFault (invalCompletionRecord did .typeDisallowed) false dc.dtf none := by
  simp only [serveInvalCompletion, h, he, Bool.not_false, if_true, invalCompletionRecord]

theorem serveInvalCompletion_of_stop (h : messageDC ⟨did, none, none, none⟩ s = .stop f u) :
    serveInvalCompletion did n s = u.takeFault (invalCompletionRecord did f.cause) false f.dtf none := by
  simp only [serveInvalCompletion, h, invalCompletionRecord]

end Completion

/-! ### The timeout (R463) -/

section Timeout
variable {n : Nat} {s : State}

/-- Such a request is outstanding, and is old enough to time out. -/
def State.MayTimeOut (s : State) (n : Nat) : Prop :=
  ∃ o ∈ s.outstanding, o.itag = n ∧ s.cfg.atsInvalTimeout ≤ o.age

theorem State.mayTimeOut_iff :
    s.outstanding.any (fun o => o.itag == n && decide (s.cfg.atsInvalTimeout ≤ o.age)) = true ↔ s.MayTimeOut n := by
  simp only [State.MayTimeOut, List.any_eq_true, Bool.and_eq_true, beq_iff_eq, decide_eq_true_eq]

theorem serveInvalTimeout_of_mayTimeOut (h : s.MayTimeOut n) : serveInvalTimeout n s =
    { s with outstanding := s.outstanding.filter (fun o => o.itag != n), timedOut := true } := by
  rw [serveInvalTimeout, if_pos (State.mayTimeOut_iff.mpr h)]

theorem serveInvalTimeout_of_not_mayTimeOut (h : ¬s.MayTimeOut n) : serveInvalTimeout n s = s := by
  rw [serveInvalTimeout, if_neg (mt State.mayTimeOut_iff.mp h)]

end Timeout

/-- Settles O57: the completion by its three outcomes, each after internal work that keeps the set, and the timeout by its
two. -/
theorem invalidationOutcomes : Obligations.InvalidationOutcomes := by
  unfold Obligations.InvalidationOutcomes
  have refusal_keeps (s u : State) (r : FaultRecord) (dtf : Bool) (h : Work s u) :
      (u.takeFault r false dtf none).outstanding = s.outstanding :=
    (Work.takeFault _ _ _ _ _).outstanding.trans h.outstanding
  refine ⟨fun did n s u dc h => ⟨fun he => ?answered, fun he => ?refused⟩, fun did n s u f h => ?noContext,
    fun s es did n hi => step_input hi, fun s es n hi => ⟨fun ho => ?timedOut, fun ho => ?tooYoung⟩⟩
  case answered =>
    have hset : u.outstanding = s.outstanding := ((messageDC_works _ s).of_ok h).outstanding
    rw [serveInvalCompletion_of_enAts h he]
    refine ⟨rfl, fun o => ?_⟩
    rw [← OutstandingInval.answeredBy_iff, List.mem_filter, hset, Bool.not_eq_true', Bool.not_eq_true]
  case refused =>
    rw [serveInvalCompletion_of_not_enAts h he]
    exact ⟨rfl, refusal_keeps s u _ _ ((messageDC_works _ s).of_ok h)⟩
  case noContext =>
    rw [serveInvalCompletion_of_stop h]
    exact ⟨rfl, refusal_keeps s u _ _ ((messageDC_works _ s).of_stop h)⟩
  case timedOut => rw [step_input hi, handle, serveInvalTimeout_of_mayTimeOut (s := { s with inbox := es }) ho]
  case tooYoung => rw [step_input hi, handle, serveInvalTimeout_of_not_mayTimeOut (s := { s with inbox := es }) ho]

end Sys2Proof.Machine

/-! PROOF. How a Page Request is answered (O56). `messageDC` either gives a device context, which lets the message to the queue
or not, or stops; each outcome has one equation of `servePageRequest`. The answer goes by the configuration, which internal
work and the queue keep. -/

namespace Sys2Proof.Machine

/-! ### The device context of a message (R361) -/

theorem messageDC_of_off {s : State} (h : s.ddtp.mode = .off) (ids : EventIds) :
    messageDC ids s = .stop (stopEarly ids .allDisallowed) s := by
  simp only [messageDC, h]

theorem messageDC_of_bare {s : State} (h : s.ddtp.mode = .bare) (ids : EventIds) :
    messageDC ids s = .stop (stopEarly ids .typeDisallowed) s := by
  simp only [messageDC, h]

/-! ### The response (R361 to R363) -/

/-- A response goes out unless none is needed, none is due to a Stop Marker, or the implementation gives none. -/
theorem State.respondPrg_eq {s t : State} (hcfg : t.cfg = s.cfg) (m : PageRequest) (prpr : Bool) (st : PrgStatus) :
    t.respondPrg m prpr st =
      if m.l = false ∨ (m.r = false ∧ m.w = false) ∨ s.cfg.priAutoResponse = false then t
      else t.emit (.prgAuto m.did m.prgi
        (if m.pasidValid = true ∧ (st = .responseFailure ∨ prpr = true) then some m.pasid else none) st) := by
  have hsilent : (!m.l || m.stopMarker || !t.cfg.priAutoResponse) = true ↔
      m.l = false ∨ (m.r = false ∧ m.w = false) ∨ s.cfg.priAutoResponse = false := by
    rw [hcfg, PageRequest.stopMarker]
    cases m.l <;> simp
  simp only [State.respondPrg, hsilent, Bool.and_eq_true, Bool.or_eq_true, beq_iff_eq]

theorem Cause.prgStatus_eq (c : Cause) :
    c.prgStatus = if c = .typeDisallowed then .invalidRequest else .responseFailure := by
  cases c <;> rfl

/-! ### The message as a whole (R361, R364) -/

/-- The identifiers of a Page Request as it arrives. -/
def PageRequest.ids (m : PageRequest) : EventIds :=
  ⟨m.did, if m.pasidValid then some m.pasid else none, none, none⟩

section Serve
variable {m : PageRequest} {s u : State} {dc : DC} {f : Stop}

theorem servePageRequest_of_stop (h : messageDC m.ids s = .stop f u) : servePageRequest m s =
    (u.takeFault (m.record f.cause) false f.dtf none).respondPrg m false f.cause.prgStatus := by
  rw [PageRequest.ids] at h
  simp only [servePageRequest, h]

theorem servePageRequest_of_refused (h : messageDC m.ids s = .ok dc u) (he : dc.enAts = false ∨ dc.enPri = false) :
    servePageRequest m s =
      (u.takeFault (m.record .typeDisallowed) false dc.dtf none).respondPrg m dc.prpr .invalidRequest := by
  have hrefused : (!dc.enPri || !dc.enAts) = true := by
    rwa [Bool.or_eq_true, Bool.not_eq_true', Bool.not_eq_true', or_comm]
  rw [PageRequest.ids] at h
  simp only [servePageRequest, h, hrefused, if_true]

/-- A message that the device may send goes to the queue, and is answered if it is not queued. -/
theorem servePageRequest_of_allowed (h : messageDC m.ids s = .ok dc u) (ha : dc.enAts = true) (hp : dc.enPri = true) :
    servePageRequest m s =
      (u.pqEnqueue m).1.elim (u.pqEnqueue m).2 fun st => (u.pqEnqueue m).2.respondPrg m dc.prpr st := by
  rw [PageRequest.ids] at h
  simp only [servePageRequest, h, ha, hp, Bool.not_true, Bool.or_self, Bool.false_eq_true, if_false]
  rcases u.pqEnqueue m with ⟨_ | st, v⟩ <;> rfl

end Serve

/-- Settles O56: the outcomes of a message one by one, each with the configuration it started from. -/
theorem pageRequestResponses : Obligations.PageRequestResponses := by
  unfold Obligations.PageRequestResponses
  intro m s ids answered record
  have respond_eq (t : State) (ht : s.SameSetting t) (prpr : Bool) (st : PrgStatus) :
      t.respondPrg m prpr st = answered t prpr st := State.respondPrg_eq ht.cfg m prpr st
  have fault_setting (u : State) (r : FaultRecord) (dtf : Bool) (hu : s.SameSetting u) :
      s.SameSetting (u.takeFault r false dtf none) := hu.trans (Work.takeFault _ _ _ _ _).sameSetting
  have ok_setting {dc : DC} {u : State} (h : messageDC ids s = .ok dc u) : s.SameSetting u :=
    ((messageDC_works ids s).of_ok h).sameSetting
  refine ⟨fun dc u h ha hp => ⟨fun hq => ?queued, fun st hq => ?status⟩, fun dc u h he => ?refused,
    fun f u h => ?noContext, fun hm => messageDC_of_off hm ids, fun hm => messageDC_of_bare hm ids,
    fun es => rfl⟩
  case queued => rw [servePageRequest_of_allowed h ha hp, hq, Option.elim_none]
  case status =>
    rw [servePageRequest_of_allowed h ha hp, hq, Option.elim_some]
    exact respond_eq _ ((ok_setting h).trans (State.pqEnqueue_did (sw := false) u m).sameSetting) _ _
  case refused =>
    rw [servePageRequest_of_refused h he]
    exact respond_eq _ (fault_setting u _ _ (ok_setting h)) _ _
  case noContext =>
    rw [servePageRequest_of_stop h, Cause.prgStatus_eq]
    exact respond_eq _ (fault_setting u _ _ ((messageDC_works ids s).of_stop h).sameSetting) _ _

end Sys2Proof.Machine

/-! PROOF. How an ATS Translation Request is answered (O42). Its answer is that of the walk, which never finds a global page for
an MSI address, or of its fault, by the three kinds of cause. The fields of a Success are those of the permissions, the CXL.io
bit and the address, each of which may take a free choice and changes nothing else. -/

namespace Sys2Proof.Machine

/-! ### What free choices and free values change (log 7) -/

/-- `t` is `s` after some free choices and free values. -/
def State.Drawn (s t : State) : Prop := ∃ l n, t = { s with choices := l, freeCtr := n }

theorem State.Drawn.refl (s : State) : s.Drawn s := ⟨s.choices, s.freeCtr, rfl⟩

theorem State.Drawn.trans {s t u : State} (h : s.Drawn t) (k : t.Drawn u) : s.Drawn u := by
  obtain ⟨_, _, rfl⟩ := h
  obtain ⟨l, n, rfl⟩ := k
  exact ⟨l, n, rfl⟩

theorem State.drawn_draw (s : State) (n : Nat) : s.Drawn (s.draw n).2 := by
  unfold State.draw
  split
  · exact ⟨_, s.freeCtr, rfl⟩
  · exact ⟨s.choices, _, rfl⟩

theorem State.drawn_freshValue (s : State) : s.Drawn s.freshValue.2 := ⟨s.choices, _, rfl⟩

/-! ### The address (R350, U18) -/

theorem extractLsb'_offset_masked (a : DWord) : (a &&& 0xFFFFFFFFFFFFF000#64).extractLsb' 0 12 = 0#12 := by
  rw [BitVec.extractLsb'_and, show (0xFFFFFFFFFFFFF000#64).extractLsb' 0 12 = 0#12 by decide, BitVec.and_zero]

/-- Masking the offset of an address leaves its page. -/
theorem extractLsb'_page_masked (a : DWord) :
    (a &&& 0xFFFFFFFFFFFFF000#64).extractLsb' 12 52 = a.extractLsb' 12 52 := by
  rw [BitVec.extractLsb'_and, show (0xFFFFFFFFFFFFF000#64).extractLsb' 12 52 = BitVec.allOnes 52 by decide,
    BitVec.and_allOnes]

/-- The address of a Success: the page of the walk if anything is granted, else a free one. -/
def atsAddress (granted : Bool) (a : DWord) (s : State) : DWord × State :=
  if granted then (a &&& 0xFFFFFFFFFFFFF000#64, s) else freePage s

section Address
variable (granted : Bool) (a : DWord) (s : State)

theorem drawn_atsAddress : s.Drawn (atsAddress granted a s).2 := by
  cases granted
  · exact s.drawn_freshValue
  · exact .refl s

theorem atsAddress_offset : (atsAddress granted a s).1.extractLsb' 0 12 = 0#12 := by
  cases granted <;> exact extractLsb'_offset_masked _

theorem atsAddress_page (h : granted = true) :
    (atsAddress granted a s).1.extractLsb' 12 52 = a.extractLsb' 12 52 := by
  rw [atsAddress, if_pos h]
  exact extractLsb'_page_masked a

end Address

/-! ### The CXL.io bit (R351, U20) -/

/-- What is known of the page asks for the CXL.io bit. -/
def CxlInfo.AsksForIo (i : CxlInfo) : Prop := i.msi = true ∨ i.t2gpa = true ∨ i.pbmt ≠ 0#2

section CxlIo
variable (q : Request) (i : CxlInfo) (s : State)

theorem drawn_cxlIoBit : s.Drawn (cxlIoBit q i s).2 := by
  unfold cxlIoBit
  split
  · exact .refl s
  · split
    · exact .refl s
    · exact s.drawn_draw 2

theorem cxlIoBit_of_not_cxl (h : q.isCxl = false) : (cxlIoBit q i s).1 = false := by
  simp only [cxlIoBit, h, Bool.not_false, if_true]

theorem cxlIoBit_of_asksForIo (h : q.isCxl = true) (hi : i.AsksForIo) : (cxlIoBit q i s).1 = true := by
  have hasks : (i.msi || i.t2gpa || i.pbmt != 0#2) = true := by
    simpa only [CxlInfo.AsksForIo, Bool.or_eq_true, bne_iff_ne, or_assoc] using hi
  simp only [cxlIoBit, h, hasks, Bool.not_true, Bool.false_eq_true, if_false, if_true]

end CxlIo

/-! ### The permissions (R348, U19) -/

section Perms
variable {x : WalkCtx} {q : Request} {d : AtsDone} {s : State}

theorem drawn_atsPerms : s.Drawn (atsPerms x q d s).2 := by
  unfold atsPerms
  split
  · exact .refl s
  · dsimp only
    split
    · exact s.drawn_draw 2
    · exact .refl s

theorem atsPerms_of_not_privOk (h : d.privOk = false) : atsPerms x q d s = ((false, false, false), s) := by
  simp only [atsPerms, h, Bool.not_false, if_true]

/-- Where the privilege test passed, R and X are those of the walk, and W is as the walk gives it unless No-Write is set. -/
theorem atsPerms_of_privOk (h : d.privOk = true) :
    ∃ w, (atsPerms x q d s).1 = (d.r, w, d.x && d.r && q.pidValid && q.exe) ∧
      (w = true → d.w = true) ∧ (x.nw = false → w = d.w) := by
  simp only [atsPerms, h, Bool.not_true, Bool.false_eq_true, if_false]
  by_cases hnw : (x.nw && d.w) = true
  · obtain ⟨hx, hd⟩ := Bool.and_eq_true_iff.mp hnw
    rw [if_pos hnw]
    exact ⟨_, rfl, fun _ => hd, fun hx' => absurd (hx.symm.trans hx') (by decide)⟩
  · rw [if_neg hnw]
    exact ⟨d.w, rfl, id, fun _ => rfl⟩

end Perms

/-! ### The Success of a completed translation (R348 to R351) -/

section Success
variable (x : WalkCtx) (q : Request) (d : AtsDone) (s : State)

/-- What is known of a completed translation for its CXL.io bit. -/
def AtsDone.cxlInfo (d : AtsDone) (dc : DC) : CxlInfo := ⟨d.msi, dc.t2gpa, d.pbmt⟩

theorem atsSuccess_perms :
    ((atsSuccess x q d s).1.r, (atsSuccess x q d s).1.w, (atsSuccess x q d s).1.x) = (atsPerms x q d s).1 := rfl

theorem atsSuccess_global : (atsSuccess x q d s).1.global = (q.pidValid && d.global) := rfl

theorem atsSuccess_cxlIo :
    (atsSuccess x q d s).1.cxlIo = (cxlIoBit q (d.cxlInfo x.dc) (atsPerms x q d s).2).1 := rfl

theorem atsSuccess_addr : (atsSuccess x q d s).1.addr =
    (atsAddress ((atsSuccess x q d s).1.r || (atsSuccess x q d s).1.w) d.addr
      (cxlIoBit q (d.cxlInfo x.dc) (atsPerms x q d s).2).2).1 := rfl

theorem atsSuccess_state : (atsSuccess x q d s).2 =
    (atsAddress ((atsSuccess x q d s).1.r || (atsSuccess x q d s).1.w) d.addr
      (cxlIoBit q (d.cxlInfo x.dc) (atsPerms x q d s).2).2).2 := rfl

theorem drawn_atsSuccess : s.Drawn (atsSuccess x q d s).2 := by
  rw [atsSuccess_state]
  exact (drawn_atsPerms.trans (drawn_cxlIoBit _ _ _)).trans (drawn_atsAddress _ _ _)

theorem atsSuccess_offset : (atsSuccess x q d s).1.addr.extractLsb' 0 12 = 0#12 := by
  rw [atsSuccess_addr]
  exact atsAddress_offset _ _ _

theorem atsSuccess_page (h : (atsSuccess x q d s).1.r = true ∨ (atsSuccess x q d s).1.w = true) :
    (atsSuccess x q d s).1.addr.extractLsb' 12 52 = d.addr.extractLsb' 12 52 := by
  rw [atsSuccess_addr]
  exact atsAddress_page _ _ _ ((Bool.or_eq_true _ _).mpr h)

end Success

/-! ### Global and MSI addresses (R350) -/

/-- Whatever result the part of the process gives has the property. -/
def Res.Gives {α : Type} (P : α → Prop) (r : Res α) : Prop := ∀ a s, r = .ok a s → P a

theorem Res.Gives.ok {α : Type} {P : α → Prop} {a : α} (h : P a) (s : State) : (Res.ok a s).Gives P := by
  rintro _ _ ⟨⟩
  exact h

theorem Res.Gives.bind {α β : Type} {P : β → Prop} {r : Res α} {k : α → State → Res β}
    (h : ∀ a s, (k a s).Gives P) : (r.bind k).Gives P := by
  cases r with
  | ok a s => exact h a s
  | stop f s => exact fun _ _ hstop => nomatch hstop

/-- The walk finds no global page for an MSI address. -/
theorem atsWalk_global (x : WalkCtx) (iova : DWord) (t2gpa : Bool) (fuel : Nat) (cached : Bool) (s : State) :
    (atsWalk x iova t2gpa fuel cached s).Gives fun d => d.msi = true → d.global = false := by
  induction fuel generalizing cached s with
  | zero => exact fun _ _ hstop => nomatch hstop
  | succ fuel ih =>
    refine Res.Gives.bind fun l1 s1 => ?_
    split
    · refine .bind fun m s2 => .bind fun w s3 => ?_
      split
      · exact ih _ _
      · split <;> exact .ok (fun _ => rfl) _
    · refine .bind fun l2 s2 => .bind fun w s3 => ?_
      split
      · exact ih _ _
      · exact .ok (fun hmsi => absurd hmsi Bool.false_ne_true) _

/-! ### Faults (R344 to R347) -/

theorem Cause.atsKind_of_unsupportedRequest {c : Cause} (h : c.code.toNat ∈ [256, 257, 258, 259, 260]) :
    c.atsKind = .unsupportedRequest := by
  cases c <;> revert h <;> decide

theorem Cause.atsKind_of_completerAbort {c : Cause}
    (h : c.code.toNat ∈ [1, 5, 7, 261, 263, 265, 267, 268, 269, 270, 272, 274]) : c.atsKind = .completerAbort := by
  cases c <;> revert h <;> decide

theorem Cause.atsKind_of_noAccess {c : Cause} (h : c.code.toNat ∈ [12, 13, 15, 20, 21, 23, 262, 266]) :
    c.atsKind = .noAccess := by
  cases c <;> revert h <;> decide

/-- What is known of a request that stopped for its CXL.io bit: of the page nothing if the walk had not found it, and no
T2GPA if it had not located a device context. -/
def Stop.cxlInfo (f : Stop) : CxlInfo :=
  ⟨(f.page.getD ⟨false, 0#2⟩).msi, (f.dc.map DC.t2gpa).getD false, (f.page.getD ⟨false, 0#2⟩).pbmt⟩

theorem Stop.asksForIo {f : Stop} (h : (∃ p, f.page = some p ∧ (p.msi = true ∨ p.pbmt ≠ 0#2)) ∨
    ∃ d, f.dc = some d ∧ d.t2gpa = true) : f.cxlInfo.AsksForIo := by
  obtain ⟨p, hp, hmsi | hpbmt⟩ | ⟨d, hd, ht⟩ := h
  · exact .inl (by rw [Stop.cxlInfo, hp]; exact hmsi)
  · exact .inr (.inr (by rw [Stop.cxlInfo, hp]; exact hpbmt))
  · exact .inr (.inl (by rw [Stop.cxlInfo, hd]; exact ht))

section Fault
variable {q : Request} {f : Stop} {s : State}

/-- The Success without access grants nothing, and has a free address and no identifiers. -/
theorem atsNoAccess_eq : atsNoAccess q f s =
    (⟨(freePage (cxlIoBit q f.cxlInfo s).2).1, 0, false, false, false, false, q.isSupervisor, false, false,
      (cxlIoBit q f.cxlInfo s).1, 0#3, none⟩, (freePage (cxlIoBit q f.cxlInfo s).2).2) := by
  obtain ⟨cause, iotval2, _ | dc, ids, page⟩ := f <;> rfl

theorem drawn_atsNoAccess : s.Drawn (atsNoAccess q f s).2 := by
  rw [atsNoAccess_eq]
  exact (drawn_cxlIoBit _ _ _).trans (State.drawn_freshValue _)

theorem atsFault_of_unsupportedRequest (h : f.cause.atsKind = .unsupportedRequest) :
    atsFault q f s = s.takeFault (q.record f) false f.dtf (some (.ats q.tag .unsupportedRequest)) := by
  rw [atsFault, h]

theorem atsFault_of_completerAbort (h : f.cause.atsKind = .completerAbort) :
    atsFault q f s = s.takeFault (q.record f) false f.dtf (some (.ats q.tag .completerAbort)) := by
  rw [atsFault, h]

/-- A fault of R346 leaves no record. -/
theorem atsFault_of_noAccess (h : f.cause.atsKind = .noAccess) :
    atsFault q f s = (atsNoAccess q f s).2.emit (.ats q.tag (.success (atsNoAccess q f s).1)) := by
  rw [atsFault, h]
  rfl

end Fault

/-! ### The request as a whole (R342) -/

section Answer
variable {q : Request} {s u v : State}

theorem serveAts_of_ok {d : AtsSuccess × EventIds} (h : atsTranslate q (s.enter q) = .ok d u) :
    serveAts q s = (u.leave d.2).emit (.ats q.tag (.success d.1)) := by
  rw [serveAts, h]

variable {x : WalkCtx} (hplan : plan q s = .ok (.walk x) u)
include hplan

theorem atsTranslate_of_walk_stop {f : Stop}
    (h : atsWalk x q.iova x.dc.t2gpa (8 + u.others.length) true u = .stop f v) : atsTranslate q s = .stop f v := by
  rw [atsTranslate, hplan, Res.ok_bind]
  dsimp only
  rw [h, Res.stop_bind]

theorem atsTranslate_of_walk_ok {d : AtsDone}
    (h : atsWalk x q.iova x.dc.t2gpa (8 + u.others.length) true u = .ok d v) :
    atsTranslate q s = .ok ((atsSuccess x q d v).1, x.ids) (atsSuccess x q d v).2 := by
  rw [atsTranslate, hplan, Res.ok_bind]
  dsimp only
  rw [h, Res.ok_bind]

end Answer

/-- Settles O42: the answer by the outcome of the walk, the fault by the kind of its cause, and the Success by its parts. -/
theorem atsResponses : Obligations.AtsResponses := by
  unfold Obligations.AtsResponses
  refine ⟨fun q s u d => serveAts_of_ok, fun q s u => ⟨fun f => atsTranslate_of_plan_stop, fun x hplan =>
    ⟨fun f v => atsTranslate_of_walk_stop hplan, fun d v => atsTranslate_of_walk_ok hplan⟩⟩,
    fun q s u f h => ?fault, fun x q t2gpa fuel cached s u d h hmsi => ?global, fun x q d s => ?success⟩
  case fault =>
    rw [serveAts_of_stop h]
    refine ⟨fun hc => atsFault_of_unsupportedRequest (Cause.atsKind_of_unsupportedRequest hc),
      fun hc => atsFault_of_completerAbort (Cause.atsKind_of_completerAbort hc), fun hc => ?_⟩
    obtain ⟨l, n, hdrawn⟩ := drawn_atsNoAccess (q := q) (f := f) (s := u.leave f.ids)
    refine ⟨(atsNoAccess q f (u.leave f.ids)).1, l, n, ?_, ?_⟩
    · rw [atsFault_of_noAccess (Cause.atsKind_of_noAccess hc), hdrawn]
    · rw [atsNoAccess_eq]
      exact ⟨rfl, rfl, rfl, rfl, rfl, rfl, rfl, rfl, rfl, cxlIoBit_of_not_cxl q f.cxlInfo _,
        fun hcxl hasks => cxlIoBit_of_asksForIo q f.cxlInfo _ hcxl (Stop.asksForIo hasks)⟩
  case global =>
    have hglobal : d.global = false := atsWalk_global x q.iova t2gpa fuel cached s d u h hmsi
    rw [atsSuccess_global, hglobal, Bool.and_false]
  case success =>
    intro c
    have hperms : (c.r, c.w, c.x) = (atsPerms x q d s).1 := atsSuccess_perms x q d s
    have hio : c.cxlIo = (cxlIoBit q (d.cxlInfo x.dc) (atsPerms x q d s).2).1 := atsSuccess_cxlIo x q d s
    rw [hio]
    refine ⟨drawn_atsSuccess x q d s, fun hp => ?denied, fun hp => ?granted, rfl, rfl, rfl, rfl, rfl, rfl, rfl,
      atsSuccess_offset x q d s, atsSuccess_page x q d s, cxlIoBit_of_not_cxl q _ _,
      cxlIoBit_of_asksForIo q (d.cxlInfo x.dc) _⟩
    case denied =>
      rw [atsPerms_of_not_privOk hp] at hperms
      simpa only [Prod.mk.injEq] using hperms
    case granted =>
      obtain ⟨w, hw, hle, hnw⟩ := atsPerms_of_privOk (x := x) (q := q) (s := s) hp
      obtain ⟨hr, rfl, hx⟩ : c.r = d.r ∧ c.w = w ∧ c.x = _ := by simpa only [Prod.mk.injEq] using hperms.trans hw
      exact ⟨hr, hle, hnw, hx⟩

end Sys2Proof.Machine

/-! PROOF. What a Page Request does at the page-request queue (O55). The queue has six cases, each with one equation of
`pqEnqueue`; the two that write are those of storing a record of any length when no other agent acts. -/

namespace Sys2Proof

/-! ### The bytes of a record (R203) -/

@[simp] theorem length_dwordsBytes (be : Bool) (ds : List DWord) : (dwordsBytes be ds).length = 8 * ds.length := by
  induction ds with
  | nil => rfl
  | cons d ds ih => simp only [dwordsBytes, List.length_append, toBytes_length, ih, List.length_cons]; omega

/-- Doubleword `k` of a record laid out as bytes is the record's doubleword `k`. -/
theorem dwordAt_dwordsBytes (be : Bool) (ds : List DWord) {k : Nat} (hk : k < ds.length) :
    dwordAt be (dwordsBytes be ds) (8 * k) = ds[k] := by
  induction ds generalizing k with
  | nil => exact absurd hk (Nat.not_lt_zero k)
  | cons d ds ih =>
    cases k with
    | zero =>
      have hd : d.toNat < 256 ^ 8 := d.isLt
      rw [dwordAt, dwordsBytes, Nat.mul_zero, List.drop_zero, List.take_left' (toBytes_length be 8 _), ofBytes_toBytes,
        Nat.mod_eq_of_lt hd, BitVec.ofNat_toNat, BitVec.setWidth_eq, List.getElem_cons_zero]
    | succ k =>
      have hdrop : (dwordsBytes be (d :: ds)).drop (8 * (k + 1)) = (dwordsBytes be ds).drop (8 * k) := by
        rw [dwordsBytes, List.drop_append, toBytes_length, List.drop_eq_nil_of_le (by rw [toBytes_length]; omega),
          List.nil_append]
        congr 1
      rw [dwordAt, hdrop]
      exact ih (Nat.lt_of_succ_lt_succ hk)

namespace Machine

/-! ### Storing a record when no other agent acts (R365, R570, R572) -/

/-- Storing some of the doublewords of a record changes memory alone, and no byte outside the record. -/
theorem State.storeSome_frame (keep : Nat → Bool) (a k : Nat) (ds : List DWord) {s : State} (ho : s.others = []) :
    ∃ n, State.storeSome keep a k ds s = { s with mem := n } ∧
      ∀ b, (b < a ∨ a + 8 * ds.length ≤ b) → Memory.read n b = s.mem.read b := by
  induction ds generalizing a k s with
  | nil => exact ⟨s.mem, rfl, fun _ _ => rfl⟩
  | cons d ds ih =>
    rw [State.storeSome, List.length_cons]
    split
    · rw [State.writeUnits_quiet ho _ _ _ (by rw [atomicUnits_sum, toBytes_length])]
      obtain ⟨n, hn, hframe⟩ :=
        ih (a + 8) (k + 1) (s := { s with mem := Memory.writeBytes s.mem a (toBytes s.fctl.be 8 d.toNat) }) ho
      refine ⟨n, hn, fun b hb => (hframe b (by omega)).trans (Memory.read_writeBytes_outside ?_)⟩
      rw [toBytes_length]
      omega
    · obtain ⟨n, hn, hframe⟩ := ih (a + 8) (k + 1) ho
      exact ⟨n, hn, fun b hb => hframe b (by omega)⟩

section Record
variable {s : State} {a : Nat} {ds : List DWord} (ho : s.others = [])
include ho

/-- A record one of whose doublewords meets an access fault: some of the others may have been stored. -/
theorem State.storeRecord_of_fault (hf : ∃ k, k < ds.length ∧ s.accessFaults .write (a + 8 * k) 8 = true) :
    ∃ n c k, s.storeRecord a ds = (false, { s with
        mem := n
        bus := s.bus ++ [⟨.write, a, 8 * ds.length, s.iommuQos⟩]
        choices := c
        freeCtr := k }) ∧
      ∀ b, (b < a ∨ a + 8 * ds.length ≤ b) → Memory.read n b = s.mem.read b := by
  have hany : (List.range ds.length).any (fun k => s.accessFaults .write (a + 8 * k) 8) = true := by
    simpa only [List.any_eq_true, List.mem_range] using hf
  obtain ⟨c, k, hdraw⟩ := (s.logBus .write a (8 * ds.length) s.iommuQos).drawn_draw 16
  obtain ⟨n, hn, hframe⟩ := State.storeSome_frame
    (fun k => ((s.logBus .write a (8 * ds.length) s.iommuQos).draw 16).1.testBit k &&
      !s.accessFaults .write (a + 8 * k) 8) a 0 ds
    (s := ((s.logBus .write a (8 * ds.length) s.iommuQos).draw 16).2) (by rw [hdraw]; exact ho)
  refine ⟨n, c, k, ?_, fun b hb => (hframe b hb).trans (by rw [hdraw]; rfl)⟩
  rw [hdraw] at hn
  simp only [State.storeRecord, hany, if_true, hdraw, hn]
  rfl

theorem State.storeRecord_of_noFault (hf : ∀ k, k < ds.length → s.accessFaults .write (a + 8 * k) 8 = false) :
    s.storeRecord a ds = (true, { s with
      mem := Memory.writeBytes s.mem a (dwordsBytes s.fctl.be ds)
      bus := s.bus ++ [⟨.write, a, 8 * ds.length, s.iommuQos⟩] }) := by
  have hany : (List.range ds.length).any (fun k => s.accessFaults .write (a + 8 * k) 8) = false := by
    simpa only [List.any_eq_false, List.mem_range, Bool.not_eq_true] using hf
  simp only [State.storeRecord, hany, Bool.false_eq_true, if_false]
  rw [State.writeUnits_quiet (s := s.logBus .write a (8 * ds.length) s.iommuQos) ho _ _ _
    (by rw [atomicUnits_sum, length_dwordsBytes])]
  rfl

end Record

/-- A stored record is read back, doubleword by doubleword. -/
theorem dwordAt_writeBytes {m : Memory} (hm : m.wf = true) (be : Bool) (a : Nat) (ds : List DWord) {k : Nat}
    (hk : k < ds.length) :
    dwordAt be (Memory.readBytes (Memory.writeBytes m a (dwordsBytes be ds)) a (8 * ds.length)) (8 * k) = ds[k] := by
  rw [← length_dwordsBytes be, Memory.readBytes_writeBytes hm, dwordAt_dwordsBytes be ds hk]

/-! ### The interrupt of the queue (R591) -/

/-- The pending bit of the page-request queue, raised if its interrupt is enabled. -/
def State.raisePipIfEnabled (s : State) : State := if s.pqcsr.ie then s.raiseIp .pq else s

theorem State.raisePipIfEnabled_pip {s : State} (h : s.pqcsr.ie = true) : s.raisePipIfEnabled.ipsr.pip = true := by
  rw [State.raisePipIfEnabled, if_pos h]
  exact (Work.raiseIp s .pq).2

/-- With an error bit set the level condition is that the interrupt is enabled. -/
theorem State.updatePip_of_error {s : State} (h : s.pqcsr.ovf = true ∨ s.pqcsr.mf = true) :
    s.updatePip = s.raisePipIfEnabled := by
  rw [State.updatePip, OutCsr.ipLevel, (Bool.or_eq_true _ _).mpr h, Bool.and_true, State.raisePipIfEnabled]

/-! ### The cases of the queue (R365 to R367) -/

section Queue
variable {s : State} {m : PageRequest}

theorem State.pqEnqueue_of_off (h : s.pqcsr.en = false ∨ s.pqcsr.on = false) :
    s.pqEnqueue m = (some .responseFailure, s) := by
  have hoff : (!s.pqcsr.en || !s.pqcsr.on) = true := by
    rwa [Bool.or_eq_true, Bool.not_eq_true', Bool.not_eq_true']
  rw [State.pqEnqueue, if_pos hoff]

section On
variable (hen : s.pqcsr.en = true) (hon : s.pqcsr.on = true)
include hen hon

theorem State.pqEnqueue_of_mf (hmf : s.pqcsr.mf = true) : s.pqEnqueue m = (some .responseFailure, s) := by
  simp only [State.pqEnqueue, hen, hon, hmf, Bool.not_true, Bool.or_self, Bool.false_eq_true, if_false, if_true]

variable (hmf : s.pqcsr.mf = false)
include hmf

theorem State.pqEnqueue_of_ovf (hovf : s.pqcsr.ovf = true) : s.pqEnqueue m = (some .success, s) := by
  simp only [State.pqEnqueue, hen, hon, hmf, hovf, Bool.not_true, Bool.or_self, Bool.false_eq_true, if_false, if_true]

variable (hovf : s.pqcsr.ovf = false)
include hovf

theorem State.pqEnqueue_of_full (hfull : s.pqb.next s.pqt = s.pqh) : s.pqEnqueue m =
    (some .success, ({ s with pqcsr := { s.pqcsr with ovf := true } } : State).raisePipIfEnabled) := by
  rw [← State.updatePip_of_error (.inl rfl)]
  simp only [State.pqEnqueue, hen, hon, hmf, hovf, hfull, Bool.not_true, Bool.or_self, Bool.false_eq_true, if_false,
    if_true]

variable (hroom : s.pqb.next s.pqt ≠ s.pqh) {t : State}
include hroom

/-- A record that could not be written sets `pqmf`. -/
theorem State.pqEnqueue_of_fault (h : s.storeRecord (s.pqb.entryAddr 4 s.pqt) m.dwords = (false, t)) : s.pqEnqueue m =
    (some .responseFailure, ({ t with pqcsr := { t.pqcsr with mf := true } } : State).raisePipIfEnabled) := by
  rw [← State.updatePip_of_error (.inr rfl)]
  simp only [State.pqEnqueue, hen, hon, hmf, hovf, hroom, h, Bool.not_true, Bool.or_self, Bool.false_eq_true, if_false]

/-- A record that was written is made visible by the tail. -/
theorem State.pqEnqueue_of_stored (h : s.storeRecord (s.pqb.entryAddr 4 s.pqt) m.dwords = (true, t)) :
    s.pqEnqueue m = (none, ({ t with pqt := t.pqb.next t.pqt } : State).raisePipIfEnabled) := by
  simp only [State.pqEnqueue, hen, hon, hmf, hovf, hroom, h, Bool.not_true, Bool.or_self, Bool.false_eq_true, if_false]
  rfl

end On
end Queue

/-- Settles O55: the cases of the queue, with what storing the record does to memory. -/
theorem pageRequestQueueing : Obligations.PageRequestQueueing := by
  unfold Obligations.PageRequestQueueing
  intro s m hmem a
  refine ⟨State.pqEnqueue_of_off, fun hen hon => ⟨State.pqEnqueue_of_mf hen hon, State.pqEnqueue_of_ovf hen hon,
    fun hmf hovf hfull => ?full, fun hmf hovf hroom ho hf => ?fault, fun hmf hovf hroom ho hf => ?stored⟩⟩
  case full =>
    rw [State.pqEnqueue_of_full hen hon hmf hovf hfull]
    exact ⟨rfl, fun hie => State.raisePipIfEnabled_pip hie⟩
  case fault =>
    obtain ⟨n, c, k, hstore, hframe⟩ := State.storeRecord_of_fault (ds := m.dwords) ho hf
    refine ⟨n, c, k, ?_⟩
    rw [State.pqEnqueue_of_fault hen hon hmf hovf hroom hstore]
    exact ⟨rfl, fun hie => State.raisePipIfEnabled_pip hie, hframe⟩
  case stored =>
    have hstore := State.storeRecord_of_noFault (ds := m.dwords) ho hf
    refine ⟨Memory.writeBytes s.mem a (dwordsBytes s.fctl.be m.dwords), ?_⟩
    rw [State.pqEnqueue_of_stored hen hon hmf hovf hroom hstore]
    refine ⟨rfl, fun hie => State.raisePipIfEnabled_pip hie, fun k hk => dwordAt_writeBytes hmem _ a m.dwords hk, fun b hb =>
      Memory.read_writeBytes_outside ?_⟩
    rwa [length_dwordsBytes]

end Machine

end Sys2Proof

/-! PROOF. The binary format of the commands (O1, O2, O3). A concatenation of fields is a word exactly if each field stands
at its place in the word. So each layout of R388 to R391 has one equivalence, whose right side is what the decoder tests and
reads; decoding a word to a command and the command having that word for its encoding are then the same. -/

namespace Sys2Proof

/-! ### The reserved bits (R388 to R391) -/

/-- A mask is met exactly if the bits it has set, those with `P`, are all clear. -/
theorem and_eq_zero_iff_of_bits {w m : CommandWord} {P : Nat → Prop} (hlt : ∀ j, P j → j < 128)
    (hm : ∀ j < 128, m.getLsbD j = true ↔ P j) : w &&& m = 0#128 ↔ ∀ j, P j → w.getLsbD j = false := by
  rw [BitVec.and_comm, BitVec.eq_of_getLsbD_eq_iff]
  simp only [BitVec.getLsbD_and, BitVec.getLsbD_zero, Bool.and_eq_false_imp]
  constructor
  · exact fun h j hj => h j (hlt j hj) ((hm j (hlt j hj)).mpr hj)
  · exact fun h j hj hmj => h j ((hm j hj).mp hmj)

variable {w : CommandWord}

theorem and_iotinvalReserved_eq_zero_iff : w &&& iotinvalReserved = 0#128 ↔
    ∀ j, (j = 11 ∨ (35 ≤ j ∧ j ≤ 43) ∨ (60 ≤ j ∧ j ≤ 72) ∨ (126 ≤ j ∧ j ≤ 127)) → w.getLsbD j = false :=
  and_eq_zero_iff_of_bits (by omega) (by decide)

theorem and_iofenceReserved_eq_zero_iff : w &&& iofenceReserved = 0#128 ↔
    ∀ j, ((14 ≤ j ∧ j ≤ 31) ∨ (126 ≤ j ∧ j ≤ 127)) → w.getLsbD j = false :=
  and_eq_zero_iff_of_bits (by omega) (by decide)

theorem and_iodirReserved_eq_zero_iff : w &&& iodirReserved = 0#128 ↔
    ∀ j, ((10 ≤ j ∧ j ≤ 11) ∨ j = 32 ∨ (34 ≤ j ∧ j ≤ 39) ∨ (64 ≤ j ∧ j ≤ 127)) → w.getLsbD j = false :=
  and_eq_zero_iff_of_bits (by omega) (by decide)

theorem and_atsReserved_eq_zero_iff : w &&& atsReserved = 0#128 ↔
    ∀ j, ((10 ≤ j ∧ j ≤ 11) ∨ (34 ≤ j ∧ j ≤ 39)) → w.getLsbD j = false :=
  and_eq_zero_iff_of_bits (by omega) (by decide)

/-! ### Fields of a word -/

section Fields
variable {k m n a : Nat}

/-- `x` is the field of `v` that begins at bit `a`. -/
def FieldAt (v : BitVec k) (a : Nat) (x : BitVec n) : Prop := v.extractLsb' a n = x

theorem fieldAt_zero_iff_eq {v x : BitVec n} : FieldAt v 0 x ↔ x = v := by
  rw [FieldAt, BitVec.extractLsb'_eq_self, eq_comm]

/-- A concatenation stands at a place if its lower part stands there and its upper part right above. -/
theorem fieldAt_append_iff {v : BitVec k} {x : BitVec m} {y : BitVec n} :
    FieldAt v a (x ++ y) ↔ FieldAt v (a + n) x ∧ FieldAt v a y := by
  rw [FieldAt, ← BitVec.extractLsb'_append_extractLsb'_eq_extractLsb' rfl]
  constructor
  · intro h
    have hx := congrArg (BitVec.extractLsb' n m) h
    have hy := congrArg (BitVec.extractLsb' 0 n) h
    rw [BitVec.extractLsb'_append_eq_left, BitVec.extractLsb'_append_eq_left] at hx
    rw [BitVec.extractLsb'_append_eq_right, BitVec.extractLsb'_append_eq_right] at hy
    exact ⟨hx, hy⟩
  · rintro ⟨rfl, rfl⟩
    rfl

theorem fieldAt_bit_iff {v : BitVec k} {b : Bool} : FieldAt v a (bit b) ↔ v.getLsbD a = b := by
  simp only [FieldAt, BitVec.eq_of_getLsbD_eq_iff, Nat.lt_one_iff, forall_eq, BitVec.getLsbD_extractLsb', decide_true,
    Bool.true_and, Nat.add_zero, Machine.getLsbD_bit_zero]

/-- A field of zeros is one whose bits are all clear. -/
theorem fieldAt_zeros_iff {v : BitVec k} : FieldAt v a 0#n ↔ ∀ j, a ≤ j → j < a + n → v.getLsbD j = false := by
  rw [FieldAt, BitVec.eq_of_getLsbD_eq_iff]
  constructor
  · intro h j hj hlt
    obtain ⟨i, rfl⟩ := Nat.exists_eq_add_of_le hj
    have hi : i < n := by omega
    simpa only [BitVec.getLsbD_extractLsb', hi, decide_true, Bool.true_and, BitVec.getLsbD_zero] using h i hi
  · intro h i hi
    rw [BitVec.getLsbD_extractLsb', h (a + i) (by omega) (by omega), Bool.and_false, BitVec.getLsbD_zero]

end Fields

/-! ### The layouts (R388 to R391) -/

theorem encodeIotinval_eq_iff {op : BitVec 10} {av pscv gv nl sBit : Bool} {pscid : BitVec 20} {gscid : BitVec 16}
    {addr : BitVec 52} : encodeIotinval op av pscv gv nl sBit pscid gscid addr = w ↔
    opField w = op ∧ w &&& iotinvalReserved = 0#128 ∧ w.getLsbD 10 = av ∧ w.getLsbD 32 = pscv ∧ w.getLsbD 33 = gv ∧
      w.getLsbD 34 = nl ∧ w.getLsbD 73 = sBit ∧ w.extractLsb' 12 20 = pscid ∧ w.extractLsb' 44 16 = gscid ∧
      w.extractLsb' 74 52 = addr := by
  rw [← fieldAt_zero_iff_eq, and_iotinvalReserved_eq_zero_iff, encodeIotinval]
  simp only [fieldAt_append_iff, fieldAt_bit_iff, fieldAt_zeros_iff]
  simp only [FieldAt, opField]
  grind

theorem encode_iofenceC_eq_iff {av wsi pr pw : Bool} {data : BitVec 32} {addr : BitVec 62} :
    encode (.iofenceC av wsi pr pw data addr) = w ↔
    opField w = 0x002#10 ∧ w &&& iofenceReserved = 0#128 ∧ w.getLsbD 10 = av ∧ w.getLsbD 11 = wsi ∧ w.getLsbD 12 = pr ∧
      w.getLsbD 13 = pw ∧ w.extractLsb' 32 32 = data ∧ w.extractLsb' 64 62 = addr := by
  rw [← fieldAt_zero_iff_eq, and_iofenceReserved_eq_zero_iff, encode]
  simp only [fieldAt_append_iff, fieldAt_bit_iff, fieldAt_zeros_iff]
  simp only [FieldAt, opField]
  grind

theorem encodeIodir_eq_iff {op : BitVec 10} {dv : Bool} {pid : BitVec 20} {did : BitVec 24} :
    encodeIodir op dv pid did = w ↔
    opField w = op ∧ w &&& iodirReserved = 0#128 ∧ w.getLsbD 33 = dv ∧ w.extractLsb' 12 20 = pid ∧
      w.extractLsb' 40 24 = did := by
  rw [← fieldAt_zero_iff_eq, and_iodirReserved_eq_zero_iff, encodeIodir]
  simp only [fieldAt_append_iff, fieldAt_bit_iff, fieldAt_zeros_iff]
  simp only [FieldAt, opField]
  grind

theorem encodeAts_eq_iff {op : BitVec 10} {pv dsv : Bool} {pid : BitVec 20} {rid : BitVec 16} {dseg : BitVec 8}
    {payload : DWord} : encodeAts op pv dsv pid rid dseg payload = w ↔
    opField w = op ∧ w &&& atsReserved = 0#128 ∧ w.getLsbD 32 = pv ∧ w.getLsbD 33 = dsv ∧ w.extractLsb' 12 20 = pid ∧
      w.extractLsb' 40 16 = rid ∧ w.extractLsb' 56 8 = dseg ∧ w.extractLsb' 64 64 = payload := by
  rw [← fieldAt_zero_iff_eq, and_atsReserved_eq_zero_iff, encodeAts]
  simp only [fieldAt_append_iff, fieldAt_bit_iff, fieldAt_zeros_iff]
  simp only [FieldAt, opField]
  grind

/-! ### The decoder -/

/-- One row of the decoder: the row's own opcode and its reserved bits, or the rows after it. -/
theorem row_eq_some_iff {α : Type} {p q : Prop} [Decidable p] [Decidable q] {x y : α} {o : Option α} :
    (if p then (if q then some x else none) else o) = some y ↔ (p ∧ q ∧ x = y) ∨ (¬ p ∧ o = some y) := by
  by_cases hp : p
  · by_cases hq : q <;> simp [hp, hq]
  · simp [hp]

theorem row_isSome_iff {α : Type} {p q : Prop} [Decidable p] [Decidable q] {x : α} {o : Option α} :
    (if p then (if q then some x else none) else o).isSome = true ↔ (p ∧ q) ∨ (¬ p ∧ o.isSome = true) := by
  simp only [Option.isSome_iff_exists, row_eq_some_iff, exists_or, exists_and_left, exists_eq', and_true]

/-- A word decodes to a command exactly if it is the command's encoding. -/
theorem decode_eq_some_iff {i : Instr} : decode w = some i ↔ encode i = w := by
  simp only [decode, row_eq_some_iff]
  cases i with
  | iotinvalVma => rw [encode, encodeIotinval_eq_iff]; grind
  | iotinvalGvma => rw [encode, encodeIotinval_eq_iff]; grind
  | iofenceC => rw [encode_iofenceC_eq_iff]; grind
  | iodirInvalDdt => rw [encode, encodeIodir_eq_iff]; grind
  | iodirInvalPdt => rw [encode, encodeIodir_eq_iff]; grind
  | atsInval => rw [encode, encodeAts_eq_iff]; grind
  | atsPrgr => rw [encode, encodeAts_eq_iff]; grind

theorem decode_encode (i : Instr) : decode (encode i) = some i :=
  decode_eq_some_iff.mpr rfl

/-- The 16 bytes of a word are read back as the word, in either byte order (R203, R380). -/
theorem commandOfBytes_commandBytes (be : Bool) (w : CommandWord) : commandOfBytes be (commandBytes be w) = w := by
  have hdword {k : Nat} (hk : k < 2) :
      dwordAt be (commandBytes be w) (8 * k) = [w.extractLsb' 0 64, w.extractLsb' 64 64][k] :=
    dwordAt_dwordsBytes be _ hk
  have hlow : dwordAt be (commandBytes be w) 0 = w.extractLsb' 0 64 := hdword Nat.zero_lt_two
  have hhigh : dwordAt be (commandBytes be w) 8 = w.extractLsb' 64 64 := hdword Nat.one_lt_two
  rw [commandOfBytes, hlow, hhigh]
  exact BitVec.extractLsb'_append_extractLsb'

/-- Settles O1: both ways by the equivalence of decoding and encoding, the bytes by reading back what was laid out. -/
theorem decodeEncodeAgree : Obligations.DecodeEncodeAgree := by
  unfold Obligations.DecodeEncodeAgree
  refine ⟨decode_encode, fun _ _ => decode_eq_some_iff.mp, fun be i => ?_⟩
  rw [decodeBytes, commandOfBytes_commandBytes, decode_encode]

/-- Settles O2: the rows of the decoder, whose opcodes exclude each other, with each mask as the bits it has set. -/
theorem reservedEncodingsRefused : Obligations.ReservedEncodingsRefused := by
  unfold Obligations.ReservedEncodingsRefused
  intro w
  simp only [← and_iotinvalReserved_eq_zero_iff, ← and_iofenceReserved_eq_zero_iff, ← and_iodirReserved_eq_zero_iff,
    ← and_atsReserved_eq_zero_iff, decode, row_isSome_iff]
  constructor
  · grind
  · rintro (⟨hop | hop, hclear⟩ | ⟨hop, hclear⟩ | ⟨hop | hop, hclear⟩ | ⟨hop | hop, hclear⟩) <;> simp [hop, hclear]

/-- Settles O3: each word is the encoding of its command. -/
theorem specWordsDecode : Obligations.SpecWordsDecode := by
  unfold Obligations.SpecWordsDecode
  simp only [decode_eq_some_iff]
  decide

end Sys2Proof

/-! PROOF. When each command is legal (O8): the checks that read the state, one by one. -/

namespace Sys2Proof.Machine

/-- R387 items 6 and 7. -/
theorem iotinvalUnsupported_eq_false_iff {c : Cfg} {nl sBit : Bool} : iotinvalUnsupported c nl sBit = false ↔
    (nl = true → c.nl = true) ∧ (sBit = true → c.rangeInval = true) := by
  simp only [iotinvalUnsupported, Bool.or_eq_false_iff, Bool.and_eq_false_imp, Bool.not_eq_false']

/-- R387 item 11: 1LVL and 2LVL bound the width of a `device_id`, and no other mode does. -/
theorem didTooWide_eq_false_iff {flat : Bool} {mode : IommuMode} {did : BitVec 24} : didTooWide flat mode did = false ↔
    (mode = .lvl1 → did.toNat < 2 ^ (if flat then 6 else 7)) ∧
    (mode = .lvl2 → did.toNat < 2 ^ (if flat then 15 else 16)) := by
  cases mode with
  | lvl1 =>
    simp only [← Bool.not_eq_true, didTooWide_lvl1_iff, Nat.not_le, forall_const, reduceCtorEq, false_imp_iff, and_true]
  | lvl2 =>
    simp only [← Bool.not_eq_true, didTooWide_lvl2_iff, Nat.not_le, forall_const, reduceCtorEq, false_imp_iff, true_and]
  | off | bare | lvl3 => simp only [didTooWide, reduceCtorEq, false_imp_iff, and_self]

/-- R387 item 12: the widest supported `PDn` bounds the width of a `process_id`. -/
theorem pidUnsupported_eq_false_iff {c : Cfg} {pid : BitVec 20} : pidUnsupported c pid = false ↔
    c.pd20 = true ∨ (c.pd17 = true ∧ pid.toNat < 2 ^ 17) ∨ (c.pd8 = true ∧ pid.toNat < 2 ^ 8) := by
  unfold pidUnsupported
  by_cases h20 : c.pd20 = true
  · simp only [h20, if_true, true_or]
  · rw [if_neg h20]
    by_cases h17 : c.pd17 = true
    · simp only [h20, h17, if_true, decide_eq_false_iff_not, Bool.false_eq_true, false_or, true_and]
      omega
    · rw [if_neg h17]
      by_cases h8 : c.pd8 = true
      · simp only [h20, h17, h8, if_true, decide_eq_false_iff_not, Nat.not_le, Bool.false_eq_true, false_or, false_and,
          true_and]
      · simp only [h20, h17, h8, if_false, reduceCtorEq, Bool.false_eq_true, false_and, or_self]

/-- Settles O8: a command is legal if its form is (R387 items 5, 9, 10) and each check of the state passes. -/
theorem commandLegality : Obligations.CommandLegality := by
  unfold Obligations.CommandLegality
  intro s
  refine ⟨?vma, ?gvma, ?fence, ?ddt, ?pdt, ?inval, ?prgr⟩ <;> intros <;>
    simp only [isIllegal, Instr.wellFormed, Bool.or_eq_false_iff, Bool.and_eq_false_imp, Bool.not_eq_false', true_and]
  case vma => exact iotinvalUnsupported_eq_false_iff
  case gvma => rw [iotinvalUnsupported_eq_false_iff, Bool.not_eq_true']
  case fence => rw [beq_eq_false_iff_ne]
  case ddt => rw [didTooWide_eq_false_iff, beq_iff_eq]
  case pdt => rw [didTooWide_eq_false_iff, pidUnsupported_eq_false_iff, and_assoc]

end Sys2Proof.Machine

/-! PROOF. Only a hart's access outside the physical address space stops the machine (O24). Every turn of the engine
answers, and of the inputs only the accesses of harts have a branch that does not. -/

namespace Sys2Proof.Machine

/-- The outcome of an access to the `n` bytes at `a` is a next state, or a stop because the access ends outside the
physical address space. -/
def AnswersUnlessOutside (s : State) (a n : Nat) (o : Host.Outcome State Fault Refusal) : Prop :=
  (∃ t, o = .next t) ∨ (o = .fault (.outsideMemory a) ∧ 2 ^ s.cfg.pas < a + n)

/-- An access goes to the register page, to memory, or outside. -/
theorem answersUnlessOutside_ite {s : State} {a n : Nat} {page : Bool} {t u : State} : AnswersUnlessOutside s a n
    (if page then .next t else if s.inMemory a n then .next u else .fault (.outsideMemory a)) := by
  by_cases hpage : page
  · exact .inl ⟨t, if_pos hpage⟩
  · rw [if_neg hpage]
    by_cases hmem : s.inMemory a n
    · exact .inl ⟨u, if_pos hmem⟩
    · refine .inr ⟨if_neg hmem, ?_⟩
      simpa only [State.inMemory, decide_eq_true_eq, Nat.not_le] using hmem

theorem hartRead_answers (a n : Nat) (s : State) : AnswersUnlessOutside s a n (hartRead a n s) :=
  answersUnlessOutside_ite

theorem hartWrite_answers (a n : Nat) (v : DWord) (lowFirst : Bool) (s : State) :
    AnswersUnlessOutside s a n (hartWrite a n v lowFirst s) :=
  answersUnlessOutside_ite

theorem hartReadFirst_answers (hart a : Nat) (lowFirst : Bool) (s : State) :
    AnswersUnlessOutside s a 8 (hartReadFirst hart a lowFirst s) := by
  unfold hartReadFirst
  dsimp only
  split
  · exact .inl ⟨_, rfl⟩
  · exact hartRead_answers a 8 s

/-- Settles O24: a turn of the engine answers, a hart's access by where it goes, and any other input by its meaning. -/
theorem onlyForeignAccessesStop : Obligations.OnlyForeignAccessesStop := by
  unfold Obligations.OnlyForeignAccessesStop
  intro s
  have turn (u : State) : ∃ t, cqStep u = .next t := (cqStep_did (sw := true) u).imp fun _ => And.left
  cases hi : s.inbox with
  | nil =>
    have hstep : step s = cqStep s := by unfold step; rw [hi]
    exact .inl (hstep ▸ turn s)
  | cons e es =>
    rw [step_input hi]
    cases e with
    | hartRead x n =>
      exact (hartRead_answers x.toNat n { s with inbox := es }).imp_right fun ⟨hstop, hlt⟩ =>
        ⟨_, _, _, n, rfl, hstop, hlt, .inl ⟨x, rfl, rfl⟩⟩
    | hartReadFirst hart x l =>
      exact (hartReadFirst_answers hart x.toNat l { s with inbox := es }).imp_right fun ⟨hstop, hlt⟩ =>
        ⟨_, _, _, 8, rfl, hstop, hlt, .inr (.inl ⟨hart, x, l, rfl, rfl, rfl⟩)⟩
    | hartWrite x n v l =>
      exact (hartWrite_answers x.toNat n v l { s with inbox := es }).imp_right fun ⟨hstop, hlt⟩ =>
        ⟨_, _, _, n, rfl, hstop, hlt, .inr (.inr ⟨x, v, l, rfl, rfl⟩)⟩
    | cqTurn => exact .inl (turn _)
    | _ => exact .inl ⟨_, rfl⟩

end Sys2Proof.Machine

/-! PROOF. What a command leaves alone (O16): each one ends in a state that agrees with the one before it but for what reports,
interrupts and completion may touch, with `cqh` at the command or at the one after it. -/

namespace Sys2Proof.Machine

/-- What a command cannot touch while it runs: everything but what reports and interrupts touch, the status bits of `cqcsr`, the
caches, and the commands that are not complete. -/
def State.control (s : State) : State :=
  { s.unreported with
    cqcsr := { s.cqcsr with cqmf := false, cmdTo := false, cmdIll := false, fenceWIp := false }
    ioatc := []
    outstanding := []
    timedOut := false
    fetched := none
    itag := 0 }

theorem State.control_of_unreported {s t : State} (h : t.unreported = s.unreported) : t.control = s.control :=
  (congrArg State.control h :)

/-! ### The parts of a command -/

/-- A change of the status bits alone, with the interrupt it raises. -/
theorem State.control_updateCip (s : State) : s.updateCip.control = s.control :=
  State.control_of_unreported s.unreported_updateCip

theorem State.control_commandIllegal (s : State) : s.commandIllegal.control = s.control :=
  State.control_updateCip { s with cqcsr := { s.cqcsr with cmdIll := true } }

theorem State.control_commandMemoryFault (s : State) : s.commandMemoryFault.control = s.control :=
  State.control_updateCip { s with cqcsr := { s.cqcsr with cqmf := true } }

theorem State.control_commandTimeout (s : State) : s.commandTimeout.control = s.control :=
  State.control_updateCip { s with cqcsr := { s.cqcsr with cmdTo := true }, timedOut := false }

theorem State.control_signalFence (s : State) : s.signalFence.control = s.control :=
  State.control_updateCip { s with cqcsr := { s.cqcsr with fenceWIp := true } }

theorem State.control_writeMem (s : State) (a : Nat) (bs : List Byte) (q : Qos) :
    (s.writeMem a bs q).2.control = s.control :=
  (congrArg State.control (s.unaccessed_writeMem a bs q) :)

theorem State.control_commitRead (s : State) (p : PendingRead) : (s.commitRead p).control = s.control := by
  unfold State.commitRead
  split <;> rfl

theorem State.control_commitWrite (s : State) (p : PendingWrite) : (s.commitWrite p).control = s.control := by
  unfold State.commitWrite
  split <;> rfl

theorem State.control_commitReads (s : State) : s.commitReads.control = s.control :=
  List.foldlRecOn (motive := fun u : State => u.control = s.control) _ _ rfl
    fun u hu p _ => (u.control_commitRead p).trans hu

theorem State.control_commitWrites (s : State) : s.commitWrites.control = s.control :=
  List.foldlRecOn (motive := fun u : State => u.control = s.control) _ _ rfl
    fun u hu p _ => (u.control_commitWrite p).trans hu

theorem fenceCommit_control (pr pw : Bool) (s : State) : (fenceCommit pr pw s).control = s.control := by
  cases pr <;> cases pw
  · rfl
  · exact s.control_commitWrites
  · exact s.control_commitReads
  · exact (State.control_commitWrites _).trans s.control_commitReads

/-! ### The end of a command (R484 to R486) -/

/-- The outcome of a command: a next state, with `cqh` still at the command or, once it is complete, at the one after it. -/
def CommandEnds (s : State) (o : Host.Outcome State Fault Refusal) : Prop :=
  ∃ u, u.control = s.control ∧ (o = .next u ∨ o = .next u.advanceCq)

section Ends
variable {s u : State}

theorem CommandEnds.stop (h : u.control = s.control) : CommandEnds s (.next u) := ⟨u, h, .inl rfl⟩

theorem CommandEnds.complete (h : u.control = s.control) : CommandEnds s (.next u.advanceCq) := ⟨u, h, .inr rfl⟩

/-- Every command is checked before it does anything (R386). -/
theorem CommandEnds.checked {i : Instr} {o : Host.Outcome State Fault Refusal} (h : CommandEnds s o) :
    CommandEnds s (if isIllegal i s then .next s.commandIllegal else o) := by
  split
  · exact .stop s.control_commandIllegal
  · exact h

theorem fenceDone_ends (wsi : Bool) (h : u.control = s.control) : CommandEnds s (fenceDone wsi u) := by
  cases wsi with
  | false => exact .complete h
  | true => exact .complete (u.control_signalFence.trans h)

theorem fenceStore_ends (wsi : Bool) (data : BitVec 32) (addr : BitVec 62) (h : u.control = s.control) :
    CommandEnds s (fenceStore wsi data addr u) := by
  have hw := u.control_writeMem (addr.toNat * 4) (toBytes u.fctl.be 4 data.toNat) u.iommuQos
  unfold fenceStore
  split
  next t ht =>
    rw [ht] at hw
    exact .stop (t.control_commandMemoryFault.trans (hw.trans h))
  next t ht =>
    rw [ht] at hw
    exact fenceDone_ends wsi (hw.trans h)

end Ends

theorem execIofenceC_ends (av wsi pr pw : Bool) (data : BitVec 32) (addr : BitVec 62) (s : State) :
    CommandEnds s (execIofenceC av wsi pr pw data addr s) := by
  refine .checked ?_
  split
  · exact .stop rfl
  split
  · exact .stop s.control_commandTimeout
  split
  · exact fenceStore_ends wsi data addr (fenceCommit_control pr pw s)
  · exact fenceDone_ends wsi (fenceCommit_control pr pw s)

/-- Every command ends so. -/
theorem exec_ends (i : Instr) (s : State) : CommandEnds s (exec i s) := by
  cases i with
  | iofenceC av wsi pr pw data addr => exact execIofenceC_ends av wsi pr pw data addr s
  | iotinvalVma | iotinvalGvma | iodirInvalDdt | iodirInvalPdt | atsInval | atsPrgr => exact .checked (.complete rfl)

/-- Settles O16: a command ends in a state with the same `control`, and completion moves `cqh` alone. -/
theorem commandsKeepControlRegisters : Obligations.CommandsKeepControlRegisters := by
  unfold Obligations.CommandsKeepControlRegisters
  intro i s
  obtain ⟨u, hu, hend⟩ := exec_ends i s
  have hcqb : u.cqb = s.cqb := (congrArg State.cqb hu :)
  have hcqh : u.cqh = s.cqh := (congrArg State.cqh hu :)
  obtain ⟨t, ht, hmoved, hhead⟩ : ∃ t, exec i s = .next t ∧ { t with cqh := u.cqh } = u ∧
      (t.cqh = s.cqh ∨ t.cqh = s.cqb.next s.cqh) := by
    rcases hend with hstop | hdone
    · exact ⟨u, hstop, rfl, .inl hcqh⟩
    · exact ⟨u.advanceCq, hdone, rfl, .inr (by rw [State.advanceCq_cqh, hcqb, hcqh])⟩
  have kept {α : Type} (f : State → α) : f ({ t with cqh := u.cqh } : State).control = f s.control :=
    congrArg f ((congrArg State.control hmoved).trans hu)
  exact ⟨t, ht, kept State.cfg, kept State.plat, kept State.fctl, kept State.ddtp, kept State.cqb, kept State.cqt,
    kept State.fqb, kept State.fqh, kept State.pqb, kept State.pqh, kept State.pqt, kept State.pqcsr,
    kept (·.cqcsr.cqen), kept (·.cqcsr.cie), kept (·.cqcsr.cqon), kept (·.fqcsr.en), kept (·.fqcsr.ie), kept (·.fqcsr.on),
    kept State.iocountinh, kept State.iohpmcycles, kept State.iohpmctr, kept State.iohpmevt, kept State.trReqIova,
    kept State.trReqCtl, kept State.trResponse, kept State.qosid, kept State.icvec, kept State.msiCfg, kept State.inbox,
    hhead⟩

end Sys2Proof.Machine

/-! PROOF. What IOTINVAL removes (O9, O10). The model compares first and last pages, the statements speak of the pages between
them: the lowest 0 bit of ADDR ties the two. -/

namespace Sys2Proof

theorem trailingOnes_le (n v : Nat) : trailingOnes n v ≤ n := by
  induction n generalizing v with
  | zero => exact Nat.le_refl 0
  | succ n ih =>
    unfold trailingOnes
    split
    · exact Nat.succ_le_succ (ih (v / 2))
    · exact Nat.zero_le (n + 1)

theorem testBit_of_lt_trailingOnes {n v j : Nat} (h : j < trailingOnes n v) : v.testBit j = true := by
  induction n generalizing v j with
  | zero => exact absurd h (Nat.not_lt_zero j)
  | succ n ih =>
    unfold trailingOnes at h
    split at h
    next hodd =>
      cases j with
      | zero => rw [Nat.testBit_zero, decide_eq_true hodd]
      | succ j => rw [Nat.testBit_succ, ih (Nat.lt_of_succ_lt_succ h)]
    next => exact absurd h (Nat.not_lt_zero j)

/-- The bit above the 1 bits counted is 0, unless the count ended with the fuel. -/
theorem testBit_trailingOnes {n v : Nat} (h : trailingOnes n v < n) : v.testBit (trailingOnes n v) = false := by
  induction n generalizing v with
  | zero => exact absurd h (Nat.not_lt_zero _)
  | succ n ih =>
    unfold trailingOnes at h ⊢
    split at h
    next hodd => rw [if_pos hodd, Nat.testBit_succ, ih (Nat.lt_of_succ_lt_succ h)]
    next heven => rw [if_neg heven, Nat.testBit_zero, decide_eq_false heven]

namespace Machine

/-! ### The range of ADDR (R396, R417) -/

/-- Bit `x` is the lowest 0 bit of ADDR. -/
def LowestZero (addr : BitVec 52) (x : Nat) : Prop :=
  x < 52 ∧ addr.getLsbD x = false ∧ ∀ j, j < x → addr.getLsbD j = true

theorem LowestZero.le {addr : BitVec 52} {x y : Nat} (hx : LowestZero addr x) (hy : LowestZero addr y) : x ≤ y := by
  obtain ⟨-, -, hones⟩ := hx
  obtain ⟨-, hzero, -⟩ := hy
  exact Nat.le_of_not_lt fun hlt => Bool.false_ne_true (hzero.symm.trans (hones y hlt))

/-- The model finds the lowest 0 bit of every ADDR that has one. -/
theorem lowestZero_trailingOnes {addr : BitVec 52} (h : addr ≠ BitVec.allOnes 52) :
    LowestZero addr (trailingOnes 52 addr.toNat) := by
  have hlt : trailingOnes 52 addr.toNat < 52 := by
    refine Nat.lt_of_le_of_ne (trailingOnes_le 52 addr.toNat) fun hall => h (BitVec.eq_of_getLsbD_eq fun j hj => ?_)
    rw [BitVec.getLsbD_allOnes, decide_eq_true hj]
    exact testBit_of_lt_trailingOnes (hall ▸ hj)
  exact ⟨hlt, testBit_trailingOnes hlt, fun _ => testBit_of_lt_trailingOnes⟩

section Range
variable {addr page : BitVec 52} {nl sBit leaf : Bool} {span x : Nat}

/-- With S the range is the pages that agree with ADDR above its lowest 0 bit. -/
theorem LowestZero.pageInRange_iff (h : LowestZero addr x) (p : Nat) :
    pageInRange addr true p ↔ p / 2 ^ (x + 1) = addr.toNat / 2 ^ (x + 1) := by
  constructor
  · rintro ⟨y, hlt, hzero, hones, hp⟩
    have hy : LowestZero addr y := ⟨hlt, hzero, hones⟩
    rwa [Nat.le_antisymm (h.le hy) (hy.le h)]
  · obtain ⟨hlt, hzero, hones⟩ := h
    exact fun hp => ⟨x, hlt, hzero, hones, hp⟩

/-- The range is the pages from the first to the last that the model computes, but for an ADDR of all ones with S. -/
theorem pageRange_spec (h : ¬(sBit = true ∧ addr = BitVec.allOnes 52)) : ∃ lo hi, pageRange addr sBit = some (lo, hi) ∧
    lo ≤ hi ∧ hi < 2 ^ 52 ∧ ∀ p, pageInRange addr sBit p ↔ lo ≤ p ∧ p ≤ hi := by
  cases sBit with
  | false => exact ⟨addr.toNat, addr.toNat, rfl, Nat.le_refl _, addr.isLt, fun p => Nat.le_antisymm_iff.trans and_comm⟩
  | true =>
    obtain ⟨x, hx, hrange⟩ : ∃ x, LowestZero addr x ∧ pageRange addr true = some (addr.toNat / 2 ^ (x + 1) * 2 ^ (x + 1),
        addr.toNat / 2 ^ (x + 1) * 2 ^ (x + 1) + 2 ^ (x + 1) - 1) :=
      have hlowest := lowestZero_trailingOnes fun hones => h ⟨rfl, hones⟩
      ⟨_, hlowest, if_neg (Nat.ne_of_lt hlowest.1)⟩
    have hpos : 0 < 2 ^ (x + 1) := Nat.two_pow_pos _
    refine ⟨_, _, hrange, by omega, ?_, fun p => ?_⟩
    · obtain ⟨k, hk⟩ : 2 ^ (x + 1) ∣ 2 ^ 52 := Nat.pow_dvd_pow 2 hx.1
      have hblock : addr.toNat / 2 ^ (x + 1) < k := Nat.div_lt_of_lt_mul (hk ▸ addr.isLt)
      have hend := Nat.mul_le_mul_right (2 ^ (x + 1)) (Nat.succ_le_of_lt hblock)
      rw [Nat.succ_mul] at hend
      rw [hk, Nat.mul_comm _ k]
      omega
    · rw [hx.pageInRange_iff, Nat.div_eq_iff hpos]

/-- The blocks between those of the first and the last page are the blocks of the pages between the two. -/
theorem spanMeets_iff {lo hi : Nat} (hle : lo ≤ hi) : spanMeets page span (lo, hi) = true ↔
    ∃ p, (lo ≤ p ∧ p ≤ hi) ∧ p / 2 ^ span = page.toNat / 2 ^ span := by
  have hpos : 0 < 2 ^ span := Nat.two_pow_pos _
  simp only [spanMeets, Bool.and_eq_true, decide_eq_true_eq]
  constructor
  · rintro ⟨hlo, hhi⟩
    refine ⟨max lo (page.toNat / 2 ^ span * 2 ^ span),
      ⟨Nat.le_max_left _ _, Nat.max_le.mpr ⟨hle, (Nat.le_div_iff_mul_le hpos).mp hhi⟩⟩, ?_⟩
    rcases Nat.le_total lo (page.toNat / 2 ^ span * 2 ^ span) with hbelow | habove
    · rw [Nat.max_eq_right hbelow, Nat.mul_div_cancel _ hpos]
    · rw [Nat.max_eq_left habove]
      exact Nat.le_antisymm hlo ((Nat.le_div_iff_mul_le hpos).mpr habove)
  · rintro ⟨p, ⟨hlo, hhi⟩, hp⟩
    exact ⟨hp ▸ Nat.div_le_div_right hlo, hp ▸ Nat.div_le_div_right hhi⟩

/-- The address test is that of R415 and R417, with leaves alone unless NL. -/
theorem addrHits_iff (h : ¬(sBit = true ∧ addr = BitVec.allOnes 52)) :
    addrHits addr nl sBit page span leaf = true ↔ rangeCovers page span addr sBit ∧ (leaf = true ∨ nl = true) := by
  obtain ⟨lo, hi, hrange, hle, hlt, hin⟩ := pageRange_spec h
  have hcovers : rangeCovers page span addr sBit ↔ spanMeets page span (lo, hi) = true := by
    simp only [rangeCovers, spanMeets_iff hle, hin]
    exact exists_congr fun p => and_iff_right_of_imp fun ⟨⟨_, hp⟩, _⟩ => Nat.lt_of_le_of_lt hp hlt
  simp only [addrHits, hrange, Bool.and_eq_true, Bool.or_eq_true, hcovers]

/-- With AV = 0 there is no address test. -/
theorem addrTest_iff {av : Bool} (h : ¬(av = true ∧ sBit = true ∧ addr = BitVec.allOnes 52)) :
    (!av || addrHits addr nl sBit page span leaf) = true ↔
      av = false ∨ (rangeCovers page span addr sBit ∧ (leaf = true ∨ nl = true)) := by
  cases av with
  | false => simp only [Bool.not_false, Bool.true_or, true_or]
  | true =>
    simp only [Bool.not_true, Bool.false_or, Bool.true_eq_false, false_or, addrHits_iff fun hones => h ⟨rfl, hones⟩]

end Range

/-! ### Identifiers (log 33) -/

section Tags
variable {c : Cfg} {nl sBit : Bool} {pscid : BitVec 20} {gscid : BitVec 16} {addr : BitVec 52}

theorem eq_gscidTag_iff {g : BitVec 16} : g = gscidTag c gscid ↔ g.toNat = gscid.toNat % 2 ^ c.gscidWidth := by
  rw [← BitVec.toNat_inj, gscidTag, BitVec.toNat_ofNat, Nat.mod_eq_of_lt (Nat.lt_of_le_of_lt (Nat.mod_le _ _) gscid.isLt)]

theorem eq_pscidTag_iff {p : BitVec 20} : p = pscidTag c pscid ↔ p.toNat = pscid.toNat % 2 ^ c.pscidWidth := by
  rw [← BitVec.toNat_inj, pscidTag, BitVec.toNat_ofNat, Nat.mod_eq_of_lt (Nat.lt_of_le_of_lt (Nat.mod_le _ _) pscid.isLt)]

/-! ### The entries that go (R411, R412) -/

theorem vmaTagHits_iff {pscv gv gpath : Bool} {space : Option (BitVec 16)} {p : BitVec 20} :
    vmaTagHits pscv gv (pscidTag c pscid) (gscidTag c gscid) space p gpath = true ↔
      ((gv = false ∧ space = none) ∨
        (gv = true ∧ ∃ h, space = some h ∧ h.toNat = gscid.toNat % 2 ^ c.gscidWidth)) ∧
      (pscv = false ∨ (p.toNat = pscid.toNat % 2 ^ c.pscidWidth ∧ gpath = false)) := by
  cases space with
  | none | some =>
    simp only [vmaTagHits, Bool.and_eq_true, Bool.or_eq_true, Bool.not_eq_true', beq_iff_eq, eq_gscidTag_iff,
      eq_pscidTag_iff, reduceCtorEq, Option.some.injEq, exists_eq_left', and_true, and_false, false_and, exists_false,
      or_false, false_or]

theorem mem_invalidate_iff {s : State} {hits : IoatcEntry → Bool} {e : IoatcEntry} :
    e ∈ (s.invalidate hits).ioatc ↔ e ∈ s.ioatc ∧ ¬hits e = true := by
  rw [State.invalidate_ioatc, List.mem_filter, Bool.not_eq_true', Bool.not_eq_true]

/-- The entries that IOTINVAL.VMA removes, as it sees them. -/
theorem vmaHits_iff {av pscv gv : Bool} (hones : ¬(av = true ∧ sBit = true ∧ addr = BitVec.allOnes 52)) (e : IoatcEntry) :
    vmaHits c av pscv gv nl sBit pscid gscid addr e = true ↔ ∃ g, e.firstStage = some g ∧
      ((gv = false ∧ g.space = none) ∨
        (gv = true ∧ ∃ h, g.space = some h ∧ h.toNat = gscid.toNat % 2 ^ c.gscidWidth)) ∧
      (pscv = false ∨ (g.pscid.toNat = pscid.toNat % 2 ^ c.pscidWidth ∧ g.global = false)) ∧
      (av = false ∨ (rangeCovers g.page g.span addr sBit ∧ (g.leaf = true ∨ nl = true))) := by
  cases e with
  | s1 | s12 =>
    simp only [vmaHits, IoatcEntry.firstStage, Option.some.injEq, exists_eq_left', Bool.and_eq_true, vmaTagHits_iff,
      addrTest_iff hones, and_assoc]
  | ddtNL | dc | pdtNL | pc | s2 | msi =>
    simp only [vmaHits, IoatcEntry.firstStage, reduceCtorEq, false_and, exists_false, Bool.false_eq_true]

theorem gvmaTest_iff {av gv : Bool} (hones : ¬(gv = true ∧ av = true ∧ sBit = true ∧ addr = BitVec.allOnes 52))
    {g : BitVec 16} {page : BitVec 52} {span : Nat} {leaf : Bool} :
    (!gv || (g == gscidTag c gscid && (!av || addrHits addr nl sBit page span leaf))) = true ↔
      gv = false ∨ (g.toNat = gscid.toNat % 2 ^ c.gscidWidth ∧
        (av = false ∨ (rangeCovers page span addr sBit ∧ (leaf = true ∨ nl = true)))) := by
  cases gv with
  | false => simp only [Bool.not_false, Bool.true_or, true_or]
  | true =>
    simp only [Bool.not_true, Bool.false_or, Bool.true_eq_false, false_or, Bool.and_eq_true, beq_iff_eq, eq_gscidTag_iff,
      addrTest_iff fun h => hones ⟨rfl, h⟩]

/-- The entries that IOTINVAL.GVMA removes, and the combined ones with them. -/
theorem gvmaHits_iff {av gv : Bool} (hones : ¬(gv = true ∧ av = true ∧ sBit = true ∧ addr = BitVec.allOnes 52))
    (e : IoatcEntry) : gvmaHits c av gv nl sBit gscid addr e = true ↔
      (∃ g, e.secondStage = some g ∧ (gv = false ∨ (g.gscid.toNat = gscid.toNat % 2 ^ c.gscidWidth ∧
        (av = false ∨ (rangeCovers g.page g.span addr sBit ∧ (g.leaf = true ∨ nl = true)))))) ∨
      ∃ x, e = .s12 x ∧ (gv = false ∨ (x.gscid.toNat = gscid.toNat % 2 ^ c.gscidWidth ∧
        (av = false ∨ rangeCovers 0#52 x.guestSpan addr sBit))) := by
  cases e with
  | s2 | msi =>
    simp only [gvmaHits, gvmaTest_iff hones, IoatcEntry.secondStage, Option.some.injEq, exists_eq_left', reduceCtorEq,
      false_and, exists_false, or_false]
  | s12 =>
    simp only [gvmaHits, gvmaTest_iff hones, IoatcEntry.secondStage, reduceCtorEq, false_and, exists_false, false_or,
      IoatcEntry.s12.injEq, exists_eq_left', true_or, and_true]
  | ddtNL | dc | pdtNL | pc | s1 =>
    simp only [gvmaHits, IoatcEntry.secondStage, reduceCtorEq, false_and, exists_false, Bool.false_eq_true, or_self]

/-! ### The commands as a whole (R410) -/

section Commands
variable {s : State} {av pscv gv : Bool}

theorem exec_iotinvalVma_of_legal (h : isIllegal (.iotinvalVma av pscv gv nl sBit pscid gscid addr) s = false) :
    exec (.iotinvalVma av pscv gv nl sBit pscid gscid addr) s =
      .next (s.invalidate (vmaHits s.cfg av pscv gv nl sBit pscid gscid addr)).advanceCq :=
  if_neg (ne_true_of_eq_false h)

theorem exec_iotinvalGvma_of_legal (h : isIllegal (.iotinvalGvma av pscv gv nl sBit pscid gscid addr) s = false) :
    exec (.iotinvalGvma av pscv gv nl sBit pscid gscid addr) s =
      .next (s.invalidate (gvmaHits s.cfg av gv nl sBit gscid addr)).advanceCq :=
  if_neg (ne_true_of_eq_false h)

end Commands
end Tags

/-- Settles O9: a legal command keeps the entries that its predicate does not select, which is that of Table 11. -/
theorem iotinvalVmaRemovesItsEntries : Obligations.IotinvalVmaRemovesItsEntries := by
  unfold Obligations.IotinvalVmaRemovesItsEntries
  intro av pscv gv nl sBit pscid gscid addr s hnl hs hones
  obtain ⟨hlegal, -⟩ := commandLegality s
  refine ⟨_, exec_iotinvalVma_of_legal ((hlegal ..).mpr ⟨hnl, hs⟩), rfl, fun e => ?_⟩
  rw [State.advanceCq_ioatc, mem_invalidate_iff, vmaHits_iff hones]

/-- Settles O10: a legal command keeps the entries that its predicate does not select, which is that of Table 12 with the
combined entries of its scope. -/
theorem iotinvalGvmaRemovesItsEntries : Obligations.IotinvalGvmaRemovesItsEntries := by
  unfold Obligations.IotinvalGvmaRemovesItsEntries
  intro av gv nl sBit pscid gscid addr s hnl hs hones
  obtain ⟨-, hlegal, -⟩ := commandLegality s
  refine ⟨_, exec_iotinvalGvma_of_legal ((hlegal (pscid := pscid) ..).mpr ⟨rfl, hnl, hs⟩), rfl, fun e => ?_⟩
  rw [State.advanceCq_ioatc, mem_invalidate_iff, gvmaHits_iff hones, not_or]

end Machine
end Sys2Proof

/-! PROOF. IOFENCE.C (O13, O14, O15). The commitment of device accesses has a closed form; after it the fence stores, stops or
completes, each with one equation of its own. -/

namespace Sys2Proof.Machine

/-! ### What PR and PW commit (R433, R566) -/

/-- What a device's read gets when it is performed now: the bytes of memory, or the abort data of the IO bridge (R566). -/
def State.readAnswer (s : State) (p : PendingRead) : Output :=
  if s.accessFaults .read p.addr p.len then .abort p.tag s.plat.abortData
  else .deviceRead p.tag (Memory.readBytes s.mem p.addr p.len)

/-- Memory `m` after a device's write, which the IO bridge discards if it faults (R566). -/
def State.memAfterWrite (s : State) (m : Memory) (p : PendingWrite) : Memory :=
  if s.accessFaults .write p.addr p.data.length then m else Memory.writeBytes m p.addr p.data

theorem State.commitRead_eq (s : State) (p : PendingRead) : s.commitRead p = s.emit (s.readAnswer p) :=
  (apply_ite s.emit _ _ _).symm

theorem State.commitWrite_eq (s : State) (p : PendingWrite) :
    s.commitWrite p = { s with mem := s.memAfterWrite s.mem p } := by
  unfold State.commitWrite State.store State.memAfterWrite
  by_cases hf : s.accessFaults .write p.addr p.data.length = true
  · rw [if_pos hf, if_pos hf]
  · rw [if_neg hf, if_neg hf]

/-- No answer depends on an earlier one. -/
theorem State.foldl_commitRead (ps : List PendingRead) (s : State) :
    ps.foldl State.commitRead s = { s with out := s.out ++ ps.map s.readAnswer } := by
  induction ps generalizing s with
  | nil => rw [List.map_nil, List.append_nil, List.foldl_nil]
  | cons p ps ih =>
    have hsame : (s.emit (s.readAnswer p)).readAnswer = s.readAnswer := rfl
    rw [List.foldl_cons, State.commitRead_eq, ih, hsame, State.emit_out, List.append_assoc]
    rfl

/-- Each write falls on what the older ones left. -/
theorem State.foldl_commitWrite (ps : List PendingWrite) (s : State) :
    ps.foldl State.commitWrite s = { s with mem := ps.foldl s.memAfterWrite s.mem } := by
  induction ps generalizing s with
  | nil => rfl
  | cons p ps ih =>
    rw [List.foldl_cons, State.commitWrite_eq, ih]
    rfl

section Commit
variable (pr pw : Bool) (s : State)

/-- All that PR and PW do. -/
theorem fenceCommit_eq : fenceCommit pr pw s = { s with
    uncommittedReads := if pr then [] else s.uncommittedReads
    uncommittedWrites := if pw then [] else s.uncommittedWrites
    out := if pr then s.out ++ s.uncommittedReads.map s.readAnswer else s.out
    mem := if pw then s.uncommittedWrites.foldl s.memAfterWrite s.mem else s.mem } := by
  have hreads : s.commitReads = _ := State.foldl_commitRead s.uncommittedReads { s with uncommittedReads := [] }
  have hwrites (u : State) : u.commitWrites = _ :=
    State.foldl_commitWrite u.uncommittedWrites { u with uncommittedWrites := [] }
  cases pr <;> cases pw
  · rfl
  · exact hwrites s
  · exact hreads
  · exact (hwrites s.commitReads).trans (by rw [hreads]; rfl)

/-- What PR and PW leave alone. -/
theorem fenceCommit_frame : fenceCommit pr pw s = { s with
    uncommittedReads := if pr then [] else s.uncommittedReads
    uncommittedWrites := if pw then [] else s.uncommittedWrites
    out := (fenceCommit pr pw s).out
    mem := (fenceCommit pr pw s).mem } := by
  rw [fenceCommit_eq]

@[simp] theorem fenceCommit_fctl : (fenceCommit pr pw s).fctl = s.fctl :=
  (congrArg State.fctl (fenceCommit_control pr pw s) :)

@[simp] theorem fenceCommit_others : (fenceCommit pr pw s).others = s.others := by
  rw [fenceCommit_frame]

@[simp] theorem fenceCommit_accessFaults : (fenceCommit pr pw s).accessFaults = s.accessFaults :=
  (congrArg State.accessFaults (fenceCommit_control pr pw s) :)

/-- The accesses still to be committed are those that PR and PW leave. -/
theorem fenceCommit_keepsAccesses_iff {t : State} : (fenceCommit pr pw s).keepsAccesses t ↔
    ({ s with
      uncommittedReads := if pr then [] else s.uncommittedReads
      uncommittedWrites := if pw then [] else s.uncommittedWrites } : State).keepsAccesses t := by
  rw [fenceCommit_frame]
  rfl

theorem fenceCommit_wf (h : s.mem.wf = true) : (fenceCommit pr pw s).mem.wf = true := by
  have hreads : s.commitReads.mem.wf = true := (Work.commitReads s).mem h
  cases pr <;> cases pw
  · exact h
  · exact (Work.commitWrites s).mem h
  · exact hreads
  · exact (Work.commitWrites s.commitReads).mem hreads

end Commit

/-! ### Completion (R430, R434) -/

/-- The state after a fence that completes: `fence_w_ip` with WSI, the wire's pending bit if it is enabled, `cqh` advanced. -/
def State.fenceCompleted (wsi : Bool) (s : State) : State :=
  { s with
    cqh := s.cqb.next s.cqh
    cqcsr := { s.cqcsr with fenceWIp := s.cqcsr.fenceWIp || wsi }
    ipsr := { s.ipsr with cip := s.ipsr.cip || (wsi && s.cqcsr.cie) } }

section Fence
variable {s : State}

/-- With wired interrupts a pending bit is set and nothing is sent (R592). -/
theorem State.raiseIp_cq_of_wired (h : s.fctl.wsi = true) :
    s.raiseIp .cq = { s with ipsr := { s.ipsr with cip := true } } := by
  unfold State.raiseIp
  by_cases hcip : s.ipsr.cip = true
  · rw [if_pos (show s.ipsr.get .cq = true from hcip), ← hcip]
  · rw [if_neg (show ¬s.ipsr.get .cq = true from hcip), if_pos h]
    rfl

/-- The completion is signalled on the wire if `cie` is 1 (R434, R591). -/
theorem State.signalFence_of_wired (h : s.fctl.wsi = true) : s.signalFence = { s with
    cqcsr := { s.cqcsr with fenceWIp := true }
    ipsr := { s.ipsr with cip := s.ipsr.cip || s.cqcsr.cie } } := by
  have hlevel : ({ s with cqcsr := { s.cqcsr with fenceWIp := true } } : State).cipLevel = s.cqcsr.cie := by
    simp only [State.cipLevel, State.fenceIp, h, Bool.and_self, Bool.true_or, Bool.and_true]
  rw [State.signalFence, State.updateCip, hlevel]
  cases s.cqcsr.cie with
  | false => simp only [Bool.false_eq_true, if_false, Bool.or_false]
  | true =>
    rw [if_pos rfl, Bool.or_true]
    exact State.raiseIp_cq_of_wired h

theorem fenceDone_of_wired {wsi : Bool} (h : wsi = true → s.fctl.wsi = true) :
    fenceDone wsi s = .next (s.fenceCompleted wsi) := by
  cases wsi with
  | false =>
    simp only [fenceDone, State.fenceCompleted, Bool.false_eq_true, if_false, Bool.or_false, Bool.false_and]
    rfl
  | true =>
    rw [fenceDone, if_pos rfl, State.signalFence_of_wired (h rfl), State.fenceCompleted, Bool.or_true, Bool.true_and]
    rfl

/-! ### The store (R432, R436) -/

variable {wsi : Bool} {data : BitVec 32} {addr : BitVec 62}

theorem fenceStore_of_fault (hf : s.accessFaults .write (addr.toNat * 4) 4 = true) : fenceStore wsi data addr s =
    .next (s.logBus .write (addr.toNat * 4) 4 s.iommuQos).commandMemoryFault := by
  have hw : s.writeMem (addr.toNat * 4) (toBytes s.fctl.be 4 data.toNat) s.iommuQos =
      (false, s.logBus .write (addr.toNat * 4) 4 s.iommuQos) := by
    rw [State.writeMem, toBytes_length]
    exact if_pos hf
  rw [fenceStore, hw]

theorem fenceStore_of_noFault (hf : s.accessFaults .write (addr.toNat * 4) 4 = false) (ho : s.others = []) :
    fenceStore wsi data addr s = fenceDone wsi { s.logBus .write (addr.toNat * 4) 4 s.iommuQos with
      mem := Memory.writeBytes s.mem (addr.toNat * 4) (toBytes s.fctl.be 4 data.toNat) } := by
  rw [fenceStore, State.writeMem_quiet ho, toBytes_length, if_neg (ne_true_of_eq_false hf)]

/-! ### The command as a whole (R430) -/

variable {av pr pw : Bool}

theorem exec_iofenceC_of_legal (h : wsi = true → s.cfg.igs ≠ .msi ∧ s.fctl.wsi = true) :
    exec (.iofenceC av wsi pr pw data addr) s =
      if !s.outstanding.isEmpty then .next { s with fetched := some (.iofenceC av wsi pr pw data addr) }
      else if s.timedOut then .next s.commandTimeout
      else if av then fenceStore wsi data addr (fenceCommit pr pw s)
      else fenceDone wsi (fenceCommit pr pw s) := by
  obtain ⟨-, -, hlegal, -⟩ := commandLegality s
  exact if_neg (ne_true_of_eq_false ((hlegal ..).mpr h))

theorem exec_iofenceC_of_outstanding (h : wsi = true → s.cfg.igs ≠ .msi ∧ s.fctl.wsi = true) (ho : s.outstanding ≠ []) :
    exec (.iofenceC av wsi pr pw data addr) s = .next { s with fetched := some (.iofenceC av wsi pr pw data addr) } := by
  rw [exec_iofenceC_of_legal h, if_pos (by rwa [Bool.not_eq_true', List.isEmpty_eq_false_iff])]

theorem exec_iofenceC_of_timedOut (h : wsi = true → s.cfg.igs ≠ .msi ∧ s.fctl.wsi = true) (ho : s.outstanding = [])
    (ht : s.timedOut = true) : exec (.iofenceC av wsi pr pw data addr) s = .next s.commandTimeout := by
  rw [exec_iofenceC_of_legal h, ho, ht]
  rfl

/-- Nothing before the fence is outstanding, and nothing has timed out. -/
theorem exec_iofenceC_of_ready (h : wsi = true → s.cfg.igs ≠ .msi ∧ s.fctl.wsi = true) (ho : s.outstanding = [])
    (ht : s.timedOut = false) : exec (.iofenceC av wsi pr pw data addr) s =
      if av then fenceStore wsi data addr (fenceCommit pr pw s) else fenceDone wsi (fenceCommit pr pw s) := by
  rw [exec_iofenceC_of_legal h, ho, ht]
  rfl

/-- What PR and PW commit has been committed when the store faults. -/
theorem exec_iofenceC_of_fault (h : wsi = true → s.cfg.igs ≠ .msi ∧ s.fctl.wsi = true) (ho : s.outstanding = [])
    (ht : s.timedOut = false) (hf : s.accessFaults .write (addr.toNat * 4) 4 = true) :
    exec (.iofenceC true wsi pr pw data addr) s = .next ({ fenceCommit pr pw s with
      cqcsr := { s.cqcsr with cqmf := true }
      bus := s.bus ++ [⟨.write, addr.toNat * 4, 4, s.iommuQos⟩] } : State).updateCip := by
  rw [exec_iofenceC_of_ready h ho ht, if_pos rfl, fenceStore_of_fault (by rwa [fenceCommit_accessFaults]), fenceCommit_eq]
  rfl

end Fence

/-! ### An error of the command queue (R591) -/

section Error
variable {s : State}

/-- With an error bit set the level condition is that the interrupt is enabled. -/
theorem State.updateCip_of_error (h : s.cqError = true) :
    s.updateCip = if s.cqcsr.cie then s.raiseIp .cq else s := by
  have hlevel : s.cipLevel = s.cqcsr.cie := by
    grind [State.cqError, State.cipLevel]
  rw [State.updateCip, hlevel]

theorem State.updateCip_cip_of_error (h : s.cqError = true) (hie : s.cqcsr.cie = true) :
    s.updateCip.ipsr.cip = true := by
  rw [State.updateCip_of_error h, if_pos hie]
  exact (Work.raiseIp s .cq).2

end Error

/-- Settles O14: with neither AV nor WSI the commitment and the completion are all that happens. -/
theorem iofenceCommitsDeviceAccesses : Obligations.IofenceCommitsDeviceAccesses := by
  unfold Obligations.IofenceCommitsDeviceAccesses
  intro pr pw data addr s ho ht
  have hnoWire {p : Prop} : false = true → p := nofun
  rw [exec_iofenceC_of_ready hnoWire ho ht, if_neg Bool.false_ne_true, fenceDone_of_wired hnoWire, fenceCommit_eq]
  simp only [State.fenceCompleted, Bool.or_false, Bool.false_and]
  rfl

/-- Settles O13: the commitment, then the store with AV, then the completion. -/
theorem iofenceCompletes : Obligations.IofenceCompletes := by
  unfold Obligations.IofenceCompletes
  intro av wsi pr pw data addr s hlegal ho ht hstore hwf
  have hwire : wsi = true → (fenceCommit pr pw s).fctl.wsi = true := fun h => by
    rw [fenceCommit_fctl]
    exact (hlegal h).2
  rw [exec_iofenceC_of_ready hlegal ho ht]
  cases av with
  | false =>
    refine ⟨_, fenceDone_of_wired hwire, ?_, nofun, fun _ _ => rfl⟩
    exact congrArg (State.fenceCompleted wsi) (fenceCommit_frame pr pw s)
  | true =>
    obtain ⟨hfault, hothers⟩ := hstore rfl
    rw [if_pos rfl, fenceStore_of_noFault (by rwa [fenceCommit_accessFaults]) (by rwa [fenceCommit_others]),
      fenceCommit_fctl]
    refine ⟨_, fenceDone_of_wired hwire, ?_, fun _ => ?_, fun a ha => ?_⟩
    · exact congrArg (fun u : State => State.fenceCompleted wsi { u.logBus .write (addr.toNat * 4) 4 u.iommuQos with
        mem := Memory.writeBytes u.mem (addr.toNat * 4) (toBytes s.fctl.be 4 data.toNat) }) (fenceCommit_frame pr pw s)
    · have hread := Memory.readBytes_writeBytes (fenceCommit_wf pr pw s hwf) (addr.toNat * 4)
        (toBytes s.fctl.be 4 data.toNat)
      rwa [toBytes_length] at hread
    · refine Memory.read_writeBytes_outside ?_
      rw [toBytes_length]
      exact ha.resolve_left nofun

/-- Settles O15: the fence that waits changes `fetched` alone; either error ends in `updateCip` of the state with its bit set. -/
theorem iofenceWaitsOrStops : Obligations.IofenceWaitsOrStops := by
  unfold Obligations.IofenceWaitsOrStops
  intro av wsi pr pw data addr s hlegal
  refine ⟨exec_iofenceC_of_outstanding hlegal, fun ho ht => ?timeout, fun ho ht hfault => ?fault⟩
  case timeout =>
    intro n
    have herror : n.cqError = true := by simp only [n, State.cqError, Bool.or_true, Bool.true_or]
    have hwork := (Work.updateCip n).1
    exact ⟨n.updateCip, exec_iofenceC_of_timedOut hlegal ho ht, State.updateCip_of_error herror, hwork.cqcsr,
      State.updateCip_cip_of_error herror, n.unreported_updateCip, hwork.accesses, n.updateCip_of_quiet⟩
  case fault =>
    intro n
    have herror : n.cqError = true := by simp only [n, State.cqError, Bool.true_or]
    have hwork := (Work.updateCip n).1
    have hframe := fenceCommit_frame pr pw s
    have hunreported : n.unreported = ({ s with cqcsr := { s.cqcsr with cqmf := true } } : State).unreported :=
      (congrArg (fun u : State => ({ u with cqcsr := { s.cqcsr with cqmf := true } } : State).unreported) hframe :)
    refine ⟨n.updateCip, exec_iofenceC_of_fault hlegal ho ht hfault, State.updateCip_of_error herror, hwork.cqcsr,
      State.updateCip_cip_of_error herror, n.unreported_updateCip.trans hunreported,
      (fenceCommit_keepsAccesses_iff pr pw s).mp hwork.accesses, fun hquiet => ?_⟩
    have hipsr : n.ipsr = s.ipsr := (congrArg State.ipsr hframe :)
    have hnquiet : n.cipQuiet = true := by rwa [State.cipQuiet, hipsr]
    rw [n.updateCip_of_quiet hnquiet]
    exact ⟨rfl, hipsr, (congrArg State.fqcsr hframe :), (congrArg State.fqt hframe :),
      (congrArg State.msiPending hframe :), rfl⟩

end Sys2Proof.Machine

/-! PROOF. What IODIR removes (O11): the entries of the directories that its predicate selects, said by their tags. -/

namespace Sys2Proof.Machine

section Directory
variable {did : BitVec 24} {pid : BitVec 20} {s : State}

/-! ### The entries that go (R446, R447) -/

/-- The entries that IODIR.INVAL_DDT removes, by the directory structure each holds. -/
theorem ddtHits_iff {dv : Bool} (e : IoatcEntry) : ddtHits dv did e = true ↔
    (∃ l k d x, e = .ddtNL l k d x ∧ dv = false) ∨
    (∃ d c, e = .dc d c ∧ (dv = false ∨ d = did)) ∨
    (∃ d l k p x, e = .pdtNL d l k p x ∧ (dv = false ∨ d = did)) ∨
    (∃ d p c, e = .pc d p c ∧ (dv = false ∨ d = did)) := by
  cases e with
  | ddtNL | dc | pdtNL | pc => simp [ddtHits, and_assoc]
  | s1 | s2 | msi | s12 => simp [ddtHits]

/-- The process contexts that IODIR.INVAL_PDT removes. -/
theorem pdtHits_iff (e : IoatcEntry) : pdtHits did pid e = true ↔ ∃ c, e = .pc did pid c := by
  cases e with
  | pc d p c => simp [pdtHits]
  | ddtNL | dc | pdtNL | s1 | s2 | msi | s12 => simp [pdtHits]

/-! ### The commands as a whole (R446, R447) -/

theorem exec_iodirInvalDdt_of_legal {dv : Bool} (h : isIllegal (.iodirInvalDdt dv pid did) s = false) :
    exec (.iodirInvalDdt dv pid did) s = .next (s.invalidate (ddtHits dv did)).advanceCq :=
  if_neg (ne_true_of_eq_false h)

theorem exec_iodirInvalPdt_of_legal {dv : Bool} (h : isIllegal (.iodirInvalPdt dv pid did) s = false) :
    exec (.iodirInvalPdt dv pid did) s = .next (s.invalidate (pdtHits did pid)).advanceCq :=
  if_neg (ne_true_of_eq_false h)

end Directory

/-- Settles O11: a legal command keeps the entries that its predicate does not select, which is that of R446 or of R447. -/
theorem iodirRemovesItsEntries : Obligations.IodirRemovesItsEntries := by
  unfold Obligations.IodirRemovesItsEntries
  constructor
  · intro dv did s hlegal
    refine ⟨_, exec_iodirInvalDdt_of_legal hlegal, rfl, fun e => ?_⟩
    rw [State.advanceCq_ioatc, mem_invalidate_iff, ddtHits_iff]
  · intro pid did s hlegal
    refine ⟨_, exec_iodirInvalPdt_of_legal hlegal, rfl, fun e => ?_⟩
    rw [State.advanceCq_ioatc, mem_invalidate_iff, pdtHits_iff]

end Sys2Proof.Machine

/-! PROOF. What the ATS commands send (O12): with ATS present both are legal, and each is its message and a completion. -/

namespace Sys2Proof.Machine

section Ats
variable {pv dsv : Bool} {pid : BitVec 20} {rid : BitVec 16} {dseg : BitVec 8} {payload : DWord} {s : State}

theorem exec_atsInval_of_legal (h : isIllegal (.atsInval pv dsv pid rid dseg payload) s = false) :
    exec (.atsInval pv dsv pid rid dseg payload) s = .next ({ s with
      out := s.out ++ [.invalidationRequest s.itag (atsMessage pv dsv pid rid dseg payload)]
      outstanding := s.outstanding ++ [⟨s.cqh, if dsv then some dseg else none, rid, s.itag, 0⟩]
      itag := s.itag + 1 } : State).advanceCq :=
  if_neg (ne_true_of_eq_false h)

theorem exec_atsPrgr_of_legal (h : isIllegal (.atsPrgr pv dsv pid rid dseg payload) s = false) :
    exec (.atsPrgr pv dsv pid rid dseg payload) s =
      .next (s.emit (.prgResponse (atsMessage pv dsv pid rid dseg payload))).advanceCq :=
  if_neg (ne_true_of_eq_false h)

end Ats

/-- Settles O12: with ATS present neither command is illegal (R387), and `advanceCq` moves `cqh` alone. -/
theorem atsCommandsSendTheirMessages : Obligations.AtsCommandsSendTheirMessages := by
  unfold Obligations.AtsCommandsSendTheirMessages
  intro pv dsv pid rid dseg payload s hats
  obtain ⟨-, -, -, -, -, hinval, hprgr⟩ := commandLegality s
  constructor
  · exact exec_atsInval_of_legal ((hinval ..).mpr hats)
  · exact exec_atsPrgr_of_legal ((hprgr ..).mpr hats)

end Sys2Proof.Machine

/-! PROOF. Every queue stays on exactly while it is enabled, and no busy bit is seen as 1 (O19). The conjunction `settled`
becomes an invariant with a named field for each bit; internal work touches none of them, and each other change that a step
can make (`Did`) writes the on bit together with the enable bit. -/

namespace Sys2Proof.Machine

/-- The on and busy bits of each queue, and the busy bits of `ddtp` and of the debug interface. -/
structure State.Settled (s : State) : Prop where
  cqOn : s.cqcsr.cqon = s.cqcsr.cqen
  cqBusy : s.cqcsr.busy = false
  fqOn : s.fqcsr.on = s.fqcsr.en
  fqBusy : s.fqcsr.busy = false
  pqOn : s.pqcsr.on = s.pqcsr.en
  pqBusy : s.pqcsr.busy = false
  ddtpBusy : s.ddtp.busy = false
  goBusy : s.trReqCtl.goBusy = false

/-- The invariant is the predicate of the statement. -/
theorem State.settled_iff (s : State) : s.settled = true ↔ s.Settled := by
  simp only [State.settled, Bool.and_eq_true, beq_iff_eq, Bool.not_eq_true']
  constructor
  · rintro ⟨⟨⟨⟨⟨⟨⟨cqOn, cqBusy⟩, fqOn⟩, fqBusy⟩, pqOn⟩, pqBusy⟩, ddtpBusy⟩, goBusy⟩
    exact { cqOn, cqBusy, fqOn, fqBusy, pqOn, pqBusy, ddtpBusy, goBusy }
  · rintro ⟨cqOn, cqBusy, fqOn, fqBusy, pqOn, pqBusy, ddtpBusy, goBusy⟩
    exact ⟨⟨⟨⟨⟨⟨⟨cqOn, cqBusy⟩, fqOn⟩, fqBusy⟩, pqOn⟩, pqBusy⟩, ddtpBusy⟩, goBusy⟩

/-- Internal work touches none of the bits. -/
theorem State.Settled.work {s t : State} (hs : s.Settled) (h : Work s t) : t.Settled where
  cqOn := by rw [h.cqcsr]; exact hs.cqOn
  cqBusy := by rw [h.cqcsr]; exact hs.cqBusy
  fqOn := by rw [h.fqon, h.fqen]; exact hs.fqOn
  fqBusy := by rw [h.fqbusy]; exact hs.fqBusy
  pqOn := by rw [h.pqcsr]; exact hs.pqOn
  pqBusy := by rw [h.pqcsr]; exact hs.pqBusy
  ddtpBusy := by rw [h.ddtp]; exact hs.ddtpBusy
  goBusy := by rw [h.trReqCtl]; exact hs.goBusy

theorem State.Settled.updateCip {s : State} (hs : s.Settled) : s.updateCip.Settled := hs.work (Work.updateCip s).1

theorem State.Settled.updateFip {s : State} (hs : s.Settled) : s.updateFip.Settled := hs.work (Work.updateFip s)

theorem State.Settled.updatePip {s : State} (hs : s.Settled) : s.updatePip.Settled := hs.work (Work.updatePip s).1

/-- A write of `fqcsr` or `pqcsr` that enables nothing leaves a settled queue settled. -/
theorem OutCsr.on_eq_en_of_set {q q' : OutCsr} (h : q.on = q.en) (hon : q'.on = (q.on && q'.en))
    (hen : q'.en = true → q.en = true) : q'.on = q'.en := by
  rw [hon, h]
  cases he : q'.en with
  | false => exact Bool.and_false _
  | true => rw [hen he, Bool.and_self]

/-- Each change that a step can make keeps the queues settled. -/
theorem Did.keeps_settled {sw : Bool} {s t : State} (h : Did sw s t) (hs : s.Settled) : t.Settled := by
  induction h with
  | work h => exact hs.work h
  | trans _ _ ihs iht => exact iht (ihs hs)
  | drop | advance | commands | accesses | pqNext | halfReads | cycles | fctl | cqb | fqb | pqb | cqt | fqh | pqh
  | countinh | counter | selector | qosid | icvec | msiEntry | msiPending => exact { hs with }
  | status s q hen _ hon hb =>
    exact State.Settled.updateCip { hs with cqOn := hon.trans (hs.cqOn.trans hen.symm), cqBusy := hb.trans hs.cqBusy }
  | cqOn => exact State.Settled.updateCip { hs with cqOn := rfl, cqBusy := rfl }
  | cqSet s q hon hb =>
    refine State.Settled.updateCip { hs with cqOn := ?_, cqBusy := hb.trans hs.cqBusy }
    obtain ⟨hoff, hdis⟩ | ⟨hon, hen⟩ := hon
    · exact hoff.trans hdis.symm
    · exact hon.trans (hs.cqOn.trans hen.symm)
  | fqOn => exact State.Settled.updateFip { hs with fqOn := rfl, fqBusy := rfl }
  | fqSet s q hon hen hb =>
    exact State.Settled.updateFip { hs with fqOn := OutCsr.on_eq_en_of_set hs.fqOn hon hen, fqBusy := hb.trans hs.fqBusy }
  | pqOn => exact State.Settled.updatePip { hs with pqOn := rfl, pqBusy := rfl }
  | pqStatus => exact State.Settled.updatePip { hs with }
  | pqSet s q hon hen hb =>
    exact State.Settled.updatePip { hs with pqOn := OutCsr.on_eq_en_of_set hs.pqOn hon hen, pqBusy := hb.trans hs.pqBusy }
  | ipsr s r =>
    have hr : ({ s with ipsr := r } : State).Settled := { hs with }
    exact hr.updateCip.updateFip.updatePip
  | ddtp => exact { hs with ddtpBusy := rfl }
  | debug s v c r h => exact { hs with goBusy := h.elim id fun e => e ▸ hs.goBusy }

/-- After a reset every queue is disabled and off. -/
theorem resetEvent_settled (s : State) : (resetEvent s).Settled := ⟨rfl, rfl, rfl, rfl, rfl, rfl, rfl, rfl⟩

theorem step_keeps_settled {s t : State} (hs : s.Settled) (h : step s = .next t) : t.Settled := by
  have hs' : ({ s with inbox := s.inbox.tail } : State).Settled := { hs with }
  obtain hd | rfl := step_did h
  · exact hd.keeps_settled hs'
  · exact resetEvent_settled _

/-- Settles O19: the invariant `Settled`, kept by each change of `Did` and by a reset. -/
theorem stepKeepsQueuesSettled : Obligations.StepKeepsQueuesSettled := by
  unfold Obligations.StepKeepsQueuesSettled
  intro s t hs hstep
  exact t.settled_iff.mpr (step_keeps_settled (s.settled_iff.mp hs) hstep)

end Sys2Proof.Machine

/-! PROOF. A level condition of an interrupt has its pending bit after every step (O20). Each change that a step can make
(`Did`) leaves the conditions alone, clears some, or ends in the update of the pending bit whose condition it touched. -/

namespace Sys2Proof.Machine

/-- Each level condition that holds has its pending bit set. -/
structure State.InterruptsPend (s : State) : Prop where
  cip : s.cipLevel = true → s.ipsr.cip = true
  fip : s.fqcsr.ipLevel = true → s.ipsr.fip = true
  pip : s.pqcsr.ipLevel = true → s.ipsr.pip = true

/-- The invariant is the predicate of the statement. -/
theorem State.interruptsPend_iff (s : State) : s.interruptsPend = true ↔ s.InterruptsPend := by
  simp only [State.interruptsPend, Bool.and_eq_true, or_eq_true_iff_imp, Bool.not_eq_false']
  exact ⟨fun ⟨⟨cip, fip⟩, pip⟩ => { cip, fip, pip }, fun ⟨cip, fip, pip⟩ => ⟨⟨cip, fip⟩, pip⟩⟩

/-- The level condition of `cip` reads `cqcsr` and `fctl.WSI` alone. -/
theorem State.cipLevel_congr {s t : State} (hq : t.cqcsr = s.cqcsr) (hf : t.fctl = s.fctl) : t.cipLevel = s.cipLevel := by
  simp only [State.cipLevel, State.fenceIp, hq, hf]

/-- Internal work keeps what `cip` owes. -/
theorem Work.keeps_cip {s t : State} (h : Work s t) (hs : s.cipLevel = true → s.ipsr.cip = true)
    (ht : t.cipLevel = true) : t.ipsr.cip = true :=
  h.ipsr .cq (hs (State.cipLevel_congr h.cqcsr h.fctl ▸ ht))

/-- Internal work keeps what `pip` owes. -/
theorem Work.keeps_pip {s t : State} (h : Work s t) (hs : s.pqcsr.ipLevel = true → s.ipsr.pip = true)
    (ht : t.pqcsr.ipLevel = true) : t.ipsr.pip = true :=
  h.ipsr .pq (hs (h.pqcsr ▸ ht))

theorem State.InterruptsPend.work {s t : State} (hs : s.InterruptsPend) (h : Work s t) : t.InterruptsPend where
  cip := h.keeps_cip hs.cip
  fip := h.fip hs.fip
  pip := h.keeps_pip hs.pip

/-- The update of `cip` needs only what the other two owe. -/
theorem State.InterruptsPend.updateCip {s : State} (hf : s.fqcsr.ipLevel = true → s.ipsr.fip = true)
    (hp : s.pqcsr.ipLevel = true → s.ipsr.pip = true) : s.updateCip.InterruptsPend where
  cip := (Work.updateCip s).2
  fip := (Work.updateCip s).1.fip hf
  pip := (Work.updateCip s).1.keeps_pip hp

theorem State.InterruptsPend.updateFip {s : State} (hc : s.cipLevel = true → s.ipsr.cip = true)
    (hp : s.pqcsr.ipLevel = true → s.ipsr.pip = true) : s.updateFip.InterruptsPend where
  cip := (Work.updateFip s).keeps_cip hc
  fip := s.updateFip_pends
  pip := (Work.updateFip s).keeps_pip hp

theorem State.InterruptsPend.updatePip {s : State} (hc : s.cipLevel = true → s.ipsr.cip = true)
    (hf : s.fqcsr.ipLevel = true → s.ipsr.fip = true) : s.updatePip.InterruptsPend where
  cip := (Work.updatePip s).1.keeps_cip hc
  fip := (Work.updatePip s).1.fip hf
  pip := (Work.updatePip s).2

/-- Each update gives its own bit and keeps those given before. -/
theorem State.interruptsPend_updates (s : State) : s.updateCip.updateFip.updatePip.InterruptsPend :=
  .updatePip ((Work.updateFip _).keeps_cip (Work.updateCip s).2) s.updateCip.updateFip_pends

/-- A write of `fctl` drops `fence_w_ip` with WSI, and so makes no level condition hold. -/
theorem State.cipLevel_of_fctl {s : State} {f : Fctl}
    (h : ({ s with fctl := f, cqcsr := { s.cqcsr with fenceWIp := s.fenceIp && f.wsi } } : State).cipLevel = true) :
    s.cipLevel = true := by
  simp only [State.cipLevel, State.fenceIp, Bool.and_eq_true, Bool.or_eq_true] at h ⊢
  tauto

/-- Each change that a step can make keeps what the pending bits owe. -/
theorem Did.keeps_interruptsPend {sw : Bool} {s t : State} (h : Did sw s t) (hs : s.InterruptsPend) :
    t.InterruptsPend := by
  induction h with
  | work h => exact hs.work h
  | trans _ _ ihs iht => exact iht (ihs hs)
  | drop | advance | commands | accesses | pqNext | halfReads | cycles | ddtp | cqb | fqb | pqb | cqt | fqh | pqh
  | countinh | counter | selector | debug | qosid | icvec | msiEntry | msiPending => exact { hs with }
  | status | cqOn | cqSet => exact .updateCip hs.fip hs.pip
  | fqOn | fqSet => exact .updateFip hs.cip hs.pip
  | pqOn | pqSet | pqStatus => exact .updatePip hs.cip hs.fip
  | ipsr => exact State.interruptsPend_updates _
  | fctl s f => exact { hs with cip := fun h => hs.cip (State.cipLevel_of_fctl h) }

/-- After a reset no interrupt is enabled. -/
theorem resetEvent_interruptsPend (s : State) : (resetEvent s).InterruptsPend := ⟨nofun, nofun, nofun⟩

theorem step_keeps_interruptsPend {s t : State} (hs : s.InterruptsPend) (h : step s = .next t) : t.InterruptsPend := by
  have hs' : ({ s with inbox := s.inbox.tail } : State).InterruptsPend := { hs with }
  obtain hd | rfl := step_did h
  · exact hd.keeps_interruptsPend hs'
  · exact resetEvent_interruptsPend _

/-- Settles O20: the invariant `InterruptsPend`, kept by each change of `Did` and by a reset. -/
theorem stepKeepsInterruptsPending : Obligations.StepKeepsInterruptsPending := by
  unfold Obligations.StepKeepsInterruptsPending
  intro s t hs hstep
  exact t.interruptsPend_iff.mpr (step_keeps_interruptsPend (s.interruptsPend_iff.mp hs) hstep)

end Sys2Proof.Machine

/-! PROOF. Only a reset and a hart's write to `ddtp` change `ddtp` (O25). No change that the IOMMU makes by itself (`Did false`)
touches it, nor does a write to any other register, and the register `ddtp` is at offset 16 alone. -/

namespace Sys2Proof.Machine

/-- No change that the IOMMU makes by itself touches `ddtp`. -/
theorem Did.ddtp_of_internal {s t : State} (h : Did false s t) : t.ddtp = s.ddtp := by
  generalize hsw : false = sw at h
  induction h with
  | work h => exact h.ddtp
  | trans _ _ ihs iht => exact (iht hsw).trans (ihs hsw)
  | status => exact (Work.updateCip _).1.ddtp
  | pqStatus => exact (Work.updatePip _).1.ddtp
  | drop | advance | commands | accesses | pqNext | halfReads | cycles => rfl
  | _ => cases hsw

/-- An input that is neither a reset nor a hart's write makes no change of software's. -/
theorem handle_internal {e : Event} {s t : State} (hr : e ≠ .reset) (hw : ∀ a n v l, e ≠ .hartWrite a n v l)
    (h : handle e s = .next t) : Did false s t := by
  cases e with
  | hartRead => exact hartRead_did h
  | hartReadFirst hart a l =>
    rw [handle, hartReadFirst] at h
    split at h
    · cases h
      exact .halfReads s _
    · exact hartRead_did h
  | hartReadSecond hart => cases h; exact hartReadSecond_did hart s
  | hartWrite a n v l => exact absurd rfl (hw a n v l)
  | dmaWrite a bytes => cases h; exact dmaWrite_did a.toNat bytes s
  | request r => cases h; exact serve_did r s
  | pageRequest m => cases h; exact servePageRequest_did m s
  | invalCompletion d i => cases h; exact serveInvalCompletion_did d i s
  | invalTimeout i => cases h; exact serveInvalTimeout_did i s
  | cycles n =>
    cases h
    exact .trans (.commands s _ s.timedOut s.fetched s.itag) (State.tick_did _ n)
  | evict n => cases h; exact .drop s _ fun _ he => List.mem_of_mem_eraseIdx he
  | busCommit tag => cases h; exact busCommit_did tag s
  | cqTurn =>
    obtain ⟨u, hu, hd⟩ := cqStep_did (sw := false) s
    cases hu.symm.trans h
    exact hd
  | reset => exact absurd rfl hr

/-- A turn of the engine alone makes no change of software's. -/
theorem step_internal_of_empty {s t : State} (hi : s.inbox = []) (h : step s = .next t) : Did false s t := by
  obtain ⟨u, hu, hd⟩ := cqStep_did (sw := false) s
  rw [step, hi] at h
  cases hu.symm.trans h
  exact hd

/-! ### Debug translation (R537) -/

section Debug
variable {s t : State} {d : Done} {f : Stop}

theorem State.debugTranslate_of_ok (h : translate s.debugRequest true (s.enter s.debugRequest) = .ok d t) :
    s.debugTranslate = { t.leave d.ids with
      trResponse := responseOk (t.leave d.ids).cfg d.c
      trReqCtl := { (t.leave d.ids).trReqCtl with goBusy := false } } := by
  unfold State.debugTranslate
  dsimp only
  rw [h]

theorem State.debugTranslate_of_stop (h : translate s.debugRequest true (s.enter s.debugRequest) = .stop f t) :
    let u := (t.leave f.ids).takeFault (s.debugRequest.record f) false f.dtf none
    s.debugTranslate = { u.freshValue.2 with
      trResponse := responseFault u.freshValue.1
      trReqCtl := { u.trReqCtl with goBusy := false } } := by
  unfold State.debugTranslate
  dsimp only
  rw [h]
  rfl

end Debug

/-- A debug translation is internal work, then its answer in the two registers of the debug interface. -/
theorem State.debugTranslate_work (s : State) : ∃ t r, Work s t ∧
    s.debugTranslate = { t with trResponse := r, trReqCtl := { t.trReqCtl with goBusy := false } } := by
  have h := Res.Works.trans (s.enter_work s.debugRequest) (translate_works s.debugRequest true (s.enter s.debugRequest))
  cases hr : translate s.debugRequest true (s.enter s.debugRequest) with
  | ok d u => exact ⟨_, _, (h.of_ok hr).trans (State.leave_work _ _), State.debugTranslate_of_ok hr⟩
  | stop f u =>
    exact ⟨_, _, (((h.of_stop hr).trans (State.leave_work _ _)).trans (Work.takeFault _ _ _ _ _)).trans (Work.freshValue _),
      State.debugTranslate_of_stop hr⟩

theorem State.debugTranslate_ddtp (s : State) : s.debugTranslate.ddtp = s.ddtp := by
  obtain ⟨t, r, hw, he⟩ := s.debugTranslate_work
  rw [he]
  exact hw.ddtp

/-! ### Register writes (R510) -/

theorem writeCqcsr_ddtp (s : State) (v : DWord) : (writeCqcsr s v).ddtp = s.ddtp := by
  unfold writeCqcsr
  split
  · rfl
  dsimp only
  split
  · exact (Work.updateCip _).1.ddtp
  split
  · exact (Work.updateCip _).1.ddtp
  · exact (Work.updateCip _).1.ddtp

theorem writeTrReqCtl_ddtp (s : State) (v : DWord) (low : Bool) : (writeTrReqCtl s v low).ddtp = s.ddtp := by
  unfold writeTrReqCtl
  split
  · rfl
  dsimp only
  split
  · exact State.debugTranslate_ddtp _
  · rfl

theorem writeMsiVecCtl_ddtp (s : State) (x : Fin 16) (v : DWord) : (writeMsiVecCtl s x v).ddtp = s.ddtp := by
  unfold writeMsiVecCtl
  dsimp only
  split
  · exact (Work.sendMsi _ _).ddtp
  · rfl

/-- A write to any other register leaves `ddtp` alone. -/
theorem State.writeImage_ddtp (s : State) {r : Reg} (hr : r ≠ .ddtp) (v : DWord) (low : Bool) :
    (s.writeImage r v low).ddtp = s.ddtp := by
  cases r with
  | ddtp => exact absurd rfl hr
  | capabilities | cqh | cqt | fqh | fqt | pqh | pqt | iocountovf | iocountinh | iohpmcycles | iohpmctr | iohpmevt
  | trResponse | iommuQosid | icvec | msiData => rfl
  | cqcsr => exact writeCqcsr_ddtp s v
  | trReqCtl => exact writeTrReqCtl_ddtp s v low
  | msiVecCtl x => exact writeMsiVecCtl_ddtp s x v
  | ipsr =>
    exact ((Work.updatePip _).1.ddtp.trans (Work.updateFip _).ddtp).trans (Work.updateCip _).1.ddtp
  | fqcsr =>
    simp only [State.writeImage, writeFqcsr]
    split
    · rfl
    · exact (Work.updateFip _).ddtp
  | pqcsr =>
    simp only [State.writeImage, writePqcsr]
    split
    · rfl
    · exact (Work.updatePip _).1.ddtp
  | fctl => simp only [State.writeImage, writeFctl, apply_ite State.ddtp, ite_self]
  | cqb => simp only [State.writeImage, writeCqb, State.freshValue, apply_ite State.ddtp, ite_self]
  | fqb => simp only [State.writeImage, writeFqb, State.freshValue, apply_ite State.ddtp, ite_self]
  | pqb => simp only [State.writeImage, writePqb, State.freshValue, apply_ite State.ddtp, ite_self]
  | trReqIova => simp only [State.writeImage, writeTrReqIova, apply_ite State.ddtp, ite_self]
  | msiAddr x => simp only [State.writeImage, writeMsiAddr, apply_ite State.ddtp, ite_self]

theorem State.writeHalf_ddtp (s : State) {r : Reg} (hr : r ≠ .ddtp) (low : Bool) (v : BitVec 32) :
    (s.writeHalf r low v).ddtp = s.ddtp := by
  unfold State.writeHalf
  split
  · exact s.writeImage_ddtp hr _ low
  · rfl

theorem fixedReg_eq_ddtp {off : Nat} (h : fixedReg off = some .ddtp) : off = 16 := by
  unfold fixedReg at h
  split at h <;> first | rfl | cases h

/-- The register `ddtp` begins at offset 16 alone. -/
theorem regAt_eq_ddtp {off : Nat} (h : regAt off = some .ddtp) : off = 16 := by
  unfold regAt at h
  split at h
  · exact fixedReg_eq_ddtp h
  split at h
  · split at h <;> cases h
  split at h
  · split at h <;> cases h
  split at h
  · exact fixedReg_eq_ddtp h
  repeat' split at h
  all_goals cases h

theorem State.regWrite4_ddtp (s : State) {off : Nat} (hl : off ≠ 16) (hh : off ≠ 20) (v : BitVec 32) :
    (s.regWrite4 off v).ddtp = s.ddtp := by
  unfold State.regWrite4
  split
  next r hr => exact s.writeHalf_ddtp (fun e => hl (regAt_eq_ddtp (e ▸ hr))) true v
  next =>
    split
    next r hr =>
      split
      next hw =>
        simp only [Bool.and_eq_true, decide_eq_true_eq] at hw
        exact s.writeHalf_ddtp (fun e => by have := regAt_eq_ddtp (e ▸ hr); omega) false v
      next => rfl
    next => rfl

/-- A write to the register page that does not begin at a half of `ddtp` leaves `ddtp` alone. -/
theorem State.regWrite_ddtp (s : State) {off : Nat} (hl : off ≠ 16) (hh : off ≠ 20) (size : Nat) (v : DWord)
    (lowFirst : Bool) : (s.regWrite off size v lowFirst).ddtp = s.ddtp := by
  unfold State.regWrite
  split
  · exact s.regWrite4_ddtp hl hh _
  split
  next h8 =>
    have hl' : off + 4 ≠ 16 := by omega
    have hh' : off + 4 ≠ 20 := by omega
    split
    next r hr =>
      split
      · rfl
      split
      · exact (State.regWrite4_ddtp _ hl' hh' _).trans (s.regWrite4_ddtp hl hh _)
      · exact (State.regWrite4_ddtp _ hl hh _).trans (s.regWrite4_ddtp hl' hh' _)
    next => rfl
  next => rfl

theorem hartWrite_ddtp {a n : Nat} {v : DWord} {lowFirst : Bool} {s t : State}
    (hl : a ≠ s.cfg.regBase.toNat + 16) (hh : a ≠ s.cfg.regBase.toNat + 20)
    (h : hartWrite a n v lowFirst s = .next t) : t.ddtp = s.ddtp := by
  unfold hartWrite at h
  split at h
  · cases h
    split
    · exact s.regWrite_ddtp (by omega) (by omega) n v lowFirst
    · rfl
  split at h
  · cases h
    rfl
  · cases h

/-- Settles O25: of the inputs only these two are not internal, and of the registers only this one is written. -/
theorem onlySoftwareChangesDdtp : Obligations.OnlySoftwareChangesDdtp := by
  unfold Obligations.OnlySoftwareChangesDdtp
  intro s t hstep hne
  cases hi : s.inbox with
  | nil => exact absurd (step_internal_of_empty hi hstep).ddtp_of_internal hne
  | cons e es =>
    rw [step_input hi] at hstep
    by_cases hr : e = .reset
    · exact .inl ⟨es, by rw [hr]⟩
    by_cases hw : ∃ a n v l, e = .hartWrite a n v l
    · obtain ⟨a, n, v, l, rfl⟩ := hw
      refine .inr ⟨a, n, v, l, es, rfl, ?_⟩
      by_contra hoff
      rw [not_or] at hoff
      exact hne (hartWrite_ddtp (s := { s with inbox := es }) hoff.1 hoff.2 hstep)
    · simp only [not_exists] at hw
      exact absurd (handle_internal hr hw hstep).ddtp_of_internal hne

end Sys2Proof.Machine

/-! PROOF. What a device does cannot reconfigure the IOMMU (O26). Serving it is internal work and a few changes besides, none of
which touches what software writes. -/

namespace Sys2Proof.Machine

/-- The registers that software writes, without the bits of them that the IOMMU sets: of what internal work keeps, all but
the error bits of `pqcsr`, `pqt` and the ATS.INVAL commands outstanding. -/
def State.softwareSide (s : State) : State :=
  { s.fixed with
    pqcsr := { s.pqcsr with mf := false, ovf := false }
    pqt := 0#32
    outstanding := [] }

/-- `t` has what software wrote in `s`, and all its pending bits. -/
structure State.KeepsSoftware (s t : State) : Prop where
  side : t.softwareSide = s.softwareSide
  ipsr : ∀ b, s.ipsr.get b = true → t.ipsr.get b = true

theorem State.KeepsSoftware.refl (s : State) : s.KeepsSoftware s := ⟨rfl, fun _ => id⟩

theorem State.KeepsSoftware.trans {s t u : State} (h : s.KeepsSoftware t) (k : t.KeepsSoftware u) : s.KeepsSoftware u :=
  ⟨k.side.trans h.side, fun b hb => k.ipsr b (h.ipsr b hb)⟩

theorem Work.keepsSoftware {s t : State} (h : Work s t) : s.KeepsSoftware t :=
  ⟨(congrArg State.softwareSide h.fixed :), h.ipsr⟩

/-- Internal work from a state that differs from `s` where software writes nothing. -/
theorem State.KeepsSoftware.of_work {s u t : State} (h : Work u t) (hside : u.softwareSide = s.softwareSide)
    (hip : u.ipsr = s.ipsr) : s.KeepsSoftware t :=
  .trans ⟨hside, fun _ hb => hip ▸ hb⟩ h.keepsSoftware

theorem serveRequest_keepsSoftware (r : Request) (s : State) : s.KeepsSoftware (serveRequest r s) := by
  have h := Res.Works.trans (s.enter_work r) (translate_works r false (s.enter r))
  cases hr : translate r false (s.enter r) with
  | ok d t =>
    rw [serveRequest_of_ok hr, State.startAccess_emit]
    exact ((h.of_ok hr).trans (t.leave_work d.ids)).keepsSoftware.trans ⟨rfl, fun _ => id⟩
  | stop f t =>
    rw [serveRequest_of_stop hr]
    exact (((h.of_stop hr).trans (t.leave_work f.ids)).trans (Work.takeFault _ _ _ _ _)).keepsSoftware

theorem serve_keepsSoftware (r : Request) (s : State) : s.KeepsSoftware (serve r s) := by
  unfold serve
  split
  · exact (serveAts_work r s).keepsSoftware
  · exact serveRequest_keepsSoftware r s

theorem State.raisePipIfEnabled_work (s : State) : Work s s.raisePipIfEnabled := by
  unfold State.raisePipIfEnabled
  split
  · exact (Work.raiseIp s .pq).1
  · exact .refl s

theorem State.pqEnqueue_keepsSoftware (s : State) (m : PageRequest) : s.KeepsSoftware (s.pqEnqueue m).2 := by
  unfold State.pqEnqueue
  split
  · exact .refl s
  split
  · exact .refl s
  split
  · exact .refl s
  split
  · exact .of_work (Work.updatePip _).1 rfl rfl
  · have hw := Work.storeRecord s (s.pqb.entryAddr 4 s.pqt) m.dwords
    revert hw
    rcases s.storeRecord (s.pqb.entryAddr 4 s.pqt) m.dwords with ⟨_ | _, t⟩ <;> intro hw
    · exact hw.keepsSoftware.trans (.of_work (Work.updatePip _).1 rfl rfl)
    · exact hw.keepsSoftware.trans (.of_work (State.raisePipIfEnabled_work _) rfl rfl)

theorem servePageRequest_keepsSoftware (m : PageRequest) (s : State) : s.KeepsSoftware (servePageRequest m s) := by
  have h := messageDC_works m.ids s
  cases hr : messageDC m.ids s with
  | stop f t =>
    rw [servePageRequest_of_stop hr]
    exact (((h.of_stop hr).trans (Work.takeFault _ _ _ _ _)).trans (State.respondPrg_work _ _ _ _)).keepsSoftware
  | ok dc t =>
    by_cases hd : dc.enAts = false ∨ dc.enPri = false
    · rw [servePageRequest_of_refused hr hd]
      exact (((h.of_ok hr).trans (Work.takeFault _ _ _ _ _)).trans (State.respondPrg_work _ _ _ _)).keepsSoftware
    · simp only [not_or, Bool.not_eq_false] at hd
      have hq := (h.of_ok hr).keepsSoftware.trans (t.pqEnqueue_keepsSoftware m)
      rw [servePageRequest_of_allowed hr hd.1 hd.2]
      cases (t.pqEnqueue m).1 with
      | none => exact hq
      | some st => exact hq.trans (State.respondPrg_work _ _ _ _).keepsSoftware

theorem serveInvalCompletion_keepsSoftware (did : BitVec 24) (n : Nat) (s : State) :
    s.KeepsSoftware (serveInvalCompletion did n s) := by
  have h := messageDC_works ⟨did, none, none, none⟩ s
  cases hr : messageDC ⟨did, none, none, none⟩ s with
  | stop f t =>
    rw [serveInvalCompletion_of_stop hr]
    exact ((h.of_stop hr).trans (Work.takeFault _ _ _ _ _)).keepsSoftware
  | ok dc t =>
    cases hd : dc.enAts with
    | true =>
      rw [serveInvalCompletion_of_enAts hr hd]
      exact (h.of_ok hr).keepsSoftware.trans ⟨rfl, fun _ => id⟩
    | false =>
      rw [serveInvalCompletion_of_not_enAts hr hd]
      exact ((h.of_ok hr).trans (Work.takeFault _ _ _ _ _)).keepsSoftware

theorem busCommit_keepsSoftware (tag : Nat) (s : State) : s.KeepsSoftware (busCommit tag s) := by
  unfold busCommit State.commitAccess
  split
  · exact .of_work (Work.commitRead _ _) rfl rfl
  split
  · exact .of_work (Work.commitWrite _ _) rfl rfl
  · exact .refl s

/-- What a device does answers a next state that keeps software's side. -/
theorem handle_device {e : Event} (s : State)
    (he : (∃ r, e = .request r) ∨ (∃ m, e = .pageRequest m) ∨ (∃ d n, e = .invalCompletion d n) ∨
      (∃ a bs, e = .dmaWrite a bs) ∨ (∃ n, e = .busCommit n)) : ∃ t, handle e s = .next t ∧ s.KeepsSoftware t := by
  obtain ⟨r, rfl⟩ | ⟨m, rfl⟩ | ⟨d, n, rfl⟩ | ⟨a, bs, rfl⟩ | ⟨n, rfl⟩ := he
  · exact ⟨_, rfl, serve_keepsSoftware r s⟩
  · exact ⟨_, rfl, servePageRequest_keepsSoftware m s⟩
  · exact ⟨_, rfl, serveInvalCompletion_keepsSoftware d n s⟩
  · exact ⟨_, rfl, (Work.deviceWrite s a.toNat bs).keepsSoftware⟩
  · exact ⟨_, rfl, busCommit_keepsSoftware n s⟩

/-- Settles O26: each register is one of software's side. -/
theorem devicesCannotReconfigure : Obligations.DevicesCannotReconfigure := by
  unfold Obligations.DevicesCannotReconfigure
  intro s e es hi he
  obtain ⟨t, ht, hk⟩ := handle_device { s with inbox := es } he
  have hfield {α : Type} (f : State → α) := congrArg f hk.side
  exact ⟨t, (step_input hi).trans ht, hfield State.cfg, hfield State.fctl, hfield State.ddtp, hfield State.cqb,
    hfield State.cqh, hfield State.cqt, hfield State.cqcsr, hfield State.fqb, hfield State.fqh, hfield (·.fqcsr.en),
    hfield (·.fqcsr.ie), hfield State.pqb, hfield State.pqh, hfield (·.pqcsr.en), hfield (·.pqcsr.ie),
    hfield State.iocountinh, hfield State.trReqIova, hfield State.trReqCtl, hfield State.qosid, hfield State.icvec,
    hfield State.msiCfg, hk.ipsr⟩

end Sys2Proof.Machine

/-! PROOF. The fault queue and the delivery of interrupts (O31 to O34, O43). Each way in which a record can be queued, a message
sent and a pending bit set has one equation; the statements are read off them. -/

namespace Sys2Proof

/-! ### Doublewords in memory (R203) -/

/-- Memories that agree on some bytes read the same there. -/
theorem Memory.readBytes_congr {m n : Memory} {a k : Nat} (h : ∀ b, a ≤ b → b < a + k → m.read b = n.read b) :
    Memory.readBytes m a k = Memory.readBytes n a k := by
  induction k generalizing a with
  | zero => rfl
  | succ k ih =>
    rw [Memory.readBytes, Memory.readBytes, h a (Nat.le_refl a) (by omega),
      ih fun b hb hlt => h b (by omega) (by omega)]

/-- Some of the bytes read. -/
theorem Memory.take_drop_readBytes (m : Memory) (a : Nat) {i j n : Nat} (h : i + j ≤ n) :
    ((Memory.readBytes m a n).drop i).take j = Memory.readBytes m (a + i) j := by
  obtain ⟨k, rfl⟩ := Nat.exists_eq_add_of_le h
  rw [Nat.add_assoc, Machine.Memory.readBytes_add, List.drop_left' (Memory.length_readBytes m a i), Machine.Memory.readBytes_add,
    List.take_left' (Memory.length_readBytes m (a + i) j)]

/-- A doubleword is read back from the bytes that hold it. -/
theorem dwordAt_of_readBytes {m : Memory} {be : Bool} {a i n : Nat} {d : DWord} (hi : i + 8 ≤ n)
    (h : Memory.readBytes m (a + i) 8 = toBytes be 8 d.toNat) : dwordAt be (Memory.readBytes m a n) i = d := by
  have hd : d.toNat < 256 ^ 8 := d.isLt
  rw [dwordAt, Memory.take_drop_readBytes m a hi, h, ofBytes_toBytes, Nat.mod_eq_of_lt hd, BitVec.ofNat_toNat,
    BitVec.setWidth_eq]

namespace Machine

/-! ### Storing some of the doublewords of a record (R572) -/

/-- Doubleword `i` of a record at `a` is in `n` what it was in `m`, or, if `keep` allows it, the record's. -/
def DwordKeptOrStored (keep : Nat → Bool) (be : Bool) (m n : Memory) (a : Nat) (ds : List DWord) (i : Nat)
    (hi : i < ds.length) : Prop :=
  (∀ b, a + 8 * i ≤ b → b < a + 8 * i + 8 → Memory.read n b = Memory.read m b) ∨
    (keep i = true ∧ Memory.readBytes n (a + 8 * i) 8 = toBytes be 8 ds[i].toNat)

/-- Storing some of the doublewords: nothing outside the record changes, and each doubleword is kept or stored. -/
theorem State.storeSome_dwords (keep : Nat → Bool) (a k : Nat) (ds : List DWord) {s : State} (ho : s.others = [])
    (hm : s.mem.wf = true) : ∃ n, State.storeSome keep a k ds s = { s with mem := n } ∧
      (∀ b, (b < a ∨ a + 8 * ds.length ≤ b) → Memory.read n b = s.mem.read b) ∧
      ∀ i (hi : i < ds.length), DwordKeptOrStored (fun i => keep (k + i)) s.fctl.be s.mem n a ds i hi := by
  induction ds generalizing a k s with
  | nil => exact ⟨s.mem, rfl, fun _ _ => rfl, fun i hi => absurd hi (Nat.not_lt_zero i)⟩
  | cons d ds ih =>
    have hshift (i : Nat) : a + 8 + 8 * i = a + 8 * (i + 1) := by omega
    have hindex (i : Nat) : k + 1 + i = k + (i + 1) := by omega
    have hlength : (d :: ds).length = ds.length + 1 := rfl
    rw [State.storeSome]
    split
    next hkeep =>
      have hlen : (toBytes s.fctl.be 8 d.toNat).length = 8 := toBytes_length _ _ _
      have hhead := Memory.readBytes_writeBytes hm a (toBytes s.fctl.be 8 d.toNat)
      rw [hlen] at hhead
      have houtside (b : Nat) (hb : b < a ∨ a + 8 ≤ b) :
          Memory.read (Memory.writeBytes s.mem a (toBytes s.fctl.be 8 d.toNat)) b = s.mem.read b :=
        Memory.read_writeBytes_outside (by rwa [hlen])
      rw [State.writeUnits_quiet ho _ _ _ (by rw [atomicUnits_sum, hlen])]
      obtain ⟨n, hn, hframe, hds⟩ :=
        ih (a + 8) (k + 1) (s := { s with mem := Memory.writeBytes s.mem a (toBytes s.fctl.be 8 d.toNat) }) ho
          (Memory.wf_writeBytes hm a _)
      refine ⟨n, hn, fun b hb => (hframe b (by omega)).trans (houtside b (by omega)), fun i hi => ?_⟩
      cases i with
      | zero => exact .inr ⟨hkeep, (Memory.readBytes_congr fun b _ hb => hframe b (.inl (by omega))).trans hhead⟩
      | succ i =>
        obtain hkept | ⟨hk, hstored⟩ := hds i (Nat.lt_of_succ_lt_succ hi)
        · refine .inl fun b hlo hhi => (hkept b (by omega) (by omega)).trans (houtside b (by omega))
        · exact .inr ⟨(congrArg keep (hindex i)).symm.trans hk, hshift i ▸ hstored⟩
    next =>
      obtain ⟨n, hn, hframe, hds⟩ := ih (a + 8) (k + 1) ho hm
      refine ⟨n, hn, fun b hb => hframe b (by omega), fun i hi => ?_⟩
      cases i with
      | zero => exact .inl fun b _ hb => hframe b (.inl (by omega))
      | succ i =>
        obtain hkept | ⟨hk, hstored⟩ := hds i (Nat.lt_of_succ_lt_succ hi)
        · exact .inl fun b hlo hhi => hkept b (by omega) (by omega)
        · exact .inr ⟨(congrArg keep (hindex i)).symm.trans hk, hshift i ▸ hstored⟩

/-- A record one of whose doublewords meets an access fault: each of the others may have been stored. -/
theorem State.storeRecord_of_fault_dwords {s : State} {a : Nat} {ds : List DWord} (ho : s.others = [])
    (hm : s.mem.wf = true) (hf : ∃ k, k < ds.length ∧ s.accessFaults .write (a + 8 * k) 8 = true) :
    ∃ n c k, s.storeRecord a ds = (false, { s with
        mem := n
        bus := s.bus ++ [⟨.write, a, 8 * ds.length, s.iommuQos⟩]
        choices := c
        freeCtr := k }) ∧
      (∀ b, (b < a ∨ a + 8 * ds.length ≤ b) → Memory.read n b = s.mem.read b) ∧
      ∀ i (hi : i < ds.length),
        DwordKeptOrStored (fun i => !s.accessFaults .write (a + 8 * i) 8) s.fctl.be s.mem n a ds i hi := by
  have hany : (List.range ds.length).any (fun k => s.accessFaults .write (a + 8 * k) 8) = true := by
    simpa only [List.any_eq_true, List.mem_range] using hf
  obtain ⟨c, k, hdraw⟩ := (s.logBus .write a (8 * ds.length) s.iommuQos).drawn_draw 16
  obtain ⟨n, hn, hframe, hds⟩ := State.storeSome_dwords
    (fun k => ((s.logBus .write a (8 * ds.length) s.iommuQos).draw 16).1.testBit k &&
      !s.accessFaults .write (a + 8 * k) 8) a 0 ds
    (s := ((s.logBus .write a (8 * ds.length) s.iommuQos).draw 16).2) (by rw [hdraw]; exact ho) (by rw [hdraw]; exact hm)
  rw [hdraw] at hn hframe hds
  refine ⟨n, c, k, ?_, hframe, fun i hi => (hds i hi).imp_right fun ⟨hkeep, hstored⟩ => ⟨?_, hstored⟩⟩
  · simp only [State.storeRecord, hany, if_true, hdraw, hn]
    rfl
  · simp only [Nat.zero_add, Bool.and_eq_true] at hkeep
    exact hkeep.2

/-! ### Queueing a record (R570 to R573) -/

section Queue
variable {s t : State} {r : FaultRecord}

theorem OutCsr.discards_iff {q : OutCsr} : q.discards = true ↔ q.on = false ∨ q.ovf = true ∨ q.mf = true := by
  rw [OutCsr.discards, Bool.or_eq_true, Bool.or_eq_true, Bool.not_eq_true', or_assoc]

theorem OutCsr.discards_eq_false {q : OutCsr} (hon : q.on = true) (hovf : q.ovf = false) (hmf : q.mf = false) :
    q.discards = false := by
  rw [OutCsr.discards, hon, hovf, hmf]
  rfl

theorem State.pushRecord_of_discards (h : s.fqcsr.discards = true) : s.pushRecord r = (false, s) := by
  rw [State.pushRecord, if_pos h]

theorem State.pushRecord_of_full (h : s.fqcsr.discards = false) (hfull : s.fqb.next s.fqt = s.fqh) :
    s.pushRecord r = (true, { s with fqcsr := { s.fqcsr with ovf := true } }) := by
  rw [State.pushRecord, if_neg (by rw [h]; decide), if_pos hfull]

theorem State.pushRecord_of_stored (h : s.fqcsr.discards = false) (hroom : s.fqb.next s.fqt ≠ s.fqh)
    (hst : s.storeRecord (s.fqb.entryAddr 5 s.fqt) r.dwords = (true, t)) :
    s.pushRecord r = (true, { t with fqt := t.fqb.next t.fqt }) := by
  rw [State.pushRecord, if_neg (by rw [h]; decide), if_neg hroom, hst]

theorem State.pushRecord_of_fault (h : s.fqcsr.discards = false) (hroom : s.fqb.next s.fqt ≠ s.fqh)
    (hst : s.storeRecord (s.fqb.entryAddr 5 s.fqt) r.dwords = (false, t)) :
    s.pushRecord r = (true, { t with fqcsr := { t.fqcsr with mf := true } }) := by
  rw [State.pushRecord, if_neg (by rw [h]; decide), if_neg hroom, hst]

/-- A record that is discarded leaves no trace. -/
theorem State.report_of_discards (h : s.fqcsr.discards = true) : s.report r = s := by
  rw [State.report, State.pushRecord_of_discards h]

/-- Raising `fip` on behalf of the fault queue is the raising of any source: a record of its own failed message finds `fip`
set (R575). -/
theorem State.raiseFip_eq (s : State) : s.raiseFip = s.raiseIp .fq := by
  unfold State.raiseFip State.raiseIp
  change (if s.ipsr.fip then s else _) = if s.ipsr.fip then s else _
  split
  · rfl
  split
  · rfl
  obtain ⟨-, hip, -⟩ := Quiet.trySendMsi (s.pend .fq) s.icvec.fiv
  change _ = (s.pend .fq).sendMsi s.icvec.fiv
  unfold State.sendMsi
  revert hip
  rcases (s.pend .fq).trySendMsi s.icvec.fiv with ⟨_ | a, t⟩ <;> intro hip
  · rfl
  obtain ⟨-, hip', -⟩ := Quiet.pushRecord t (.msiWrite a)
  dsimp only
  unfold State.report
  revert hip'
  rcases t.pushRecord (.msiWrite a) with ⟨_ | _, u⟩ <;> intro hip'
  · rfl
  · have hfip : u.ipsr.fip = true := by
      rw [show u.ipsr = (s.pend .fq).ipsr from hip'.trans hip]
      rfl
    dsimp only
    rw [State.raiseFip, if_pos hfip, ite_self]

/-- A new record, or an error bit set, raises `fip` if the queue's interrupt is enabled. -/
theorem State.report_of_pushed (h : s.pushRecord r = (true, t)) :
    s.report r = if t.fqcsr.ie then t.raiseIp .fq else t := by
  rw [State.report, h]
  dsimp only
  rw [State.raiseFip_eq]

end Queue

/-! ### Sending a message (R593, R594) -/

section Message
variable {s : State} {v : BitVec 4}

theorem State.sendMsi_of_masked (hm : (s.msiEntry v).m = true) :
    s.sendMsi v = { s with msiPending := s.msiPending.set v.toNat true (by have := v.isLt; omega) } := by
  simp only [State.sendMsi, State.trySendMsi, hm, if_true]

/-- A message that was written. -/
theorem State.trySendMsi_of_written {t : State} (hm : (s.msiEntry v).m = false)
    (hw : s.writeMem (s.msiEntry v).address.toNat (toBytes s.fctl.be 4 (s.msiEntry v).data.toNat) s.iommuQos = (true, t)) :
    s.trySendMsi v = (none, t.emit (.msi (s.msiEntry v).address (s.msiEntry v).data)) := by
  simp only [State.trySendMsi, hm, Bool.false_eq_true, if_false, hw]

/-- A message whose write met an access fault. -/
theorem State.trySendMsi_of_refused {t : State} (hm : (s.msiEntry v).m = false)
    (hw : s.writeMem (s.msiEntry v).address.toNat (toBytes s.fctl.be 4 (s.msiEntry v).data.toNat) s.iommuQos = (false, t)) :
    s.trySendMsi v = (some (s.msiEntry v).address, t) := by
  simp only [State.trySendMsi, hm, Bool.false_eq_true, if_false, hw]

/-- A message whose write meets no fault, with no access of another agent in between. -/
theorem State.sendMsi_of_noFault (hm : (s.msiEntry v).m = false)
    (hf : s.accessFaults .write (s.msiEntry v).address.toNat 4 = false) (ho : s.others = []) :
    s.sendMsi v = { s with
      mem := Memory.writeBytes s.mem (s.msiEntry v).address.toNat (toBytes s.fctl.be 4 (s.msiEntry v).data.toNat)
      bus := s.bus ++ [⟨.write, (s.msiEntry v).address.toNat, 4, s.iommuQos⟩]
      out := s.out ++ [.msi (s.msiEntry v).address (s.msiEntry v).data] } := by
  have hw := State.writeMem_quiet ho (s.msiEntry v).address.toNat (toBytes s.fctl.be 4 (s.msiEntry v).data.toNat) s.iommuQos
  rw [toBytes_length, hf] at hw
  rw [State.sendMsi, State.trySendMsi_of_written hm hw]
  rfl

/-- A message whose write meets an access fault is reported. -/
theorem State.sendMsi_of_fault (hm : (s.msiEntry v).m = false)
    (hf : s.accessFaults .write (s.msiEntry v).address.toNat 4 = true) :
    s.sendMsi v = (s.logBus .write (s.msiEntry v).address.toNat 4 s.iommuQos).report
      (.msiWrite (s.msiEntry v).address) := by
  have hw : s.writeMem (s.msiEntry v).address.toNat (toBytes s.fctl.be 4 (s.msiEntry v).data.toNat) s.iommuQos =
      (false, s.logBus .write (s.msiEntry v).address.toNat 4 s.iommuQos) := by
    unfold State.writeMem
    rw [toBytes_length]
    exact if_pos hf
  rw [State.sendMsi, State.trySendMsi_of_refused hm hw]

/-- A message leaves a fault queue that discards every record as it is. -/
theorem State.sendMsi_of_discards (h : s.fqcsr.discards = true) :
    (s.sendMsi v).fqcsr = s.fqcsr ∧ (s.sendMsi v).fqt = s.fqt := by
  cases hm : (s.msiEntry v).m with
  | true =>
    rw [State.sendMsi_of_masked hm]
    exact ⟨rfl, rfl⟩
  | false =>
    have hu := State.unaccessed_writeMem s (s.msiEntry v).address.toNat (toBytes s.fctl.be 4 (s.msiEntry v).data.toNat)
      s.iommuQos
    cases hw : s.writeMem (s.msiEntry v).address.toNat (toBytes s.fctl.be 4 (s.msiEntry v).data.toNat) s.iommuQos with
    | mk ok t =>
      rw [hw] at hu
      have hq : t.fqcsr = s.fqcsr := (congrArg State.fqcsr hu :)
      have ht : t.fqt = s.fqt := (congrArg State.fqt hu :)
      cases ok with
      | true =>
        rw [State.sendMsi, State.trySendMsi_of_written hm hw]
        exact ⟨hq, ht⟩
      | false =>
        rw [State.sendMsi, State.trySendMsi_of_refused hm hw]
        dsimp only
        rw [State.report_of_discards (by rw [hq]; exact h)]
        exact ⟨hq, ht⟩

end Message

/-! ### Setting a pending bit (R591, R592) -/

section Raise
variable {s : State} {b : IntSource}

theorem State.raiseIp_of_pending (h : s.ipsr.get b = true) : s.raiseIp b = s := by
  rw [State.raiseIp, if_pos h]

theorem State.raiseIp_of_wired (h : s.ipsr.get b = false) (hw : s.fctl.wsi = true) : s.raiseIp b = s.pend b := by
  rw [State.raiseIp, if_neg (by rw [h]; decide), if_pos hw]

theorem State.raiseIp_of_message (h : s.ipsr.get b = false) (hw : s.fctl.wsi = false) :
    s.raiseIp b = (s.pend b).sendMsi (s.icvec.vector b) := by
  rw [State.raiseIp, if_neg (by rw [h]; decide), if_neg (by rw [hw]; decide)]

/-- The wire of a source's vector carries its pending bit. -/
theorem State.wire_of_pending (hw : s.fctl.wsi = true) (h : s.ipsr.get b = true) :
    s.wire (s.icvec.vector b) = true := by
  cases b <;> simp only [Ipsr.get] at h <;> simp [State.wire, Icvec.vector, hw, h]

/-- A pending bit leaves a fault queue that discards every record as it is. -/
theorem State.raiseIp_of_discards (h : s.fqcsr.discards = true) :
    (s.raiseIp b).fqcsr = s.fqcsr ∧ (s.raiseIp b).fqt = s.fqt := by
  unfold State.raiseIp
  split
  · exact ⟨rfl, rfl⟩
  split
  · exact ⟨rfl, rfl⟩
  · exact State.sendMsi_of_discards (s := s.pend b) h

end Raise

/-- Settles O43: the equations of a pending bit and of a message. -/
theorem interruptDelivery : Obligations.InterruptDelivery := by
  unfold Obligations.InterruptDelivery
  intro s b v e p sent
  refine ⟨State.raiseIp_of_pending, fun h hw => ?wired, fun h hw hm => ?masked, fun h hw hm hf ho => ?written,
    fun h hw hm hf => ?failed⟩
  case wired =>
    rw [State.raiseIp_of_wired h hw]
    exact ⟨rfl, State.wire_of_pending (s := s.pend b) hw (Ipsr.get_pend s.ipsr b)⟩
  case masked => rw [State.raiseIp_of_message h hw, State.sendMsi_of_masked (s := s.pend b) hm]; rfl
  case written => rw [State.raiseIp_of_message h hw, State.sendMsi_of_noFault (s := s.pend b) hm hf ho]; rfl
  case failed => rw [State.raiseIp_of_message h hw, State.sendMsi_of_fault (s := s.pend b) hm hf]; rfl

/-- Settles O31: the record is stored, and nothing else changes but by the interrupt. -/
theorem reportWritesRecord : Obligations.ReportWritesRecord := by
  unfold Obligations.ReportWritesRecord
  intro s r hm hon hovf hmf hroom ho a hf
  have hpush := State.pushRecord_of_stored (OutCsr.discards_eq_false hon hovf hmf) hroom
    (State.storeRecord_of_noFault (ds := r.dwords) ho hf)
  have hreport := State.report_of_pushed hpush
  refine ⟨Memory.writeBytes s.mem a (dwordsBytes s.fctl.be r.dwords), hreport, fun hie => ?_,
    fun k hk => dwordAt_writeBytes hm _ a r.dwords hk, fun b hb => Memory.read_writeBytes_outside ?_⟩
  · rw [hreport, if_pos hie]
    exact (Work.raiseIp _ .fq).2
  · rwa [length_dwordsBytes]

/-- Settles O32. -/
theorem discardedRecordsLeaveNoTrace : Obligations.DiscardedRecordsLeaveNoTrace := by
  unfold Obligations.DiscardedRecordsLeaveNoTrace
  refine ⟨fun s r h => ?_, fun c => rfl⟩
  have hreport : s.report r = s := State.report_of_discards (OutCsr.discards_iff.mpr h)
  refine ⟨hreport, fun suppressed dtf o => ?_⟩
  rw [State.takeFault, hreport, ite_self]

/-- An error bit of the fault queue that a record sets: the queue keeps it and its tail through the interrupt. -/
theorem State.raiseFip_after_error {t : State} (h : t.fqcsr.ovf = true ∨ t.fqcsr.mf = true) :
    let u := if t.fqcsr.ie then t.raiseIp .fq else t
    u.fqcsr = t.fqcsr ∧ u.fqt = t.fqt ∧ (t.fqcsr.ie = true → u.ipsr.fip = true) := by
  obtain ⟨hq, ht⟩ := State.raiseIp_of_discards (b := .fq) (OutCsr.discards_iff.mpr (.inr h))
  cases hie : t.fqcsr.ie with
  | true => exact ⟨hq, ht, fun _ => (Work.raiseIp t .fq).2⟩
  | false => exact ⟨rfl, rfl, nofun⟩

/-- Settles O33: both errors stop the queue, so that its interrupt leaves it as it is. -/
theorem faultQueueErrors : Obligations.FaultQueueErrors := by
  unfold Obligations.FaultQueueErrors
  intro s r hon hovf hmf
  have hkeeps := OutCsr.discards_eq_false hon hovf hmf
  refine ⟨fun hfull => ?full, fun hm hroom ho => ?fault⟩
  case full =>
    intro t
    have hreport := State.report_of_pushed (State.pushRecord_of_full (r := r) hkeeps hfull)
    rw [hreport]
    exact ⟨rfl, State.raiseFip_after_error (t := t) (.inl rfl)⟩
  case fault =>
    intro a hf
    obtain ⟨n, c, k, hstore, hframe, hds⟩ := State.storeRecord_of_fault_dwords (ds := r.dwords) ho hm hf
    have hreport := State.report_of_pushed (State.pushRecord_of_fault hkeeps hroom hstore)
    refine ⟨n, c, k, ?_⟩
    intro t
    obtain ⟨hq, ht, hfip⟩ := State.raiseFip_after_error (t := t) (.inr rfl)
    rw [hreport]
    refine ⟨rfl, hq, ht, hfip, hframe, fun i hi => (hds i hi).imp_right fun ⟨hok, hstored⟩ => ⟨?_, ?_⟩⟩
    · exact Bool.not_eq_true' _ ▸ hok
    · exact dwordAt_of_readBytes (by omega) hstored

/-- The causes that are reported although DTF is set, by their numbers (R561). -/
theorem Cause.reportedUnderDtf_iff (c : Cause) : c.reportedUnderDtf = true ↔
    (256 ≤ c.code.toNat ∧ c.code.toNat ≤ 259) ∨ c.code.toNat = 268 ∨ c.code.toNat = 272 ∨ c.code.toNat = 273 := by
  cases c <;> decide

/-- Settles O34. -/
theorem dtfSuppressesReports : Obligations.DtfSuppressesReports := by
  unfold Obligations.DtfSuppressesReports
  intro s r o
  simp only [← Cause.reportedUnderDtf_iff, State.takeFault]
  cases r.cause.reportedUnderDtf <;> rfl

end Machine

end Sys2Proof

/-! PROOF. The command-queue engine (O4 to O7). A turn of the engine has five cases, each with one equation; an error bit, however
it is set, stops the queue and changes nothing else but by the interrupt. -/

namespace Sys2Proof.Machine

/-! ### The cases of a turn (R482, R483) -/

section Engine
variable {s t : State} {i : Instr} {bs : List Byte}

theorem step_of_empty (hi : s.inbox = []) : step s = cqStep s := by
  rw [step, hi]

theorem State.cqError_iff : s.cqError = true ↔ s.cqcsr.cqmf = true ∨ s.cqcsr.cmdTo = true ∨ s.cqcsr.cmdIll = true := by
  rw [State.cqError, Bool.or_eq_true, Bool.or_eq_true, or_assoc]

theorem State.cqError_eq_false (hmf : s.cqcsr.cqmf = false) (hto : s.cqcsr.cmdTo = false)
    (hill : s.cqcsr.cmdIll = false) : s.cqError = false := by
  rw [State.cqError, hmf, hto, hill]
  rfl

theorem State.canFetch_eq_true (hon : s.cqcsr.cqon = true) (he : s.cqError = false) (hne : s.cqh ≠ s.cqt) :
    s.canFetch = true := by
  rw [State.canFetch, hon, he]
  exact bne_iff_ne.mpr hne

theorem State.canFetch_of_stopped (h : s.cqcsr.cqon = false ∨ s.cqError = true) : s.canFetch = false := by
  obtain h | h := h <;> rw [State.canFetch, h]
  · rfl
  · rw [Bool.not_true, Bool.and_false, Bool.false_and]

theorem State.canFetch_of_emptyQueue (h : s.cqh = s.cqt) : s.canFetch = false := by
  rw [State.canFetch, h, bne_self_eq_false, Bool.and_false]

theorem cqStep_of_idle (hf : s.fetched = none) (h : s.canFetch = false) : cqStep s = .next s := by
  rw [cqStep, hf]
  dsimp only
  rw [if_pos (by rw [h]; rfl)]

/-- A queue that is off or in error does nothing, whether a command waits or not. -/
theorem cqStep_of_stopped (h : s.cqcsr.cqon = false ∨ s.cqError = true) : cqStep s = .next s := by
  cases hf : s.fetched with
  | none => exact cqStep_of_idle hf (State.canFetch_of_stopped h)
  | some i =>
    have hstop : ¬(s.cqcsr.cqon && !s.cqError) = true := by
      obtain h | h := h <;> rw [h] <;> simp
    rw [cqStep, hf]
    exact if_neg hstop

/-- A command that waits is taken up again (log 22). -/
theorem cqStep_of_fetched (hf : s.fetched = some i) (hon : s.cqcsr.cqon = true) (he : s.cqError = false) :
    cqStep s = exec i { s with fetched := none } := by
  rw [cqStep, hf]
  exact if_pos (by rw [hon, he]; rfl)

/-- What the engine makes of the bytes of a fetch. -/
def State.takeUp (s : State) : LoadResult × State → Host.Outcome State Fault Refusal
  | (.accessFault, t) => .next t.commandMemoryFault
  | (.corrupt, t) => .next t.commandMemoryFault
  | (.ok bs, t) =>
    match decodeBytes s.fctl.be bs with
    | none => .next t.commandIllegal
    | some i => exec i t

theorem cqStep_of_fetch (hf : s.fetched = none) (hc : s.canFetch = true) :
    cqStep s = s.takeUp (s.readMem (s.cqb.entryAddr 4 s.cqh) 16 s.iommuQos) := by
  rw [cqStep, hf]
  dsimp only
  rw [if_neg (by rw [hc]; decide)]
  rfl

theorem State.takeUp_ok (hd : decodeBytes s.fctl.be bs = some i) : s.takeUp (.ok bs, t) = exec i t := by
  rw [State.takeUp, hd]

theorem State.takeUp_illegal (hd : decodeBytes s.fctl.be bs = none) : s.takeUp (.ok bs, t) = .next t.commandIllegal := by
  rw [State.takeUp, hd]

/-- Whatever the fetch finds, the turn answers a next state. -/
theorem State.takeUp_did (s t : State) (r : LoadResult) : ∃ u, s.takeUp (r, t) = .next u ∧ Did false t u := by
  cases r with
  | accessFault | corrupt => exact ⟨_, rfl, t.commandMemoryFault_did⟩
  | ok bs =>
    cases hd : decodeBytes s.fctl.be bs with
    | none => exact ⟨_, State.takeUp_illegal hd, t.commandIllegal_did⟩
    | some i =>
      obtain ⟨u, hu, hdid⟩ := exec_did (sw := false) i t
      exact ⟨u, (State.takeUp_ok hd).trans hu, hdid⟩

theorem Work.bus_of_eq {u : State} (h : Work u t) (hb : u.bus = s.bus) : s.bus <+: t.bus := hb ▸ h.bus

/-- What has gone out on the bus stays. -/
theorem Did.bus {sw : Bool} (h : Did sw s t) : s.bus <+: t.bus := by
  induction h with
  | work h => exact h.bus
  | trans _ _ ihs iht => exact ihs.trans iht
  | status | cqOn | cqSet => exact (Work.updateCip _).1.bus_of_eq rfl
  | fqOn | fqSet => exact (Work.updateFip _).bus_of_eq rfl
  | pqOn | pqSet | pqStatus => exact (Work.updatePip _).1.bus_of_eq rfl
  | ipsr =>
    exact (((Work.updateCip _).1.trans (Work.updateFip _)).trans (Work.updatePip _).1).bus_of_eq rfl
  | _ => exact List.prefix_rfl

/-- A read is on the bus before any unit of it is made. -/
theorem Work.readMem_logged (s : State) (a n : Nat) (q : Qos) : Work (s.logBus .read a n q) (s.readMem a n q).2 := by
  unfold State.readMem
  dsimp only
  split
  · exact Work.readUnits _ _ _
  · exact .refl _
  · exact .refl _

/-- A turn that may fetch reads the command at `cqh`. -/
theorem cqStep_reads (hf : s.fetched = none) (hc : s.canFetch = true) :
    ∃ u, cqStep s = .next u ∧ s.bus ++ [⟨.read, s.cqb.entryAddr 4 s.cqh, 16, s.iommuQos⟩] <+: u.bus := by
  have hw := Work.readMem_logged s (s.cqb.entryAddr 4 s.cqh) 16 s.iommuQos
  obtain ⟨u, hu, hd⟩ := s.takeUp_did (s.readMem (s.cqb.entryAddr 4 s.cqh) 16 s.iommuQos).2
    (s.readMem (s.cqb.entryAddr 4 s.cqh) 16 s.iommuQos).1
  exact ⟨u, (cqStep_of_fetch hf hc).trans hu, hw.bus.trans hd.bus⟩

end Engine

/-- Settles O4: the fetch finds the bytes of the command, and the turn executes it. -/
theorem stepRunsDecodedCommand : Obligations.StepRunsDecodedCommand := by
  unfold Obligations.StepRunsDecodedCommand
  intro s i hi
  rw [step_of_empty hi]
  refine ⟨fun bs t hf hc hread hd => ?_, fun hf hc ho ha hp hd => ?_, cqStep_of_fetched⟩
  · rw [cqStep_of_fetch hf hc, hread, State.takeUp_ok hd]
  · have hload : s.load (s.cqb.entryAddr 4 s.cqh) 16 = .ok (Memory.readBytes s.mem (s.cqb.entryAddr 4 s.cqh) 16) := by
      rw [State.load, ha, hp]
      rfl
    rw [cqStep_of_fetch hf hc, State.readMem_quiet ho, hload, State.takeUp_ok hd]
    rfl

/-- Settles O5: the three conditions of a fetch, and the fetch. -/
theorem engineFetchesOnlyWhenItMay : Obligations.EngineFetchesOnlyWhenItMay := by
  unfold Obligations.EngineFetchesOnlyWhenItMay
  intro s hi
  rw [step_of_empty hi]
  refine ⟨fun h => cqStep_of_stopped (h.imp_right State.cqError_iff.mpr),
    fun hf he => cqStep_of_idle hf (State.canFetch_of_emptyQueue he), fun hf hon hmf hto hill hne => ?_⟩
  exact cqStep_reads hf (State.canFetch_eq_true hon (State.cqError_eq_false hmf hto hill) hne)

/-! ### Error bits (R486, R487) -/

section Error
variable {s u : State} {q : Cqcsr}

/-- Memory accesses since `s` and a new `cqcsr` leave what reports and interrupts cannot touch as the new `cqcsr` does. -/
theorem State.unreported_setCqcsr (h : u.unaccessed = s.unaccessed) (q : Cqcsr) :
    ({ u with cqcsr := q } : State).unreported = ({ s with cqcsr := q } : State).unreported :=
  (congrArg (fun x : State => ({ x with cqcsr := q } : State).unreported) h :)

/-- An error bit set after memory accesses: what follows is the interrupt alone, and the queue fetches no more. -/
theorem State.updateCip_of_newError (hw : Work s u) (hu : u.unaccessed = s.unaccessed)
    (hq : q.cqmf = true ∨ q.cmdTo = true ∨ q.cmdIll = true) (hie : q.cie = s.cqcsr.cie) :
    let n : State := { u with cqcsr := q }
    let t := n.updateCip
    t = (if s.cqcsr.cie then n.raiseIp .cq else n) ∧ t.cqcsr = q ∧ t.cqh = s.cqh ∧
      (s.cqcsr.cie = true → t.ipsr.cip = true) ∧ t.unreported = ({ s with cqcsr := q } : State).unreported ∧
      s.keepsAccesses t ∧ (s.cipQuiet = true → t = n) ∧ t.canFetch = false := by
  intro n t
  have herror : n.cqError = true := State.cqError_iff.mpr hq
  have hwork : Work n t := (Work.updateCip n).1
  have hip : u.ipsr = s.ipsr := (congrArg State.ipsr hu :)
  refine ⟨?_, hwork.cqcsr, hwork.cqh.trans hw.cqh, fun hs => State.updateCip_cip_of_error herror (hie.trans hs),
    (State.unreported_updateCip n).trans (State.unreported_setCqcsr hu q),
    hw.accesses.trans hwork.accesses fun ho => List.suffix_nil.mp (ho ▸ hw.others),
    fun hquiet => n.updateCip_of_quiet ?_, ?_⟩
  · rw [← hie]
    exact State.updateCip_of_error herror
  · simpa only [State.cipQuiet, n, hie, hip] using hquiet
  · have hq : t.cqcsr = q := hwork.cqcsr
    exact State.canFetch_of_stopped (.inr (State.cqError_iff.mpr (by rwa [hq])))

/-- A fetch that is refused or finds corrupted data reads nothing. -/
theorem State.readMem_of_fault {a n : Nat} {q : Qos} (h : s.accessFaults .read a n = true ∨ s.poisoned a n = true) :
    (s.readMem a n q).2 = s.logBus .read a n q ∧
      ((s.readMem a n q).1 = .accessFault ∨ (s.readMem a n q).1 = .corrupt) := by
  have hload : s.load a n = .accessFault ∨ s.load a n = .corrupt := by
    unfold State.load
    split
    · exact .inl rfl
    split
    · split
      · exact .inr rfl
      · exact .inl rfl
    · simp_all
  have hl : (s.logBus .read a n q).load a n = s.load a n := rfl
  unfold State.readMem
  dsimp only
  obtain h | h := hload <;> rw [hl, h]
  · exact ⟨rfl, .inl rfl⟩
  · exact ⟨rfl, .inr rfl⟩

theorem State.takeUp_fault {r : LoadResult × State} (h : r.1 = .accessFault ∨ r.1 = .corrupt) :
    s.takeUp r = .next r.2.commandMemoryFault := by
  obtain ⟨_, t⟩ := r
  obtain rfl | rfl := h <;> rfl

end Error

/-- Settles O6: either way an error bit is set after the read. -/
theorem fetchErrorsStopQueue : Obligations.FetchErrorsStopQueue := by
  unfold Obligations.FetchErrorsStopQueue
  intro s hi hf hc a u
  have hw : Work s u := Work.readMem s a 16 s.iommuQos
  have hu : u.unaccessed = s.unaccessed := State.unaccessed_readMem s a 16 s.iommuQos
  have hcq : u.cqcsr = s.cqcsr := hw.cqcsr
  have hstep : step s = s.takeUp (s.readMem a 16 s.iommuQos) := (step_of_empty hi).trans (cqStep_of_fetch hf hc)
  refine ⟨fun q h => ?_, fun h => ?_⟩
  · intro n
    refine ⟨n.updateCip, ?_⟩
    obtain ⟨hfault, rfl⟩ | ⟨bs, hread, hd, rfl⟩ := h
    · refine ⟨?_, State.updateCip_of_newError hw hu (.inl rfl) rfl⟩
      rw [hstep, State.takeUp_fault (State.readMem_of_fault hfault).2, State.commandMemoryFault, hcq]
    · refine ⟨?_, State.updateCip_of_newError hw hu (.inr (.inr rfl)) rfl⟩
      rw [hstep, hread, State.takeUp_illegal hd, State.commandIllegal, hcq]
  · obtain h | h | h := h
    · exact (State.readMem_of_fault (.inl h)).1
    · exact (State.readMem_of_fault (.inr h)).1
    · exact congrArg Prod.snd (State.readMem_quiet h a 16 s.iommuQos)

/-- An illegal command of any kind goes the way of R486. -/
theorem exec_of_illegal {i : Instr} {s : State} (h : isIllegal i s = true) : exec i s = .next s.commandIllegal := by
  cases i <;> exact if_pos h

/-- Settles O7: no access has been made, and `cmd_ill` is the error. -/
theorem illegalCommandSetsOnlyCmdIll : Obligations.IllegalCommandSetsOnlyCmdIll := by
  unfold Obligations.IllegalCommandSetsOnlyCmdIll
  intro i s h n
  obtain ⟨ht, hcq, -, hcip, hun, hacc, hquiet, -⟩ :=
    State.updateCip_of_newError (q := n.cqcsr) (Work.refl s) rfl (.inr (.inr rfl)) rfl
  exact ⟨s.commandIllegal, exec_of_illegal h, ht, hcq, hcip, hun, hacc, hquiet⟩

end Sys2Proof.Machine

/-! PROOF. The queues' control registers and the pending bits (O45, O47, O48). A write of one of these registers has one equation for
each thing it can do; what follows is the update of a pending bit, of which the lemmas below say when it does nothing. -/

namespace Sys2Proof.Machine

/-! ### When the update of a pending bit does nothing (R591) -/

section Update
variable {s : State}

theorem State.updateCip_of_not_level (h : s.cipLevel = false) : s.updateCip = s := by
  rw [State.updateCip, if_neg (by rw [h]; decide)]

theorem State.updateFip_of_level (h : s.fqcsr.ipLevel = true) : s.updateFip = s.raiseIp .fq := by
  rw [State.updateFip, if_pos h]

theorem State.updatePip_of_level (h : s.pqcsr.ipLevel = true) : s.updatePip = s.raiseIp .pq := by
  rw [State.updatePip, if_pos h]

theorem State.updateFip_of_idle (h : s.ipsr.fip = true ∨ s.fqcsr.ipLevel = false) : s.updateFip = s := by
  unfold State.updateFip
  split
  next hl => exact State.raiseIp_of_pending (h.resolve_right (by rw [hl]; decide))
  next => rfl

theorem State.updatePip_of_idle (h : s.ipsr.pip = true ∨ s.pqcsr.ipLevel = false) : s.updatePip = s := by
  unfold State.updatePip
  split
  next hl => exact State.raiseIp_of_pending (h.resolve_right (by rw [hl]; decide))
  next => rfl

/-- An error bit that interrupts leaves the fault queue as it is through the interrupt. -/
theorem State.updateFip_of_level_keeps (h : s.fqcsr.ipLevel = true) :
    s.updateFip.ipsr.fip = true ∧ s.updateFip.fqcsr = s.fqcsr ∧ s.updateFip.fqt = s.fqt := by
  have herror : s.fqcsr.discards = true :=
    OutCsr.discards_iff.mpr (.inr ((Bool.or_eq_true _ _).mp ((Bool.and_eq_true _ _).mp h).2))
  rw [State.updateFip_of_level h]
  exact ⟨(Work.raiseIp s .fq).2, State.raiseIp_of_discards herror⟩

end Update

/-! ### Writes of `cqcsr` (R526 to R528) -/

theorem State.regWrite_cqcsr (s : State) (v : DWord) (lowFirst : Bool) : s.regWrite 72 4 v lowFirst = writeCqcsr s v := by
  rw [State.regWrite_four (r := .cqcsr) (by decide) rfl rfl, State.writeImage]
  simp (disch := decide) only [writeCqcsr, getLsbD_mergeLow]

/-- `cqcsr` with the interrupt enable stored and the error bits written 1 cleared. -/
def Cqcsr.cleared (q : Cqcsr) (v : DWord) : Cqcsr :=
  { q with
    cie := v.getLsbD 1
    cqmf := q.cqmf && !v.getLsbD 8
    cmdTo := q.cmdTo && !v.getLsbD 9
    cmdIll := q.cmdIll && !v.getLsbD 10
    fenceWIp := q.fenceWIp && !v.getLsbD 11 }

section Cqcsr
variable {s : State} {v : DWord} (hb : s.cqcsr.busy = false)
include hb

theorem writeCqcsr_of_enable (hen : s.cqcsr.cqen = false) (h0 : v.getLsbD 0 = true) : writeCqcsr s v = { s with
    cqh := 0#32
    cqcsr := ⟨true, v.getLsbD 1, false, false, false, false, true, false⟩ } := by
  simp only [writeCqcsr, hb, hen, h0, Bool.false_eq_true, if_false, Bool.not_false, Bool.and_self, if_true]
  exact State.updateCip_of_not_level (Bool.and_false _)

theorem writeCqcsr_of_disable (hen : s.cqcsr.cqen = true) (h0 : v.getLsbD 0 = false) : writeCqcsr s v =
    ({ s with
      cqcsr := { s.cqcsr.cleared v with cqen := false, cqon := false, busy := false }
      outstanding := []
      timedOut := false
      fetched := none } : State).updateCip := by
  simp only [writeCqcsr, hb, hen, h0, Bool.false_eq_true, if_false, Bool.not_false, Bool.and_self, if_true, Bool.not_true]
  rfl

theorem writeCqcsr_of_keep (h0 : v.getLsbD 0 = s.cqcsr.cqen) :
    writeCqcsr s v = ({ s with cqcsr := s.cqcsr.cleared v } : State).updateCip := by
  rw [writeCqcsr, if_neg (by rw [hb]; decide)]
  simp only [h0, Bool.not_and_self, Bool.and_not_self, Bool.false_eq_true, if_false]
  rfl

end Cqcsr

/-! ### Writes of `fqcsr` and `pqcsr` (R526, R529, R530) -/

section OutCsr
variable {q : OutCsr} {v : DWord}

theorem newOutCsr_mergeLow (q : OutCsr) (old v : DWord) : newOutCsr q (mergeLow old v) = newOutCsr q v := by
  simp (disch := decide) only [newOutCsr, getLsbD_mergeLow]

theorem newOutCsr_of_enable (hen : q.en = false) (h0 : v.getLsbD 0 = true) :
    newOutCsr q v = (⟨true, v.getLsbD 1, false, false, true, false⟩, true) := by
  simp only [newOutCsr, hen, h0, Bool.not_false, Bool.and_self, if_true]

theorem newOutCsr_of_disable (hb : q.busy = false) (hen : q.en = true) (h0 : v.getLsbD 0 = false) :
    newOutCsr q v =
      (⟨false, v.getLsbD 1, q.mf && !v.getLsbD 8, q.ovf && !v.getLsbD 9, false, false⟩, false) := by
  simp only [newOutCsr, hb, hen, h0, Bool.not_true, Bool.and_self, Bool.and_false, Bool.false_eq_true, if_false]

theorem newOutCsr_of_keep (h0 : v.getLsbD 0 = q.en) : newOutCsr q v = ({ q with
    ie := v.getLsbD 1
    mf := q.mf && !v.getLsbD 8
    ovf := q.ovf && !v.getLsbD 9
    on := q.on && q.en }, false) := by
  simp only [newOutCsr, h0, Bool.not_and_self, Bool.false_eq_true, if_false]

end OutCsr

section OutWrites
variable {s : State} {q : OutCsr} {enabled : Bool} {v : DWord}

theorem State.regWrite_fqcsr (hb : s.fqcsr.busy = false) (hq : newOutCsr s.fqcsr v = (q, enabled)) (lowFirst : Bool) :
    s.regWrite 76 4 v lowFirst =
      ({ s with fqcsr := q, fqt := if enabled then 0#32 else s.fqt } : State).updateFip := by
  rw [State.regWrite_four (r := .fqcsr) (by decide) rfl rfl, State.writeImage]
  simp only [writeFqcsr, hb, newOutCsr_mergeLow, hq, Bool.false_eq_true, if_false]

theorem State.regWrite_pqcsr (ha : s.cfg.ats = true) (hb : s.pqcsr.busy = false)
    (hq : newOutCsr s.pqcsr v = (q, enabled)) (lowFirst : Bool) :
    s.regWrite 80 4 v lowFirst =
      ({ s with pqcsr := q, pqt := if enabled then 0#32 else s.pqt } : State).updatePip := by
  rw [State.regWrite_four (r := .pqcsr) (by decide) rfl ha, State.writeImage]
  simp only [writePqcsr, hb, newOutCsr_mergeLow, hq, Bool.false_eq_true, if_false]

end OutWrites

/-! ### What the statements say of each queue -/

section CommandQueue
variable {s : State} {v : DWord}

/-- A write that clears the error bits of a queue that is on lets the engine fetch again, at the same index. -/
theorem State.resumes {t : State} (hw : Work { s with cqcsr := s.cqcsr.cleared v } t)
    (hun : t.unreported = ({ s with cqcsr := s.cqcsr.cleared v } : State).unreported) (hon : s.cqcsr.cqon = true)
    (hmf : v.getLsbD 8 = true ∨ s.cqcsr.cqmf = false) (hto : v.getLsbD 9 = true ∨ s.cqcsr.cmdTo = false)
    (hill : v.getLsbD 10 = true ∨ s.cqcsr.cmdIll = false) (hi : s.inbox = []) (hf : s.fetched = none)
    (hne : s.cqh ≠ s.cqt) :
    ∃ u, step t = .next u ∧ t.bus ++ [⟨.read, s.cqb.entryAddr 4 s.cqh, 16, s.iommuQos⟩] <+: u.bus := by
  have hcq : t.cqcsr = s.cqcsr.cleared v := hw.cqcsr
  have hcqh : t.cqh = s.cqh := hw.cqh
  have hcqt : t.cqt = s.cqt := hw.cqt
  have hcqb : t.cqb = s.cqb := hw.cqb
  have hqos : t.iommuQos = s.iommuQos := by
    simp only [State.iommuQos, hw.cfg, hw.qosid]
  have hfetched : t.fetched = s.fetched := (congrArg State.fetched hun :)
  have hcleared {a b : Bool} (h : a = true ∨ b = false) : (b && !a) = false := by
    obtain rfl | rfl := h
    · exact Bool.and_false _
    · rfl
  have herror : t.cqError = false := by
    refine State.cqError_eq_false ?_ ?_ ?_ <;> rw [hcq]
    · exact hcleared hmf
    · exact hcleared hto
    · exact hcleared hill
  have hfetch : t.canFetch = true :=
    State.canFetch_eq_true (by rw [hcq]; exact hon) herror (by rw [hcqh, hcqt]; exact hne)
  rw [step_of_empty (hw.inbox.trans hi), ← hcqb, ← hcqh, ← hqos]
  exact cqStep_reads (hfetched.trans hf) hfetch

end CommandQueue

/-- Settles O48: each write is the update of a pending bit after the new value of the register. -/
theorem clearingErrorBits : Obligations.ClearingErrorBits := by
  unfold Obligations.ClearingErrorBits
  intro s v lowFirst
  refine ⟨fun hb h0 => ?cq, fun hb h0 => ?fq, fun ha hb h0 => ?pq⟩
  case cq =>
    intro q t n
    have ht : t = n.updateCip := (s.regWrite_cqcsr v lowFirst).trans (writeCqcsr_of_keep hb h0)
    have hw : Work n n.updateCip := (Work.updateCip n).1
    have hun : n.updateCip.unreported = n.unreported := State.unreported_updateCip n
    rw [ht]
    refine ⟨rfl, hw.cqcsr, hw.cqh, hw.cqt, hun, hw.accesses, fun h => n.updateCip_of_quiet ?_, State.resumes hw hun⟩
    obtain h | h := h
    · exact (congrArg (!q.cie || ·) h).trans (Bool.or_true _)
    · exact (congrArg (!· || s.ipsr.cip) h).trans (Bool.true_or _)
  case fq =>
    intro q t n
    have ht : t = n.updateFip := State.regWrite_fqcsr hb (newOutCsr_of_keep h0) lowFirst
    have hw : Work n n.updateFip := Work.updateFip n
    rw [ht]
    refine ⟨rfl, State.unreported_updateFip n, hw.accesses, hw.fqh, State.updateFip_of_idle (s := n),
      State.updateFip_of_level_keeps (s := n), fun hon hen hmf hovf => ?_⟩
    have hmf : q.mf = false := by obtain h | h := hmf <;> simp [q, h]
    have hovf : q.ovf = false := by obtain h | h := hovf <;> simp [q, h]
    have hlevel : n.fqcsr.ipLevel = false := by simp only [OutCsr.ipLevel, n, hmf, hovf, Bool.or_self, Bool.and_false]
    rw [State.updateFip_of_idle (.inr hlevel)]
    exact ⟨by simp only [n, q, hon, hen, Bool.and_self], hmf, hovf⟩
  case pq =>
    intro q t n
    have ht : t = n.updatePip := State.regWrite_pqcsr ha hb (newOutCsr_of_keep h0) lowFirst
    have hw : Work n n.updatePip := (Work.updatePip n).1
    have hq : n.updatePip.pqcsr = q := hw.pqcsr
    rw [ht]
    refine ⟨rfl, hq, State.unreported_updatePip n, hw.accesses, hw.pqh, hw.pqt, State.updatePip_of_idle (s := n),
      fun hlevel => (Work.updatePip n).2 (by rw [hq]; exact hlevel), fun hon hen hmf hovf => ?_⟩
    rw [hq]
    refine ⟨by simp only [q, hon, hen, Bool.and_self], ?_, ?_⟩
    · obtain h | h := hmf <;> simp [q, h]
    · obtain h | h := hovf <;> simp [q, h]

/-- Settles O47: an enable leaves no error bit to interrupt; a disable is the update of a pending bit after it. -/
theorem enablingAndDisablingQueues : Obligations.EnablingAndDisablingQueues := by
  unfold Obligations.EnablingAndDisablingQueues
  intro s v lowFirst
  refine ⟨fun h0 => ⟨fun hb hen => ?cqOn, fun hb hen => ?fqOn, fun ha hb hen => ?pqOn⟩,
    fun h0 => ⟨fun hb hen => ?cqOff, fun hb hen => ?fqOff, fun ha hb hen => ?pqOff⟩⟩
  case cqOn => exact (s.regWrite_cqcsr v lowFirst).trans (writeCqcsr_of_enable hb hen h0)
  case fqOn =>
    rw [State.regWrite_fqcsr hb (newOutCsr_of_enable hen h0)]
    exact State.updateFip_of_idle (.inr (Bool.and_false _))
  case pqOn =>
    rw [State.regWrite_pqcsr ha hb (newOutCsr_of_enable hen h0)]
    exact State.updatePip_of_idle (.inr (Bool.and_false _))
  case cqOff =>
    intro q n t
    have ht : t = n.updateCip := (s.regWrite_cqcsr v lowFirst).trans (writeCqcsr_of_disable hb hen h0)
    have hw : Work n n.updateCip := (Work.updateCip n).1
    have hun : n.updateCip.unreported = n.unreported := State.unreported_updateCip n
    have hoff : n.updateCip.cqcsr.cqon = false := congrArg Cqcsr.cqon hw.cqcsr
    rw [ht]
    exact ⟨rfl, hw.cqcsr, hw.outstanding, (congrArg State.timedOut hun :), (congrArg State.fetched hun :), hw.cqh, hw.cqt,
      (congrArg State.ioatc hun :), fun hi => (step_of_empty hi).trans (cqStep_of_stopped (.inl hoff))⟩
  case fqOff =>
    intro q n t
    have ht : t = n.updateFip := State.regWrite_fqcsr hb (newOutCsr_of_disable hb hen h0) lowFirst
    have hw : Work n n.updateFip := Work.updateFip n
    have hkeeps : n.updateFip.fqcsr = q ∧ n.updateFip.fqt = s.fqt := by
      cases hl : n.fqcsr.ipLevel with
      | true => exact (State.updateFip_of_level_keeps hl).2
      | false =>
        rw [State.updateFip_of_idle (.inr hl)]
        exact ⟨rfl, rfl⟩
    obtain ⟨hq, hfqt⟩ := hkeeps
    rw [ht]
    refine ⟨rfl, hq, hw.fqh, hfqt, fun r => State.report_of_discards ?_, ?_, hw.accesses⟩
    · exact OutCsr.discards_iff.mpr (.inl (congrArg OutCsr.on hq))
    · rw [hq]
      exact State.unreported_updateFip n
  case pqOff =>
    intro q n t
    have ht : t = n.updatePip := State.regWrite_pqcsr ha hb (newOutCsr_of_disable hb hen h0) lowFirst
    have hw : Work n n.updatePip := (Work.updatePip n).1
    have hq : n.updatePip.pqcsr = q := hw.pqcsr
    rw [ht]
    refine ⟨rfl, hq, hw.pqh, hw.pqt, fun m => State.pqEnqueue_of_off (.inl (congrArg OutCsr.en hq)), ?_, hw.accesses⟩
    rw [hq]
    exact State.unreported_updatePip n

/-! ### Writes of `ipsr` (R534) -/

/-- `ipsr` with the bits written 1 cleared. -/
def Ipsr.cleared (r : Ipsr) (v : DWord) : Ipsr :=
  { cip := r.cip && !v.getLsbD 0
    fip := r.fip && !v.getLsbD 1
    pmip := r.pmip && !v.getLsbD 2
    pip := r.pip && !v.getLsbD 3 }

theorem State.regWrite_ipsr (s : State) (v : DWord) (lowFirst : Bool) : s.regWrite 84 4 v lowFirst =
    ({ s with ipsr := s.ipsr.cleared v } : State).updateCip.updateFip.updatePip := by
  rw [State.regWrite_four (r := .ipsr) (by decide) rfl rfl, State.writeImage]
  simp (disch := decide) only [writeIpsr, getLsbD_mergeLow]
  rfl

/-- A fault queue without a level condition has none that is not pending after internal work. -/
theorem State.updateFip_of_work {s t : State} (h : Work s t) (hl : s.fqcsr.ipLevel = false) : t.updateFip = t := by
  apply State.updateFip_of_idle
  cases ht : t.fqcsr.ipLevel with
  | true => exact .inl (h.fip (fun hs => absurd hs (by rw [hl]; decide)) ht)
  | false => exact .inr rfl

theorem State.updatePip_of_work {s t : State} (h : Work s t) (hl : s.pqcsr.ipLevel = false) : t.updatePip = t :=
  State.updatePip_of_idle (.inr (by rw [h.pqcsr]; exact hl))

/-- The level condition of a source; performance monitoring has none (R591). -/
def State.level (s : State) : IntSource → Bool
  | .cq => s.cipLevel
  | .fq => s.fqcsr.ipLevel
  | .pm => false
  | .pq => s.pqcsr.ipLevel

/-- Where one condition alone holds its bit alone is raised. -/
theorem State.updates_of_one {s : State} {b : IntSource} (hb : s.level b = true)
    (hc : ∀ c, c ≠ b → s.level c = false) : s.updateCip.updateFip.updatePip = s.raiseIp b := by
  have hwork : Work s (s.raiseIp b) := (Work.raiseIp s b).1
  cases b with
  | cq =>
    rw [State.updateCip, if_pos (c := s.cipLevel = true) hb, State.updateFip_of_work hwork (hc .fq nofun),
      State.updatePip_of_work hwork (hc .pq nofun)]
  | fq =>
    rw [State.updateCip_of_not_level (hc .cq nofun), State.updateFip_of_level hb,
      State.updatePip_of_work hwork (hc .pq nofun)]
  | pm => cases hb
  | pq =>
    rw [State.updateCip_of_not_level (hc .cq nofun), State.updateFip_of_idle (.inr (hc .fq nofun)),
      State.updatePip_of_level hb]

/-- Where none holds nothing is raised. -/
theorem State.updates_of_none {s : State} (h : ∀ b, s.level b = false) : s.updateCip.updateFip.updatePip = s := by
  rw [State.updateCip_of_not_level (h .cq), State.updateFip_of_idle (.inr (h .fq)), State.updatePip_of_idle (.inr (h .pq))]

/-- Settles O45: the three updates after the clearing, by which conditions hold. -/
theorem ipsrWriteClearsAndReevaluates : Obligations.IpsrWriteClearsAndReevaluates := by
  unfold Obligations.IpsrWriteClearsAndReevaluates
  intro s v lowFirst cleared level
  have hwrite : s.regWrite 84 4 v lowFirst = cleared.updateCip.updateFip.updatePip := s.regWrite_ipsr v lowFirst
  have hlevel (b : IntSource) : cleared.level b = level b := by cases b <;> rfl
  simp only [← hlevel]
  rw [hwrite]
  refine ⟨fun hw => ?wired, State.updates_of_none, fun b hb hc => ?one⟩
  case wired =>
    rw [State.updateCip_wired (s := cleared) hw, State.updateFip_wired, State.updatePip_wired]
    · rfl
    · exact hw
    · exact hw
  case one =>
    rw [State.updates_of_one hb hc]
    refine ⟨rfl, ?_⟩
    intro hw hip hm hf ho
    refine ⟨(Work.raiseIp cleared b).2, ?_⟩
    rw [State.raiseIp_of_message hip hw, State.sendMsi_of_noFault (s := cleared.pend b) hm hf ho]
    rfl

end Sys2Proof.Machine

/-! PROOF. The two halves of an 8-byte register. A write of one half makes an image of which every field is the old one, the
one written, or put together from both; a read of one half gives the fields that stand in it. -/

namespace Sys2Proof.Machine

/-! ### Fields of merged images (R521) -/

section Merge
variable {k m n a i : Nat} (old v : DWord)

/-- Part of a field. -/
theorem extractLsb'_extractLsb' (x : BitVec k) (h : i + m ≤ n) :
    (x.extractLsb' a n).extractLsb' i m = x.extractLsb' (a + i) m := by
  apply BitVec.eq_of_getLsbD_eq
  intro j hj
  have hin : i + j < n := by omega
  simp only [BitVec.getLsbD_extractLsb', hj, hin, decide_true, Bool.true_and, Nat.add_assoc]

theorem extractLsb'_mergeLow_high (h : a + n ≤ 32) :
    (mergeLow old v).extractLsb' (32 + a) n = old.extractLsb' (32 + a) n := by
  rw [mergeLow, BitVec.extractLsb'_append_eq_of_le (Nat.le_add_right 32 a), extractLsb'_extractLsb' _ (by omega),
    Nat.add_sub_cancel_left]

/-- A field that lies in both halves keeps its part in the high half. -/
theorem extractLsb'_mergeLow_both (hk : a + k = 32) (hm : m ≤ 32) :
    (mergeLow old v).extractLsb' a (m + k) = old.extractLsb' 32 m ++ v.extractLsb' a k := by
  rw [← BitVec.extractLsb'_append_extractLsb'_eq_extractLsb' hk.symm, extractLsb'_mergeLow old v hk.le,
    extractLsb'_mergeLow_high old v (a := 0) (by omega)]

theorem extractLsb'_mergeHigh (w : BitVec 32) (h : a + n ≤ 32) :
    (mergeHigh old w).extractLsb' a n = old.extractLsb' a n := by
  rw [mergeHigh, BitVec.extractLsb'_append_eq_of_add_le h, extractLsb'_extractLsb' _ (by omega), Nat.zero_add]

theorem extractLsb'_mergeHigh_high (h : a + n ≤ 32) :
    (mergeHigh old (v.extractLsb' 0 32)).extractLsb' (32 + a) n = v.extractLsb' a n := by
  rw [mergeHigh, BitVec.extractLsb'_append_eq_of_le (Nat.le_add_right 32 a), extractLsb'_extractLsb' _ (by omega),
    Nat.add_sub_cancel_left, Nat.zero_add]

/-- A field that lies in both halves keeps its part in the low half. -/
theorem extractLsb'_mergeHigh_both (hk : a + k = 32) (hm : m ≤ 32) :
    (mergeHigh old (v.extractLsb' 0 32)).extractLsb' a (m + k) = v.extractLsb' 0 m ++ old.extractLsb' a k := by
  rw [← BitVec.extractLsb'_append_extractLsb'_eq_extractLsb' hk.symm, extractLsb'_mergeHigh old _ hk.le,
    extractLsb'_mergeHigh_high old v (a := 0) (by omega)]

theorem getLsbD_mergeHigh (w : BitVec 32) (h : i < 32) : (mergeHigh old w).getLsbD i = old.getLsbD i := by
  simp only [mergeHigh, BitVec.getLsbD_append, h, if_true, BitVec.getLsbD_extractLsb', decide_true, Bool.true_and,
    Nat.zero_add]

theorem getLsbD_mergeHigh_high (h : i < 32) :
    (mergeHigh old (v.extractLsb' 0 32)).getLsbD (32 + i) = v.getLsbD i := by
  have hhigh : ¬32 + i < 32 := by omega
  simp only [mergeHigh, BitVec.getLsbD_append, hhigh, if_false, Nat.add_sub_cancel_left, BitVec.getLsbD_extractLsb', h,
    decide_true, Bool.true_and, Nat.zero_add]

end Merge

/-! ### What a 4-byte access does to a register of either width (R510) -/

section Halves
variable {s : State} {off : Nat} {r : Reg}

theorem and_low_eq (x : DWord) : x &&& 0xFFFFFFFF#64 = (x.extractLsb' 0 32).setWidth 64 := by
  apply BitVec.eq_of_toNat_eq
  rw [toNat_and_low, BitVec.toNat_setWidth_of_le (by omega), BitVec.extractLsb'_toNat, Nat.shiftRight_zero]

theorem ushiftRight_eq_high (x : DWord) : x >>> 32 = (x.extractLsb' 32 32).setWidth 64 := by
  apply BitVec.eq_of_getLsbD_eq
  intro j hj
  simp only [BitVec.getLsbD_ushiftRight, BitVec.getLsbD_setWidth, BitVec.getLsbD_extractLsb', hj, decide_true,
    Bool.true_and]
  by_cases h : j < 32
  · simp only [h, decide_true, Bool.true_and]
  · simp only [h, decide_false, Bool.false_and]
    exact BitVec.getLsbD_of_ge x _ (by omega)

/-- The low half of a register that is present, or all of a 4-byte one. -/
theorem State.regRead_low (ha : off % 4 = 0) (hr : regAt off = some r) (hp : r.present s.cfg = true) :
    s.regRead off 4 = ((s.image r).extractLsb' 0 32).setWidth 64 := by
  rw [State.regRead_four ha hr, State.readReg_present hp, and_low_eq]

/-- The high half of an 8-byte register that is present. -/
theorem State.regRead_upper (ha : off % 4 = 0) (hn : regAt (off + 4) = none) (hr : regAt off = some r)
    (hw : r.wide = true) (hp : r.present s.cfg = true) :
    s.regRead (off + 4) 4 = ((s.image r).extractLsb' 32 32).setWidth 64 := by
  rw [State.regRead_high ha hn hr hw, State.readReg_present hp, ushiftRight_eq_high]

end Halves
end Sys2Proof.Machine

/-! PROOF. Writes of `fctl` and of the queue bases (O49), and of `ddtp` (O50). -/

namespace Sys2Proof.Machine

/-! ### `fctl` (R525) -/

theorem State.regWrite_fctl (s : State) (v : DWord) (lowFirst : Bool) : s.regWrite 8 4 v lowFirst = writeFctl s v := by
  rw [State.regWrite_four (r := .fctl) (by decide) rfl rfl, State.writeImage]
  simp (disch := decide) only [writeFctl, getLsbD_mergeLow]

/-! ### The queue bases (R532) -/

section Bases
variable (b : QBase) (v : DWord)

theorem QBase.extractLsb'_image :
    b.image.extractLsb' 0 5 = b.log2szm1 ∧ b.image.extractLsb' 10 22 = b.ppn.extractLsb' 0 22 ∧
    b.image.extractLsb' 32 22 = b.ppn.extractLsb' 22 22 := by
  simp (disch := decide) only [QBase.image, BitVec.extractLsb'_append_eq_of_le, BitVec.extractLsb'_append_eq_of_add_le,
    BitVec.extractLsb'_eq_self, Nat.reduceSub, and_self]

/-- The PPN of the image of a write of the low half. -/
theorem QBase.ppnEntry_mergeLow :
    ppnEntry (mergeLow b.image v) = b.ppn.extractLsb' 22 22 ++ v.extractLsb' 10 22 := by
  rw [← b.extractLsb'_image.2.2]
  exact extractLsb'_mergeLow_both _ _ (a := 10) (k := 22) (m := 22) rfl (by decide)

theorem QBase.ppnEntry_mergeHigh :
    ppnEntry (mergeHigh b.image (v.extractLsb' 0 32)) = v.extractLsb' 0 22 ++ b.ppn.extractLsb' 0 22 := by
  rw [← b.extractLsb'_image.2.1]
  exact extractLsb'_mergeHigh_both _ _ (a := 10) (k := 22) (m := 22) rfl (by decide)

theorem ite_legalPpn {α : Type} (c : Cfg) (p : BitVec 44) (x y : α) :
    (if legalPpn c p then x else y) = if p.toNat * 4096 < 2 ^ c.pas then x else y :=
  if_congr decide_eq_true_iff rfl rfl

/-- The base after a write of the low half: each of size and PPN, if it is legal. -/
theorem newBase_mergeLow (c : Cfg) (max : Nat) : newBase c max b (mergeLow b.image v) =
    (let p : BitVec 44 := b.ppn.extractLsb' 22 22 ++ v.extractLsb' 10 22
     ⟨if (v.extractLsb' 0 5).toNat + 1 ≤ max then v.extractLsb' 0 5 else b.log2szm1,
      if p.toNat * 4096 < 2 ^ c.pas then p else b.ppn⟩) := by
  rw [newBase, b.ppnEntry_mergeLow, extractLsb'_mergeLow _ _ (by decide), ite_legalPpn]

/-- The base after a write of the high half: the PPN, if it is legal. -/
theorem newBase_mergeHigh (c : Cfg) (max : Nat) : newBase c max b (mergeHigh b.image (v.extractLsb' 0 32)) =
    (let p : BitVec 44 := v.extractLsb' 0 22 ++ b.ppn.extractLsb' 0 22
     ⟨b.log2szm1, if p.toNat * 4096 < 2 ^ c.pas then p else b.ppn⟩) := by
  rw [newBase, b.ppnEntry_mergeHigh, extractLsb'_mergeHigh _ _ (by decide), b.extractLsb'_image.1, ite_self, ite_legalPpn]

/-- A masked index is below the number of entries. -/
theorem QBase.toNat_mask_lt (i : BitVec 32) : (b.mask i).toNat < 2 ^ (b.log2szm1.toNat + 1) := by
  rw [QBase.toNat_mask]
  exact Nat.mod_lt _ (Nat.two_pow_pos _)

end Bases

/-! What a write of each base does while its queue is off, and that it does nothing while it is on. -/

section BaseWrites
variable {s : State} {v : DWord} {lowFirst : Bool}

theorem State.regWrite_cqb_of_on (hon : s.cqcsr.busy = true ∨ s.cqcsr.cqon = true) :
    s.regWrite 24 4 v lowFirst = s ∧ s.regWrite 28 4 v lowFirst = s := by
  have hguard : (s.cqcsr.busy || s.cqcsr.cqon) = true := (Bool.or_eq_true _ _).mpr hon
  rw [State.regWrite_four (r := .cqb) (by decide) rfl rfl,
    State.regWrite_high (off := 24) (r := .cqb) (by decide) rfl rfl rfl rfl]
  exact ⟨if_pos hguard, if_pos hguard⟩

theorem State.regWrite_fqb_of_on (hon : s.fqcsr.busy = true ∨ s.fqcsr.on = true) :
    s.regWrite 40 4 v lowFirst = s ∧ s.regWrite 44 4 v lowFirst = s := by
  have hguard : (s.fqcsr.busy || s.fqcsr.on) = true := (Bool.or_eq_true _ _).mpr hon
  rw [State.regWrite_four (r := .fqb) (by decide) rfl rfl,
    State.regWrite_high (off := 40) (r := .fqb) (by decide) rfl rfl rfl rfl]
  exact ⟨if_pos hguard, if_pos hguard⟩

theorem State.regWrite_pqb_of_on (ha : s.cfg.ats = true) (hon : s.pqcsr.busy = true ∨ s.pqcsr.on = true) :
    s.regWrite 56 4 v lowFirst = s ∧ s.regWrite 60 4 v lowFirst = s := by
  have hguard : (s.pqcsr.busy || s.pqcsr.on) = true := (Bool.or_eq_true _ _).mpr hon
  rw [State.regWrite_four (r := .pqb) (by decide) rfl ha,
    State.regWrite_high (off := 56) (r := .pqb) (by decide) rfl rfl rfl ha]
  exact ⟨if_pos hguard, if_pos hguard⟩

theorem State.regWrite_cqb_of_off (hb : s.cqcsr.busy = false) (hon : s.cqcsr.cqon = false) :
    (∃ i, s.regWrite 24 4 v lowFirst = { s with
      cqb := newBase s.cfg s.cfg.cqLog2szMax s.cqb (mergeLow s.cqb.image v)
      cqt := (newBase s.cfg s.cfg.cqLog2szMax s.cqb (mergeLow s.cqb.image v)).mask i
      freeCtr := s.freeCtr + 1 }) ∧
    s.regWrite 28 4 v lowFirst = { s with
      cqb := newBase s.cfg s.cfg.cqLog2szMax s.cqb (mergeHigh s.cqb.image (v.extractLsb' 0 32)) } := by
  rw [State.regWrite_four (r := .cqb) (by decide) rfl rfl,
    State.regWrite_high (off := 24) (r := .cqb) (by decide) rfl rfl rfl rfl]
  simp only [State.writeImage, writeCqb, hb, hon, Bool.or_self, Bool.false_eq_true, if_false, if_true]
  exact ⟨⟨_, rfl⟩, rfl⟩

theorem State.regWrite_fqb_of_off (hb : s.fqcsr.busy = false) (hon : s.fqcsr.on = false) :
    (∃ i, s.regWrite 40 4 v lowFirst = { s with
      fqb := newBase s.cfg s.cfg.fqLog2szMax s.fqb (mergeLow s.fqb.image v)
      fqh := (newBase s.cfg s.cfg.fqLog2szMax s.fqb (mergeLow s.fqb.image v)).mask i
      freeCtr := s.freeCtr + 1 }) ∧
    s.regWrite 44 4 v lowFirst = { s with
      fqb := newBase s.cfg s.cfg.fqLog2szMax s.fqb (mergeHigh s.fqb.image (v.extractLsb' 0 32)) } := by
  rw [State.regWrite_four (r := .fqb) (by decide) rfl rfl,
    State.regWrite_high (off := 40) (r := .fqb) (by decide) rfl rfl rfl rfl]
  simp only [State.writeImage, writeFqb, hb, hon, Bool.or_self, Bool.false_eq_true, if_false, if_true]
  exact ⟨⟨_, rfl⟩, rfl⟩

theorem State.regWrite_pqb_of_off (ha : s.cfg.ats = true) (hb : s.pqcsr.busy = false) (hon : s.pqcsr.on = false) :
    (∃ i, s.regWrite 56 4 v lowFirst = { s with
      pqb := newBase s.cfg s.cfg.pqLog2szMax s.pqb (mergeLow s.pqb.image v)
      pqh := (newBase s.cfg s.cfg.pqLog2szMax s.pqb (mergeLow s.pqb.image v)).mask i
      freeCtr := s.freeCtr + 1 }) ∧
    s.regWrite 60 4 v lowFirst = { s with
      pqb := newBase s.cfg s.cfg.pqLog2szMax s.pqb (mergeHigh s.pqb.image (v.extractLsb' 0 32)) } := by
  rw [State.regWrite_four (r := .pqb) (by decide) rfl ha,
    State.regWrite_high (off := 56) (r := .pqb) (by decide) rfl rfl rfl ha]
  simp only [State.writeImage, writePqb, hb, hon, Bool.or_self, Bool.false_eq_true, if_false, if_true]
  exact ⟨⟨_, rfl⟩, rfl⟩

end BaseWrites

/-- Settles O49: the write of `fctl` as it stands; of each base the merged image by its fields, and a free index that is
masked by the new base. -/
theorem writesOfFctlAndQueueBases : Obligations.WritesOfFctlAndQueueBases := by
  unfold Obligations.WritesOfFctlAndQueueBases
  intro s v lowFirst base high lowPpn highPpn
  refine ⟨?fctl, ⟨fun ⟨hb, hon⟩ => ?cq, State.regWrite_cqb_of_on⟩, ⟨fun ⟨hb, hon⟩ => ?fq, State.regWrite_fqb_of_on⟩,
    fun ha => ⟨fun ⟨hb, hon⟩ => ?pq, State.regWrite_pqb_of_on ha⟩⟩
  case fctl =>
    rw [State.regWrite_fctl, writeFctl]
    simp only [Bool.and_eq_true, Bool.not_eq_true', decide_eq_true_eq, and_assoc]
    exact ⟨fun h => if_pos h, fun h => if_neg h⟩
  case cq =>
    obtain ⟨⟨i, hlow⟩, hhigh⟩ := State.regWrite_cqb_of_off (v := v) (lowFirst := lowFirst) hb hon
    rw [newBase_mergeLow] at hlow
    rw [newBase_mergeHigh] at hhigh
    exact ⟨⟨_, hlow, QBase.toNat_mask_lt _ _⟩, hhigh⟩
  case fq =>
    obtain ⟨⟨i, hlow⟩, hhigh⟩ := State.regWrite_fqb_of_off (v := v) (lowFirst := lowFirst) hb hon
    rw [newBase_mergeLow] at hlow
    rw [newBase_mergeHigh] at hhigh
    exact ⟨⟨_, hlow, QBase.toNat_mask_lt _ _⟩, hhigh⟩
  case pq =>
    obtain ⟨⟨i, hlow⟩, hhigh⟩ := State.regWrite_pqb_of_off (v := v) (lowFirst := lowFirst) ha hb hon
    rw [newBase_mergeLow] at hlow
    rw [newBase_mergeHigh] at hhigh
    exact ⟨⟨_, hlow, QBase.toNat_mask_lt _ _⟩, hhigh⟩

/-! ### `ddtp` (R520 to R524) -/

section Mode
variable (c : Cfg)

theorem legalMode_code (m : IommuMode) : legalMode c m.code = if modeSupported c m then some m else none := by
  cases m <;> rfl

theorem legalMode_of_no_code {b : BitVec 4} (h : ∀ k : IommuMode, b ≠ k.code) : legalMode c b = none := by
  have h0 : b ≠ 0#4 := h .off
  have h1 : b ≠ 1#4 := h .bare
  have h2 : b ≠ 2#4 := h .lvl1
  have h3 : b ≠ 3#4 := h .lvl2
  have h4 : b ≠ 4#4 := h .lvl3
  simp only [legalMode, h0, h1, h2, h3, h4, if_false]

/-- The mode a write counts as: the one written if it is legal, else the one held. -/
theorem legalMode_getD {b : BitVec 4} {m held : IommuMode}
    (h : (b = m.code ∧ modeSupported c m = true) ∨
      ((¬∃ k : IommuMode, b = k.code ∧ modeSupported c k = true) ∧ m = held)) : (legalMode c b).getD held = m := by
  obtain ⟨rfl, hsup⟩ | ⟨hnone, rfl⟩ := h
  · rw [legalMode_code, if_pos hsup, Option.getD_some]
  · by_cases hcode : ∃ k : IommuMode, b = k.code
    · obtain ⟨k, rfl⟩ := hcode
      rw [legalMode_code, if_neg fun hsup => hnone ⟨k, rfl, hsup⟩, Option.getD_none]
    · rw [legalMode_of_no_code c fun k hk => hcode ⟨k, hk⟩, Option.getD_none]

/-- R523, as the statement words it. -/
theorem ddtpAllowed_iff {same : Bool} {a b : IommuMode} : ddtpAllowed same a b = true ↔
    a = .off ∨ (a = .bare ∧ (b ≠ .off ∨ same = true)) ∨ (same = true ∧ (b = .off ∨ b = a)) := by
  cases a <;> cases b <;> simp [ddtpAllowed]

end Mode

section Ddtp
variable (r : Ddtp) (v : DWord)

theorem Ddtp.extractLsb'_image :
    r.image.extractLsb' 0 4 = r.mode.code ∧ r.image.extractLsb' 10 22 = r.ppn.extractLsb' 0 22 ∧
    r.image.extractLsb' 32 22 = r.ppn.extractLsb' 22 22 := by
  simp (disch := decide) only [Ddtp.image, BitVec.extractLsb'_append_eq_of_le, BitVec.extractLsb'_append_eq_of_add_le,
    BitVec.extractLsb'_eq_self, Nat.reduceSub, and_self]

theorem Ddtp.ppnEntry_mergeLow :
    ppnEntry (mergeLow r.image v) = r.ppn.extractLsb' 22 22 ++ v.extractLsb' 10 22 := by
  rw [← r.extractLsb'_image.2.2]
  exact extractLsb'_mergeLow_both _ _ (a := 10) (k := 22) (m := 22) rfl (by decide)

theorem Ddtp.ppnEntry_mergeHigh :
    ppnEntry (mergeHigh r.image (v.extractLsb' 0 32)) = v.extractLsb' 0 22 ++ r.ppn.extractLsb' 0 22 := by
  rw [← r.extractLsb'_image.2.1]
  exact extractLsb'_mergeHigh_both _ _ (a := 10) (k := 22) (m := 22) rfl (by decide)

end Ddtp

section DdtpWrites
variable {s : State} {v w : DWord} {m : IommuMode} {p : BitVec 44} {low lowFirst : Bool}

/-- A write of `ddtp` that gives it a mode and a PPN, legal ones or those held. -/
theorem writeDdtp_eq (hb : s.ddtp.busy = false) (hm : (legalMode s.cfg (w.extractLsb' 0 4)).getD s.ddtp.mode = m)
    (hp : (if (ppnEntry w).toNat * 4096 < 2 ^ s.cfg.pas then ppnEntry w else s.ddtp.ppn) = p) :
    writeDdtp s w low = if ddtpAllowed (p == s.ddtp.ppn) s.ddtp.mode m then
      { (if low && m == .off then s.commitReads.commitWrites else s) with ddtp := ⟨m, false, p⟩ } else s := by
  rw [← ite_legalPpn] at hp
  simp only [writeDdtp, hm, hp, hb, Bool.false_or]
  cases ddtpAllowed (p == s.ddtp.ppn) s.ddtp.mode m <;> rfl

theorem State.regWrite_ddtp_low (hb : s.ddtp.busy = false)
    (hm : (legalMode s.cfg (v.extractLsb' 0 4)).getD s.ddtp.mode = m)
    (hp : (let q : BitVec 44 := s.ddtp.ppn.extractLsb' 22 22 ++ v.extractLsb' 10 22
      if q.toNat * 4096 < 2 ^ s.cfg.pas then q else s.ddtp.ppn) = p) :
    s.regWrite 16 4 v lowFirst = if ddtpAllowed (p == s.ddtp.ppn) s.ddtp.mode m then
      { (if m == .off then s.commitReads.commitWrites else s) with ddtp := ⟨m, false, p⟩ } else s := by
  rw [State.regWrite_four (r := .ddtp) (by decide) rfl rfl]
  refine writeDdtp_eq hb ?_ ?_
  · rw [extractLsb'_mergeLow _ _ (by decide), hm]
  · rw [State.image, s.ddtp.ppnEntry_mergeLow]
    exact hp

/-- The high half: the mode stays. -/
theorem State.regWrite_ddtp_high (hb : s.ddtp.busy = false)
    (hp : (let q : BitVec 44 := v.extractLsb' 0 22 ++ s.ddtp.ppn.extractLsb' 0 22
      if q.toNat * 4096 < 2 ^ s.cfg.pas then q else s.ddtp.ppn) = p) :
    s.regWrite 20 4 v lowFirst = if ddtpAllowed (p == s.ddtp.ppn) s.ddtp.mode s.ddtp.mode then
      { s with ddtp := ⟨s.ddtp.mode, false, p⟩ } else s := by
  rw [State.regWrite_high (off := 16) (r := .ddtp) (by decide) rfl rfl rfl rfl]
  refine writeDdtp_eq hb ?_ ?_
  · rw [extractLsb'_mergeHigh _ _ (by decide), State.image, s.ddtp.extractLsb'_image.1, legalMode_code]
    split <;> rfl
  · rw [State.image, s.ddtp.ppnEntry_mergeHigh]
    exact hp

end DdtpWrites

/-- Settles O50: each half gives a mode and a PPN, and the table of the transitions says whether they are stored. -/
theorem ddtpTransitions : Obligations.DdtpTransitions := by
  unfold Obligations.DdtpTransitions
  intro s v lowFirst m hb hm w p wh ph allowed
  have hallowed : ddtpAllowed (p == s.ddtp.ppn) s.ddtp.mode m = true ↔ allowed := by
    rw [ddtpAllowed_iff, beq_iff_eq]
  rw [State.regWrite_ddtp_low hb (legalMode_getD _ hm) (p := p) rfl, State.regWrite_ddtp_high hb (p := ph) rfl]
  refine ⟨fun ha hne => ?stored, fun ha heq => ?off, fun ha => if_neg (mt hallowed.mp ha), fun hmode => ?high,
    fun hmode => ?highIgnored⟩
  case stored =>
    rw [if_pos (hallowed.mpr ha), if_neg (by rwa [beq_iff_eq])]
  case off =>
    subst heq
    rw [if_pos (hallowed.mpr ha), if_pos (beq_self_eq_true _)]
  case high =>
    refine if_pos (ddtpAllowed_iff.mpr ?_)
    obtain hoff | hbare := hmode
    · exact .inl hoff
    · exact .inr (.inl ⟨hbare, .inl (by rw [hbare]; decide)⟩)
  case highIgnored =>
    obtain ⟨hoff, hbare⟩ := not_or.mp hmode
    split
    next ha =>
      obtain h | ⟨h, -⟩ | ⟨hsame, -⟩ := ddtpAllowed_iff.mp ha
      · exact absurd h hoff
      · exact absurd h hbare
      · rw [beq_iff_eq.mp hsame, ← hb]
    next => rfl

end Sys2Proof.Machine

/-! PROOF. Writes of the MSI table (O44), and the view of the OF bits (O54). -/

namespace Sys2Proof.Machine

/-! ### Reads of registers of 32 bits or less, and writes of absent ones -/

section Narrow
variable {s : State} {off n : Nat} {r : Reg}

/-- Zeros above a field are no part of its value. -/
theorem setWidth_zeros_append {m k : Nat} (x : BitVec n) : (0#m ++ x).setWidth k = x.setWidth k := by
  apply BitVec.eq_of_toNat_eq
  simp only [BitVec.toNat_setWidth, BitVec.toNat_append, BitVec.toNat_ofNat, Nat.zero_mod, Nat.zero_shiftLeft,
    Nat.zero_or]

theorem setWidth_and_low_of_le (hn : n ≤ 32) (x : BitVec n) : x.setWidth 64 &&& 0xFFFFFFFF#64 = x.setWidth 64 := by
  have hx : x.toNat < 2 ^ 32 := Nat.lt_of_lt_of_le x.isLt (Nat.pow_le_pow_right (by decide) hn)
  apply BitVec.eq_of_toNat_eq
  rw [toNat_and_low, BitVec.toNat_setWidth_of_le (by omega), Nat.mod_eq_of_lt hx]

/-- A 4-byte read of a register that holds no more than 32 bits gives it whole. -/
theorem State.regRead_narrow {x : BitVec n} (ha : off % 4 = 0) (hr : regAt off = some r) (hp : r.present s.cfg = true)
    (hn : n ≤ 32) (hi : s.image r = x.setWidth 64) : s.regRead off 4 = x.setWidth 64 := by
  rw [State.regRead_four ha hr, State.readReg_present hp, hi, setWidth_and_low_of_le hn]

/-- A write of the high half of an 8-byte register that is absent is ignored. -/
theorem State.regWrite_high_absent (ha : off % 4 = 0) (hn : regAt (off + 4) = none) (hr : regAt off = some r)
    (hp : r.present s.cfg = false) (v : DWord) (lowFirst : Bool) : s.regWrite (off + 4) 4 v lowFirst = s := by
  have h4 : (off + 4) % 4 = 0 := by omega
  simp only [State.regWrite, State.regWrite4, h4, hn, Nat.add_sub_cancel, hr, State.writeHalf, hp, and_self,
    Bool.false_eq_true, if_false, ite_self]

theorem State.readReg_absent (hp : r.present s.cfg = false) : s.readReg r = 0#64 :=
  if_neg (Bool.eq_false_iff.mp hp)

end Narrow

/-! ### Where the registers of an entry are (R64) -/

theorem regAt_msi : ∀ x : Fin 16, regAt (768 + 16 * x.val) = some (.msiAddr x) ∧
    regAt (768 + 16 * x.val + 4) = none ∧ regAt (768 + 16 * x.val + 8) = some (.msiData x) ∧
    regAt (768 + 16 * x.val + 12) = some (.msiVecCtl x) := by
  decide

/-- An entry that the implementation has. -/
theorem msi_present {c : Cfg} {x : Fin 16} (hi : c.igs ≠ .wsi) (hx : x.val < c.nVectors) :
    (Reg.msiAddr x).present c = true :=
  (Bool.and_eq_true _ _).mpr ⟨bne_iff_ne.mpr hi, decide_eq_true hx⟩

theorem msi_absent {c : Cfg} {x : Fin 16} (h : c.igs = .wsi ∨ c.nVectors ≤ x.val) :
    (Reg.msiAddr x).present c = false := by
  rw [Bool.eq_false_iff]
  intro hp
  obtain ⟨hi, hx⟩ := (Bool.and_eq_true _ _).mp hp
  obtain h | h := h
  · exact bne_iff_ne.mp hi h
  · exact absurd (of_decide_eq_true hx) (by omega)

/-! ### The fields of an entry's address -/

section Address
variable (e : MsiEntry) (v : DWord)

theorem MsiEntry.extractLsb'_address :
    e.address.extractLsb' 2 30 = e.addr.extractLsb' 0 30 ∧ e.address.extractLsb' 32 24 = e.addr.extractLsb' 30 24 ∧
    e.address.extractLsb' 56 8 = 0#8 := by
  simp (disch := decide) only [MsiEntry.address, BitVec.extractLsb'_append_eq_of_le,
    BitVec.extractLsb'_append_eq_of_add_le, BitVec.extractLsb'_eq_self, Nat.reduceSub, and_self]

theorem MsiEntry.address_mergeLow :
    (mergeLow e.address v).extractLsb' 2 54 = e.addr.extractLsb' 30 24 ++ v.extractLsb' 2 30 := by
  rw [← e.extractLsb'_address.2.1]
  exact extractLsb'_mergeLow_both _ _ (a := 2) (k := 30) (m := 24) rfl (by decide)

theorem MsiEntry.address_mergeHigh :
    (mergeHigh e.address (v.extractLsb' 0 32)).extractLsb' 2 54 = v.extractLsb' 0 24 ++ e.addr.extractLsb' 0 30 := by
  rw [← e.extractLsb'_address.1]
  exact extractLsb'_mergeHigh_both _ _ (a := 2) (k := 30) (m := 24) rfl (by decide)

/-- The low half of the address: its low 30 bits above two zeros. -/
theorem MsiEntry.address_low (hi : BitVec 24) (lo : BitVec 30) (h : e.addr = hi ++ lo) :
    e.address.extractLsb' 0 32 = lo ++ 0#2 := by
  have hlo : FieldAt e.address 2 lo := by
    rw [FieldAt, e.extractLsb'_address.1, h, BitVec.extractLsb'_append_eq_right]
  exact fieldAt_append_iff.mpr ⟨hlo, BitVec.extractLsb'_append_eq_right⟩

theorem MsiEntry.address_high (hi : BitVec 24) (lo : BitVec 30) (h : e.addr = hi ++ lo) :
    e.address.extractLsb' 32 32 = 0#8 ++ hi := by
  have hhi : FieldAt e.address 32 hi := by
    rw [FieldAt, e.extractLsb'_address.2.1, h, BitVec.extractLsb'_append_eq_left]
  have hzeros : FieldAt e.address (32 + 24) 0#8 := e.extractLsb'_address.2.2
  exact fieldAt_append_iff.mpr ⟨hzeros, hhi⟩

end Address

/-! ### What a write of each register of an entry does (R543, R593) -/

/-- `s` with another entry of the MSI table. -/
def State.withEntry (s : State) (x : Fin 16) (e : MsiEntry) : State :=
  { s with msiCfg := s.msiCfg.set x e }

section Entry
variable {s : State} {x : Fin 16} {v : DWord} {lowFirst : Bool} (hp : (Reg.msiAddr x).present s.cfg = true)
include hp

theorem State.regWrite_msiAddr_low {a : BitVec 54} (ha : s.msiCfg[x].addr.extractLsb' 30 24 ++ v.extractLsb' 2 30 = a) :
    s.regWrite (768 + 16 * x.val) 4 v lowFirst =
      if a.toNat * 4 < 2 ^ s.cfg.pas then s.withEntry x { s.msiCfg[x] with addr := a } else s := by
  obtain ⟨hreg, -⟩ := regAt_msi x
  have hfield : (mergeLow (s.image (.msiAddr x)) v).extractLsb' 2 54 = a := (s.msiCfg[x].address_mergeLow v).trans ha
  rw [State.regWrite_four (by omega) hreg hp, State.writeImage, writeMsiAddr, hfield]
  rfl

theorem State.regWrite_msiAddr_high {a : BitVec 54} (ha : v.extractLsb' 0 24 ++ s.msiCfg[x].addr.extractLsb' 0 30 = a) :
    s.regWrite (768 + 16 * x.val + 4) 4 v lowFirst =
      if a.toNat * 4 < 2 ^ s.cfg.pas then s.withEntry x { s.msiCfg[x] with addr := a } else s := by
  obtain ⟨hreg, hnone, -⟩ := regAt_msi x
  have hfield : (mergeHigh (s.image (.msiAddr x)) (v.extractLsb' 0 32)).extractLsb' 2 54 = a :=
    (s.msiCfg[x].address_mergeHigh v).trans ha
  rw [State.regWrite_high (by omega) hnone hreg rfl hp, State.writeImage, writeMsiAddr, hfield]
  rfl

theorem State.regWrite_msiData : s.regWrite (768 + 16 * x.val + 8) 4 v lowFirst =
    s.withEntry x { s.msiCfg[x] with data := v.extractLsb' 0 32 } := by
  obtain ⟨-, -, hreg, -⟩ := regAt_msi x
  rw [State.regWrite_four (by omega) hreg hp, State.writeImage, writeMsiData, extractLsb'_mergeLow _ _ (by decide)]
  rfl

theorem State.regWrite_msiVecCtl : s.regWrite (768 + 16 * x.val + 12) 4 v lowFirst =
    (let t := s.withEntry x { s.msiCfg[x] with m := v.getLsbD 0 }
     if s.msiCfg[x].m && !v.getLsbD 0 && s.msiPending[x] then
      ({ t with msiPending := t.msiPending.set x false } : State).sendMsi (BitVec.ofNat 4 x.val) else t) := by
  obtain ⟨-, -, -, hreg⟩ := regAt_msi x
  rw [State.regWrite_four (by omega) hreg hp, State.writeImage, writeMsiVecCtl, getLsbD_mergeLow _ _ (by decide)]
  rfl

end Entry

/-! ### What an entry reads as -/

section Reads
variable {s : State} {x : Fin 16} {e : MsiEntry} (hp : (Reg.msiAddr x).present s.cfg = true)

theorem State.msiEntry_ofNat (s : State) (x : Fin 16) : s.msiEntry (BitVec.ofNat 4 x.val) = s.msiCfg[x] := by
  have hx : (BitVec.ofNat 4 x.val).toNat = x.val := by
    rw [BitVec.toNat_ofNat, Nat.mod_eq_of_lt x.isLt]
  simp only [State.msiEntry, hx]
  rfl

theorem State.msiCfg_withEntry : (s.withEntry x e).msiCfg[x] = e :=
  Vector.getElem_set_self x.isLt

include hp

theorem State.regRead_msiAddr_low : (s.withEntry x e).regRead (768 + 16 * x.val) 4 =
    (e.address.extractLsb' 0 32).setWidth 64 := by
  obtain ⟨hreg, -⟩ := regAt_msi x
  rw [State.regRead_low (s := s.withEntry x e) (by omega) hreg hp, State.image, State.msiCfg_withEntry]

theorem State.regRead_msiAddr_high : (s.withEntry x e).regRead (768 + 16 * x.val + 4) 4 =
    (e.address.extractLsb' 32 32).setWidth 64 := by
  obtain ⟨hreg, hnone, -⟩ := regAt_msi x
  rw [State.regRead_upper (s := s.withEntry x e) (by omega) hnone hreg rfl hp, State.image, State.msiCfg_withEntry]

theorem State.regRead_msiData : (s.withEntry x e).regRead (768 + 16 * x.val + 8) 4 = e.data.setWidth 64 := by
  obtain ⟨-, -, hreg, -⟩ := regAt_msi x
  refine State.regRead_narrow (by omega) hreg hp (by decide) ?_
  rw [State.image, State.msiCfg_withEntry]

theorem State.regRead_msiVecCtl : (s.withEntry x e).regRead (768 + 16 * x.val + 12) 4 = (bit e.m).setWidth 64 := by
  obtain ⟨-, -, -, hreg⟩ := regAt_msi x
  refine State.regRead_narrow (by omega) hreg hp (by decide) ?_
  rw [State.image, State.msiCfg_withEntry]

end Reads

/-- An entry that the implementation does not have reads 0 and ignores writes. -/
theorem msi_absent_access {s : State} {x : Fin 16} (hp : (Reg.msiAddr x).present s.cfg = false) (v : DWord)
    (lowFirst : Bool) : ∀ k, k ∈ [0, 4, 8, 12] →
    s.regRead (768 + 16 * x.val + k) 4 = 0#64 ∧ s.regWrite (768 + 16 * x.val + k) 4 v lowFirst = s := by
  obtain ⟨haddr, hnone, hdata, hctl⟩ := regAt_msi x
  have hread {off : Nat} {r : Reg} (ha : off % 4 = 0) (hr : regAt off = some r) (hr0 : r.present s.cfg = false) :
      s.regRead off 4 = 0#64 := by
    rw [State.regRead_four ha hr, State.readReg_absent hr0]
    rfl
  simp only [List.forall_mem_cons, List.not_mem_nil, false_imp_iff, implies_true, and_true]
  refine ⟨⟨hread (by omega) haddr hp, State.regWrite_absent (by omega) haddr hp v lowFirst⟩,
    ⟨?_, State.regWrite_high_absent (by omega) hnone haddr hp v lowFirst⟩,
    ⟨hread (by omega) hdata hp, State.regWrite_absent (by omega) hdata hp v lowFirst⟩,
    ⟨hread (by omega) hctl hp, State.regWrite_absent (by omega) hctl hp v lowFirst⟩⟩
  rw [State.regRead_high (by omega) hnone haddr rfl, State.readReg_absent hp]
  rfl

/-- A bit of a word as a field. -/
theorem bit_getLsbD (v : DWord) (a : Nat) : bit (v.getLsbD a) = v.extractLsb' a 1 :=
  (fieldAt_bit_iff.mpr rfl).symm

/-- `s` with the mask bit of an entry cleared and its message no longer pending. -/
def State.unmask (s : State) (x : Fin 16) : State :=
  { s.withEntry x { s.msiCfg[x] with m := false } with msiPending := s.msiPending.set x false }

theorem State.msiEntry_unmask (s : State) (x : Fin 16) :
    (s.unmask x).msiEntry (BitVec.ofNat 4 x.val) = { s.msiCfg[x] with m := false } :=
  ((s.unmask x).msiEntry_ofNat x).trans State.msiCfg_withEntry

/-- The message that was pending goes out when its vector is unmasked. -/
theorem State.sendMsi_unmask {s : State} {x : Fin 16}
    (hf : s.accessFaults .write s.msiCfg[x].address.toNat 4 = false) (ho : s.others = []) :
    (s.unmask x).sendMsi (BitVec.ofNat 4 x.val) = { s.unmask x with
      mem := Memory.writeBytes s.mem s.msiCfg[x].address.toNat (toBytes s.fctl.be 4 s.msiCfg[x].data.toNat)
      bus := s.bus ++ [⟨.write, s.msiCfg[x].address.toNat, 4, s.iommuQos⟩]
      out := s.out ++ [.msi s.msiCfg[x].address s.msiCfg[x].data] } := by
  have hentry := s.msiEntry_unmask x
  rw [State.sendMsi_of_noFault (s := s.unmask x) (by rw [hentry]) (by rw [hentry]; exact hf) ho, hentry]
  rfl

/-- Clearing the mask bit of a vector with a message pending. -/
theorem State.regWrite_unmask {s : State} {x : Fin 16} {v : DWord} {lowFirst : Bool}
    (hp : (Reg.msiAddr x).present s.cfg = true) (hm : s.msiCfg[x].m = true) (hpend : s.msiPending[x] = true)
    (h0 : v.getLsbD 0 = false) :
    s.regWrite (768 + 16 * x.val + 12) 4 v lowFirst = (s.unmask x).sendMsi (BitVec.ofNat 4 x.val) := by
  rw [State.regWrite_msiVecCtl hp]
  simp only [hm, hpend, h0, Bool.not_false, Bool.and_self, if_true]
  rfl

/-- Settles O44: the write of each register of an entry that is there, and the message of a vector that is unmasked. -/
theorem msiTableWrites : Obligations.MsiTableWrites := by
  unfold Obligations.MsiTableWrites
  refine ⟨fun s x v lowFirst hi hx hm hpend h0 hf ho => ?unmask, fun s x v lowFirst => ?_⟩
  case unmask =>
    rw [State.regWrite_unmask (msi_present hi hx) hm hpend h0, State.sendMsi_unmask hf ho]
    rfl
  intro off old entry legal
  refine ⟨fun hi hx => ?present, fun h => msi_absent_access (msi_absent h) v lowFirst⟩
  have hp := msi_present hi hx
  refine ⟨?low, ?high, ⟨State.regWrite_msiData hp, ?data⟩, fun hkeep => ?ctl⟩
  case low =>
    intro a
    rw [State.regWrite_msiAddr_low hp (a := a) rfl]
    refine ⟨fun hl => ?_, fun hl => if_neg hl⟩
    rw [if_pos hl]
    refine ⟨rfl, (State.regRead_msiAddr_low hp).trans ?_⟩
    rw [MsiEntry.address_low _ _ _ rfl]
  case high =>
    intro a
    rw [State.regWrite_msiAddr_high hp (a := a) rfl]
    refine ⟨fun hl => ?_, fun hl => if_neg hl⟩
    rw [if_pos hl]
    refine ⟨rfl, (State.regRead_msiAddr_high hp).trans ?_⟩
    rw [MsiEntry.address_high _ _ _ rfl, setWidth_zeros_append]
  case data =>
    rw [State.regWrite_msiData hp, State.regRead_msiData hp]
  case ctl =>
    have hskip : (s.msiCfg[x].m && !v.getLsbD 0 && s.msiPending[x]) = false := by
      rw [Bool.eq_false_iff, ne_eq, Bool.and_eq_true, Bool.and_eq_true, Bool.not_eq_true']
      rintro ⟨⟨hm, h0⟩, hpend⟩
      obtain h | h | h := hkeep
      · exact Bool.false_ne_true (h.symm.trans hm)
      · exact Bool.false_ne_true (h0.symm.trans h)
      · exact Bool.false_ne_true (h.symm.trans hpend)
    have hwrite := State.regWrite_msiVecCtl hp (v := v) (lowFirst := lowFirst)
    rw [if_neg (by rw [hskip]; decide)] at hwrite
    rw [hwrite]
    refine ⟨rfl, (State.regRead_msiVecCtl hp).trans ?_⟩
    rw [bit_getLsbD]

end Sys2Proof.Machine

/-! PROOF. The view of the OF bits (O54). -/

namespace Sys2Proof.Machine

/-! ### Where the counters are (R33) -/

theorem regAt_counter : ∀ n : Fin 31, regAt (104 + 8 * n.val) = some (.iohpmctr n) ∧
    regAt (104 + 8 * n.val + 4) = none ∧ regAt (352 + 8 * n.val) = some (.iohpmevt n) ∧
    regAt (352 + 8 * n.val + 4) = none := by
  decide

/-- A counter that the implementation has. -/
theorem counter_present {c : Cfg} {n : Fin 31} (hh : c.hpm = true) (hn : n.val < c.hpmCounters) :
    (Reg.iohpmctr n).present c = true :=
  (Bool.and_eq_true _ _).mpr ⟨hh, decide_eq_true hn⟩

/-! ### The bits of a view (R638) -/

theorem bitsOf_lt (f : Nat → Bool) (n : Nat) : bitsOf f n < 2 ^ n := by
  induction n with
  | zero => exact Nat.one_pos
  | succ n ih =>
    rw [bitsOf, Nat.pow_succ]
    split <;> omega

theorem testBit_bitsOf (f : Nat → Bool) {n k : Nat} (hk : k < n) : (bitsOf f n).testBit k = f k := by
  induction n with
  | zero => exact absurd hk (Nat.not_lt_zero k)
  | succ n ih =>
    have hsplit : bitsOf f (n + 1) = 2 ^ n * (f n).toNat + bitsOf f n := by
      rw [bitsOf]
      cases f n <;> simp [Nat.add_comm]
    rw [hsplit, Nat.testBit_two_pow_mul_add _ (bitsOf_lt f n)]
    split
    next hlt => exact ih hlt
    next hge =>
      obtain rfl : k = n := by omega
      rw [Nat.sub_self, Nat.testBit_zero]
      cases f k <;> rfl

theorem State.getLsbD_countovf_zero (s : State) : s.countovf.getLsbD 0 = s.iohpmcycles.ovf := by
  rw [State.countovf, BitVec.getLsbD_ofNat, testBit_bitsOf _ (by decide)]
  rfl

theorem State.getLsbD_countovf_succ (s : State) (n : Fin 31) : s.countovf.getLsbD (n.val + 1) = s.iohpmevt[n].ovf := by
  have hn : n.val + 1 < 32 := by omega
  rw [State.countovf, BitVec.getLsbD_ofNat, testBit_bitsOf _ hn]
  simp [hn]

/-! ### Writing an OF bit -/

theorem writeIohpmevt_self (s : State) (n : Fin 31) (v : DWord) : (writeIohpmevt s n v).iohpmevt[n].ovf = v.getLsbD 63 :=
  congrArg HpmEvt.ovf (Vector.getElem_set_self n.isLt)

/-- Settles O54: the bits of the view by induction on its width, and each OF bit by the write of the high half that holds
it. -/
theorem countovfIsView : Obligations.CountovfIsView := by
  unfold Obligations.CountovfIsView
  intro s v lowFirst
  refine ⟨s.getLsbD_countovf_zero, s.getLsbD_countovf_succ, fun hh => ?read, s.regWrite_readOnly_four (by decide) v lowFirst,
    fun hh => ?cycles, fun n hh hn => ?event⟩
  case read => exact State.regRead_narrow (r := .iocountovf) (by decide) rfl hh (by decide) rfl
  case cycles =>
    rw [State.regWrite_high (off := 96) (r := .iohpmcycles) (by decide) rfl rfl rfl hh]
    exact getLsbD_mergeHigh_high _ v (i := 31) (by decide)
  case event =>
    obtain ⟨-, -, hreg, hnone⟩ := regAt_counter n
    rw [State.regWrite_high (by omega) hnone hreg rfl (counter_present hh hn), State.writeImage, writeIohpmevt_self]
    exact getLsbD_mergeHigh_high _ v (i := 31) (by decide)

end Sys2Proof.Machine

/-! PROOF. Counting (O53). An event is counted in one counter after the other; since an interrupt neither reads nor writes the
counters (`raiseIp_withCounters`) and is raised once at most (`raiseIp_of_pending`), what is left after any part of the
counters is said at once by `State.counted`. -/

namespace Sys2Proof.Machine

/-! ### Which counters count (R634 to R636) -/

/-- An identifier agrees with the selector's: whole, or with DMASK in the bits above the lowest 0 bit. -/
def HpmEvt.Agrees (sel : HpmEvt) (id : BitVec 24) : Prop :=
  (sel.dmask = false ∧ id = sel.didGscid) ∨
  (sel.dmask = true ∧ ∀ j, j < 24 → (∃ i, i < j ∧ sel.didGscid.getLsbD i = false) →
    id.getLsbD j = sel.didGscid.getLsbD j)

/-- A bit is above a 0 bit exactly if it is above the lowest one. -/
theorem exists_zero_below_iff (x : BitVec 24) {j : Nat} (hj : j < 24) :
    (∃ i, i < j ∧ x.getLsbD i = false) ↔ trailingOnes 24 x.toNat < j := by
  constructor
  · rintro ⟨i, hi, hzero⟩
    by_contra hle
    have hone : x.toNat.testBit i = true := testBit_of_lt_trailingOnes (n := 24) (by omega)
    exact Bool.false_ne_true (hzero.symm.trans hone)
  · exact fun hlt => ⟨_, hlt, testBit_trailingOnes (by omega)⟩

/-- Two identifiers agree from a bit up exactly if they are the same without the bits below. -/
theorem div_two_pow_eq_iff (x y : BitVec 24) (k : Nat) :
    x.toNat / 2 ^ k = y.toNat / 2 ^ k ↔ ∀ j, j < 24 → k ≤ j → x.getLsbD j = y.getLsbD j := by
  constructor
  · intro h j _ hkj
    have hbit := congrArg (·.testBit (j - k)) h
    simp only [Nat.testBit_div_two_pow, Nat.sub_add_cancel hkj] at hbit
    exact hbit
  · intro h
    apply Nat.eq_of_testBit_eq
    intro i
    rw [Nat.testBit_div_two_pow, Nat.testBit_div_two_pow]
    by_cases hi : i + k < 24
    · exact h (i + k) hi (by omega)
    · exact (BitVec.getLsbD_of_ge x _ (by omega)).trans (BitVec.getLsbD_of_ge y _ (by omega)).symm

theorem didMatch_iff (sel : HpmEvt) (id : BitVec 24) : didMatch sel id = true ↔ sel.Agrees id := by
  unfold didMatch HpmEvt.Agrees
  cases sel.dmask with
  | false => simp
  | true =>
    simp only [if_true, beq_iff_eq, div_two_pow_eq_iff, Bool.true_eq_false, false_and, false_or, true_and]
    exact forall₂_congr fun j hj => imp_congr_left (Nat.succ_le_iff.trans (exists_zero_below_iff _ hj).symm)

theorem filterMatch_iff (sel : HpmEvt) (t : EventIds) : filterMatch sel t = true ↔
    (sel.idt = true → (sel.pvPscv = true → t.pscid = some sel.pidPscid) ∧
      (sel.dvGscv = true → ∃ g, t.gscid = some g ∧ sel.Agrees (g.setWidth 24))) ∧
    (sel.idt = false → (sel.pvPscv = true → t.pid = some sel.pidPscid) ∧ (sel.dvGscv = true → sel.Agrees t.did)) := by
  unfold filterMatch
  cases sel.idt with
  | false =>
    simp only [Bool.false_eq_true, if_false, false_imp_iff, true_imp_iff, true_and, Bool.and_eq_true, Bool.or_eq_true,
      Bool.not_eq_true', beq_iff_eq, didMatch_iff]
    cases sel.pvPscv <;> cases sel.dvGscv <;> simp
  | true =>
    simp only [if_true, Bool.true_eq_false, false_imp_iff, true_imp_iff, and_true, Bool.and_eq_true, Bool.or_eq_true,
      Bool.not_eq_true', beq_iff_eq]
    cases t.gscid with
    | none => cases sel.pvPscv <;> cases sel.dvGscv <;> simp
    | some g => cases sel.pvPscv <;> cases sel.dvGscv <;> simp [didMatch_iff]

theorem idtSupported_iff (e : HpmEvent) (idt : Bool) :
    idtSupported e idt = true ↔ (idt = true → e = .tlbMiss ∨ e = .s1Walk ∨ e = .s2Walk) := by
  cases idt <;> simp [idtSupported, or_assoc]

theorem State.counts_iff (s : State) (e : HpmEvent) (t : EventIds) (n : Fin 31) : s.counts e t n = true ↔
    s.cfg.hpm = true ∧ n.val < s.cfg.hpmCounters ∧ s.iocountinh.getLsbD (n.val + 1) = false ∧
    s.iohpmevt[n].eventId = e.id ∧ idtSupported e s.iohpmevt[n].idt = true ∧ filterMatch s.iohpmevt[n] t = true := by
  simp only [State.counts, Bool.and_eq_true, decide_eq_true_eq, Bool.not_eq_true', beq_iff_eq, and_assoc]

/-! ### One counter (R634, R637) -/

section OneCounter
variable (s : State) (v : Vector DWord 31) (o : Vector HpmEvt 31) (n : Fin 31)

/-- What a counter's wrap makes of its selector. -/
def HpmEvt.wrapped (sel : HpmEvt) (wraps : Bool) : HpmEvt :=
  { sel with ovf := sel.ovf || wraps }

theorem HpmEvt.wrapped_of_first {sel : HpmEvt} {wraps : Bool} (h : (wraps && !sel.ovf) = true) :
    sel.wrapped wraps = { sel with ovf := true } := by
  obtain ⟨rfl, -⟩ := (Bool.and_eq_true _ _).mp h
  rw [HpmEvt.wrapped, Bool.or_true]

theorem HpmEvt.wrapped_of_not_first {sel : HpmEvt} {wraps : Bool} (h : (wraps && !sel.ovf) = false) :
    sel.wrapped wraps = sel := by
  have hovf : (sel.ovf || wraps) = sel.ovf := by
    cases hs : sel.ovf with
    | true => rfl
    | false => simpa [hs] using h
  rw [HpmEvt.wrapped, hovf]

/-- Counting in one counter: its value, the OF bit of its wrap, and the interrupt if OF was 0. -/
theorem State.countIn_withCounters {c : DWord} {wraps : Bool} (hb : bump s.cfg.hpmWidth v[n] = (c, wraps)) :
    (s.withCounters v o).countIn n = (if wraps && !o[n].ovf then s.raiseIp .pm else s).withCounters (v.set n c)
      (o.set n (o[n].wrapped wraps)) := by
  have hb' : bump (s.withCounters v o).cfg.hpmWidth (s.withCounters v o).iohpmctr[n] = (c, wraps) := hb
  unfold State.countIn
  simp only [hb']
  cases hfirst : wraps && !o[n].ovf with
  | true =>
    rw [if_pos rfl, HpmEvt.wrapped_of_first hfirst, ← State.raiseIp_withCounters]
    exact if_pos hfirst
  | false =>
    have hsame : o.set n o[n] = o := Vector.set_getElem_self n.isLt
    rw [if_neg Bool.false_ne_true, HpmEvt.wrapped_of_not_first hfirst, hsame]
    exact if_neg (Bool.eq_false_iff.mp hfirst)

theorem State.countIn_eq {c : DWord} {wraps : Bool} (hb : bump s.cfg.hpmWidth s.iohpmctr[n] = (c, wraps)) :
    s.countIn n = (if wraps && !s.iohpmevt[n].ovf then s.raiseIp .pm else s).withCounters (s.iohpmctr.set n c)
      (s.iohpmevt.set n (s.iohpmevt[n].wrapped wraps)) :=
  s.countIn_withCounters s.iohpmctr s.iohpmevt n hb

end OneCounter

/-! ### All counters -/

section AllCounters
variable (s : State) (e : HpmEvent) (t : EventIds)

/-- The counter after the event. -/
def State.ctrAfter (n : Fin 31) : DWord :=
  if s.counts e t n then (bump s.cfg.hpmWidth s.iohpmctr[n]).1 else s.iohpmctr[n]

/-- Whether the event makes the counter wrap. -/
def State.wraps (n : Fin 31) : Bool :=
  s.counts e t n && (bump s.cfg.hpmWidth s.iohpmctr[n]).2

/-- Whether the wrap of the counter raises the interrupt. -/
def State.firstWrap (n : Fin 31) : Bool :=
  s.wraps e t n && !s.iohpmevt[n].ovf

/-- The counters after the event has been counted in those of `l`, and their selectors. -/
def State.ctrsAfter (l : List (Fin 31)) : Vector DWord 31 :=
  Vector.ofFn fun n => if n ∈ l then s.ctrAfter e t n else s.iohpmctr[n]

def State.evtsAfter (l : List (Fin 31)) : Vector HpmEvt 31 :=
  Vector.ofFn fun n => if n ∈ l then s.iohpmevt[n].wrapped (s.wraps e t n) else s.iohpmevt[n]

/-- The state after the event has been counted in the counters `l`. -/
def State.counted (l : List (Fin 31)) : State :=
  (if l.any (s.firstWrap e t) then s.raiseIp .pm else s).withCounters (s.ctrsAfter e t l) (s.evtsAfter e t l)

/-! The two vectors, element by element and with one more counter. -/

section Vectors
variable {α : Type} (f g : Fin 31 → α) {l : List (Fin 31)} {n : Fin 31}

theorem ofFn_getElem_fin : (Vector.ofFn f)[n] = f n :=
  Vector.getElem_ofFn n.isLt

/-- One more element of a vector of results. -/
theorem ofFn_set : (Vector.ofFn fun k => if k ∈ l then f k else g k).set n (f n) =
    Vector.ofFn fun k => if k ∈ l ++ [n] then f k else g k := by
  apply Vector.ext
  intro i hi
  rw [Vector.getElem_set, Vector.getElem_ofFn, Vector.getElem_ofFn]
  by_cases hni : n.val = i
  · subst hni
    simp
  · have hne : (⟨i, hi⟩ : Fin 31) ≠ n := fun h => hni (congrArg Fin.val h).symm
    simp [hni, hne]

end Vectors

section Concat
variable {l : List (Fin 31)} {n : Fin 31}

theorem State.ctrsAfter_mem (hn : n ∈ l) : (s.ctrsAfter e t l)[n] = s.ctrAfter e t n := by
  rw [State.ctrsAfter, ofFn_getElem_fin, if_pos hn]

theorem State.evtsAfter_mem (hn : n ∈ l) : (s.evtsAfter e t l)[n] = s.iohpmevt[n].wrapped (s.wraps e t n) := by
  rw [State.evtsAfter, ofFn_getElem_fin, if_pos hn]

/-- A counter whose turn has not come is as it was. -/
theorem State.ctrsAfter_not_mem (hn : n ∉ l) : (s.ctrsAfter e t l)[n] = s.iohpmctr[n] := by
  rw [State.ctrsAfter, ofFn_getElem_fin, if_neg hn]

theorem State.evtsAfter_not_mem (hn : n ∉ l) : (s.evtsAfter e t l)[n] = s.iohpmevt[n] := by
  rw [State.evtsAfter, ofFn_getElem_fin, if_neg hn]

/-- The interrupt is raised once at most. -/
theorem State.raiseIp_ite (a b : Bool) :
    (if b then (if a then s.raiseIp .pm else s).raiseIp .pm else if a then s.raiseIp .pm else s) =
      if a || b then s.raiseIp .pm else s := by
  cases a with
  | true =>
    have hpend : (s.raiseIp .pm).ipsr.get .pm = true := (Work.raiseIp s .pm).2
    simp only [if_true, State.raiseIp_of_pending hpend, ite_self, Bool.true_or]
  | false => rfl

theorem State.raiseIp_ite_keeps (a : Bool) : (if a then s.raiseIp .pm else s).cfg = s.cfg ∧
    (if a then s.raiseIp .pm else s).iocountinh = s.iocountinh := by
  have hw : Work s (s.raiseIp .pm) := (Work.raiseIp s .pm).1
  cases a with
  | true => exact ⟨hw.cfg, hw.iocountinh⟩
  | false => exact ⟨rfl, rfl⟩

/-- What counts reads the implementation, `iocountinh` and the selector alone. -/
theorem State.counts_congr {u : State} {n : Fin 31} (hcfg : u.cfg = s.cfg) (hinh : u.iocountinh = s.iocountinh)
    {o : Vector HpmEvt 31} (hevt : o[n] = s.iohpmevt[n]) (v : Vector DWord 31) :
    (u.withCounters v o).counts e t n = s.counts e t n := by
  simp only [State.counts, State.withCounters, hcfg, hinh, hevt]

theorem State.counts_counted (hn : n ∉ l) : (s.counted e t l).counts e t n = s.counts e t n := by
  obtain ⟨hcfg, hinh⟩ := s.raiseIp_ite_keeps (l.any (s.firstWrap e t))
  rw [State.counted]
  exact s.counts_congr e t hcfg hinh (s.evtsAfter_not_mem e t hn) _

/-- One more counter. -/
theorem State.counted_append : s.counted e t (l ++ [n]) =
    (if l.any (s.firstWrap e t) || s.firstWrap e t n then s.raiseIp .pm else s).withCounters
      ((s.ctrsAfter e t l).set n (s.ctrAfter e t n))
      ((s.evtsAfter e t l).set n (s.iohpmevt[n].wrapped (s.wraps e t n))) := by
  have hctr : s.ctrsAfter e t (l ++ [n]) = (s.ctrsAfter e t l).set n (s.ctrAfter e t n) :=
    (ofFn_set (s.ctrAfter e t) (fun n => s.iohpmctr[n])).symm
  have hevt : s.evtsAfter e t (l ++ [n]) = (s.evtsAfter e t l).set n (s.iohpmevt[n].wrapped (s.wraps e t n)) :=
    (ofFn_set (fun n => s.iohpmevt[n].wrapped (s.wraps e t n)) (fun n => s.iohpmevt[n])).symm
  rw [State.counted, hctr, hevt, List.any_append, List.any_cons, List.any_nil, Bool.or_false]

/-- The turn of one more counter. -/
theorem State.counted_step (hn : n ∉ l) :
    (if (s.counted e t l).counts e t n then (s.counted e t l).countIn n else s.counted e t l) =
      s.counted e t (l ++ [n]) := by
  rw [s.counts_counted e t hn, State.counted_append]
  have hctr := s.ctrsAfter_not_mem e t hn
  have hevt := s.evtsAfter_not_mem e t hn
  cases hc : s.counts e t n with
  | true =>
    have hbump : bump (if l.any (s.firstWrap e t) then s.raiseIp .pm else s).cfg.hpmWidth (s.ctrsAfter e t l)[n] =
        (s.ctrAfter e t n, s.wraps e t n) := by
      rw [(s.raiseIp_ite_keeps _).1, hctr, State.ctrAfter, State.wraps, hc]
      rfl
    rw [if_pos rfl, State.counted, State.countIn_withCounters _ _ _ _ hbump, hevt]
    exact congrArg (State.withCounters · _ _) (s.raiseIp_ite _ (s.firstWrap e t n))
  | false =>
    have hcount : s.ctrAfter e t n = s.iohpmctr[n] := by
      rw [State.ctrAfter, hc, if_neg (by decide)]
    have hwraps : s.wraps e t n = false := by
      rw [State.wraps, hc, Bool.false_and]
    have hfirst : s.firstWrap e t n = false := by
      rw [State.firstWrap, hwraps, Bool.false_and]
    have hsel : s.iohpmevt[n].wrapped false = s.iohpmevt[n] := HpmEvt.wrapped_of_not_first (Bool.false_and _)
    have hctrs : (s.ctrsAfter e t l).set n s.iohpmctr[n] = s.ctrsAfter e t l := by
      rw [← hctr]
      exact Vector.set_getElem_self n.isLt
    have hevts : (s.evtsAfter e t l).set n s.iohpmevt[n] = s.evtsAfter e t l := by
      rw [← hevt]
      exact Vector.set_getElem_self n.isLt
    rw [if_neg (by decide), hcount, hwraps, hsel, hctrs, hevts, hfirst, Bool.or_false]
    rfl

end Concat

theorem State.counted_nil : s.counted e t [] = s := by
  have hctr : s.ctrsAfter e t [] = s.iohpmctr := Vector.ext fun i hi => Vector.getElem_ofFn hi
  have hevt : s.evtsAfter e t [] = s.iohpmevt := Vector.ext fun i hi => Vector.getElem_ofFn hi
  rw [State.counted, hctr, hevt]
  rfl

/-- Counting an event, all counters at once. -/
theorem State.countEvent_eq : s.countEvent e t = s.counted e t (List.finRange 31) := by
  have hfold (l : List (Fin 31)) (hl : l.Nodup) :
      l.foldl (fun s n => if s.counts e t n then s.countIn n else s) s = s.counted e t l := by
    induction l using List.reverseRecOn with
    | nil => exact (s.counted_nil e t).symm
    | append_singleton l n ih =>
      obtain ⟨hl, -, hdisj⟩ := List.nodup_append.mp hl
      have hn : n ∉ l := fun h => hdisj n h n (List.mem_singleton_self n) rfl
      rw [List.foldl_concat, ih hl, State.counted_step s e t hn]
  exact hfold _ (List.nodup_finRange 31)

theorem State.wraps_iff (n : Fin 31) :
    s.wraps e t n = true ↔ s.counts e t n = true ∧ 2 ^ s.cfg.hpmWidth ≤ s.iohpmctr[n].toNat + 1 := by
  rw [State.wraps, Bool.and_eq_true, bump, decide_eq_true_eq]

theorem State.any_firstWrap_iff : (List.finRange 31).any (s.firstWrap e t) = true ↔
    ∃ n : Fin 31, s.wraps e t n = true ∧ s.iohpmevt[n].ovf = false := by
  simp only [List.any_eq_true, List.mem_finRange, true_and, State.firstWrap, Bool.and_eq_true, Bool.not_eq_true']

/-- The event with the interrupt, and without. -/
theorem State.countEvent_of_firstWrap (h : (List.finRange 31).any (s.firstWrap e t) = true) : s.countEvent e t =
    (s.withCounters (s.ctrsAfter e t (List.finRange 31)) (s.evtsAfter e t (List.finRange 31))).raiseIp .pm := by
  rw [State.countEvent_eq, State.counted, if_pos h, State.raiseIp_withCounters]

theorem State.countEvent_of_no_firstWrap (h : (List.finRange 31).any (s.firstWrap e t) = false) : s.countEvent e t =
    s.withCounters (s.ctrsAfter e t (List.finRange 31)) (s.evtsAfter e t (List.finRange 31)) := by
  rw [State.countEvent_eq, State.counted, if_neg (Bool.eq_false_iff.mp h)]

end AllCounters

theorem toNat_bump {w : Nat} (hw : w ≤ 64) (c : DWord) : (bump w c).1.toNat = (c.toNat + 1) % 2 ^ w := by
  have hlt : (c.toNat + 1) % 2 ^ w < 2 ^ w := Nat.mod_lt _ (Nat.two_pow_pos w)
  have hle : 2 ^ w ≤ 2 ^ 64 := Nat.pow_le_pow_right (by decide) hw
  rw [bump, BitVec.toNat_ofNat, Nat.mod_eq_of_lt (Nat.lt_of_lt_of_le hlt hle)]

/-! ### Clock cycles (R631, R639) -/

section Cycles
variable {s : State} {n : Nat}

/-- `s` with another cycle counter. -/
def State.withCycles (s : State) (c : Nat) (ovf : Bool) : State :=
  { s with iohpmcycles := ⟨BitVec.ofNat 63 c, ovf⟩ }

theorem State.tick_of_stopped (h : s.cfg.hpm = false ∨ s.iocountinh.getLsbD 0 = true) : s.tick n = s := by
  refine if_neg (Bool.eq_false_iff.mp ?_)
  obtain h | h := h <;> simp [h]

section Running
variable (hh : s.cfg.hpm = true) (hi : s.iocountinh.getLsbD 0 = false)
include hh hi

theorem State.tick_of_running : s.tick n =
    (let total := s.iohpmcycles.counter.toNat + n
     let w := cyclesWidth s.cfg
     let ovf := s.iohpmcycles.ovf || decide (2 ^ w ≤ total)
     let u := s.withCycles (total % 2 ^ w) ovf
     if ovf && !s.iohpmcycles.ovf then u.raiseIp .pm else u) :=
  if_pos (by rw [hh, hi]; rfl)

theorem State.tick_of_lt (h : s.iohpmcycles.counter.toNat + n < 2 ^ cyclesWidth s.cfg) :
    s.tick n = s.withCycles (s.iohpmcycles.counter.toNat + n) s.iohpmcycles.ovf := by
  rw [State.tick_of_running hh hi]
  simp only [decide_eq_false (Nat.not_le_of_gt h), Nat.mod_eq_of_lt h, Bool.or_false, Bool.and_not_self,
    Bool.false_eq_true, if_false]

theorem State.tick_of_overflowed (hovf : s.iohpmcycles.ovf = true) :
    s.tick n = s.withCycles ((s.iohpmcycles.counter.toNat + n) % 2 ^ cyclesWidth s.cfg) true := by
  rw [State.tick_of_running hh hi]
  simp only [hovf, Bool.true_or, Bool.not_true, Bool.and_false, Bool.false_eq_true, if_false]

theorem State.tick_of_wrap (h : 2 ^ cyclesWidth s.cfg ≤ s.iohpmcycles.counter.toNat + n)
    (hovf : s.iohpmcycles.ovf = false) :
    s.tick n = (s.withCycles ((s.iohpmcycles.counter.toNat + n) % 2 ^ cyclesWidth s.cfg) true).raiseIp .pm := by
  rw [State.tick_of_running hh hi]
  simp only [hovf, decide_eq_true h, Bool.or_true, Bool.not_false, Bool.and_self, if_true]

end Running

theorem step_cycles {es : List Event} (h : s.inbox = .cycles n :: es) :
    step s = .next ((({ s with inbox := es } : State).ageInvals n).tick n) :=
  step_input h

end Cycles

/-! ### `iocountinh` (R639) -/

theorem State.regWrite_iocountinh {s : State} (hh : s.cfg.hpm = true) (v : DWord) (lowFirst : Bool) :
    s.regWrite 92 4 v lowFirst = { s with
      iocountinh := BitVec.ofNat 32 (v.toNat % 2 ^ 32 % 2 ^ (s.cfg.hpmCounters + 1)) } := by
  have hlow : (mergeLow (s.image .iocountinh) v).toNat % 2 ^ 32 = v.toNat % 2 ^ 32 := by
    simpa only [BitVec.toNat_setWidth] using congrArg BitVec.toNat (setWidth_mergeLow (s.image .iocountinh) v)
  rw [State.regWrite_four (r := .iocountinh) (by decide) rfl hh, State.writeImage, writeIocountinh, hlow]

/-! ### One counter at the top of its width -/

section Top
variable {s : State} {n : Fin 31}

theorem State.countIn_below (hlt : s.iohpmctr[n].toNat + 1 < 2 ^ s.cfg.hpmWidth) :
    s.countIn n = { s with iohpmctr := s.iohpmctr.set n (s.iohpmctr[n] + 1#64) } := by
  have hbump : bump s.cfg.hpmWidth s.iohpmctr[n] = (s.iohpmctr[n] + 1#64, false) := by
    have hnext : BitVec.ofNat 64 (s.iohpmctr[n].toNat + 1) = s.iohpmctr[n] + 1#64 := by
      rw [BitVec.ofNat_add, BitVec.ofNat_toNat, BitVec.setWidth_eq]
    rw [bump, Nat.mod_eq_of_lt hlt, decide_eq_false (Nat.not_le_of_gt hlt), hnext]
  have hsame : s.iohpmevt.set n s.iohpmevt[n] = s.iohpmevt := Vector.set_getElem_self n.isLt
  rw [State.countIn_eq s n hbump, HpmEvt.wrapped_of_not_first (Bool.false_and _), hsame]
  rfl

theorem State.countIn_top (htop : s.iohpmctr[n].toNat + 1 = 2 ^ s.cfg.hpmWidth) :
    s.countIn n = (if !s.iohpmevt[n].ovf then s.raiseIp .pm else s).withCounters (s.iohpmctr.set n 0#64)
      (s.iohpmevt.set n { s.iohpmevt[n] with ovf := true }) := by
  have hbump : bump s.cfg.hpmWidth s.iohpmctr[n] = (0#64, true) := by
    rw [bump, htop, Nat.mod_self, decide_eq_true (Nat.le_refl _)]
  rw [State.countIn_eq s n hbump, HpmEvt.wrapped, Bool.or_true, Bool.true_and]

end Top

/-- Settles O53: the filters by cases, an event by `State.countEvent_eq`, the cycles by the cases of `State.tick`. -/
theorem countersAndFilters : Obligations.CountersAndFilters := by
  unfold Obligations.CountersAndFilters
  refine ⟨fun s e t n => ?counts, fun s e t hw => ?event, fun s es n h => ?cycles,
    fun s v lowFirst hh => State.regWrite_iocountinh hh v lowFirst, fun s n hw hlt => ⟨State.countIn_below, fun htop => ?top⟩⟩
  case counts =>
    intro sel agrees
    rw [State.counts_iff, idtSupported_iff, filterMatch_iff]
    constructor
    · rintro ⟨hh, hn, hinh, hid, hsup, hp, hd⟩
      exact ⟨hh, hn, hinh, hid, fun hidt => ⟨hsup hidt, hp hidt⟩, hd⟩
    · rintro ⟨hh, hn, hinh, hid, hp, hd⟩
      exact ⟨hh, hn, hinh, hid, fun hidt => (hp hidt).1, fun hidt => (hp hidt).2, hd⟩
  case event =>
    intro w wraps
    have hwraps (n : Fin 31) : s.wraps e t n = true ↔ wraps n := s.wraps_iff e t n
    refine ⟨s.ctrsAfter e t (List.finRange 31), s.evtsAfter e t (List.finRange 31), ?_⟩
    intro u
    refine ⟨fun n => ?_, fun n => ⟨fun h => ?_, fun h => ?_⟩, fun ⟨n, h, hovf⟩ => ?_, fun h => ?_⟩
    · rw [s.ctrsAfter_mem e t (List.mem_finRange n), State.ctrAfter]
      split
      · exact toNat_bump hw _
      · rfl
    · rw [s.evtsAfter_mem e t (List.mem_finRange n), (hwraps n).mpr h, HpmEvt.wrapped, Bool.or_true]
    · rw [s.evtsAfter_mem e t (List.mem_finRange n), Bool.eq_false_iff.mpr (mt (hwraps n).mp h), HpmEvt.wrapped,
        Bool.or_false]
    · exact ⟨s.countEvent_of_firstWrap e t ((s.any_firstWrap_iff e t).mpr ⟨n, (hwraps n).mpr h, hovf⟩),
        (Work.raiseIp u .pm).2⟩
    · refine s.countEvent_of_no_firstWrap e t (Bool.eq_false_iff.mpr fun hany => ?_)
      obtain ⟨n, hn, hovf⟩ := (s.any_firstWrap_iff e t).mp hany
      exact Bool.false_ne_true (hovf.symm.trans (h n ((hwraps n).mp hn)))
  case cycles =>
    intro w total aged wrapped
    rw [step_cycles h]
    refine ⟨fun hstop => congrArg _ (State.tick_of_stopped hstop), fun hh hi => ⟨fun hlt => congrArg _ ?_,
      fun _ hovf => congrArg _ ?_, fun hle hovf => ⟨congrArg _ ?_, (Work.raiseIp wrapped .pm).2⟩⟩⟩
    · exact State.tick_of_lt (s := aged) hh hi hlt
    · exact State.tick_of_overflowed (s := aged) hh hi hovf
    · exact State.tick_of_wrap (s := aged) hh hi hle hovf
  case top =>
    rw [State.countIn_top htop]
    refine ⟨rfl, congrArg HpmEvt.ovf (Vector.getElem_set_self n.isLt), fun hovf => ?_, fun hovf => ?_⟩
    · have hsame : s.iohpmevt.set n { s.iohpmevt[n] with ovf := true } = s.iohpmevt := by
        rw [← hovf]
        exact Vector.set_getElem_self n.isLt
      rw [hovf, hsame]
      rfl
    · rw [hovf]
      exact (Work.raiseIp s .pm).2

end Sys2Proof.Machine

/-! PROOF. A reset while the machine runs (O29). -/

namespace Sys2Proof.Machine

/-- An event that no counter counts. -/
theorem State.countEvent_of_no_counts {s : State} {e : HpmEvent} {t : EventIds} (h : ∀ n, s.counts e t n = false) :
    s.countEvent e t = s := by
  have hskip (n : Fin 31) : (if s.counts e t n then s.countIn n else s) = s := if_neg (Bool.eq_false_iff.mp (h n))
  exact List.foldl_fixed' hskip _

theorem HpmEvent.id_ne_zero (e : HpmEvent) : e.id ≠ 0#15 := by
  cases e <;> decide

section Reset
variable (s : State)

/-- Every register has the value it has after reset. -/
theorem resetEvent_readReg (r : Reg) : (resetEvent s).readReg r = (State.resetWith s.cfg).readReg r := by
  cases r <;> rfl

/-- No counter counts: each selector is 0, which names no event. -/
theorem resetEvent_counts (e : HpmEvent) (t : EventIds) (n : Fin 31) : (resetEvent s).counts e t n = false := by
  have hsel : (resetEvent s).iohpmevt[n] = HpmEvt.zero := resetWith_iohpmevt s.cfg n
  refine Bool.eq_false_iff.mpr fun h => ?_
  obtain ⟨-, -, -, hid, -⟩ := ((resetEvent s).counts_iff e t n).mp h
  rw [hsel] at hid
  exact e.id_ne_zero hid.symm

/-- The cycle counter is inhibited where there is one. -/
theorem resetEvent_tick (n : Nat) : (resetEvent s).tick n = resetEvent s := by
  refine State.tick_of_stopped ?_
  change s.cfg.hpm = false ∨ (if s.cfg.hpm then 1#32 else 0#32).getLsbD 0 = true
  cases s.cfg.hpm with
  | false => exact .inl rfl
  | true => exact .inr rfl

end Reset

/-- Settles O29: the reset state by its fields; nothing that runs by itself changes it. -/
theorem resetClearsIommuKeepsMemory : Obligations.ResetClearsIommuKeepsMemory := by
  unfold Obligations.ResetClearsIommuKeepsMemory
  intro s es h
  refine ⟨resetEvent { s with inbox := es }, step_input h, resetEvent_readReg _, rfl, rfl, rfl, rfl, rfl, rfl, fun v => ?wire,
    resetEvent_tick _, fun e ids => State.countEvent_of_no_counts (resetEvent_counts _ e ids), fun r => ?record,
    fun m => State.pqEnqueue_of_off (.inl rfl), rfl, rfl, rfl, rfl, rfl, rfl, rfl, rfl, rfl, rfl, rfl, rfl, rfl⟩
  case wire => exact Bool.and_false _
  case record => exact State.report_of_discards rfl

end Sys2Proof.Machine

/-! PROOF. The debug interface: what a write of `tr_req_ctl` starts, and what `tr_response` then holds (O52). -/

namespace Sys2Proof.Machine

/-! ### Writes of `tr_req_ctl` (R536) -/

section TrReqCtl
variable (q : TrReqCtl) (v : DWord)

/-- `tr_req_ctl` with the low half written. -/
def TrReqCtl.writtenLow : TrReqCtl :=
  { q with
    goBusy := v.getLsbD 0
    priv := v.getLsbD 1
    exe := v.getLsbD 2
    nw := v.getLsbD 3
    pid := v.extractLsb' 12 20 }

theorem TrReqCtl.writtenLow_eq {v : DWord} {b : Bool} (h : v.getLsbD 0 = b) : q.writtenLow v = { q with
    goBusy := b
    priv := v.getLsbD 1
    exe := v.getLsbD 2
    nw := v.getLsbD 3
    pid := v.extractLsb' 12 20 } := by
  rw [TrReqCtl.writtenLow, h]

/-- `tr_req_ctl` with the high half written. -/
def TrReqCtl.writtenHigh : TrReqCtl :=
  { q with
    pv := v.getLsbD 0
    did := v.extractLsb' 8 24 }

/-- Where the fields of `tr_req_ctl` are (R60). -/
theorem TrReqCtl.fields : FieldAt q.image 40 q.did ∧ FieldAt q.image 33 0#7 ∧ q.image.getLsbD 32 = q.pv ∧
    FieldAt q.image 12 q.pid ∧ FieldAt q.image 4 0#8 ∧ q.image.getLsbD 3 = q.nw ∧ q.image.getLsbD 2 = q.exe ∧
    q.image.getLsbD 1 = q.priv ∧ q.image.getLsbD 0 = q.goBusy := by
  have h : FieldAt q.image 0 q.image := fieldAt_zero_iff_eq.mpr rfl
  nth_rw 2 [TrReqCtl.image] at h
  simpa only [fieldAt_append_iff, fieldAt_bit_iff, and_assoc] using h

variable {q} {s : State} {lowFirst : Bool}

theorem State.regWrite_trReqCtl_low (hd : s.cfg.dbg = true) (hb : s.trReqCtl.goBusy = false) :
    s.regWrite 608 4 v lowFirst = if v.getLsbD 0 then
      ({ s with trReqCtl := s.trReqCtl.writtenLow v } : State).debugTranslate
      else { s with trReqCtl := s.trReqCtl.writtenLow v } := by
  obtain ⟨hdid, -, hpv, -⟩ := s.trReqCtl.fields
  have hhigh : (mergeLow s.trReqCtl.image v).extractLsb' 40 24 = s.trReqCtl.did :=
    (extractLsb'_mergeLow_high _ v (a := 8) (by decide)).trans hdid
  rw [State.regWrite_four (r := .trReqCtl) (by decide) rfl hd, State.writeImage, writeTrReqCtl, if_neg (by rw [hb]; decide)]
  simp (disch := decide) only [State.image, getLsbD_mergeLow, extractLsb'_mergeLow, getLsbD_mergeLow_high, hhigh, hpv,
    Bool.true_and]
  rfl

theorem State.regWrite_trReqCtl_high (hd : s.cfg.dbg = true) (hb : s.trReqCtl.goBusy = false) :
    s.regWrite 612 4 v lowFirst = { s with trReqCtl := s.trReqCtl.writtenHigh v } := by
  obtain ⟨-, -, -, hpid, -, hnw, hexe, hpriv, -⟩ := s.trReqCtl.fields
  have hpid' : s.trReqCtl.image.extractLsb' 12 20 = s.trReqCtl.pid := hpid
  have hdid : (mergeHigh s.trReqCtl.image (v.extractLsb' 0 32)).extractLsb' 40 24 = v.extractLsb' 8 24 :=
    extractLsb'_mergeHigh_high _ v (a := 8) (by decide)
  have hpv : (mergeHigh s.trReqCtl.image (v.extractLsb' 0 32)).getLsbD 32 = v.getLsbD 0 :=
    getLsbD_mergeHigh_high _ v (i := 0) (by decide)
  rw [State.regWrite_high (off := 608) (r := .trReqCtl) (by decide) rfl rfl rfl hd, State.writeImage, writeTrReqCtl,
    if_neg (by rw [hb]; decide)]
  simp (disch := decide) only [State.image, getLsbD_mergeHigh, extractLsb'_mergeHigh, hdid, hpv, hpid', hnw, hexe, hpriv,
    Bool.false_and, Bool.false_eq_true, if_false, TrReqCtl.writtenHigh, hb]

end TrReqCtl

/-! ### `tr_response` (R61, R540) -/

/-- The bits of PPN: ones below the bit that marks the size, 0 there, and the page number above. -/
theorem getLsbD_responsePpn (spa : DWord) (k : Nat) {j : Nat} (hj : j < 44) :
    (responsePpn spa k).getLsbD j =
      if j + 1 < k then true else if j + 1 = k then false else spa.getLsbD (12 + j) := by
  have hpage : (spa.extractLsb' 12 44).toNat.testBit j = spa.getLsbD (12 + j) := by
    change (spa.extractLsb' 12 44).getLsbD j = _
    rw [BitVec.getLsbD_extractLsb', decide_eq_true hj, Bool.true_and]
  unfold responsePpn
  split
  next hk =>
    subst hk
    exact hpage
  next hk =>
    have hlow : 2 ^ (k - 1) - 1 < 2 ^ k :=
      Nat.lt_of_lt_of_le (Nat.sub_one_lt (Nat.two_pow_pos _).ne') (Nat.pow_le_pow_right (by decide) (Nat.sub_le k 1))
    rw [BitVec.getLsbD_ofNat, decide_eq_true hj, Bool.true_and, Nat.mul_comm, Nat.testBit_two_pow_mul_add _ hlow,
      Nat.testBit_two_pow_sub_one, Nat.testBit_div_two_pow]
    by_cases hjk : j < k
    · by_cases hlt : j + 1 < k
      · simp [hjk, hlt, show j < k - 1 by omega]
      · simp [hjk, show j + 1 = k by omega, show ¬j < k - 1 by omega]
    · rw [if_neg hjk, if_neg (by omega), if_neg (by omega), Nat.sub_add_cancel (by omega), hpage]

/-- The response of a success, field by field. -/
theorem responseOk_fields (c : Cfg) (r : Success) :
    FieldAt (responseOk c r) 54 0#10 ∧ FieldAt (responseOk c r) 10 (responsePpn r.spa (reportedSpan c r.span)) ∧
    (responseOk c r).getLsbD 9 = (reportedSpan c r.span != 0) ∧ FieldAt (responseOk c r) 7 r.pbmt ∧
    FieldAt (responseOk c r) 0 0#7 := by
  have h : FieldAt (responseOk c r) 0 (responseOk c r) := fieldAt_zero_iff_eq.mpr rfl
  nth_rw 2 [responseOk] at h
  simpa only [fieldAt_append_iff, fieldAt_bit_iff, and_assoc] using h

/-- The response of a fault, but for the bits that are left UNSPECIFIED. -/
theorem responseFault_fields (free : DWord) : (responseFault free).getLsbD 0 = true ∧
    (responseFault free).extractLsb' 1 6 = 0#6 ∧ (responseFault free).extractLsb' 54 10 = 0#10 := by
  refine ⟨?_, ?_, ?_⟩
  · rw [responseFault, BitVec.getLsbD_or]
    exact Bool.or_true _
  · rw [responseFault, BitVec.extractLsb'_or, BitVec.extractLsb'_and]
    exact (BitVec.or_zero.trans BitVec.and_zero :)
  · rw [responseFault, BitVec.extractLsb'_or, BitVec.extractLsb'_and]
    exact (BitVec.or_zero.trans BitVec.and_zero :)

/-! ### The request that the registers describe (R537) -/

section Request
variable (s : State)

theorem State.debugRequest_ttyp : s.debugRequest.ttyp.event = .untranslated ∧ s.debugRequest.ttyp.translated = false ∧
    s.debugRequest.ttyp ≠ .atsRequest ∧
    s.debugRequest.ttyp.code = if s.trReqCtl.exe then 1#6 else if s.trReqCtl.nw then 2#6 else 3#6 := by
  unfold State.debugRequest
  cases s.trReqCtl.exe with
  | true => exact ⟨rfl, rfl, nofun, rfl⟩
  | false =>
    cases s.trReqCtl.nw with
    | true => exact ⟨rfl, rfl, nofun, rfl⟩
    | false => exact ⟨rfl, rfl, nofun, rfl⟩

/-- It enters as an untranslated request. -/
theorem State.enter_debugRequest : s.enter s.debugRequest =
    ({ s with walked := false } : State).countEvent .untranslated s.debugRequest.ids := by
  rw [State.enter, s.debugRequest_ttyp.1]

variable {s}

/-- A request that stops before any walk, without a device context: its record is reported. -/
theorem State.debugTranslate_of_early_stop {f : Stop} {t u : State}
    (h : translate s.debugRequest true (s.enter s.debugRequest) = .stop f t) (hw : t.walked = false)
    (hdtf : f.dtf = false) (hu : t.report (s.debugRequest.record f) = u) :
    s.debugTranslate = { u with
      trReqCtl := { u.trReqCtl with goBusy := false }
      trResponse := responseFault u.freshValue.1
      freeCtr := u.freeCtr + 1 } := by
  subst hu
  rw [State.debugTranslate_of_stop h, State.leave_of_not_walked hw, hdtf]
  rfl

/-- In Off it stops, and the stop is reported. -/
theorem State.debugTranslate_of_off {u : State} (hm : s.ddtp.mode = .off)
    (hu : (s.enter s.debugRequest).report (s.debugRequest.record (stopEarly s.debugRequest.ids .allDisallowed)) = u) :
    s.debugTranslate = { u with
      trReqCtl := { s.trReqCtl with goBusy := false }
      trResponse := responseFault u.freshValue.1
      freeCtr := u.freeCtr + 1 } := by
  have hstop : translate s.debugRequest true (s.enter s.debugRequest) =
      .stop (stopEarly s.debugRequest.ids .allDisallowed) (s.enter s.debugRequest) :=
    translate_of_plan_stop true (plan_of_off rfl ((congrArg Ddtp.mode (s.enter_ddtp _)).trans hm))
  have hctl : u.trReqCtl = s.trReqCtl := hu ▸ ((s.enter_work _).trans (Work.report _ _)).trReqCtl
  rw [State.debugTranslate_of_early_stop hstop (s.enter_walked _) rfl hu, hctl]

/-- A request that passes untranslated. -/
theorem State.debugTranslate_of_pass {d : Done} {u : State}
    (h : translate s.debugRequest true (s.enter s.debugRequest) = .ok d u) (hw : u.walked = false) :
    s.debugTranslate = { u with
      trReqCtl := { u.trReqCtl with goBusy := false }
      trResponse := responseOk u.cfg d.c } := by
  rw [State.debugTranslate_of_ok h, State.leave_of_not_walked hw]

/-- In Bare it succeeds with the address it asks for. -/
theorem State.debugTranslate_of_bare {u : State} (hm : s.ddtp.mode = .bare) (hu : s.enter s.debugRequest = u) :
    s.debugTranslate = { u with
      trReqCtl := { s.trReqCtl with goBusy := false }
      trResponse := responseOk s.cfg
        ⟨s.debugRequest.iova, s.cfg.bareSpan, true, true, true, 0#2, u.iommuQos, none⟩ } := by
  have hmode : u.ddtp.mode = .bare := hu ▸ (congrArg Ddtp.mode (s.enter_ddtp _)).trans hm
  have hplan : plan s.debugRequest u = .ok (.pass u.iommuQos) u := by
    rw [plan_of_bare rfl hmode, if_neg]
    rintro (h | h)
    · exact Bool.false_ne_true (s.debugRequest_ttyp.2.1.symm.trans h)
    · exact s.debugRequest_ttyp.2.2.1 h
  have hctl : u.trReqCtl = s.trReqCtl := hu ▸ (s.enter_work _).trReqCtl
  have hcfg : u.cfg = s.cfg := hu ▸ s.enter_cfg _
  have hwalked : u.walked = false := hu ▸ s.enter_walked _
  have hpass := translate_of_plan_pass true hplan
  rw [← hu] at hpass
  rw [State.debugTranslate_of_pass hpass (s.enter_walked _), hu, hctl, hcfg]

end Request

/-- The response of a Bare translation: PBMT and the bits below are 0. -/
theorem responseOk_of_pbmt_zero (c : Cfg) {r : Success} (h : r.pbmt = 0#2) : responseOk c r =
    0#10 ++ responsePpn r.spa (reportedSpan c r.span) ++ bit (reportedSpan c r.span != 0) ++ 0#9 := by
  obtain ⟨htop, hppn, hs, hpbmt, hlow⟩ := responseOk_fields c r
  have hzeros : FieldAt (responseOk c r) 0 (0#2 ++ 0#7) := fieldAt_append_iff.mpr ⟨h ▸ hpbmt, hlow⟩
  refine (fieldAt_zero_iff_eq.mp ?_).symm
  simp only [fieldAt_append_iff, fieldAt_bit_iff, and_assoc]
  exact ⟨htop, hppn, hs, hzeros⟩

theorem bit_ne_zero (k : Nat) : bit (k != 0) = if k = 0 then 0#1 else 1#1 := by
  cases k <;> rfl

/-- A bit of the page number of an address. -/
theorem getLsbD_append_page (x : BitVec 52) (j : Nat) : (x ++ 0#12 : DWord).getLsbD (12 + j) = x.getLsbD j := by
  rw [BitVec.getLsbD_append, if_neg (by omega), Nat.add_sub_cancel_left]

/-- Settles O52: in Off the request stops at once, in Bare it passes at once. -/
theorem debugInOffAndBare : Obligations.DebugInOffAndBare := by
  unfold Obligations.DebugInOffAndBare
  intro s v lowFirst hd hb h0 c u t
  obtain ⟨s1, hs1⟩ : ∃ s1 : State, s1 = { s with trReqCtl := c } := ⟨_, rfl⟩
  have ht : t = s1.debugTranslate := by
    have hc : s.trReqCtl.writtenLow v = c := s.trReqCtl.writtenLow_eq h0
    rw [hs1, ← hc]
    exact (State.regWrite_trReqCtl_low v hd hb).trans (if_pos h0)
  have hu : s1.enter s1.debugRequest = u := by
    rw [State.enter_debugRequest, hs1]
    rfl
  have hctl : s1.trReqCtl = c := by rw [hs1]
  refine ⟨fun hm => ?off, fun hm => ?bare⟩
  case off =>
    intro w
    have hw : (s1.enter s1.debugRequest).report (s1.debugRequest.record (stopEarly s1.debugRequest.ids .allDisallowed)) = w := by
      rw [hu, Request.record, s1.debugRequest_ttyp.2.2.2, hs1]
      rfl
    have hdone := State.debugTranslate_of_off (by rw [hs1]; exact hm) hw
    rw [← ht, hctl] at hdone
    rw [hdone]
    exact ⟨rfl, responseFault_fields _⟩
  case bare =>
    intro k
    have hiova : s1.debugRequest.iova = s.trReqIova ++ 0#12 := by
      rw [hs1]
      rfl
    have hcfg : s1.cfg = s.cfg := by rw [hs1]
    have hdone := State.debugTranslate_of_bare (by rw [hs1]; exact hm) hu
    rw [← ht, hctl, responseOk_of_pbmt_zero _ rfl, bit_ne_zero, hiova, hcfg] at hdone
    refine ⟨responsePpn (s.trReqIova ++ 0#12) k, hdone, fun j hj => ?_⟩
    rw [getLsbD_responsePpn _ _ hj, getLsbD_append_page]

end Sys2Proof.Machine

/-! PROOF. How the registers read (O51). A register is read whole or by halves; a register of flags is a list of bits and zeros
from bit 0 up, and `Flags` says which of its bits are set. -/

namespace Sys2Proof.Machine

/-! ### Registers of flags -/

section Flags
variable {n a : Nat} {x : BitVec n} {l : List (Nat × Bool)}

/-- The bits of `x`, of which the lowest counts as bit `a`, are the flags `l`. -/
def Flags (x : BitVec n) (a : Nat) (l : List (Nat × Bool)) : Prop :=
  (∀ p ∈ l, a ≤ p.1) ∧ ∀ j, x.getLsbD j = true ↔ (a + j, true) ∈ l

theorem flags_zeros (n a : Nat) : Flags 0#n a [] :=
  ⟨nofun, fun j => by simp⟩

/-- One more flag below. -/
theorem Flags.append_bit (b : Bool) (h : Flags x (a + 1) l) : Flags (x ++ bit b) a ((a, b) :: l) := by
  obtain ⟨hl, hx⟩ := h
  refine ⟨List.forall_mem_cons.mpr ⟨Nat.le_refl a, fun p hp => Nat.le_of_succ_le (hl p hp)⟩, fun j => ?_⟩
  rw [BitVec.getLsbD_append, List.mem_cons, Prod.mk.injEq]
  cases j with
  | zero =>
    have hnot : (a, true) ∉ l := fun hp => Nat.not_succ_le_self a (hl _ hp)
    rw [if_pos Nat.one_pos, getLsbD_bit_zero]
    simp [hnot]
  | succ j =>
    rw [if_neg (by omega), Nat.add_sub_cancel, hx j, Nat.add_right_comm a 1 j, Nat.add_assoc]
    simp

/-- Reserved bits below. -/
theorem Flags.append_zeros {m : Nat} (h : Flags x (a + m) l) : Flags (x ++ 0#m) a l := by
  obtain ⟨hl, hx⟩ := h
  refine ⟨fun p hp => Nat.le_of_add_right_le (hl p hp), fun j => ?_⟩
  rw [BitVec.getLsbD_append]
  split
  next hj =>
    have hnot : (a + j, true) ∉ l := fun hp => Nat.not_le_of_gt (Nat.add_lt_add_left hj a) (hl _ hp)
    simp [hnot]
  next hj => rw [hx (j - m), Nat.add_assoc, Nat.add_sub_cancel' (Nat.le_of_not_lt hj)]

theorem Flags.setWidth {k : Nat} (hn : n ≤ k) (h : Flags x a l) : Flags (x.setWidth k) a l := by
  refine ⟨h.1, fun j => ?_⟩
  rw [← h.2 j, BitVec.getLsbD_setWidth]
  by_cases hj : j < k
  · rw [decide_eq_true hj, Bool.true_and]
  · rw [BitVec.getLsbD_of_ge x j (by omega), Bool.and_false]

end Flags

theorem Fctl.flags (r : Fctl) : Flags r.image 0 [(0, r.be), (1, r.wsi), (2, r.gxl)] :=
  .append_bit _ (.append_bit _ (.append_bit _ (flags_zeros 29 3)))

theorem Cqcsr.flags (r : Cqcsr) : Flags r.image 0 [(0, r.cqen), (1, r.cie), (8, r.cqmf), (9, r.cmdTo), (10, r.cmdIll),
    (11, r.fenceWIp), (16, r.cqon), (17, r.busy)] :=
  .append_bit _ (.append_bit _ (.append_zeros (m := 6) (.append_bit _ (.append_bit _ (.append_bit _ (.append_bit _
    (.append_zeros (m := 4) (.append_bit _ (.append_bit _ (flags_zeros 14 18))))))))))

theorem OutCsr.flags (r : OutCsr) :
    Flags r.image 0 [(0, r.en), (1, r.ie), (8, r.mf), (9, r.ovf), (16, r.on), (17, r.busy)] :=
  .append_bit _ (.append_bit _ (.append_zeros (m := 6) (.append_bit _ (.append_bit _ (.append_zeros (m := 6)
    (.append_bit _ (.append_bit _ (flags_zeros 14 18))))))))

theorem Ipsr.flags (r : Ipsr) : Flags r.image 0 [(0, r.cip), (1, r.fip), (2, r.pmip), (3, r.pip)] :=
  .append_bit _ (.append_bit _ (.append_bit _ (.append_bit _ (flags_zeros 28 4))))

/-- What a 4-byte read of a register of flags gives. -/
theorem State.regRead_flags {s : State} {off n : Nat} {r : Reg} {x : BitVec n} {l : List (Nat × Bool)} (hf : Flags x 0 l)
    (ha : off % 4 = 0) (hr : regAt off = some r) (hp : r.present s.cfg = true) (hn : n ≤ 32)
    (hi : s.image r = x.setWidth 64) (j : Nat) : (s.regRead off 4).getLsbD j = true ↔ (j, true) ∈ l := by
  rw [State.regRead_narrow ha hr hp hn hi, (hf.setWidth (by omega)).2 j, Nat.zero_add]

/-! ### Registers that are read whole -/

/-- An 8-byte read of an 8-byte register that is present. -/
theorem State.regRead_whole {s : State} {off : Nat} {r : Reg} (ha : off % 8 = 0) (hr : regAt off = some r)
    (hw : r.wide = true) (hp : r.present s.cfg = true) : s.regRead off 8 = s.image r :=
  (State.regRead_eight ha hr hw).trans (State.readReg_present hp)

theorem bit_eq_ite (b : Bool) : bit b = if b then 1#1 else 0#1 := by
  cases b <;> rfl

/-- The code of `iommu_mode` by cases (R38). -/
theorem IommuMode.code_eq_ite (m : IommuMode) : m.code = if m = .off then 0#4 else if m = .bare then 1#4
    else if m = .lvl1 then 2#4 else if m = .lvl2 then 3#4 else 4#4 := by
  cases m <;> rfl

theorem State.regRead_ddtp (s : State) : s.regRead 16 8 = 0#10 ++ s.ddtp.ppn ++ 0#5 ++ bit s.ddtp.busy ++
    (if s.ddtp.mode = .off then 0#4 else if s.ddtp.mode = .bare then 1#4 else if s.ddtp.mode = .lvl1 then 2#4
      else if s.ddtp.mode = .lvl2 then 3#4 else 4#4) := by
  rw [State.regRead_whole (r := .ddtp) (by decide) rfl rfl rfl, State.image, Ddtp.image, IommuMode.code_eq_ite]

/-- `cqh` reads as the index modulo the number of entries (R31). -/
theorem State.regRead_cqh_mod (s : State) : s.regRead 32 4 = BitVec.ofNat 64 (s.cqh.toNat % s.cqb.entries) := by
  have hlt : s.cqh.toNat % s.cqb.entries < 2 ^ 64 := Nat.lt_of_le_of_lt (Nat.mod_le _ _) (by omega)
  rw [State.regRead_cqh]
  apply BitVec.eq_of_toNat_eq
  rw [BitVec.toNat_setWidth_of_le (by decide), QBase.toNat_mask, BitVec.toNat_ofNat, Nat.mod_eq_of_lt hlt]

/-- The registers of counter `n + 1`. -/
theorem State.regRead_counter {s : State} {n : Fin 31} (hp : (Reg.iohpmctr n).present s.cfg = true) :
    s.regRead (104 + 8 * n.val) 8 = s.iohpmctr[n] ∧ s.regRead (352 + 8 * n.val) 8 = s.iohpmevt[n].image := by
  obtain ⟨hctr, -, hevt, -⟩ := regAt_counter n
  exact ⟨State.regRead_whole (by omega) hctr rfl hp, State.regRead_whole (by omega) hevt rfl hp⟩

/-- The registers of the debug interface. -/
theorem State.regRead_debug {s : State} (hd : s.cfg.dbg = true) : s.regRead 600 8 = s.trReqIova ++ 0#12 ∧
    s.regRead 608 8 = s.trReqCtl.image ∧ s.regRead 616 8 = s.trResponse :=
  ⟨State.regRead_whole (r := .trReqIova) (by decide) rfl rfl hd,
    State.regRead_whole (r := .trReqCtl) (by decide) rfl rfl hd,
    State.regRead_whole (r := .trResponse) (by decide) rfl rfl hd⟩

/-- The registers of the page-request queue. -/
theorem State.regRead_pageRequests {s : State} (ha : s.cfg.ats = true) : s.regRead 56 8 = s.pqb.image ∧
    s.regRead 64 4 = s.pqh.setWidth 64 ∧ s.regRead 68 4 = s.pqt.setWidth 64 :=
  ⟨State.regRead_whole (r := .pqb) (by decide) rfl rfl ha, State.regRead_narrow (r := .pqh) (by decide) rfl ha (by decide) rfl,
    State.regRead_narrow (r := .pqt) (by decide) rfl ha (by decide) rfl⟩

/-! ### Registers that are absent (R32, R33) -/

section Absent
variable {s : State} {off : Nat} {p : Reg → Bool}

/-- The registers of performance monitoring. -/
def Reg.counting : Reg → Bool
  | .iocountovf => true
  | .iocountinh => true
  | .iohpmcycles => true
  | .iohpmctr _ => true
  | .iohpmevt _ => true
  | _ => false

/-- The registers of the debug interface. -/
def Reg.debugging : Reg → Bool
  | .trReqIova => true
  | .trReqCtl => true
  | .trResponse => true
  | _ => false

theorem Reg.present_of_counting {c : Cfg} (hh : c.hpm = false) : ∀ r : Reg, r.counting = true → r.present c = false
  | .iocountovf, _ => hh
  | .iocountinh, _ => hh
  | .iohpmcycles, _ => hh
  | .iohpmctr _, _ => by rw [Reg.present, hh, Bool.false_and]
  | .iohpmevt _, _ => by rw [Reg.present, hh, Bool.false_and]

theorem Reg.present_of_debugging {c : Cfg} (hd : c.dbg = false) : ∀ r : Reg, r.debugging = true → r.present c = false
  | .trReqIova, _ => hd
  | .trReqCtl, _ => hd
  | .trResponse, _ => hd

/-- Nothing is read where all registers are of an absent kind. -/
theorem State.regRead_absent_kind (hp : ∀ r, p r = true → r.present s.cfg = false) (h0 : (regAt off).all p = true)
    (h4 : (regAt (off - 4)).all p = true) (size : Nat) : s.regRead off size = 0#64 := by
  refine State.regRead_absent (fun r hr => hp r ?_) (fun r _ hr => .inl (hp r ?_))
  · rwa [hr] at h0
  · rwa [hr] at h4

theorem State.regRead_absent_reg {r : Reg} (hr : regAt off = some r) (hp : r.present s.cfg = false) (size : Nat) :
    s.regRead off size = 0#64 := by
  refine State.regRead_absent (fun r' hr' => ?_) (fun r' hn => ?_)
  · cases hr.symm.trans hr'
    exact hp
  · cases hr.symm.trans hn

theorem regAt_all_counting {off : Nat} (hlo : 85 ≤ off) (hhi : off < 600) : (regAt off).all Reg.counting = true := by
  unfold regAt
  split
  next hfixed =>
    obtain ⟨i, rfl⟩ := Nat.exists_eq_add_of_le hlo
    exact (by decide : ∀ i < 19, (fixedReg (85 + i)).all Reg.counting = true) i (by omega)
  next =>
    repeat' split
    all_goals rfl

theorem regAt_all_debugging {off : Nat} (hlo : 597 ≤ off) (hhi : off < 624) : (regAt off).all Reg.debugging = true := by
  obtain ⟨i, rfl⟩ := Nat.exists_eq_add_of_le hlo
  exact (by decide : ∀ i < 27, (regAt (597 + i)).all Reg.debugging = true) i (by omega)

/-- Where a register that the implementation does not have is, what is read is 0. -/
theorem State.regRead_of_absent (s : State) (off size : Nat)
    (h : (s.cfg.ats = false ∧ off ∈ [56, 60, 64, 68, 80]) ∨ (s.cfg.hpm = false ∧ 88 ≤ off ∧ off < 600) ∨
      (s.cfg.dbg = false ∧ 600 ≤ off ∧ off < 624) ∨ (s.cfg.qosid = false ∧ off = 624) ∨
      (∃ n, n < 31 ∧ s.cfg.hpmCounters ≤ n ∧ (off = 104 + 8 * n ∨ off = 352 + 8 * n))) : s.regRead off size = 0#64 := by
  obtain ⟨ha, hoff⟩ | ⟨hh, hlo, hhi⟩ | ⟨hd, hlo, hhi⟩ | ⟨hq, rfl⟩ | ⟨n, hn, habs, hoff⟩ := h
  · simp only [List.mem_cons, List.not_mem_nil, or_false] at hoff
    obtain rfl | rfl | rfl | rfl | rfl := hoff
    · exact State.regRead_absent_reg (r := .pqb) rfl ha size
    · exact State.regRead_absent (fun r hr => by cases hr) (fun r _ hr => .inl (by cases hr; exact ha))
    · exact State.regRead_absent_reg (r := .pqh) rfl ha size
    · exact State.regRead_absent_reg (r := .pqt) rfl ha size
    · exact State.regRead_absent_reg (r := .pqcsr) rfl ha size
  · by_cases h88 : off = 88
    · subst h88
      exact State.regRead_absent_reg (r := .iocountovf) rfl hh size
    · exact State.regRead_absent_kind (Reg.present_of_counting hh) (regAt_all_counting (by omega) hhi)
        (regAt_all_counting (by omega) (by omega)) size
  · by_cases h600 : off = 600
    · subst h600
      exact State.regRead_absent_reg (r := .trReqIova) rfl hd size
    · exact State.regRead_absent_kind (Reg.present_of_debugging hd) (regAt_all_debugging (by omega) hhi)
        (regAt_all_debugging (by omega) (by omega)) size
  · exact State.regRead_absent_reg (r := .iommuQosid) rfl hq size
  · obtain ⟨hctr, -, hevt, -⟩ := regAt_counter ⟨n, hn⟩
    have hp : (Reg.iohpmctr ⟨n, hn⟩).present s.cfg = false := by
      simp [Reg.present, habs]
    obtain rfl | rfl := hoff
    · exact State.regRead_absent_reg hctr hp size
    · exact State.regRead_absent_reg hevt hp size

end Absent

/-- A 4-byte read of an 8-byte register is one of its halves. -/
theorem State.regRead_halves (s : State) {off : Nat} (hw : WideOffset off) :
    s.regRead off 4 = ((s.regRead off 8).extractLsb' 0 32).setWidth 64 ∧
    s.regRead (off + 4) 4 = ((s.regRead off 8).extractLsb' 32 32).setWidth 64 := by
  obtain ⟨r, hr, hwide⟩ := hw.exists_reg
  have h8 := hw.mod_eight
  rw [State.regRead_eight h8 hr hwide, State.regRead_four (by omega) hr, State.regRead_high (by omega) hw.regAt_high hr hwide,
    and_low_eq, ushiftRight_eq_high]
  exact ⟨rfl, rfl⟩

end Sys2Proof.Machine

/-! PROOF. What the writes of the auxiliary registers store, and that it is read back (O51). -/

namespace Sys2Proof.Machine

/-- Part of a field is where the field is. -/
theorem extractLsb'_of_fieldAt {k m n a i : Nat} {w : BitVec k} {x : BitVec n} (h : FieldAt w a x) (hi : i + m ≤ n) :
    w.extractLsb' (a + i) m = x.extractLsb' i m := by
  rw [← (h : _ = x), extractLsb'_extractLsb' _ hi]

theorem fieldAt_extractLsb'_iff {k m n a b : Nat} {w : BitVec k} {v : BitVec m} :
    FieldAt w a (v.extractLsb' b n) ↔ ∀ j, j < n → w.getLsbD (a + j) = v.getLsbD (b + j) := by
  rw [FieldAt, BitVec.eq_of_getLsbD_eq_iff]
  refine forall₂_congr fun j hj => ?_
  rw [BitVec.getLsbD_extractLsb', BitVec.getLsbD_extractLsb', decide_eq_true hj, Bool.true_and, Bool.true_and]

/-! ### The answer of a debug translation (R540) -/

/-- What a debug translation leaves: Go/Busy at 0, the implementation, and the response of the answer it got. -/
theorem State.debugTranslate_response (s : State) : s.debugTranslate.trReqCtl.goBusy = false ∧
    s.debugTranslate.cfg = s.cfg ∧
    ((∃ f t free, translate s.debugRequest true (s.enter s.debugRequest) = .stop f t ∧
      s.debugTranslate.trResponse = responseFault free) ∨
    ∃ d t, translate s.debugRequest true (s.enter s.debugRequest) = .ok d t ∧
      s.debugTranslate.trResponse = responseOk s.cfg d.c) := by
  obtain ⟨u, r, hw, hdone⟩ := s.debugTranslate_work
  refine ⟨by rw [hdone], by rw [hdone]; exact hw.cfg, ?_⟩
  have hworks := Res.Works.trans (s.enter_work s.debugRequest) (translate_works s.debugRequest true (s.enter s.debugRequest))
  cases hr : translate s.debugRequest true (s.enter s.debugRequest) with
  | stop f t => exact .inl ⟨f, t, _, rfl, by rw [State.debugTranslate_of_stop hr]⟩
  | ok d t =>
    have hcfg : (t.leave d.ids).cfg = s.cfg := ((hworks.of_ok hr).trans (State.leave_work _ _)).cfg
    exact .inr ⟨d, t, rfl, by rw [State.debugTranslate_of_ok hr, hcfg]⟩

/-- `tr_response` after it, whatever the answer. -/
theorem State.debugTranslate_reserved (s : State) :
    s.debugTranslate.trResponse.extractLsb' 1 6 = 0#6 ∧ s.debugTranslate.trResponse.extractLsb' 54 10 = 0#10 := by
  obtain ⟨-, -, ⟨f, t, free, -, hresp⟩ | ⟨d, t, -, hresp⟩⟩ := s.debugTranslate_response
  · rw [hresp]
    exact (responseFault_fields free).2
  · obtain ⟨htop, -, -, -, hlow⟩ := responseOk_fields s.cfg d.c
    rw [hresp]
    exact ⟨extractLsb'_of_fieldAt hlow (i := 1) (m := 6) (by decide), htop⟩

theorem State.debugTranslate_fault {s : State} {f : Stop} {u : State}
    (h : translate s.debugRequest true (s.enter s.debugRequest) = .stop f u) :
    s.debugTranslate.trResponse.getLsbD 0 = true := by
  obtain ⟨-, -, ⟨_, _, free, -, hresp⟩ | ⟨_, _, hok, -⟩⟩ := s.debugTranslate_response
  · rw [hresp]
    exact (responseFault_fields free).1
  · cases h.symm.trans hok

theorem State.debugTranslate_success {s : State} {d : Done} {u : State}
    (h : translate s.debugRequest true (s.enter s.debugRequest) = .ok d u) :
    s.debugTranslate.trResponse = responseOk s.cfg d.c := by
  obtain ⟨-, -, ⟨_, _, _, hstop, -⟩ | ⟨_, _, hok, hresp⟩⟩ := s.debugTranslate_response
  · cases h.symm.trans hstop
  · cases h.symm.trans hok
    exact hresp

/-- The response of a success, as the statement reads it. -/
theorem responseOk_reads (c : Cfg) (r : Success) :
    (responseOk c r).getLsbD 0 = false ∧ (responseOk c r).extractLsb' 7 2 = r.pbmt ∧
    ((responseOk c r).getLsbD 9 = true ↔ reportedSpan c r.span ≠ 0) ∧
    ∀ j, j < 44 → (responseOk c r).getLsbD (10 + j) =
      if j + 1 < reportedSpan c r.span then true else if j + 1 = reportedSpan c r.span then false
      else r.spa.getLsbD (12 + j) := by
  obtain ⟨-, hppn, hs, hpbmt, hlow⟩ := responseOk_fields c r
  refine ⟨fieldAt_zeros_iff.mp hlow 0 (by decide) (by decide), hpbmt, by rw [hs, bne_iff_ne], fun j hj => ?_⟩
  rw [← getLsbD_responsePpn _ _ hj, ← (hppn : _ = _), BitVec.getLsbD_extractLsb', decide_eq_true hj, Bool.true_and]

/-- What software reads after a debug translation. -/
theorem State.debugTranslate_reads {s t : State} (ht : s.debugTranslate = t) (hd : s.cfg.dbg = true) :
    t.trReqCtl.goBusy = false ∧ (t.regRead 616 8).extractLsb' 1 6 = 0#6 ∧ (t.regRead 616 8).extractLsb' 54 10 = 0#10 ∧
    (∀ f u, translate s.debugRequest true (s.enter s.debugRequest) = .stop f u →
      (t.regRead 616 8).getLsbD 0 = true) ∧
    ∀ d u, translate s.debugRequest true (s.enter s.debugRequest) = .ok d u →
      t.regRead 616 8 = responseOk s.cfg d.c := by
  obtain ⟨hgo, hcfg, -⟩ := s.debugTranslate_response
  obtain ⟨hlow, htop⟩ := s.debugTranslate_reserved
  rw [ht] at hgo hcfg hlow htop
  have hd' : t.cfg.dbg = true := by rw [hcfg, hd]
  rw [(State.regRead_debug hd').2.2]
  refine ⟨hgo, hlow, htop, fun f u h => ?_, fun d u h => ?_⟩
  · rw [← ht]
    exact State.debugTranslate_fault h
  · rw [← ht]
    exact State.debugTranslate_success h

/-! ### Index registers (R533), `icvec` (R542), `iommu_qosid` (R544) -/

section Small
variable {s : State} {v : DWord} {lowFirst : Bool}

/-- An index that is written is taken modulo the number of entries. -/
theorem QBase.mask_mergeLow (b : QBase) (old : DWord) (hv : v.toNat < 2 ^ 32) :
    b.mask ((mergeLow old v).setWidth 32) = BitVec.ofNat 32 (v.toNat % b.entries) := by
  rw [setWidth_mergeLow, QBase.mask, BitVec.toNat_setWidth, Nat.mod_eq_of_lt hv]

/-- What an index register that holds such a value reads as. -/
theorem QBase.toNat_setWidth_index (b : QBase) (i : Nat) :
    ((BitVec.ofNat 32 (i % b.entries)).setWidth 64).toNat = i % b.entries := by
  have hlt : i % b.entries < 2 ^ 32 := Nat.lt_of_lt_of_le (Nat.mod_lt _ (Nat.two_pow_pos _)) b.entries_le
  rw [BitVec.toNat_setWidth_of_le (by decide), BitVec.toNat_ofNat, Nat.mod_eq_of_lt hlt]

theorem State.regRead_cqt : s.regRead 36 4 = s.cqt.setWidth 64 :=
  State.regRead_narrow (r := .cqt) (by decide) rfl rfl (by decide) rfl

theorem State.regRead_fqh : s.regRead 48 4 = s.fqh.setWidth 64 :=
  State.regRead_narrow (r := .fqh) (by decide) rfl rfl (by decide) rfl

theorem State.regWrite_cqt (hv : v.toNat < 2 ^ 32) :
    s.regWrite 36 4 v lowFirst = { s with cqt := BitVec.ofNat 32 (v.toNat % s.cqb.entries) } := by
  rw [State.regWrite_four (r := .cqt) (by decide) rfl rfl, State.writeImage, QBase.mask_mergeLow _ _ hv]

theorem State.regWrite_fqh (hv : v.toNat < 2 ^ 32) :
    s.regWrite 48 4 v lowFirst = { s with fqh := BitVec.ofNat 32 (v.toNat % s.fqb.entries) } := by
  rw [State.regWrite_four (r := .fqh) (by decide) rfl rfl, State.writeImage, QBase.mask_mergeLow _ _ hv]

theorem State.regWrite_pqh (ha : s.cfg.ats = true) (hv : v.toNat < 2 ^ 32) :
    s.regWrite 64 4 v lowFirst = { s with pqh := BitVec.ofNat 32 (v.toNat % s.pqb.entries) } := by
  rw [State.regWrite_four (r := .pqh) (by decide) rfl ha, State.writeImage, QBase.mask_mergeLow _ _ hv]

/-- The number of writable bits of a vector field is the least that counts the vectors. -/
theorem vectorBits_eq {n k : Nat} (h1 : 1 ≤ n) (h16 : n ≤ 16) (hk : n ≤ 2 ^ k) (hmin : ∀ j, j < k → 2 ^ j < n) :
    vectorBits n = k := by
  have hlow : k = 0 ∨ 2 ^ (k - 1) < n := by
    cases k with
    | zero => exact .inl rfl
    | succ j => exact .inr (hmin j (Nat.lt_succ_self j))
  have hle : k ≤ 4 := by
    by_contra hgt
    exact absurd (hmin 4 (by omega)) (by omega)
  unfold vectorBits
  interval_cases k
  all_goals
    norm_num at hlow hk
    repeat' split
    all_goals omega

theorem State.regWrite_icvec : s.regWrite 760 4 v lowFirst = { s with icvec :=
    ⟨legalVector s.cfg s.icvec.civ (v.extractLsb' 0 4), legalVector s.cfg s.icvec.fiv (v.extractLsb' 4 4),
      legalVector s.cfg s.icvec.pmiv (v.extractLsb' 8 4), legalVector s.cfg s.icvec.piv (v.extractLsb' 12 4)⟩ } := by
  rw [State.regWrite_four (r := .icvec) (by decide) rfl rfl, State.writeImage, writeIcvec]
  simp (disch := decide) only [extractLsb'_mergeLow]

theorem Icvec.image_low (i : Icvec) : i.image.extractLsb' 0 32 = 0#16 ++ (i.piv ++ i.pmiv ++ i.fiv ++ i.civ) := by
  have h : FieldAt i.image 0 i.image := fieldAt_zero_iff_eq.mpr rfl
  nth_rw 2 [Icvec.image] at h
  simp only [fieldAt_append_iff, and_assoc] at h
  obtain ⟨hzeros, hpiv, hpmiv, hfiv, hciv⟩ := h
  have hzeros' : FieldAt i.image 16 0#16 := extractLsb'_of_fieldAt hzeros (i := 0) (m := 16) (by decide)
  exact fieldAt_append_iff.mpr ⟨hzeros', fieldAt_append_iff.mpr ⟨fieldAt_append_iff.mpr ⟨fieldAt_append_iff.mpr
    ⟨hpiv, hpmiv⟩, hfiv⟩, hciv⟩⟩

theorem State.regRead_icvec_low (s : State) :
    s.regRead 760 4 = (s.icvec.piv ++ s.icvec.pmiv ++ s.icvec.fiv ++ s.icvec.civ).setWidth 64 := by
  rw [State.regRead_low (r := .icvec) (by decide) rfl rfl, State.image, Icvec.image_low, setWidth_zeros_append]

theorem State.regWrite_qosid (hq : s.cfg.qosid = true) : s.regWrite 624 4 v lowFirst = { s with qosid :=
    ⟨BitVec.ofNat 12 ((v.extractLsb' 0 12).toNat % 2 ^ s.cfg.rcidWidth),
      BitVec.ofNat 12 ((v.extractLsb' 16 12).toNat % 2 ^ s.cfg.mcidWidth)⟩ } := by
  rw [State.regWrite_four (r := .iommuQosid) (by decide) rfl hq, State.writeImage, writeQosid]
  simp (disch := decide) only [extractLsb'_mergeLow]

theorem Qos.image_eq (q : Qos) : q.image = 0#4 ++ (q.mcid ++ 0#4 ++ q.rcid) := by
  refine (fieldAt_zero_iff_eq.mp ?_).symm
  have h : FieldAt q.image 0 q.image := fieldAt_zero_iff_eq.mpr rfl
  nth_rw 2 [Qos.image] at h
  simpa only [fieldAt_append_iff, and_assoc] using h

theorem State.regRead_qosid (hq : s.cfg.qosid = true) :
    s.regRead 624 4 = (s.qosid.mcid ++ 0#4 ++ s.qosid.rcid).setWidth 64 := by
  rw [State.regRead_narrow (r := .iommuQosid) (by decide) rfl hq (by decide) rfl, Qos.image_eq, setWidth_zeros_append]

end Small

/-! ### The registers of the debug interface (R536) -/

section Debug
variable {s : State} {v : DWord} {lowFirst : Bool} (hd : s.cfg.dbg = true)
include hd

/-- While a debug translation runs they are not written. -/
theorem State.regWrite_debug_of_busy (hb : s.trReqCtl.goBusy = true) : ∀ off, off ∈ [600, 604, 608, 612] →
    s.regWrite off 4 v lowFirst = s := by
  simp only [List.forall_mem_cons, List.not_mem_nil, false_imp_iff, implies_true, and_true]
  refine ⟨?_, ?_, ?_, ?_⟩
  · rw [State.regWrite_four (r := .trReqIova) (by decide) rfl hd]
    exact if_pos hb
  · rw [State.regWrite_high (off := 600) (r := .trReqIova) (by decide) rfl rfl rfl hd]
    exact if_pos hb
  · rw [State.regWrite_four (r := .trReqCtl) (by decide) rfl hd]
    exact if_pos hb
  · rw [State.regWrite_high (off := 608) (r := .trReqCtl) (by decide) rfl rfl rfl hd]
    exact if_pos hb

theorem State.regWrite_trReqIova_low (hb : s.trReqCtl.goBusy = false) : s.regWrite 600 4 v lowFirst =
    { s with trReqIova := s.trReqIova.extractLsb' 20 32 ++ v.extractLsb' 12 20 } := by
  have hmerged : (mergeLow (s.trReqIova ++ 0#12) v).extractLsb' 12 52 =
      s.trReqIova.extractLsb' 20 32 ++ v.extractLsb' 12 20 := by
    refine (extractLsb'_mergeLow_both _ v (a := 12) (k := 20) (m := 32) rfl (by decide)).trans ?_
    rw [BitVec.extractLsb'_append_eq_of_le (by decide)]
  rw [State.regWrite_four (r := .trReqIova) (by decide) rfl hd, State.writeImage, writeTrReqIova, if_neg (by rw [hb]; decide),
    State.image, hmerged]

theorem State.regWrite_trReqIova_high (hb : s.trReqCtl.goBusy = false) : s.regWrite 604 4 v lowFirst =
    { s with trReqIova := v.extractLsb' 0 32 ++ s.trReqIova.extractLsb' 0 20 } := by
  have hmerged : (mergeHigh (s.trReqIova ++ 0#12) (v.extractLsb' 0 32)).extractLsb' 12 52 =
      v.extractLsb' 0 32 ++ s.trReqIova.extractLsb' 0 20 := by
    refine (extractLsb'_mergeHigh_both _ v (a := 12) (k := 20) (m := 32) rfl (by decide)).trans ?_
    rw [BitVec.extractLsb'_append_eq_of_le (by decide)]
  rw [State.regWrite_high (off := 600) (r := .trReqIova) (by decide) rfl rfl rfl hd, State.writeImage, writeTrReqIova,
    if_neg (by rw [hb]; decide), State.image, hmerged]

/-- The halves of `tr_req_iova`. -/
theorem State.regRead_trReqIova_low {hi : BitVec 32} {lo : BitVec 20} (h : s.trReqIova = hi ++ lo) :
    s.regRead 600 4 = (lo ++ 0#12).setWidth 64 := by
  have hiova : FieldAt (s.image .trReqIova) 0 (hi ++ lo ++ 0#12) := by
    rw [State.image, h]
    exact fieldAt_zero_iff_eq.mpr rfl
  rw [fieldAt_append_iff, fieldAt_append_iff] at hiova
  obtain ⟨⟨-, hlow⟩, hzeros⟩ := hiova
  have hhalf : FieldAt (s.image .trReqIova) 0 (lo ++ 0#12) := fieldAt_append_iff.mpr ⟨hlow, hzeros⟩
  rw [State.regRead_low (r := .trReqIova) (by decide) rfl hd]
  exact congrArg _ hhalf

theorem State.regRead_trReqIova_high {hi : BitVec 32} {lo : BitVec 20} (h : s.trReqIova = hi ++ lo) :
    s.regRead 604 4 = hi.setWidth 64 := by
  have hhigh : FieldAt (s.image .trReqIova) 32 hi := by
    rw [State.image, h, FieldAt, BitVec.extractLsb'_append_eq_of_le (by decide)]
    exact BitVec.extractLsb'_append_eq_left
  rw [State.regRead_upper (off := 600) (r := .trReqIova) (by decide) rfl rfl rfl hd]
  exact congrArg _ hhigh

/-- The halves of `tr_req_ctl`. -/
theorem State.regRead_trReqCtl_low {pid : BitVec 20} (hp : s.trReqCtl.pid = pid)
    (hv : s.trReqCtl.nw = v.getLsbD 3 ∧ s.trReqCtl.exe = v.getLsbD 2 ∧ s.trReqCtl.priv = v.getLsbD 1 ∧
      s.trReqCtl.goBusy = v.getLsbD 0) :
    s.regRead 608 4 = (pid ++ 0#8 ++ v.extractLsb' 0 4).setWidth 64 := by
  obtain ⟨-, -, -, hpid, hzeros, hnw, hexe, hpriv, hgo⟩ := s.trReqCtl.fields
  obtain ⟨hnw', hexe', hpriv', hgo'⟩ := hv
  have hbits : ∀ j < 4, s.trReqCtl.image.getLsbD (0 + j) = v.getLsbD (0 + j) := by
    intro j hj
    interval_cases j
    · exact hgo.trans hgo'
    · exact hpriv.trans hpriv'
    · exact hexe.trans hexe'
    · exact hnw.trans hnw'
  have hhalf : FieldAt s.trReqCtl.image 0 (s.trReqCtl.pid ++ 0#8 ++ v.extractLsb' 0 4) :=
    fieldAt_append_iff.mpr ⟨fieldAt_append_iff.mpr ⟨hpid, hzeros⟩, fieldAt_extractLsb'_iff.mpr hbits⟩
  rw [State.regRead_low (r := .trReqCtl) (by decide) rfl hd, ← hp]
  exact congrArg _ hhalf

theorem State.regRead_trReqCtl_high {did : BitVec 24} {pv : BitVec 1} (hdid : s.trReqCtl.did = did)
    (hpv : bit s.trReqCtl.pv = pv) : s.regRead 612 4 = (did ++ 0#7 ++ pv).setWidth 64 := by
  obtain ⟨hdid', hzeros, hpv', -⟩ := s.trReqCtl.fields
  have hhalf : FieldAt s.trReqCtl.image 32 (s.trReqCtl.did ++ 0#7 ++ bit s.trReqCtl.pv) :=
    fieldAt_append_iff.mpr ⟨fieldAt_append_iff.mpr ⟨hdid', hzeros⟩, fieldAt_bit_iff.mpr hpv'⟩
  rw [State.regRead_upper (off := 608) (r := .trReqCtl) (by decide) rfl rfl rfl hd, ← hdid, ← hpv]
  exact congrArg _ hhalf

end Debug

/-! ### The counters (R56, R57): the implemented bits -/

section Implemented
variable {n w k : Nat}

theorem toNat_ofNat_mod (hn : w ≤ n) (c : Nat) : (BitVec.ofNat n (c % 2 ^ w)).toNat = c % 2 ^ w := by
  have hlt : c % 2 ^ w < 2 ^ n := Nat.lt_of_lt_of_le (Nat.mod_lt _ (Nat.two_pow_pos w)) (Nat.pow_le_pow_right (by decide) hn)
  rw [BitVec.toNat_ofNat, Nat.mod_eq_of_lt hlt]

/-- The low half of a counter of at least 32 bits is kept whole. -/
theorem toNat_low_ofNat_mod (hw : 32 ≤ w) (hn : w ≤ n) (c : Nat) :
    ((BitVec.ofNat n (c % 2 ^ w)).extractLsb' 0 32).toNat = c % 2 ^ 32 := by
  rw [BitVec.extractLsb'_toNat, toNat_ofNat_mod hn, Nat.shiftRight_zero, Nat.mod_mod_of_dvd _ (Nat.pow_dvd_pow 2 hw)]

/-- Of the bits above it those below the width are kept. -/
theorem toNat_high_ofNat_mod (hw : 32 ≤ w) (hn : w ≤ 32 + k) (c : Nat) :
    ((BitVec.ofNat (32 + k) (c % 2 ^ w)).extractLsb' 32 k).toNat = c / 2 ^ 32 % 2 ^ (w - 32) := by
  obtain ⟨d, rfl⟩ := Nat.exists_eq_add_of_le hw
  have hlt : c / 2 ^ 32 % 2 ^ d < 2 ^ k :=
    Nat.lt_of_lt_of_le (Nat.mod_lt _ (Nat.two_pow_pos d)) (Nat.pow_le_pow_right (by decide) (by omega))
  rw [BitVec.extractLsb'_toNat, toNat_ofNat_mod hn, Nat.shiftRight_eq_div_pow, Nat.pow_add, Nat.mod_mul_right_div_self,
    Nat.add_sub_cancel_left, Nat.mod_eq_of_lt hlt]

theorem toNat_append_low (hi : BitVec k) (lo : BitVec n) : (hi ++ lo).toNat = 2 ^ n * hi.toNat + lo.toNat := by
  rw [BitVec.toNat_append, Nat.shiftLeft_eq, Nat.mul_comm, ← Nat.two_pow_add_eq_or_of_lt lo.isLt]

theorem toNat_append_mod (hi : BitVec k) (lo : BitVec n) : (hi ++ lo).toNat % 2 ^ n = lo.toNat := by
  rw [toNat_append_low, Nat.mul_add_mod, Nat.mod_eq_of_lt lo.isLt]

theorem toNat_append_div (hi : BitVec k) (lo : BitVec n) : (hi ++ lo).toNat / 2 ^ n = hi.toNat := by
  rw [toNat_append_low, Nat.mul_add_div (Nat.two_pow_pos n), Nat.div_eq_of_lt lo.isLt, Nat.add_zero]

end Implemented

section Counter
variable {s : State} {v : DWord} {lowFirst : Bool} {n : Fin 31} (hp : (Reg.iohpmctr n).present s.cfg = true)
include hp

theorem State.regWrite_iohpmctr_low : s.regWrite (104 + 8 * n.val) 4 v lowFirst =
    writeIohpmctr s n ((s.iohpmctr[n]).extractLsb' 32 32 ++ v.extractLsb' 0 32) := by
  obtain ⟨hreg, -⟩ := regAt_counter n
  rw [State.regWrite_four (by omega) hreg hp]
  rfl

theorem State.regWrite_iohpmctr_high : s.regWrite (104 + 8 * n.val + 4) 4 v lowFirst =
    writeIohpmctr s n (v.extractLsb' 0 32 ++ (s.iohpmctr[n]).extractLsb' 0 32) := by
  obtain ⟨hreg, hnone, -⟩ := regAt_counter n
  rw [State.regWrite_high (by omega) hnone hreg rfl hp]
  rfl

/-- A counter that was written reads as its implemented bits. -/
theorem State.regRead_writeIohpmctr {hi lo : BitVec 32} (h32 : 32 ≤ s.cfg.hpmWidth) (h64 : s.cfg.hpmWidth ≤ 64) :
    ((writeIohpmctr s n (hi ++ lo)).regRead (104 + 8 * n.val) 4).toNat = lo.toNat ∧
    ((writeIohpmctr s n (hi ++ lo)).regRead (104 + 8 * n.val + 4) 4).toNat = hi.toNat % 2 ^ (s.cfg.hpmWidth - 32) := by
  obtain ⟨hreg, hnone, -⟩ := regAt_counter n
  have himage : (writeIohpmctr s n (hi ++ lo)).image (.iohpmctr n) =
      BitVec.ofNat 64 ((hi ++ lo).toNat % 2 ^ s.cfg.hpmWidth) := Vector.getElem_set_self n.isLt
  rw [State.regRead_low (s := writeIohpmctr s n (hi ++ lo)) (by omega) hreg hp,
    State.regRead_upper (s := writeIohpmctr s n (hi ++ lo)) (by omega) hnone hreg rfl hp, himage,
    BitVec.toNat_setWidth_of_le (by decide), BitVec.toNat_setWidth_of_le (by decide), toNat_low_ofNat_mod h32 h64,
    toNat_append_mod]
  refine ⟨rfl, (toNat_high_ofNat_mod (k := 32) h32 h64 _).trans ?_⟩
  rw [toNat_append_div]

end Counter

/-! ### The event selectors (R58, R633) -/

section Selector
variable (e : HpmEvt) (v : DWord)

/-- Where the fields of a selector are. -/
theorem HpmEvt.fields : e.image.getLsbD 63 = e.ovf ∧ e.image.getLsbD 62 = e.idt ∧ e.image.getLsbD 61 = e.dvGscv ∧
    e.image.getLsbD 60 = e.pvPscv ∧ FieldAt e.image 36 e.didGscid ∧ FieldAt e.image 16 e.pidPscid ∧
    e.image.getLsbD 15 = e.dmask ∧ FieldAt e.image 0 e.eventId := by
  have h : FieldAt e.image 0 e.image := fieldAt_zero_iff_eq.mpr rfl
  nth_rw 2 [HpmEvt.image] at h
  simpa only [fieldAt_append_iff, fieldAt_bit_iff, and_assoc] using h

/-- The selector with the low half written; `events` are the events there are. -/
def HpmEvt.writtenLow (events : List Nat) : HpmEvt :=
  { e with
    eventId := if v.extractLsb' 0 15 = 0#15 ∨ (v.extractLsb' 0 15).toNat ∈ events then v.extractLsb' 0 15 else e.eventId
    dmask := v.getLsbD 15
    pidPscid := e.pidPscid.extractLsb' 16 4 ++ v.extractLsb' 16 16 }

/-- The selector with the high half written. -/
def HpmEvt.writtenHigh : HpmEvt :=
  { e with
    pidPscid := v.extractLsb' 0 4 ++ e.pidPscid.extractLsb' 0 16
    didGscid := v.extractLsb' 4 24
    pvPscv := v.getLsbD 28
    dvGscv := v.getLsbD 29
    idt := v.getLsbD 30
    ovf := v.getLsbD 31 }

/-- The low half of a selector that was written. -/
theorem HpmEvt.image_writtenLow (events : List Nat) :
    (e.writtenLow v events).image.extractLsb' 0 32 = v.extractLsb' 15 17 ++ (e.writtenLow v events).eventId := by
  obtain ⟨-, -, -, -, -, hpid, hdmask, hevent⟩ := (e.writtenLow v events).fields
  have hsplit : v.extractLsb' 15 17 = v.extractLsb' 16 16 ++ bit (v.getLsbD 15) := by
    rw [bit_getLsbD]
    exact (BitVec.extractLsb'_append_extractLsb'_eq_extractLsb' (start₁ := 15) (len₁ := 1) rfl).symm
  obtain ⟨-, hlow⟩ := fieldAt_append_iff.mp hpid
  rw [hsplit]
  exact fieldAt_append_iff.mpr ⟨fieldAt_append_iff.mpr ⟨hlow, fieldAt_bit_iff.mpr hdmask⟩, hevent⟩

/-- The high half of a selector that was written is what was written. -/
theorem HpmEvt.image_writtenHigh : (e.writtenHigh v).image.extractLsb' 32 32 = v.extractLsb' 0 32 := by
  obtain ⟨hovf, hidt, hdv, hpv, hdid, hpid, -⟩ := (e.writtenHigh v).fields
  obtain ⟨hhigh, -⟩ := fieldAt_append_iff.mp hpid
  have hsplit : v.extractLsb' 0 32 = bit (v.getLsbD 31) ++ bit (v.getLsbD 30) ++ bit (v.getLsbD 29) ++
      bit (v.getLsbD 28) ++ v.extractLsb' 4 24 ++ v.extractLsb' 0 4 := by
    change FieldAt v 0 _
    simp only [fieldAt_append_iff, fieldAt_bit_iff, and_self, true_and]
    exact ⟨rfl, rfl⟩
  rw [hsplit]
  change FieldAt _ 32 _
  simp only [fieldAt_append_iff, fieldAt_bit_iff, and_assoc]
  exact ⟨hovf, hidt, hdv, hpv, hdid, hhigh⟩

variable {v} {s : State} {lowFirst : Bool} {n : Fin 31} (hp : (Reg.iohpmevt n).present s.cfg = true)
include hp

theorem State.regWrite_iohpmevt_low : s.regWrite (352 + 8 * n.val) 4 v lowFirst =
    { s with iohpmevt := s.iohpmevt.set n (s.iohpmevt[n].writtenLow v s.cfg.hpmEvents) } := by
  obtain ⟨-, -, hreg, -⟩ := regAt_counter n
  obtain ⟨hovf, hidt, hdv, hpv, hdid, hpid, -⟩ := s.iohpmevt[n].fields
  have hpid' : (mergeLow s.iohpmevt[n].image v).extractLsb' 16 20 =
      s.iohpmevt[n].pidPscid.extractLsb' 16 4 ++ v.extractLsb' 16 16 := by
    rw [← extractLsb'_of_fieldAt hpid (i := 16) (m := 4) (by decide)]
    exact extractLsb'_mergeLow_both _ v (a := 16) (k := 16) (m := 4) rfl (by decide)
  have hdid' : (mergeLow s.iohpmevt[n].image v).extractLsb' 36 24 = s.iohpmevt[n].didGscid :=
    (extractLsb'_mergeLow_high _ v (a := 4) (by decide)).trans hdid
  rw [State.regWrite_four (by omega) hreg hp, State.writeImage, writeIohpmevt]
  simp (disch := decide) only [State.image, extractLsb'_mergeLow, getLsbD_mergeLow, getLsbD_mergeLow_high, hpid', hdid', hovf,
    hidt, hdv, hpv, Bool.or_eq_true, decide_eq_true_eq, List.contains_iff_mem, HpmEvt.writtenLow]

theorem State.regWrite_iohpmevt_high : s.regWrite (352 + 8 * n.val + 4) 4 v lowFirst =
    { s with iohpmevt := s.iohpmevt.set n (s.iohpmevt[n].writtenHigh v) } := by
  obtain ⟨-, -, hreg, hnone⟩ := regAt_counter n
  obtain ⟨-, -, -, -, -, hpid, hdmask, hevent⟩ := s.iohpmevt[n].fields
  have hevent' : s.iohpmevt[n].image.extractLsb' 0 15 = s.iohpmevt[n].eventId := hevent
  have hpid' : (mergeHigh s.iohpmevt[n].image (v.extractLsb' 0 32)).extractLsb' 16 20 =
      v.extractLsb' 0 4 ++ s.iohpmevt[n].pidPscid.extractLsb' 0 16 := by
    rw [← extractLsb'_of_fieldAt hpid (i := 0) (m := 16) (by decide)]
    exact extractLsb'_mergeHigh_both _ v (a := 16) (k := 16) (m := 4) rfl (by decide)
  have hdid : (mergeHigh s.iohpmevt[n].image (v.extractLsb' 0 32)).extractLsb' 36 24 = v.extractLsb' 4 24 :=
    extractLsb'_mergeHigh_high _ v (a := 4) (by decide)
  have hbit {i : Nat} (hi : i < 32) : (mergeHigh s.iohpmevt[n].image (v.extractLsb' 0 32)).getLsbD (32 + i) = v.getLsbD i :=
    getLsbD_mergeHigh_high _ v hi
  rw [State.regWrite_high (by omega) hnone hreg rfl hp, State.writeImage, writeIohpmevt]
  simp (disch := decide) only [State.image, extractLsb'_mergeHigh, getLsbD_mergeHigh, hpid', hdid, hevent', hdmask, ite_self,
    hbit (i := 28), hbit (i := 29), hbit (i := 30), hbit (i := 31), HpmEvt.writtenHigh]

/-- The halves of a selector that was written. -/
theorem State.regRead_iohpmevt_low :
    ({ s with iohpmevt := s.iohpmevt.set n e } : State).regRead (352 + 8 * n.val) 4 =
      (e.image.extractLsb' 0 32).setWidth 64 := by
  obtain ⟨-, -, hreg, -⟩ := regAt_counter n
  have himage : ({ s with iohpmevt := s.iohpmevt.set n e } : State).image (.iohpmevt n) = e.image :=
    congrArg HpmEvt.image (Vector.getElem_set_self n.isLt)
  rw [State.regRead_low (s := { s with iohpmevt := s.iohpmevt.set n e }) (by omega) hreg hp, himage]

theorem State.regRead_iohpmevt_high :
    ({ s with iohpmevt := s.iohpmevt.set n e } : State).regRead (352 + 8 * n.val + 4) 4 =
      (e.image.extractLsb' 32 32).setWidth 64 := by
  obtain ⟨-, -, hreg, hnone⟩ := regAt_counter n
  have himage : ({ s with iohpmevt := s.iohpmevt.set n e } : State).image (.iohpmevt n) = e.image :=
    congrArg HpmEvt.image (Vector.getElem_set_self n.isLt)
  rw [State.regRead_upper (s := { s with iohpmevt := s.iohpmevt.set n e }) (by omega) hnone hreg rfl hp, himage]

end Selector

/-! ### `iohpmcycles` (R56, R631) -/

section Cycles
variable {s : State} {v : DWord} {lowFirst : Bool} (hh : s.cfg.hpm = true)

/-- `iohpmcycles` with the implemented bits of a value, and an OF bit. -/
def State.writtenCycles (s : State) (c : BitVec 63) (ovf : Bool) : State :=
  { s with iohpmcycles := ⟨BitVec.ofNat 63 (c.toNat % 2 ^ cyclesWidth s.cfg), ovf⟩ }

include hh

theorem State.regWrite_iohpmcycles_low : s.regWrite 96 4 v lowFirst =
    s.writtenCycles (s.iohpmcycles.counter.extractLsb' 32 31 ++ v.extractLsb' 0 32) s.iohpmcycles.ovf := by
  have hcounter : (mergeLow (s.image .iohpmcycles) v).extractLsb' 0 63 =
      s.iohpmcycles.counter.extractLsb' 32 31 ++ v.extractLsb' 0 32 := by
    refine (extractLsb'_mergeLow_both _ v (a := 0) (k := 32) (m := 31) rfl (by decide)).trans ?_
    rw [State.image, BitVec.extractLsb'_append_eq_of_add_le (by decide)]
  have hovf : (mergeLow (s.image .iohpmcycles) v).getLsbD 63 = s.iohpmcycles.ovf := by
    rw [getLsbD_mergeLow_high _ _ (by decide), State.image, BitVec.getLsbD_append]
    exact getLsbD_bit_zero _
  rw [State.regWrite_four (r := .iohpmcycles) (by decide) rfl hh, State.writeImage, writeIohpmcycles, hcounter, hovf]
  rfl

theorem State.regWrite_iohpmcycles_high : s.regWrite 100 4 v lowFirst =
    s.writtenCycles (v.extractLsb' 0 31 ++ s.iohpmcycles.counter.extractLsb' 0 32) (v.getLsbD 31) := by
  have hcounter : (mergeHigh (s.image .iohpmcycles) (v.extractLsb' 0 32)).extractLsb' 0 63 =
      v.extractLsb' 0 31 ++ s.iohpmcycles.counter.extractLsb' 0 32 := by
    refine (extractLsb'_mergeHigh_both _ v (a := 0) (k := 32) (m := 31) rfl (by decide)).trans ?_
    rw [State.image, BitVec.extractLsb'_append_eq_of_add_le (by decide)]
  rw [State.regWrite_high (off := 96) (r := .iohpmcycles) (by decide) rfl rfl rfl hh, State.writeImage, writeIohpmcycles,
    hcounter, getLsbD_mergeHigh_high _ v (i := 31) (by decide)]
  rfl

/-- The cycle counter that was written reads as its implemented bits, with OF above them. -/
theorem State.regRead_writtenCycles {hi : BitVec 31} {lo : BitVec 32} {ovf : Bool} (h32 : 32 ≤ s.cfg.hpmWidth) :
    ((s.writtenCycles (hi ++ lo) ovf).regRead 96 4).toNat = lo.toNat ∧
    ((s.writtenCycles (hi ++ lo) ovf).regRead 100 4).toNat =
      hi.toNat % 2 ^ (cyclesWidth s.cfg - 32) + if ovf then 2 ^ 31 else 0 := by
  have hw : 32 ≤ cyclesWidth s.cfg := Nat.le_min.mpr ⟨h32, by decide⟩
  have hle : cyclesWidth s.cfg ≤ 63 := Nat.min_le_right _ _
  have himage : (s.writtenCycles (hi ++ lo) ovf).image .iohpmcycles =
      bit ovf ++ BitVec.ofNat 63 ((hi ++ lo).toNat % 2 ^ cyclesWidth s.cfg) := rfl
  have hlow := toNat_low_ofNat_mod hw hle (hi ++ lo).toNat
  have hhigh := toNat_high_ofNat_mod (k := 31) hw hle (hi ++ lo).toNat
  rw [toNat_append_mod] at hlow
  rw [toNat_append_div] at hhigh
  constructor
  · rw [State.regRead_low (s := s.writtenCycles (hi ++ lo) ovf) (r := .iohpmcycles) (by decide) rfl hh, himage,
      BitVec.toNat_setWidth_of_le (by decide), BitVec.extractLsb'_append_eq_of_add_le (by decide), hlow]
  · have hupper : FieldAt (bit ovf ++ BitVec.ofNat 63 ((hi ++ lo).toNat % 2 ^ cyclesWidth s.cfg)) 32
        (bit ovf ++ (BitVec.ofNat 63 ((hi ++ lo).toNat % 2 ^ cyclesWidth s.cfg)).extractLsb' 32 31) :=
      fieldAt_append_iff.mpr ⟨BitVec.extractLsb'_append_eq_left, BitVec.extractLsb'_append_eq_of_add_le (by decide)⟩
    have hread : (s.writtenCycles (hi ++ lo) ovf).regRead 100 4 =
        (bit ovf ++ (BitVec.ofNat 63 ((hi ++ lo).toNat % 2 ^ cyclesWidth s.cfg)).extractLsb' 32 31).setWidth 64 :=
      (State.regRead_upper (s := s.writtenCycles (hi ++ lo) ovf) (off := 96) (r := .iohpmcycles) (by decide) rfl rfl rfl
        hh).trans (congrArg _ hupper)
    rw [hread, BitVec.toNat_setWidth_of_le (by decide), toNat_append_low, hhigh, Nat.add_comm]
    cases ovf <;> rfl

end Cycles

end Sys2Proof.Machine

/-! PROOF. How the registers read, what a write of a register stores, and that it is read back (O51). -/

namespace Sys2Proof.Machine

/-- Settles O51: the reads by the layout of each register, the answer of a debug translation by its two forms, and the writes
by the fields of the merged image. -/
theorem registerWritesReadBack : Obligations.RegisterWritesReadBack := by
  unfold Obligations.RegisterWritesReadBack
  refine ⟨fun s => ?reads, fun s v lowFirst hd hb h0 => ?debug, fun s v lowFirst hv => ?index,
    fun s v lowFirst k h1 h16 hk hmin => ?icvec, fun s v lowFirst hq => ?qosid, fun s v lowFirst hd => ?debugRegs,
    fun s v lowFirst n hh hn h32 h64 => ?counter, fun s v lowFirst n hh hn => ?event, fun s v lowFirst hh h32 => ?cycles⟩
  case reads =>
    intro flags flag base index m mode c f p
    have hflag (b : Bool) : bit b = flag b := bit_eq_ite b
    refine ⟨State.regRead_flags s.fctl.flags (by decide) rfl rfl (by decide) rfl, ?ddtp,
      State.regRead_whole (off := 24) (r := .cqb) (by decide) rfl rfl rfl,
      State.regRead_whole (off := 40) (r := .fqb) (by decide) rfl rfl rfl, State.regRead_cqt, State.regRead_fqh,
      State.regRead_narrow (by decide) rfl rfl (by decide) rfl, s.regRead_cqh_mod,
      State.regRead_flags (Cqcsr.flags _) (by decide) rfl rfl (by decide) rfl,
      State.regRead_flags s.fqcsr.flags (by decide) rfl rfl (by decide) rfl,
      State.regRead_flags s.ipsr.flags (by decide) rfl rfl (by decide) rfl,
      State.regRead_whole (off := 760) (r := .icvec) (by decide) rfl rfl rfl, fun ha => ?ats, fun hh => ?hpm,
      fun n hh hn => ?counters, fun hd => ?dbg,
      fun hq => State.regRead_narrow (r := .iommuQosid) (by decide) rfl hq (by decide) rfl, s.regRead_of_absent,
      fun off hoff => s.regRead_halves (hoff.imp_right .inl)⟩
    case ddtp =>
      rw [← hflag]
      exact s.regRead_ddtp
    case ats =>
      obtain ⟨hbase, hhead, htail⟩ := State.regRead_pageRequests ha
      exact ⟨hbase, hhead, htail, State.regRead_flags s.pqcsr.flags (by decide) rfl ha (by decide) rfl⟩
    case hpm =>
      rw [← hflag]
      exact ⟨State.regRead_narrow (by decide) rfl hh (by decide) rfl,
        State.regRead_whole (off := 96) (r := .iohpmcycles) (by decide) rfl rfl (s := s) hh⟩
    case counters =>
      intro e
      simp only [← hflag]
      exact State.regRead_counter (counter_present hh hn)
    case dbg =>
      simp only [← hflag]
      exact State.regRead_debug hd
  case debug =>
    rw [State.regWrite_trReqCtl_low v hd hb, if_pos h0, s.trReqCtl.writtenLow_eq h0]
    intro c w q t r
    obtain ⟨hgo, hlow, htop, hfault, hok⟩ := State.debugTranslate_reads (s := w) (t := t) rfl hd
    refine ⟨hgo, hlow, htop, hfault, fun d u h => ?_⟩
    intro k
    have hr : r = responseOk s.cfg d.c := hok d u h
    rw [hr]
    exact responseOk_reads s.cfg d.c
  case index =>
    refine ⟨?_, ?_, fun ha => ?_⟩
    · rw [State.regWrite_cqt hv, State.regRead_cqt]
      exact ⟨rfl, s.cqb.toNat_setWidth_index _⟩
    · rw [State.regWrite_fqh hv, State.regRead_fqh]
      exact ⟨rfl, s.fqb.toNat_setWidth_index _⟩
    · rw [State.regWrite_pqh ha hv]
      refine ⟨rfl, Eq.trans (congrArg BitVec.toNat ?_) (s.pqb.toNat_setWidth_index _)⟩
      exact State.regRead_narrow (r := .pqh) (by decide) rfl ha (by decide) rfl
  case icvec =>
    intro field i
    have hfield (old w : BitVec 4) : legalVector s.cfg old w = field old w := by
      rw [legalVector, vectorBits_eq h1 h16 hk hmin]
    have hwrite : s.regWrite 760 4 v lowFirst = { s with icvec := i } := by
      rw [State.regWrite_icvec]
      simp only [hfield]
      rfl
    rw [hwrite]
    exact ⟨rfl, State.regRead_icvec_low _⟩
  case qosid =>
    intro rcid mcid
    rw [State.regWrite_qosid hq]
    exact ⟨rfl, State.regRead_qosid hq⟩
  case debugRegs =>
    refine ⟨State.regWrite_debug_of_busy hd, fun hb => ⟨?_, ?_, fun h0 => ?_, ?_⟩⟩
    · rw [State.regWrite_trReqIova_low hd hb]
      refine ⟨rfl, State.regRead_trReqIova_low ?_ rfl⟩
      exact hd
    · rw [State.regWrite_trReqIova_high hd hb]
      refine ⟨rfl, State.regRead_trReqIova_high ?_ rfl⟩
      exact hd
    · rw [State.regWrite_trReqCtl_low v hd hb, if_neg (by rw [h0]; decide), s.trReqCtl.writtenLow_eq (h0.trans hb.symm)]
      refine ⟨rfl, State.regRead_trReqCtl_low ?_ rfl ⟨rfl, rfl, rfl, hb.trans h0.symm⟩⟩
      exact hd
    · rw [State.regWrite_trReqCtl_high v hd hb]
      refine ⟨rfl, State.regRead_trReqCtl_high ?_ rfl (bit_getLsbD v 0)⟩
      exact hd
  case counter =>
    intro off w counter
    have hp := counter_present hh hn
    rw [State.regWrite_iohpmctr_low hp, State.regWrite_iohpmctr_high hp]
    exact ⟨rfl, rfl, (State.regRead_writeIohpmctr hp h32 h64).1, (State.regRead_writeIohpmctr hp h32 h64).2⟩
  case event =>
    intro off old event
    have hp : (Reg.iohpmevt n).present s.cfg = true := counter_present hh hn
    rw [State.regWrite_iohpmevt_low hp, State.regWrite_iohpmevt_high hp]
    exact ⟨⟨rfl, (State.regRead_iohpmevt_low _ hp).trans (congrArg _ (old.image_writtenLow v _))⟩, rfl,
      (State.regRead_iohpmevt_high _ hp).trans (congrArg _ (old.image_writtenHigh v))⟩
  case cycles =>
    intro w old cycles
    rw [State.regWrite_iohpmcycles_low hh, State.regWrite_iohpmcycles_high hh]
    exact ⟨rfl, rfl, (State.regRead_writtenCycles hh h32).1, (State.regRead_writtenCycles hh h32).2⟩

end Sys2Proof.Machine
